-- ==== Sys2Proof/Word.lean ====
section
/-! DEFINITION. The widths the manual uses: bytes, beats, addresses, frame numbers, and the numbers that name
sectors, remotes and masters. -/

namespace Sys2Proof

/-- One byte, on one byte lane of a beat (Section 11). -/
abbrev Byte := BitVec 8
/-- Two bytes: a command's argument, a result's detail. -/
abbrev Half := BitVec 16
/-- Four bytes: the time base, sequence numbers, counts. -/
abbrev Word := BitVec 32
/-- One aligned beat of 8 bytes, byte 0 in bits 0 to 7 (Section 11). -/
abbrev Beat := BitVec 64
/-- A 40-bit byte address (R127). -/
abbrev Addr := BitVec 40
/-- A 24-bit frame number; differences are modulo 2^24 (Overview, convention 6). -/
abbrev Frame := BitVec 24
/-- A set of byte lanes, bit n for lane n. -/
abbrev Lanes := BitVec 8

/-- A sector, 0 to 3. -/
abbrev SectorNo := Fin 4
/-- A remote of a sector, 0 to 127 (R1). -/
abbrev RemoteNo := Fin 128
/-- A fabric master, 0 to 7 (R127). -/
abbrev MasterNo := Fin 8

/-- All lanes of a beat enabled. -/
def allLanes : Lanes := 0xFF

end Sys2Proof
end

