-- ==== Sys2Proof/Syntax.lean ====
section
/-! DEFINITION. The commands of the HL226: one constructor of Instr for each row of spec/opcode_table.json, with the
operands the outside gives (a request of a master, a reply of memory, the straps). -/

namespace Sys2Proof

/-- The direction of a request (R127). -/
inductive Dir where
  | read
  | write
  deriving DecidableEq, Repr

/-- A fabric request as R127 gives it: master, direction, byte address, length in beats, enabled lanes (of a
single-beat request), lock flag, and a write's data, one beat each. -/
structure Request where
  master : MasterNo
  dir : Dir
  addr : Addr
  beats : Nat
  lanes : Lanes
  lock : Bool
  data : List Beat
  deriving DecidableEq, Repr

/-- A single-beat write to the command word (Table 11.6) without its code, which the row gives: who writes, the low
three address bits, the enabled lanes, and the word's other bytes. `spare` is bytes 6 and 7, which are ignored. -/
structure CommandWrite where
  master : MasterNo
  lock : Bool
  low : BitVec 3
  lanes : Lanes
  sector : Byte
  remote : Byte
  tag : Byte
  arg : Half
  spare : Half
  deriving DecidableEq, Repr

/-- A single-beat write to the log tail word or to the marker word (Table 11.7). -/
structure WordWrite where
  master : MasterNo
  lock : Bool
  low : BitVec 3
  lanes : Lanes
  word : Beat
  deriving DecidableEq, Repr

/-- How a fabric row comes about (R127, R129, log 2): its master issues the request now (it joins the tail of the
master's channel, and the channel's head is considered), the same while the memory controller takes no request, or
the request that waits at the head of the named master's channel is considered again. -/
inductive Issue (α : Type) where
  | new (a : α)
  | stalled (a : α)
  | waiting (m : MasterNo)
  deriving DecidableEq, Repr

/-- Memory's response to one request: OKAY or ERROR and, for a read, one beat of data for each beat (R128). -/
structure Reply where
  error : Bool
  data : List Beat
  deriving DecidableEq, Repr

/-- The commands, one for each row of the opcode table. -/
inductive Instr where
  | powerOnReset (straps : Byte)
  | timeBaseAdvance
  | commandTimeout
  | loadConfig (w : Issue CommandWrite)
  | setMode (w : Issue CommandWrite)
  | setTune (w : Issue CommandWrite)
  | hold (w : Issue CommandWrite)
  | release (w : Issue CommandWrite)
  | rearm (w : Issue CommandWrite)
  | forceFade (w : Issue CommandWrite)
  | suspend (w : Issue CommandWrite)
  | resume (w : Issue CommandWrite)
  | resetSector (w : Issue CommandWrite)
  | relocate (w : Issue CommandWrite)
  | ackNotice (w : Issue CommandWrite)
  | cancel (w : Issue CommandWrite)
  | logTailWord (w : Issue WordWrite)
  | markerWord (w : Issue WordWrite)
  | absorbedWrite (q : Issue Request)
  | passThroughRequest (q : Issue Request)
  | descriptorWrite (q : Issue Request)
  | reportWrite (q : Issue Request)
  | mapRead (q : Issue Request)
  | mapReadResponse (m : MasterNo) (reply : Reply)
  | refusedRequest (q : Issue Request)
  | memoryResponse (m : MasterNo) (reply : Reply)
  | outboundWriteFormed
  | outboundWriteGrant
  | outboundWriteCompletion (error : Bool)
  | partReadGrant
  | configReadResponse (reply : Reply)
  | loadDescriptorReadResponse (reply : Reply)
  | stagingReadResponse (reply : Reply)
  | relocationDescriptorReadResponse (reply : Reply)
  | resultHandoff
  | backoffExpiry (k : SectorNo) (r : RemoteNo)
  | holdDownExpiry (k : SectorNo)
  | settleExpiry (k : SectorNo)
  | codeNamingNoCommand (code : Byte) (w : Issue CommandWrite)
  deriving DecidableEq, Repr

end Sys2Proof
end

