-- ==== Sys2Proof/Config.lean ====
section
/-! DEFINITION. What the manual fixes for every part (capacities and marks), and the configuration a LOAD_CONFIG
sets: the parameters and tunables of Table 9.4 with the defaults in force after power-on reset. The manual calls no
value undefined, so no free value stands here. -/

namespace Sys2Proof

/-- The record queue holds at most 64 records (R172). -/
def Config.recordQueueSize : Nat := 64
/-- The outbound buffer has six places (R174). -/
def Config.outboundPlaces : Nat := 6
/-- The window table has 16 places (R133). -/
def Config.windowPlaces : Nat := 16
/-- The report hold-off turns on at this fill level (R102). -/
def Config.highMark : Nat := 48
/-- The report hold-off turns off at this fill level (R102). -/
def Config.lowMark : Nat := 32
/-- The largest gap of a normal epoch (R77). -/
def Config.maxGap : Nat := 64
/-- The stamp counters of an empty queue (R54). -/
def Config.firstHeadStamp : Nat := 32767
/-- The stamp counters of an empty queue (R54). -/
def Config.firstTailStamp : Nat := 32768

/-- Sector modes (R145). -/
inductive Mode where
  | pass
  | shadow
  | active
  deriving DecidableEq, Repr

/-- The role of a master number (R136). -/
inductive Role where
  | controller
  | builder (k : SectorNo)
  | receiver (k : SectorNo)
  | other
  deriving DecidableEq, Repr

/-- The eight sector tunables, the items 0Fh to 16h of Table 9.4 (R71, R91, R126). -/
structure Tunables where
  floor : Nat
  cap : Nat
  budget : Nat
  mask : BitVec 6
  reclaim : Bool
  threshold : Nat
  holdDown : Nat
  settle : Nat
  deriving DecidableEq, Repr

/-- The defaults of Table 9.4. -/
def Tunables.default : Tunables :=
  { floor := 0, cap := 32, budget := 2, mask := 0x3F, reclaim := true, threshold := 3, holdDown := 500, settle := 50 }

/-- The staged values of the tunables, each absent or present (R71). -/
structure Staged where
  floor : Option Nat
  cap : Option Nat
  budget : Option Nat
  mask : Option (BitVec 6)
  reclaim : Option Bool
  threshold : Option Nat
  holdDown : Option Nat
  settle : Option Nat
  deriving DecidableEq, Repr

/-- No value staged (R72). -/
def Staged.none : Staged :=
  { floor := .none, cap := .none, budget := .none, mask := .none, reclaim := .none, threshold := .none,
    holdDown := .none, settle := .none }

/-- The sector parameters that only LOAD_CONFIG changes (Section 2, Note 2 of Table 2.1; items 05h to 0Eh). Margins
are in quarter-decibels. -/
structure Params where
  latency : Nat
  fadeCount : Nat
  attemptsLimit : Nat
  backoffBase : Nat
  rangingLimit : Nat
  climbHold : Nat
  acceptMargin : Int
  timingTolerance : Nat
  powerTolerance : Nat
  restart : Nat
  deriving DecidableEq, Repr

/-- The defaults of Table 9.4. -/
def Params.default : Params :=
  { latency := 2, fadeCount := 4, attemptsLimit := 6, backoffBase := 4, rangingLimit := 8, climbHold := 8,
    acceptMargin := 12, timingTolerance := 8, powerTolerance := 4, restart := 0 }

/-- One row of the profile table, in quarter-decibels. -/
structure Margins where
  enter : Int
  exit : Int
  deriving DecidableEq, Repr

/-- What the configuration store holds for one sector. -/
structure SectorConfig where
  configured : Bool
  params : Params
  deriving DecidableEq, Repr

/-- The configuration store (R171). The profile table is empty while it holds no valid profile. -/
structure Store where
  commandTimeout : Nat
  profiles : List Margins
  sectors : Vector SectorConfig 4
  deriving DecidableEq, Repr

/-- The store after power-on reset: the defaults of Table 9.4, no sector configured, no valid profile (R171). -/
def Store.reset : Store :=
  { commandTimeout := 20, profiles := [],
    sectors := Vector.replicate 4 { configured := false, params := Params.default } }

end Sys2Proof
end

