-- ==== Sys2Proof/Machine/State.lean ====
section
/-! DEFINITION. The state of the HL226 as plain data: every block of Figure 0.2 with what it holds, the two ways a
step can stop, and the state after power-on reset. -/

namespace Sys2Proof.Machine

/-! ### Remote entries (Section 1) -/

/-- The nine restoration states (Section 2). -/
inductive RState where
  | idle
  | serving
  | faded
  | queued
  | probing
  | ranging
  | climbing
  | held
  | excluded
  deriving DecidableEq, Repr

/-- A remote entry (Table 1.1). `cls` is the class, `order` the entry order stamp; margins are in
quarter-decibels. -/
structure Entry where
  admin : Bool
  ceiling : Nat
  cls : Nat
  group : Option Nat
  deferred : Option Bool
  state : RState
  profile : Nat
  misses : Nat
  attempts : Nat
  backoff : Nat
  exchanges : Nat
  garbles : Nat
  solo : Bool
  good : Nat
  order : Nat
  fadedAt : Option Frame
  lastMargin : Option Int
  deriving DecidableEq, Repr

/-- Table 1.2. -/
def Entry.reset : Entry :=
  { admin := false, ceiling := 0, cls := 0, group := none, deferred := none, state := .idle, profile := 0,
    misses := 0, attempts := 0, backoff := 0, exchanges := 0, garbles := 0, solo := false, good := 0, order := 0,
    fadedAt := none, lastMargin := none }

/-! ### Expectations, decisions and frame plans (R84, R85) -/

/-- The kind of an expectation, fixed when it is opened; a probe carries its slot mark and its roster mark. -/
inductive WatchKind where
  | fadeWatch
  | climbWatch
  | probe (solo scout : Bool)
  | range
  deriving DecidableEq, Repr

/-- The condition of an expectation; resolved and void are final (R85). -/
inductive Condition where
  | open
  | resolved
  | void
  deriving DecidableEq, Repr

/-- An expectation. Its slot and minislot are its place in the plan. -/
structure Expectation where
  remote : RemoteNo
  kind : WatchKind
  condition : Condition
  deriving DecidableEq, Repr

/-- A decision (R84): raw (with the watch it may open), IDLE, DATA_UP, DATA_DOWN, RANGE, or PROBE with its solo mark
and its six minislots. -/
inductive Decision where
  | raw (watch : Option Expectation)
  | idle
  | dataUp (watch : Expectation)
  | dataDown (r : RemoteNo)
  | range (watch : Expectation)
  | probe (solo : Bool) (minislots : List (Option Expectation))
  deriving DecidableEq, Repr

/-- A decided slot: the decision and, for a sector that was ACTIVE and not suspended, the record returned. -/
structure Decided where
  decision : Decision
  record : Option Beat
  deriving DecidableEq, Repr

/-- A frame plan: its frame number and, for each slot below its slot count, undecided or decided (R84). Its buffer
number is its frame number modulo 2 (R83). -/
structure Plan where
  frame : Frame
  slots : List (Option Decided)
  deriving DecidableEq, Repr

/-! ### Roster, ranging order, episode, pack buffer -/

/-- A roster member with its three marks (R61). -/
structure Member where
  remote : RemoteNo
  solo : Bool
  scout : Bool
  placed : Bool
  deriving DecidableEq, Repr

/-- The probe roster (R61). -/
structure Roster where
  members : List Member
  mask : BitVec 6
  budget : Nat
  used : Nat
  deriving DecidableEq, Repr

/-- The roster after power-on reset, and after the events that empty it (R61, R70). -/
def Roster.empty : Roster := { members := [], mask := 0, budget := 0, used := 0 }

/-- A member of the ranging order with its silent mark (R34). -/
structure Ranger where
  remote : RemoteNo
  silent : Bool
  deriving DecidableEq, Repr

/-- Episode states (R114). -/
inductive EpisodeState where
  | clear
  | fading
  | recovering
  | settling
  deriving DecidableEq, Repr

/-- What first moved an episode to RECOVERING (R121). -/
inductive RecoveringCause where
  | scoutHeard
  | holdDown
  | shadowHeard
  deriving DecidableEq, Repr

/-- The episode record (R121). -/
structure EpisodeRecord where
  number : BitVec 16
  opening : Frame
  peak : Nat
  faded : Nat
  excluded : Nat
  recovering : Option RecoveringCause
  refades : Nat
  closing : Option Frame
  deriving DecidableEq, Repr

/-- The episode of a sector (R114). -/
structure Episode where
  state : EpisodeState
  holdDown : Nat
  settle : Nat
  record : EpisodeRecord
  deriving DecidableEq, Repr

/-- The episode after power-on reset (R114, R121). -/
def Episode.reset : Episode :=
  { state := .clear, holdDown := 0, settle := 0,
    record := { number := 0, opening := 0, peak := 0, faded := 0, excluded := 0, recovering := none, refades := 0,
                closing := none } }

/-- A holding pack buffer (R98): the record address, the base of the REPORT window it was written through (log 18), and the
bytes of the quarters received, 1 to 3 of them. -/
structure Pack where
  addr : Addr
  winBase : Addr
  quarters : List (BitVec 16)
  deriving DecidableEq, Repr

/-- The eight report counts (R110). -/
structure ReportCounts where
  matched : Word
  stray : Word
  duplicate : Word
  mismatch : Word
  torn : Word
  unwatched : Word
  void : Word
  suspendedIgnored : Word
  deriving DecidableEq, Repr

/-- Every report count 0. -/
def ReportCounts.zero : ReportCounts :=
  { matched := 0, stray := 0, duplicate := 0, mismatch := 0, torn := 0, unwatched := 0, void := 0,
    suspendedIgnored := 0 }

/-! ### Windows (Section 7) -/

/-- Window kinds (R133). -/
inductive WindowKind where
  | anchor
  | descriptor
  | map
  | report
  | log
  | guard
  deriving DecidableEq, Repr

/-- The relocation mark of a MAP window (R133). -/
inductive RelocMark where
  | none
  | old
  | new
  deriving DecidableEq, Repr

/-- A window: kind, base, size as an exponent of two, sector where it has one, relocation mark (R133). -/
structure Window where
  kind : WindowKind
  base : Addr
  sizeExp : Nat
  sector : Option SectorNo
  mark : RelocMark
  deriving DecidableEq, Repr

/-- The ANCHOR window at an anchor base: 4 KiB (R133). -/
def Window.anchorAt (base : Addr) : Window :=
  { kind := .anchor, base := base, sizeExp := 12, sector := none, mark := .none }

/-- The relocation kinds (Table 11.1). -/
inductive RelocKind where
  | map
  | report
  | descriptor
  deriving DecidableEq, Repr

/-- The pending operation of an engine (R145, R153): a mode change, or a relocation with its new base and size.
`switched` is set once a DESCRIPTOR relocation has moved the window and only its read phase remains (R155). -/
inductive PendingOp where
  | modeChange (target : Mode)
  | relocation (kind : RelocKind) (base : Addr) (sizeExp : Nat) (switched : Bool)
  deriving DecidableEq, Repr

/-! ### A Sector Restoration Engine -/

/-- What one Sector Restoration Engine and its pack buffer hold (Figure 0.2). The readmission queue, the tallies and
the restoring count are those of the entries as they stand (R6, R51, R52) and are computed from them. -/
structure Sector where
  entries : Vector Entry 128
  nextHead : Nat
  nextTail : Nat
  roster : Roster
  frame : Frame
  resyncPending : Bool
  history : List Plan
  rangingOrder : List Ranger
  waitList : List RemoteNo
  mode : Mode
  suspended : Bool
  pendingOp : Option PendingOp
  tunables : Tunables
  staged : Staged
  episode : Episode
  pack : Option Pack
  framesSeen : Word
  counts : ReportCounts
  deriving DecidableEq, Repr

/-- A sector after power-on reset. -/
def Sector.reset : Sector :=
  { entries := Vector.replicate 128 Entry.reset, nextHead := Config.firstHeadStamp, nextTail := Config.firstTailStamp,
    roster := Roster.empty, frame := 0, resyncPending := true, history := [], rangingOrder := [], waitList := [],
    mode := .pass, suspended := false, pendingOp := none, tunables := Tunables.default, staged := Staged.none,
    episode := Episode.reset, pack := none, framesSeen := 0, counts := ReportCounts.zero }

/-! ### Ports (Section 7) -/

/-- A response: OKAY or ERROR and a read's data (R128). -/
structure Response where
  error : Bool
  data : List Beat
  deriving DecidableEq, Repr

/-- A map read on its way: the engine that takes its beats, its first beat's address, and the base of the MAP window
it was accepted through (R73, R135). -/
structure Patch where
  sector : SectorNo
  addr : Addr
  winBase : Addr
  deriving DecidableEq, Repr

/-- A response owed to a master, in the master's order (R128): awaited from memory with that many beats of read
data, or formed by the part and held for the ones before it. -/
inductive Owed where
  | awaiting (beats : Nat) (patch : Option Patch)
  | formed (r : Response)
  deriving DecidableEq, Repr

/-- What a read of the Command Channel is for (R131): beat block i of the configuration area, a descriptor of a load,
the staging entry of a sector and kind, a descriptor of a relocation. -/
inductive ReadTarget where
  | config (i : Nat)
  | loadDescriptor (k : SectorNo) (r : RemoteNo)
  | staging (k : SectorNo) (kind : RelocKind)
  | relocDescriptor (k : SectorNo) (r : RemoteNo)
  deriving DecidableEq, Repr

/-- A request of master number 8 issued to memory and not answered (R129). `discard` marks a read whose operation a
CANCEL has abandoned (R162). -/
inductive PartRequest where
  | read (target : ReadTarget) (discard : Bool)
  | write
  deriving DecidableEq, Repr

/-- A request as it leaves at the memory port (R129): its master number (8 for the part's own), and the direction, byte
address with its low three bits, length, lanes, lock flag and write data that memory sees. -/
structure MemoryRequest where
  master : Fin 9
  dir : Dir
  addr : Addr
  beats : Nat
  lanes : Lanes
  lock : Bool
  data : List Beat
  deriving DecidableEq, Repr

/-- The two ports: channels, response order, open locked sequences in order of opening, the arbiter's memory, the
part's own outstanding requests; `returned` and `issued` are the model's records of the responses returned to masters
(log 5) and of the requests issued to memory so far, in order (log 33). -/
structure Ports where
  channels : Vector (List Request) 8
  owed : Vector (List Owed) 8
  returned : List (MasterNo × Response)
  issued : List MemoryRequest
  locks : List MasterNo
  lastMaster : MasterNo
  lastOutbound : Bool
  outstanding : List PartRequest
  deriving DecidableEq, Repr

/-- The ports after power-on reset (R131, R144). -/
def Ports.reset : Ports :=
  { channels := Vector.replicate 8 [], owed := Vector.replicate 8 [], returned := [], issued := [], locks := [],
    lastMaster := 7, lastOutbound := false, outstanding := [] }

/-! ### Command Channel (Section 9) -/

/-- A command word as taken (R160). -/
structure Command where
  code : Byte
  sector : Byte
  remote : Byte
  tag : Byte
  arg : Half
  deriving DecidableEq, Repr

/-- Result codes (Table 9.3). -/
inductive ResultCode where
  | done
  | busy
  | invalid
  | state
  | timeout
  | cancelled
  | nothing
  | memoryError
  deriving DecidableEq, Repr

/-- A decided result (R161). `code`, `sector` and `remote` are those its COMMAND record carries (R175); `closes` says
that it is the result of the command in flight. -/
structure Result where
  tag : Byte
  result : ResultCode
  detail : Half
  code : Byte
  sector : Option SectorNo
  remote : Option Byte
  closes : Bool
  deriving DecidableEq, Repr

/-- What a validated configuration gives one configured sector (Table 9.4). -/
structure SectorSetup where
  descBase : Addr
  mapBase : Addr
  reportExp : Nat
  reportBase : Addr
  params : Params
  tunables : Tunables
  deriving DecidableEq, Repr

/-- A configuration as read from the configuration area (Tables 9.4 and 11.8). -/
structure Setup where
  commandTimeout : Nat
  floor : Nat
  classes : Vector Nat 8
  log : Option (Nat × Addr)
  guard0 : Option (Nat × Addr)
  guard1 : Option (Nat × Addr)
  profiles : List Margins
  roles : Vector Role 8
  sectors : Vector (Option SectorSetup) 4
  deriving DecidableEq, Repr

/-- A staged entry of a load (R16, R17) with, for each lane, the last value taken for it where that was refused. -/
structure StagedEntry where
  entry : Entry
  badCeiling : Option Byte
  badClass : Option Byte
  badGroup : Option Byte
  deriving DecidableEq, Repr

/-- A descriptor beat with its enabled lanes, accepted after the part's read of that descriptor was issued and before
it returned (log 19). -/
structure LateWrite where
  lanes : Lanes
  beat : Beat
  deriving DecidableEq, Repr

/-- Where the command in flight stands. `decided`: its result is decided and not yet formed. -/
inductive Phase where
  | decided
  | readingConfig (area : List Beat)
  | readingDescriptors (setup : Setup) (staged : Vector (Vector StagedEntry 128) 4) (k : SectorNo) (r : RemoteNo)
      (late : List LateWrite)
  | modePending (deadline : Word) (expired : Bool)
  | readingStaging
  | relocationPending (deadline : Word) (expired : Bool)
  | relocationReading (r : RemoteNo) (changed : Nat) (failed : Option RemoteNo) (late : List LateWrite)
      (cancel : Option Command)
  deriving DecidableEq, Repr

/-- The command in flight (R160, R161). -/
structure InFlight where
  cmd : Command
  phase : Phase
  deriving DecidableEq, Repr

/-- The Command Channel: anchor base, command in flight, decided results not yet handed (oldest first), its waiting
read. -/
structure Channel where
  anchorBase : Addr
  inFlight : Option InFlight
  held : List Result
  read : Option ReadTarget
  deriving DecidableEq, Repr

/-- The Command Channel after power-on reset (R171). -/
def Channel.reset (anchorBase : Addr) : Channel :=
  { anchorBase := anchorBase, inFlight := none, held := [], read := none }

/-! ### Log records, outbound writes and notices (Section 10) -/

/-- Causes of STATE records (Table 2.3). -/
inductive StateCause where
  | fade
  | forceFade
  | backoff
  | promoted
  | placed
  | probeHeard
  | probeWeak
  | probeCrc
  | probeSilent
  | probeTimeout
  | probeGarbled
  | rangeDone
  | rangeSilent
  | rangeLimit
  | climbUp
  | climbDown
  | shadowHeard
  | hold
  | release
  | rearm
  | adminOff
  | adminOn
  | ceiling
  | config
  | resync
  | resume
  | mode
  | reset
  deriving DecidableEq, Repr

/-- Causes of EPISODE records (R122). -/
inductive EpisodeCause where
  | threshold
  | scoutHeard
  | holdDown
  | shadowHeard
  | drained
  | refade
  | settled
  | emptied
  | mode
  | reset
  deriving DecidableEq, Repr

/-- Causes of REPORT_FAULT records (R109). -/
inductive ReportFault where
  | torn
  | width
  | form
  | stray
  | duplicate
  | mismatch
  deriving DecidableEq, Repr

/-- Causes of ACCESS records (R139). -/
inductive AccessCause where
  | role
  | split
  | lock
  deriving DecidableEq, Repr

/-- Causes of FRAME records (R76). -/
inductive FrameCause where
  | header
  | parity
  | gap
  | resync
  deriving DecidableEq, Repr

/-- Causes of DESCRIPTOR records (R9). -/
inductive DescriptorCause where
  | ceilingInvalid
  | classInvalid
  | groupInvalid
  deriving DecidableEq, Repr

/-- Causes of TAIL records (R164). -/
inductive TailCause where
  | partialWord
  | noLog
  | range
  | order
  deriving DecidableEq, Repr

/-- Causes of MEMORY records (R179). -/
inductive MemoryCause where
  | result
  | counter
  | mirror
  deriving DecidableEq, Repr

/-- What a log record of each kind carries beside time, sector and frame number (R173, Table 11.11). -/
inductive RecordBody where
  | state (cause : StateCause) (remote : RemoteNo) (fromState toState : RState) (profile attempts : Nat) (detail : Word)
  | episode (cause : EpisodeCause) (fromState toState : EpisodeState) (n : Nat) (record : EpisodeRecord)
  | reportFault (cause : ReportFault) (remote : Option RemoteNo) (detail : Word)
  | access (cause : AccessCause) (master : MasterNo) (role : Role) (dir : Dir) (window : Option WindowKind)
      (detail : Word)
  | frame (cause : FrameCause) (detail : Word)
  | descriptor (cause : DescriptorCause) (remote : RemoteNo) (detail : Word)
  | marker (lanes : Lanes) (word : Beat)
  | command (result : ResultCode) (code : Byte) (remote : Option Byte) (tag : Byte) (detail : Half)
  | tail (cause : TailCause) (detail : Word)
  | memory (cause : MemoryCause) (detail : Word)
  | overflow (skips : Word)
  deriving DecidableEq, Repr

/-- A log record before its write is formed: the sequence number is set then (R173, R176). -/
structure LogRecord where
  time : Word
  sector : Option SectorNo
  frame : Option Frame
  body : RecordBody
  deriving DecidableEq, Repr

/-- Where an outbound write comes from (Figure 10.1). -/
inductive WriteSource where
  | result
  | log
  | device
  | counter (k : SectorNo)
  | mirror (g : Fin 128)
  deriving DecidableEq, Repr

/-- A write in the outbound buffer: ready, or issued and awaiting its response (R174). -/
structure OutWrite where
  source : WriteSource
  addr : Addr
  data : List Beat
  issued : Bool
  deriving DecidableEq, Repr

/-- The log geometry: base and size exponent k; the ring holds 2^k records (R176). -/
structure LogGeometry where
  base : Addr
  k : Nat
  deriving DecidableEq, Repr

/-- The Outbound Writer (Section 10). The buffer stands oldest first. -/
structure Writer where
  pendingResult : Option Result
  queue : List LogRecord
  deviceDirty : Bool
  counterDirty : Vector Bool 4
  mirrorDirty : Vector Bool 128
  lastGroup : Fin 128
  buffer : List OutWrite
  log : Option LogGeometry
  head : Nat
  tail : Nat
  seq : Word
  skips : Word
  faults : Word
  deriving DecidableEq, Repr

/-- The Outbound Writer after power-on reset (R172, R174, R177, R179 to R181). -/
def Writer.reset : Writer :=
  { pendingResult := none, queue := [], deviceDirty := false, counterDirty := Vector.replicate 4 false,
    mirrorDirty := Vector.replicate 128 false, lastGroup := 127, buffer := [], log := none, head := 0, tail := 0,
    seq := 0, skips := 0, faults := 0 }

/-- The Notice Unit: the pending set (bit per kind, Table 11.1), the class of each kind, the floor (R182, R183). -/
structure Notices where
  pending : BitVec 8
  classes : Vector Nat 8
  floor : Nat
  deriving DecidableEq, Repr

/-- The Notice Unit after power-on reset (R182, R183). -/
def Notices.reset : Notices := { pending := 0, classes := Vector.replicate 8 3, floor := 0 }

/-! ### The machine -/

/-- The state of the part: the queue of commands that wait, and every block. -/
structure State where
  pending : List Instr
  time : Word
  ports : Ports
  windows : List Window
  roles : Vector Role 8
  store : Store
  sectors : Vector Sector 4
  holdOff : Bool
  channel : Channel
  writer : Writer
  notices : Notices
  deriving DecidableEq, Repr

/-- Why a step stops. Both are safe: the model stops where the outside has done what the spec says it never does. -/
inductive Fault where
  /-- A fabric request of a form R127 does not allow; raised when such a request is issued. Safe. -/
  | malformedRequest
  /-- A response that no outstanding request awaits, or whose beats do not fit the request it answers: R128 and R129
  say memory sends none. Raised by the response commands. Safe. -/
  | responseNotOwed
  deriving DecidableEq, Repr

/-- Why a command has no meaning. -/
inductive Refusal where
  /-- The command's arm has no meaning yet; raised by its arm in Dispatch. Safe. -/
  | notModelled (mnemonic : String)
  deriving DecidableEq, Repr

/-- The anchor base that a strap value gives: strap value × 64 KiB (R158). -/
def anchorBaseOf (straps : Byte) : Addr := straps.setWidth 40 <<< 16

/-- The part right after power-on reset with the given strap value (R2, R133, R144, R171, R177). -/
def State.resetWith (straps : Byte) : State :=
  { pending := [], time := 0, ports := Ports.reset, windows := [Window.anchorAt (anchorBaseOf straps)],
    roles := Vector.replicate 8 .controller, store := Store.reset, sectors := Vector.replicate 4 Sector.reset,
    holdOff := false, channel := Channel.reset (anchorBaseOf straps), writer := Writer.reset,
    notices := Notices.reset }

/-- The machine right after reset. The strap value is the board's; the model takes 0 here (DESIGN CHOICE, log 6);
POWER_ON_RESET carries the sampled one. -/
def State.reset : State := State.resetWith 0

end Sys2Proof.Machine
end

