-- ==== Sys2Proof/Machine/Flags.lean ====
section
/-! DEFINITION. The part's flags and the marks that other blocks set: notice kinds and the NOTICE output, the counter and
mirror dirty sets, the report hold-off. -/

namespace Sys2Proof.Machine

/-- Notice kinds, with the bit of each (R182, Table 11.1). -/
inductive NoticeKind where
  | episode
  | excluded
  | logSkip
  | access
  | reportFault
  | frameFault
  | command
  | memoryFault
  deriving DecidableEq, Repr

def NoticeKind.bit : NoticeKind → Fin 8
  | .episode => 0
  | .excluded => 1
  | .logSkip => 2
  | .access => 3
  | .reportFault => 4
  | .frameFault => 5
  | .command => 6
  | .memoryFault => 7

/-- The NOTICE output: asserted while a pending kind has a class at or above the floor (R183). -/
def Notices.asserted (n : Notices) : Bool :=
  (List.finRange 8).any fun i => n.pending.getLsbD i.val && decide (n.floor ≤ n.classes[i])

/-- The NOTICE output of the part. -/
def State.notice (s : State) : Bool := s.notices.asserted

/-- Mark the device status block in the counter dirty set (R180). -/
def markDevice (s : State) : State := { s with writer := { s.writer with deviceDirty := true } }

/-- Mark a sector counter block in the counter dirty set (R181). -/
def markCounter (k : SectorNo) (s : State) : State :=
  { s with writer := { s.writer with counterDirty := s.writer.counterDirty.set k.val true k.isLt } }

/-- The mirror group of a remote: 32s + r div 4 (R7). -/
def mirrorGroup (k : SectorNo) (r : RemoteNo) : Fin 128 :=
  ⟨32 * k.val + r.val / 4, by have := k.isLt; have := r.isLt; omega⟩

/-- Mark a mirror group in the mirror dirty set (R7). -/
def markGroup (g : Fin 128) (s : State) : State :=
  { s with writer := { s.writer with mirrorDirty := s.writer.mirrorDirty.set g.val true g.isLt } }

/-- Mark a remote's mirror group (R7). -/
def markMirror (k : SectorNo) (r : RemoteNo) (s : State) : State := markGroup (mirrorGroup k r) s

/-- Replace the pending notice set; a change marks the device status block (R182). -/
def setPendingNotices (p : BitVec 8) (s : State) : State :=
  if p = s.notices.pending then s else markDevice { s with notices := { s.notices with pending := p } }

/-- Raise a notice kind: its flag is set, and a set flag stays set (R182). -/
def raiseNotice (kind : NoticeKind) (s : State) : State :=
  setPendingNotices (s.notices.pending ||| ((1 : BitVec 8) <<< kind.bit.val)) s

/-- The hold-off state after a change of the record queue's fill level (R102). -/
def holdOffAfter (level : Nat) (on : Bool) : Bool :=
  if on then !decide (level ≤ Config.lowMark) else decide (Config.highMark ≤ level)

/-- Replace the record queue; the hold-off follows the fill level (R102, R172). -/
def setQueue (q : List LogRecord) (s : State) : State :=
  { s with writer := { s.writer with queue := q }, holdOff := holdOffAfter q.length s.holdOff }

end Sys2Proof.Machine
end

