-- ==== Sys2Proof/Machine/Operands.lean ====
section
/-! DEFINITION. The record formats of Section 11: the fields the part reads from what the host and the modem engines
write, and the bytes of everything the part writes. -/

namespace Sys2Proof.Machine

/-! ### Bit fields and byte order (Section 11: bit 0 is the least significant bit of the lowest-addressed byte) -/

/-- Byte n of a beat, on lane n. -/
def beatByte (b : Beat) (n : Nat) : Byte := b.extractLsb' (8 * n) 8

/-- The unsigned field of `len` bits from bit `lo`. -/
def field (b : Beat) (lo len : Nat) : Nat := (b.extractLsb' lo len).toNat

/-- The two's-complement field of `len` bits from bit `lo`. -/
def signedField (b : Beat) (lo len : Nat) : Int := (b.extractLsb' lo len).toInt

/-- Bit `n` of a beat. -/
def flag (b : Beat) (n : Nat) : Bool := b.getLsbD n

/-- A number as `n` bytes, least significant byte first. -/
def leBytes : Nat → Nat → List Byte
  | 0, _ => []
  | n + 1, v => BitVec.ofNat 8 v :: leBytes n (v / 256)

/-- The number that bytes spell, least significant byte first. -/
def ofLeBytes : List Byte → Nat
  | [] => 0
  | b :: bs => b.toNat + 256 * ofLeBytes bs

/-- Eight bytes as a beat; missing bytes are 0. -/
def beatOfBytes (bs : List Byte) : Beat := BitVec.ofNat 64 (ofLeBytes (bs.take 8))

/-- Bytes as beats, eight at a time. -/
def beatsOfBytes : Nat → List Byte → List Beat
  | 0, _ => []
  | n + 1, bs => beatOfBytes bs :: beatsOfBytes n (bs.drop 8)

/-- A beat with the bytes of the lanes that are not enabled taken as 0 (R164, R165). -/
def maskLanes (lanes : Lanes) (b : Beat) : Beat :=
  beatOfBytes ((List.range 8).map fun n => if lanes.getLsbD n then beatByte b n else 0)

/-- Whether all the lanes named are enabled. -/
def laneOn (lanes : Lanes) (n : Nat) : Bool := lanes.getLsbD n

/-! ### Codes of Table 11.1 -/

def RState.code : RState → Nat
  | .idle => 0
  | .serving => 1
  | .faded => 2
  | .queued => 3
  | .probing => 4
  | .ranging => 5
  | .climbing => 6
  | .held => 7
  | .excluded => 8

/-- The restoration states in the order of their codes. -/
def RState.all : List RState :=
  [.idle, .serving, .faded, .queued, .probing, .ranging, .climbing, .held, .excluded]

def modeCode : Mode → Nat
  | .pass => 0
  | .shadow => 1
  | .active => 2

/-- The mode a code names, if any (R146). -/
def modeOfCode : Nat → Option Mode
  | 0 => some .pass
  | 1 => some .shadow
  | 2 => some .active
  | _ => none

def EpisodeState.code : EpisodeState → Nat
  | .clear => 0
  | .fading => 1
  | .recovering => 2
  | .settling => 3

def WindowKind.code : WindowKind → Nat
  | .anchor => 1
  | .descriptor => 2
  | .map => 3
  | .report => 4
  | .log => 5
  | .guard => 6

/-- The relocation kind a code names, if any (R153). -/
def relocKindOfCode : Nat → Option RelocKind
  | 0 => some .map
  | 1 => some .report
  | 2 => some .descriptor
  | _ => none

def RelocKind.code : RelocKind → Nat
  | .map => 0
  | .report => 1
  | .descriptor => 2

def ResultCode.code : ResultCode → Nat
  | .done => 1
  | .busy => 2
  | .invalid => 3
  | .state => 4
  | .timeout => 5
  | .cancelled => 6
  | .nothing => 7
  | .memoryError => 8

/-- A role byte (Table 11.7): code in bits 0 to 2, sector in bits 4 and 5. Bits 3, 6 and 7, and the sector bits of CONTROLLER and
OTHER, are written 0 (model's choice, log 38). -/
def roleByte : Role → Nat
  | .controller => 0
  | .builder k => 1 + 16 * k.val
  | .receiver k => 2 + 16 * k.val
  | .other => 3

/-- The role a role byte names, if any; bits 3, 6 and 7 are ignored (Table 11.7). -/
def roleOfByte (b : Byte) : Option Role :=
  let k : SectorNo := ⟨(b.extractLsb' 4 2).toNat, (b.extractLsb' 4 2).isLt⟩
  match (b.extractLsb' 0 3).toNat with
  | 0 => some .controller
  | 1 => some (.builder k)
  | 2 => some (.receiver k)
  | 3 => some .other
  | _ => none

/-! ### Table 11.2: cause codes -/

def StateCause.code : StateCause → Nat
  | .fade => 0x01
  | .forceFade => 0x02
  | .backoff => 0x03
  | .promoted => 0x04
  | .placed => 0x05
  | .probeHeard => 0x06
  | .probeWeak => 0x07
  | .probeCrc => 0x08
  | .probeSilent => 0x09
  | .probeTimeout => 0x0A
  | .probeGarbled => 0x0B
  | .rangeDone => 0x0C
  | .rangeSilent => 0x0D
  | .rangeLimit => 0x0E
  | .climbUp => 0x0F
  | .climbDown => 0x10
  | .shadowHeard => 0x11
  | .hold => 0x12
  | .release => 0x13
  | .rearm => 0x14
  | .adminOff => 0x15
  | .adminOn => 0x16
  | .ceiling => 0x17
  | .config => 0x18
  | .resync => 0x19
  | .resume => 0x1A
  | .mode => 0x1B
  | .reset => 0x1C

def EpisodeCause.code : EpisodeCause → Nat
  | .threshold => 1
  | .scoutHeard => 2
  | .holdDown => 3
  | .shadowHeard => 4
  | .drained => 5
  | .refade => 6
  | .settled => 7
  | .emptied => 8
  | .mode => 9
  | .reset => 10

def ReportFault.code : ReportFault → Nat
  | .torn => 1
  | .width => 2
  | .form => 3
  | .stray => 4
  | .duplicate => 5
  | .mismatch => 6

def AccessCause.code : AccessCause → Nat
  | .role => 1
  | .split => 2
  | .lock => 3

def FrameCause.code : FrameCause → Nat
  | .header => 1
  | .parity => 2
  | .gap => 3
  | .resync => 4

def DescriptorCause.code : DescriptorCause → Nat
  | .ceilingInvalid => 1
  | .classInvalid => 2
  | .groupInvalid => 3

def TailCause.code : TailCause → Nat
  | .partialWord => 1
  | .noLog => 2
  | .range => 3
  | .order => 4

def MemoryCause.code : MemoryCause → Nat
  | .result => 1
  | .counter => 2
  | .mirror => 3

/-! ### What the part reads -/

/-- A map header (Table 11.3). -/
structure Header where
  frame : Frame
  count : Nat
  valid : Bool
  deriving DecidableEq, Repr

def headerOf (b : Beat) : Header :=
  { frame := b.extractLsb' 0 24, count := field b 24 7, valid := flag b 31 }

/-- The raw kinds as R87 takes them: PROBE and RANGE are taken as RESTORE, a code of no kind as `other`. -/
inductive RawKind where
  | idle
  | dataUp
  | dataDown
  | restore
  | other
  deriving DecidableEq, Repr

/-- A raw map record's kind, profile and remote (Table 11.4, R87). -/
structure RawRecord where
  kind : RawKind
  profile : Nat
  remote : RemoteNo
  deriving DecidableEq, Repr

def rawKindOf : Nat → RawKind
  | 0 => .idle
  | 1 => .dataUp
  | 2 => .dataDown
  | 3 => .restore
  | 4 => .restore
  | 5 => .restore
  | _ => .other

def rawRecordOf (b : Beat) : RawRecord :=
  { kind := rawKindOf (field b 0 4), profile := field b 4 4,
    remote := ⟨(b.extractLsb' 8 7).toNat, (b.extractLsb' 8 7).isLt⟩ }

/-- A burst report record (Table 11.5); the outcome as its code. -/
structure Report where
  tag : Byte
  slot : Nat
  valid : Bool
  minislot : Nat
  outcome : Nat
  remote : RemoteNo
  margin : Int
  timing : Int
  power : Int
  deriving DecidableEq, Repr

def reportOf (b : Beat) : Report :=
  { tag := b.extractLsb' 0 8, slot := field b 8 7, valid := flag b 15, minislot := field b 16 3,
    outcome := field b 19 3, remote := ⟨(b.extractLsb' 24 7).toNat, (b.extractLsb' 24 7).isLt⟩,
    margin := signedField b 32 10, timing := signedField b 42 12, power := signedField b 54 8 }

/-- A command word (Table 11.6). -/
def commandOf (b : Beat) : Command :=
  { code := beatByte b 0, sector := beatByte b 1, remote := beatByte b 2, tag := beatByte b 3,
    arg := b.extractLsb' 32 16 }

/-- A command word from its parts (Table 11.6). -/
def commandBeat (code sector remote tag : Byte) (arg spare : Half) : Beat :=
  spare ++ arg ++ tag ++ remote ++ sector ++ code

/-- The base of a staging entry (Table 11.7). -/
def stagingBase (b : Beat) : Addr := b.extractLsb' 0 40

/-- The REPORT size exponent of a staging entry (Table 11.7). -/
def stagingExp (b : Beat) : Nat := field b 40 5

/-! ### What the part forms for a frame builder (Table 11.4, R93) -/

/-- The formed IDLE record. -/
def idleRecord : Beat := 0

/-- A raw record with its profile replaced, every other field kept. -/
def patchProfile (b : Beat) (profile : Nat) : Beat :=
  (b &&& ~~~(0xF0 : Beat)) ||| (BitVec.ofNat 64 (profile % 16) <<< 4)

/-- A RANGE record. -/
def rangeRecord (r : RemoteNo) (profile : Nat) : Beat :=
  BitVec.ofNat 64 (5 + 16 * (profile % 16) + 256 * r.val)

/-- The byte of one minislot: the occupant with bit 7 set, or 00h. -/
def minislotByte : Option RemoteNo → Byte
  | some r => BitVec.ofNat 8 (128 + r.val)
  | none => 0

/-- A PROBE record: lowest occupant profile, solo mark, occupants. -/
def probeRecord (solo : Bool) (profile : Nat) (occupants : List (Option RemoteNo)) : Beat :=
  beatOfBytes ([BitVec.ofNat 8 (4 + 16 * (profile % 16)), if solo then 0x80 else 0] ++
    occupants.map minislotByte)

/-! ### What the part writes to memory (11.4) -/

/-- A log record's detail field: 32 bits, two's complement where it is signed (R185). -/
def detailOf (i : Int) : Word := BitVec.ofInt 32 i

/-- The detail that stands for an absent last margin (R185). -/
def absentDetail : Word := 0x80000000

/-- The result word (Table 11.9). -/
def resultBeat (r : Result) : Beat :=
  beatOfBytes ([r.tag, BitVec.ofNat 8 r.result.code] ++ leBytes 2 r.detail.toNat)

/-- A mirror item (Table 11.12). -/
def mirrorItem (e : Entry) : Nat :=
  e.state.code + 16 * (e.profile % 16) + 256 * (e.attempts % 16) + 4096 * (e.cls % 4) +
    (if e.admin then 16384 else 0) + (if e.deferred.isSome then 32768 else 0)

/-- The kind and cause codes of a record (Tables 11.1 and 11.2). -/
def RecordBody.codes : RecordBody → Nat × Nat
  | .state c .. => (1, c.code)
  | .episode c .. => (2, c.code)
  | .reportFault c .. => (3, c.code)
  | .access c .. => (4, c.code)
  | .frame c .. => (5, c.code)
  | .descriptor c .. => (6, c.code)
  | .marker .. => (7, 0)
  | .command res .. => (8, res.code)
  | .tail c .. => (9, c.code)
  | .memory c .. => (10, c.code)
  | .overflow .. => (11, 0)

def boolBit (b : Bool) (n : Nat) : Nat := if b then 2 ^ n else 0

/-- The presence bits 2 to 7 of a record (Table 11.10); bits 0 and 1 are the sector's and the frame number's. An EPISODE
record carries its from-state and to-state (R122). -/
def RecordBody.presence : RecordBody → Nat
  | .state .. => 4 + 8 + 16 + 32 + 64
  | .episode _ _ _ _ rec => 8 + 16 + boolBit rec.closing.isSome 7
  | .reportFault _ r _ => boolBit r.isSome 2
  | .access .. => 0
  | .frame .. => 0
  | .descriptor .. => 4
  | .marker .. => 0
  | .command _ _ r _ _ => boolBit r.isSome 2
  | .tail .. => 0
  | .memory .. => 0
  | .overflow .. => 0

def optNat {α : Type} (f : α → Nat) : Option α → Nat
  | some a => f a
  | none => 0

def RecoveringCause.code : RecoveringCause → Nat
  | .scoutHeard => 1
  | .holdDown => 2
  | .shadowHeard => 3

/-- The common body of Table 11.11: remote, from-state, to-state, profile, attempts, the two bytes at +22 and +23, and
the detail. -/
def commonBody (remote fromState toState profile attempts code tag : Nat) (detail : Word) : List Byte :=
  [BitVec.ofNat 8 remote, BitVec.ofNat 8 fromState, BitVec.ofNat 8 toState, BitVec.ofNat 8 profile,
   BitVec.ofNat 8 attempts, 0, BitVec.ofNat 8 code, BitVec.ofNat 8 tag] ++ leBytes 4 detail.toNat ++ leBytes 4 0

/-- The body at +16 to +31 (Table 11.11). The bytes and bits that the table names for no field are written 0 (model's
choice, log 38). -/
def RecordBody.bytes : RecordBody → List Byte
  | .state _ r f t p a d => commonBody r.val f.code t.code p a 0 0 d
  | .episode _ f t n rec =>
      [BitVec.ofNat 8 (f.code + 4 * t.code + 16 * optNat RecoveringCause.code rec.recovering), BitVec.ofNat 8 n] ++
        leBytes 2 rec.number.toNat ++ leBytes 2 rec.faded ++ leBytes 2 rec.excluded ++ leBytes 2 rec.refades ++
        leBytes 3 rec.opening.toNat ++ leBytes 3 (optNat BitVec.toNat rec.closing)
  | .reportFault _ r d => commonBody (optNat Fin.val r) 0 0 0 0 0 0 d
  | .access _ m role dir w d =>
      [BitVec.ofNat 8 m.val, BitVec.ofNat 8 (roleByte role), if dir = .write then 1 else 0,
       BitVec.ofNat 8 (optNat WindowKind.code w), 0, 0, 0, 0] ++ leBytes 4 d.toNat ++ leBytes 4 0
  | .frame _ d => commonBody 0 0 0 0 0 0 0 d
  | .descriptor _ r d => commonBody r.val 0 0 0 0 0 0 d
  | .marker lanes w => [0, 0, 0, 0, 0, lanes, 0, 0] ++ leBytes 8 w.toNat
  | .command _ code r tag d => commonBody (optNat BitVec.toNat r) 0 0 0 0 code.toNat tag.toNat (d.setWidth 32)
  | .tail _ d => commonBody 0 0 0 0 0 0 0 d
  | .memory _ d => commonBody 0 0 0 0 0 0 0 d
  | .overflow n => commonBody 0 0 0 0 0 0 0 n

/-- The byte at +15: peak n of an EPISODE record, otherwise 0. -/
def RecordBody.peak : RecordBody → Nat
  | .episode _ _ _ _ rec => rec.peak
  | _ => 0

/-- A whole log record of 32 bytes, as four beats, with its sequence number (Tables 11.10 and 11.11). -/
def LogRecord.beats (seq : Word) (rec : LogRecord) : List Beat :=
  beatsOfBytes 4 (leBytes 4 seq.toNat ++ leBytes 4 rec.time.toNat ++
    [BitVec.ofNat 8 rec.body.codes.1, BitVec.ofNat 8 rec.body.codes.2, BitVec.ofNat 8 (optNat Fin.val rec.sector),
     BitVec.ofNat 8 (boolBit rec.sector.isSome 0 + boolBit rec.frame.isSome 1 + rec.body.presence)] ++
    leBytes 3 (optNat BitVec.toNat rec.frame) ++ [BitVec.ofNat 8 rec.body.peak] ++ rec.body.bytes)

end Sys2Proof.Machine
end

