-- ==== Sys2Proof/Machine/Ops.lean ====
section
/-! DEFINITION. The named operations every block shares: reading and replacing a sector and an entry, queueing a log
record, deciding and handing a result, and the counts computed from the entries. -/

namespace Sys2Proof.Machine

/-! ### Sectors and entries -/

def State.sector (s : State) (k : SectorNo) : Sector := s.sectors[k]

def State.setSector (s : State) (k : SectorNo) (x : Sector) : State :=
  { s with sectors := s.sectors.set k.val x k.isLt }

/-- Change one sector and nothing else. -/
def modSector (k : SectorNo) (f : Sector → Sector) (s : State) : State := s.setSector k (f (s.sector k))

def Sector.entry (x : Sector) (r : RemoteNo) : Entry := x.entries[r]

def Sector.setEntry (x : Sector) (r : RemoteNo) (e : Entry) : Sector :=
  { x with entries := x.entries.set r.val e r.isLt }

/-- The entry of remote r of sector k. -/
def State.entry (s : State) (k : SectorNo) (r : RemoteNo) : Entry := (s.sector k).entry r

/-- What the configuration store holds for a sector. -/
def State.sectorConfig (s : State) (k : SectorNo) : SectorConfig := s.store.sectors[k]

def State.params (s : State) (k : SectorNo) : Params := (s.sectorConfig k).params

def State.configured (s : State) (k : SectorNo) : Bool := (s.sectorConfig k).configured

/-- Remote numbers in ascending order. -/
def remotes : List RemoteNo := List.finRange 128

/-- Sector numbers in ascending order. -/
def sectorNos : List SectorNo := List.finRange 4

/-- Take one step for every remote in the given order (R47). -/
def forRemotes (rs : List RemoteNo) (f : RemoteNo → State → State) (s : State) : State :=
  rs.foldl (fun t r => f r t) s

/-! ### Tallies (R6) -/

/-- The number of the sector's remotes in one state. -/
def Sector.tally (x : Sector) (st : RState) : Nat := x.entries.toList.countP fun e => e.state = st

/-- FADED, QUEUED, PROBING, RANGING or CLIMBING. -/
def RState.restoring : RState → Bool
  | .faded => true
  | .queued => true
  | .probing => true
  | .ranging => true
  | .climbing => true
  | _ => false

/-- PROBING, RANGING or CLIMBING. -/
def RState.engaged : RState → Bool
  | .probing => true
  | .ranging => true
  | .climbing => true
  | _ => false

/-- The restoring count n (R6). -/
def Sector.n (x : Sector) : Nat := x.entries.toList.countP fun e => e.state.restoring

/-- The engaged count (R6). -/
def Sector.engaged (x : Sector) : Nat := x.entries.toList.countP fun e => e.state.engaged

/-! ### The record queue (R172) -/

/-- Queue a record, or skip it while the queue holds 64: the skip count and the next sequence number advance, and the
device status block is marked (R172, R176). -/
def pushRecord (rec : LogRecord) (s : State) : State :=
  if Config.recordQueueSize ≤ s.writer.queue.length then
    markDevice { s with writer := { s.writer with skips := s.writer.skips + 1, seq := s.writer.seq + 1 } }
  else setQueue (s.writer.queue ++ [rec]) s

/-- Queue a record that names a sector: it carries the sector's current frame number (R173). -/
def logSector (k : SectorNo) (body : RecordBody) (s : State) : State :=
  pushRecord { time := s.time, sector := some k, frame := some (s.sector k).frame, body := body } s

/-- Queue a record that names a sector and another frame. -/
def logFrame (k : SectorNo) (f : Frame) (body : RecordBody) (s : State) : State :=
  pushRecord { time := s.time, sector := some k, frame := some f, body := body } s

/-- Queue a record that names no sector: its frame number is absent (R173). -/
def logDevice (body : RecordBody) (s : State) : State :=
  pushRecord { time := s.time, sector := none, frame := none, body := body } s

/-- Queue a record for a sector that may be absent. -/
def logFor (k : Option SectorNo) (body : RecordBody) (s : State) : State :=
  match k with
  | some k => logSector k body s
  | none => logDevice body s

/-! ### Results (R161, R175) -/

/-- The COMMAND record of a result (R175). -/
def commandRecord (r : Result) : RecordBody := .command r.result r.code r.remote r.tag r.detail

/-- A result enters the empty pending result word, and its COMMAND record is queued in the same step (R175). -/
def enterPending (r : Result) (s : State) : State :=
  logFor r.sector (commandRecord r) { s with writer := { s.writer with pendingResult := some r } }

/-- Hand a decided result: at once while the pending result word is free and no older result is held, else it is kept
in the Command Channel (R161, log 10). -/
def deliver (r : Result) (s : State) : State :=
  if s.writer.pendingResult.isNone && s.channel.held.isEmpty then enterPending r s
  else { s with channel := { s.channel with held := s.channel.held ++ [r] } }

/-- The commands that use the sector field (Table 9.2), by code: every one but LOAD_CONFIG, ACK_NOTICE, CANCEL. -/
def usesSector (code : Byte) : Bool := 2 ≤ code.toNat && code.toNat ≤ 11

/-- The commands that use the remote field (Table 9.2): SET_TUNE (its parameter code), HOLD, RELEASE, REARM and
FORCE_FADE. -/
def usesRemote (code : Byte) : Bool := 3 ≤ code.toNat && code.toNat ≤ 7

/-- A sector byte as a sector, if it names one. -/
def sectorOfByte (b : Byte) : Option SectorNo :=
  if h : b.toNat < 4 then some ⟨b.toNat, h⟩ else none

/-- A remote byte as a remote, if it names one. -/
def remoteOfByte (b : Byte) : Option RemoteNo :=
  if h : b.toNat < 128 then some ⟨b.toNat, h⟩ else none

/-- The result of a command word with the sector and remote its COMMAND record carries where the command uses them; a
sector byte above 3 has no place in a record and is absent (R175, log 12). -/
def resultOf (c : Command) (code : ResultCode) (detail : Half) (closes : Bool) : Result :=
  { tag := c.tag, result := code, detail := detail, code := c.code,
    sector := if usesSector c.code then sectorOfByte c.sector else none,
    remote := if usesRemote c.code then some c.remote else none, closes := closes }

/-- Answer a command word that is not in flight. -/
def answer (c : Command) (code : ResultCode) (detail : Half) (s : State) : State :=
  deliver (resultOf c code detail false) s

/-- Put the command in flight in the given phase. -/
def setPhase (p : Phase) (s : State) : State :=
  match s.channel.inFlight with
  | some f => { s with channel := { s.channel with inFlight := some { f with phase := p } } }
  | none => s

/-- Decide the result of the command in flight: it stays in flight until the write of its result word is formed
(R161). -/
def finish (code : ResultCode) (detail : Half) (s : State) : State :=
  match s.channel.inFlight with
  | some f => deliver (resultOf f.cmd code detail true) (setPhase .decided s)
  | none => s

/-! ### Tables of a fixed length -/

/-- A value for each sector. -/
def perSector {α : Type} (f : SectorNo → α) : Vector α 4 := #v[f 0, f 1, f 2, f 3]

/-- A value for each of eight masters or notice kinds. -/
def perEight {α : Type} (f : Fin 8 → α) : Vector α 8 := #v[f 0, f 1, f 2, f 3, f 4, f 5, f 6, f 7]

/-! ### Saturating and wrapping counts -/

/-- Held at 65535 (R121). -/
def saturate16 (n : Nat) : Nat := min n 65535

/-- Change a sector's report counts and mark its counter block (R110). -/
def bumpCounts (k : SectorNo) (f : ReportCounts → ReportCounts) (s : State) : State :=
  markCounter k (modSector k (fun x => { x with counts := f x.counts }) s)

end Sys2Proof.Machine
end

