-- ==== Sys2Proof/Machine/Queue.lean ====
section
/-! DEFINITION. Section 3: the readmission queue, its entry order stamps, the probe roster's draw and supply. -/

namespace Sys2Proof.Machine

/-! ### Membership and order (R51, R52) -/

/-- `a` stands before `b` in the queue: a higher class, or the same class and a lower stamp (R52). -/
def queueBefore (x : Sector) (a b : RemoteNo) : Bool :=
  decide ((x.entry b).cls < (x.entry a).cls) ||
    (decide ((x.entry a).cls = (x.entry b).cls) && decide ((x.entry a).order ≤ (x.entry b).order))

/-- Insert by an order into a list that stands in it. -/
def insertBy (before : RemoteNo → RemoteNo → Bool) (r : RemoteNo) : List RemoteNo → List RemoteNo
  | [] => [r]
  | q :: qs => if before r q then r :: q :: qs else q :: insertBy before r qs

/-- Sort by an order. -/
def sortBy (before : RemoteNo → RemoteNo → Bool) (rs : List RemoteNo) : List RemoteNo :=
  rs.foldr (insertBy before) []

/-- The QUEUED remotes in ascending remote number: the queue's members (R51). -/
def Sector.queued (x : Sector) : List RemoteNo := remotes.filter fun r => (x.entry r).state = .queued

/-- The readmission queue in its order, head first (R52). -/
def Sector.queue (x : Sector) : List RemoteNo := sortBy (queueBefore x) x.queued

/-! ### Stamps (R53, R54) -/

/-- Give the members new stamps from the given one on, in the order of the list. -/
def restampFrom : Nat → List RemoteNo → Sector → Sector
  | _, [], x => x
  | n, r :: rs, x => restampFrom (n + 1) rs (x.setEntry r { x.entry r with order := n })

/-- The restamp: new stamps 16384 on in ascending order of the present ones, and the counters around them (R54). -/
def restamp (x : Sector) : Sector :=
  let members := sortBy (fun a b => (x.entry a).order ≤ (x.entry b).order) x.queued
  { restampFrom 16384 members x with nextHead := 16383, nextTail := 16384 + members.length }

/-- The sector ready to give a tail stamp: restamped when the counter stands at 65536 (R54). -/
def readyTail (x : Sector) : Sector := if 65536 ≤ x.nextTail then restamp x else x

/-- The sector ready to give a head stamp: restamped when the counter stands at 0 (R54). -/
def readyHead (x : Sector) : Sector := if x.nextHead = 0 then restamp x else x

/-- The stamp counters of an empty queue (R54). -/
def resetStamps (x : Sector) : Sector :=
  { x with nextHead := Config.firstHeadStamp, nextTail := Config.firstTailStamp }

/-- When the last member has left the queue the counters return to their first values (R54). -/
def stampsIfEmptied (x : Sector) : Sector := if x.queued.isEmpty then resetStamps x else x

/-! ### The roster's draw (R61 to R67) -/

/-- The usable minislots of a mask in ascending order. -/
def minislotsOf (mask : BitVec 6) : List (Fin 6) := (List.finRange 6).filter fun i => mask.getLsbD i.val

/-- Slots needed by s solo and h shared members with k usable minislots: s + ⌈h ÷ k⌉ (R64). With an empty mask there
is no shared member. -/
def slotsNeeded (s h k : Nat) : Nat := s + (h + k - 1) / k

/-- Solo by flag or by an empty mask (R64). -/
def drawsSolo (x : Sector) (mask : BitVec 6) (r : RemoteNo) : Bool := (x.entry r).solo || mask == 0

/-- A normal draw: walk the eligible members in queue order and stop at the first that would break the slot bound or
the cap bound (R63 to R65). `s` and `h` count the solo and shared members so far. -/
def drawNormal (x : Sector) (mask : BitVec 6) (budget room : Nat) : Nat → Nat → List RemoteNo → List Member
  | _, _, [] => []
  | s, h, r :: rs =>
    let solo := drawsSolo x mask r
    let s' := if solo then s + 1 else s
    let h' := if solo then h else h + 1
    if slotsNeeded s' h' (minislotsOf mask).length ≤ budget ∧ s' + h' ≤ room then
      { remote := r, solo := solo, scout := false, placed := false } :: drawNormal x mask budget room s' h' rs
    else []

/-- A scout draw: the first eligible member alone, if the budget and the room allow one (R66). -/
def drawScout (budget room : Nat) : List RemoteNo → List Member
  | [] => []
  | r :: _ =>
    if 1 ≤ budget ∧ 1 ≤ room then [{ remote := r, solo := true, scout := true, placed := false }] else []

/-- The members eligible under the in-force floor, in queue order (R57). -/
def eligibleQueue (x : Sector) : List RemoteNo :=
  x.queue.filter fun r => x.tunables.floor ≤ (x.entry r).cls

/-- The room of a draw under the concurrency cap (R65). -/
def drawRoom (x : Sector) : Nat := x.tunables.cap - x.engaged

/-- Work item 5: draw the roster of an ACTIVE sector that is not suspended, else empty it (R62, R66, R67). -/
def drawRoster (x : Sector) : Sector :=
  if x.mode = .active ∧ x.suspended = false then
    let t := x.tunables
    let members :=
      if x.episode.state = .fading then drawScout t.budget (drawRoom x) (eligibleQueue x)
      else drawNormal x t.mask t.budget (drawRoom x) 0 0 (eligibleQueue x)
    { x with roster := { members := members, mask := t.mask, budget := t.budget, used := 0 } }
  else { x with roster := Roster.empty }

/-! ### Supplying probe slots (R68, R69) -/

/-- The unplaced members in roster order. -/
def Roster.unplaced (t : Roster) : List Member := t.members.filter fun m => !m.placed

/-- Whether the roster may fill another slot: an unplaced member, and slots used below the drawn budget (R90, R91). -/
def Roster.canSupply (t : Roster) : Bool := !t.unplaced.isEmpty && decide (t.used < t.budget)

/-- One occupant of a filled slot: its minislot and its member. -/
structure Occupant where
  minislot : Fin 6
  member : Member
  deriving DecidableEq, Repr

/-- The occupants the roster supplies for one slot, in ascending minislot order (R68). -/
def Roster.supply (t : Roster) : List Occupant :=
  match t.unplaced with
  | [] => []
  | m :: rest =>
    if m.solo then [{ minislot := 0, member := m }]
    else
      let shared := (m :: rest).filter fun c => !c.solo
      ((minislotsOf t.mask).zip shared).map fun p => { minislot := p.1, member := p.2 }

/-- Mark the supplied members placed and count the slot (R68). -/
def Roster.take (t : Roster) (occupants : List Occupant) : Roster :=
  { t with
    members := t.members.map fun m =>
      if occupants.any (fun o => o.member.remote = m.remote) then { m with placed := true } else m
    used := t.used + 1 }

/-- A member that leaves QUEUED by another step than placement leaves the roster (R69). -/
def Roster.drop (t : Roster) (r : RemoteNo) : Roster :=
  { t with members := t.members.filter fun m => m.remote ≠ r }

end Sys2Proof.Machine
end

