-- ==== Sys2Proof/Machine/Episodes.lean ====
section
/-! DEFINITION. Section 6: the rain episode of a sector, moved by the inputs that remote steps hand it and by the epoch. -/

namespace Sys2Proof.Machine

/-- An episode is open in FADING, RECOVERING and SETTLING (R114). -/
def Episode.isOpen (e : Episode) : Bool := e.state != .clear

/-- Change the episode's own fields. -/
def modEpisode (k : SectorNo) (f : Episode → Episode) (s : State) : State :=
  modSector k (fun x => { x with episode := f x.episode }) s

/-- Change the episode record. -/
def modRecord (k : SectorNo) (f : EpisodeRecord → EpisodeRecord) (s : State) : State :=
  modEpisode k (fun e => { e with record := f e.record }) s

/-- Openings and closings raise notice kind EPISODE; the other changes raise none (R122). -/
def noticeOfChange (target : EpisodeState) (s : State) : State :=
  match target with
  | .clear => raiseNotice .episode s
  | .fading => raiseNotice .episode s
  | .recovering => s
  | .settling => s

/-- A change of episode state: `f` sets the other fields, one EPISODE record is queued with the record as it stands
after the change, the counter block is marked, and an opening or closing raises its notice (R122, R123). -/
def changeEpisode (k : SectorNo) (target : EpisodeState) (cause : EpisodeCause) (f : Episode → Episode) (s : State) :
    State :=
  let before := (s.sector k).episode.state
  let s := modEpisode k (fun e => { f e with state := target }) s
  noticeOfChange target (markCounter k
    (logSector k (.episode cause before target (s.sector k).n (s.sector k).episode.record) s))

/-- The opening: CLEAR to FADING with cause THRESHOLD (R116). -/
def openEpisode (k : SectorNo) (s : State) : State :=
  let x := s.sector k
  changeEpisode k .fading .threshold
    (fun e => { e with
      holdDown := x.tunables.holdDown
      settle := 0
      record := { number := e.record.number + 1, opening := x.frame, peak := x.n, faded := saturate16 x.n,
                  excluded := 0, recovering := none, refades := 0, closing := none } }) s

/-- Open a CLEAR episode whose n has reached the threshold (R116). -/
def testThreshold (k : SectorNo) (s : State) : State :=
  let x := s.sector k
  if x.episode.state = .clear ∧ x.tunables.threshold ≤ x.n then openEpisode k s else s

/-- A close: CLEAR, both counts 0, the closing frame set (R117, R120, R125). -/
def closeEpisode (k : SectorNo) (cause : EpisodeCause) (s : State) : State :=
  let frame := (s.sector k).frame
  changeEpisode k .clear cause
    (fun e => { e with holdDown := 0, settle := 0, record := { e.record with closing := some frame } }) s

/-- The first entry to RECOVERING sets the recovering cause and ends the hold-down (R117, R118). -/
def enterRecovering (k : SectorNo) (why : RecoveringCause) (cause : EpisodeCause) (s : State) : State :=
  changeEpisode k .recovering cause
    (fun e => { e with holdDown := 0, record := { e.record with recovering := some why } }) s

/-! ### Inputs (R115) -/

/-- An exclusion is counted while the episode is open (R121). -/
def exclusionInput (k : SectorNo) (s : State) : State :=
  if (s.sector k).episode.isOpen then
    modRecord k (fun r => { r with excluded := saturate16 (r.excluded + 1) }) s
  else s

/-- A fade is counted while the episode is open (R121). -/
def fadeInput (k : SectorNo) (s : State) : State :=
  if (s.sector k).episode.isOpen then
    modRecord k (fun r => { r with faded := saturate16 (r.faded + 1) }) s
  else s

/-- A scout heard moves a FADING episode to RECOVERING and changes nothing in any other (R117, R119). -/
def scoutHeardInput (k : SectorNo) (s : State) : State :=
  if (s.sector k).episode.state = .fading then enterRecovering k .scoutHeard .scoutHeard s else s

/-- A SHADOW heard moves a FADING episode to RECOVERING and changes nothing in any other (R117, R124). -/
def shadowHeardInput (k : SectorNo) (s : State) : State :=
  if (s.sector k).episode.state = .fading then enterRecovering k .shadowHeard .shadowHeard s else s

/-- The peak is raised to n (R121). -/
def raisePeak (n : Nat) (r : EpisodeRecord) : EpisodeRecord := { r with peak := max r.peak n }

/-- A change of n, taken by the episode state (R116, R117, R119, R120). -/
def changeOfN (k : SectorNo) (s : State) : State :=
  let x := s.sector k
  let n := x.n
  match x.episode.state with
  | .clear => testThreshold k s
  | .fading => if n = 0 then closeEpisode k .emptied s else modRecord k (raisePeak n) s
  | .recovering =>
    if n = 0 then changeEpisode k .settling .drained (fun e => { e with settle := x.tunables.settle }) s
    else modRecord k (raisePeak n) s
  | .settling =>
    if n = 0 then s
    else changeEpisode k .recovering .refade
      (fun e => { e with settle := 0,
                         record := raisePeak n { e.record with refades := saturate16 (e.record.refades + 1) } }) s

/-- The inputs a remote step hands, beside the change of n (R50). -/
structure Inputs where
  exclusion : Bool
  fade : Bool
  shadowHeard : Bool
  deriving DecidableEq, Repr

def Inputs.none : Inputs := { exclusion := false, fade := false, shadowHeard := false }

/-- Hand a step's inputs in the order of R115; `nBefore` is n before the step. -/
def handInputs (k : SectorNo) (inp : Inputs) (nBefore : Nat) (s : State) : State :=
  let s := if inp.exclusion then exclusionInput k s else s
  let s := if inp.fade then fadeInput k s else s
  let s := if inp.shadowHeard then shadowHeardInput k s else s
  if (s.sector k).n = nBefore then s else changeOfN k s

/-- A sector-wide event closes an open episode and leaves a CLEAR one (R125). -/
def closeForEvent (k : SectorNo) (cause : EpisodeCause) (s : State) : State :=
  if (s.sector k).episode.isOpen then closeEpisode k cause s else s

/-! ### Work item 2 (R118, R120) -/

/-- A FADING episode whose hold-down count stands at 0 enters RECOVERING (R118). -/
def holdDownExpires (k : SectorNo) (s : State) : State :=
  if (s.sector k).episode.state = .fading ∧ (s.sector k).episode.holdDown = 0 then
    enterRecovering k .holdDown .holdDown s
  else s

/-- A SETTLING episode whose settle count stands at 0 closes (R120). -/
def settleExpires (k : SectorNo) (s : State) : State :=
  if (s.sector k).episode.state = .settling ∧ (s.sector k).episode.settle = 0 then closeEpisode k .settled s else s

/-- Reduce the running count by the gap; a count that then stands at 0 expires (R118, R120). -/
def countEpisode (k : SectorNo) (g : Nat) (s : State) : State :=
  match (s.sector k).episode.state with
  | .clear => s
  | .recovering => s
  | .fading => holdDownExpires k (modEpisode k (fun e => { e with holdDown := e.holdDown - g }) s)
  | .settling => settleExpires k (modEpisode k (fun e => { e with settle := e.settle - g }) s)

end Sys2Proof.Machine
end

