-- ==== Sys2Proof/Machine/Remote.lean ====
section
/-! DEFINITION. Section 2, 2.1 to 2.3: what every step of a remote does (fields on entry to a state, voiding, STATE record,
marks, episode inputs), entry to the queue, the charge, and group promotion. -/

namespace Sys2Proof.Machine

/-! ### Entry to a state (Table 2.2) -/

/-- The restart profile clamped to the ceiling (R3). -/
def Entry.restartProfile (e : Entry) (restart : Nat) : Nat := min restart e.ceiling

/-- The entry's fields on entry to a state (Table 2.2). Fields given "by the step" keep the value the step has set
before. -/
def Entry.enter (e : Entry) (st : RState) (restart limit : Nat) : Entry :=
  let b := { e with state := st, misses := 0, good := 0, exchanges := 0 }
  match st with
  | .idle => { b with profile := e.ceiling, backoff := 0, attempts := 0, garbles := 0, solo := false }
  | .serving => { b with profile := e.ceiling, backoff := 0, attempts := 0, garbles := 0, solo := false }
  | .faded => { b with profile := e.restartProfile restart }
  | .queued => { b with profile := e.restartProfile restart, backoff := 0 }
  | .probing => { b with backoff := 0 }
  | .ranging => { b with backoff := 0, garbles := 0, solo := false }
  | .climbing => { b with profile := e.restartProfile restart, backoff := 0, garbles := 0, solo := false }
  | .held => { b with profile := e.ceiling, backoff := 0 }
  | .excluded => { b with profile := e.ceiling, backoff := 0, attempts := limit, garbles := 0, solo := false }

/-- SERVING or IDLE. -/
def RState.inService : RState → Bool
  | .serving => true
  | .idle => true
  | _ => false

/-- faded at after a step (R5). -/
def fadedAtAfter (frame : Frame) (old new : RState) (f : Option Frame) : Option Frame :=
  if new.inService then none else if old.inService then some frame else f

/-! ### Voiding (R20) -/

/-- The kind of expectation a remote entering `st` keeps open (R20). -/
def keepsOpen (st : RState) : WatchKind → Bool
  | .fadeWatch => false
  | .climbWatch => st = .climbing
  | .probe _ _ => st = .probing
  | .range => st = .ranging

/-- Void an open expectation of `r` unless its kind is kept. -/
def voidOne (r : RemoteNo) (st : RState) (w : Expectation) : Expectation :=
  if w.remote = r ∧ w.condition = .open ∧ keepsOpen st w.kind = false then { w with condition := .void } else w

/-- Change every expectation of a decision. -/
def Decision.mapWatches (f : Expectation → Expectation) : Decision → Decision
  | .raw w => .raw (w.map f)
  | .idle => .idle
  | .dataUp w => .dataUp (f w)
  | .dataDown r => .dataDown r
  | .range w => .range (f w)
  | .probe solo ms => .probe solo (ms.map fun m => m.map f)

/-- Change every expectation of a plan. -/
def Plan.mapWatches (f : Expectation → Expectation) (p : Plan) : Plan :=
  { p with slots := p.slots.map fun d => d.map fun d => { d with decision := d.decision.mapWatches f } }

/-- Void the remote's open expectations in every plan of the history, as its new state requires (R20). -/
def voidFor (r : RemoteNo) (st : RState) (x : Sector) : Sector :=
  { x with history := x.history.map fun p => p.mapWatches (voidOne r st) }

/-! ### One step of one remote -/

/-- What a step carries: its cause, the margin of the report that caused it, whether it is a placement, and the inputs
it hands the episode (none for an event whose inputs are not handed, R125). -/
structure StepInfo where
  cause : StateCause
  margin : Option Int
  placed : Bool
  inputs : Option Inputs
  deriving DecidableEq, Repr

/-- A step with no report margin that hands the change of n alone. -/
def StepInfo.plain (cause : StateCause) : StepInfo :=
  { cause := cause, margin := none, placed := false, inputs := some Inputs.none }

/-- A step of an event whose inputs are not handed (R115, R125). -/
def StepInfo.silent (cause : StateCause) : StepInfo :=
  { cause := cause, margin := none, placed := false, inputs := none }

/-- A step caused by a report with that margin. -/
def StepInfo.heard (cause : StateCause) (margin : Option Int) : StepInfo :=
  { StepInfo.plain cause with margin := margin }

/-- What leaving the old state does to the queue, the roster and the ranging order (R19, R34, R54, R69). -/
def leaveState (r : RemoteNo) (old : RState) (placed : Bool) (x : Sector) : Sector :=
  match old with
  | .queued => stampsIfEmptied (if placed then x else { x with roster := x.roster.drop r })
  | .ranging =>
    { x with rangingOrder := x.rangingOrder.filter (fun m => m.remote ≠ r), waitList := x.waitList.filter (· ≠ r) }
  | _ => x

/-- What entering RANGING does to the ranging order and the wait list (R34). -/
def enterRanging (r : RemoteNo) (new : RState) (x : Sector) : Sector :=
  if new = .ranging then
    { x with rangingOrder := x.rangingOrder ++ [{ remote := r, silent := false }], waitList := x.waitList ++ [r] }
  else x

/-- The step inside the engine: the entry with its faded at, the queue and ranging order, and the voiding. -/
def applyStep (r : RemoteNo) (e' : Entry) (placed : Bool) (x : Sector) : Sector :=
  let old := (x.entry r).state
  let x := x.setEntry r { e' with fadedAt := fadedAtAfter x.frame old e'.state (x.entry r).fadedAt }
  if old = e'.state then x else voidFor r e'.state (enterRanging r e'.state (leaveState r old placed x))

/-- The detail of a STATE record (R5): the outage length for a step into SERVING with faded at present; else the
report's margin; else the last margin or the absent value (log 15). The last margin is the one after the step, which R5
leaves open for a step that clears it, a load's CONFIG or a RESET (model's choice, log 15). -/
def stepDetail (frame : Frame) (old new : Entry) (margin : Option Int) : Word :=
  match decide (new.state = .serving ∧ old.state ≠ .serving), old.fadedAt with
  | true, some f => (frame - f).setWidth 32
  | _, _ =>
    match margin, new.lastMargin with
    | some m, _ => detailOf m
    | none, some m => detailOf m
    | none, none => absentDetail

/-- The six fields a mirror item shows (R7). -/
def Entry.shown (e : Entry) : RState × Nat × Nat × Nat × Bool × Bool :=
  (e.state, e.profile, e.attempts, e.cls, e.admin, e.deferred.isSome)

/-- The STATE record of a step that changed state or profile (R21). -/
def logStep (k : SectorNo) (r : RemoteNo) (info : StepInfo) (old new : Entry) (s : State) : State :=
  if old.state = new.state ∧ old.profile = new.profile then s
  else logSector k (.state info.cause r old.state new.state new.profile new.attempts
    (stepDetail (s.sector k).frame old new info.margin)) s

/-- The marks of a step: the mirror group if a shown field changed, the counter block if a tally did (R6, R7). -/
def markStep (k : SectorNo) (r : RemoteNo) (old new : Entry) (s : State) : State :=
  let s := if old.shown = new.shown then s else markMirror k r s
  if old.state = new.state then s else markCounter k s

/-- One whole step of one remote: its entry becomes `e'` (with faded at by R5), and everything R6, R7, R19 to R21,
R50 and R115 attach to the step happens in it. -/
def remoteStep (k : SectorNo) (r : RemoteNo) (info : StepInfo) (e' : Entry) (s : State) : State :=
  let old := s.entry k r
  let nBefore := (s.sector k).n
  let s := modSector k (applyStep r e' info.placed) s
  let new := s.entry k r
  let s := markStep k r old new (logStep k r info old new s)
  match info.inputs with
  | some inp => handInputs k inp nBefore s
  | none => s

/-- Change fields of an entry that no record, mark or input follows (counts in SERVING, for example). -/
def modEntry (k : SectorNo) (r : RemoteNo) (f : Entry → Entry) (s : State) : State :=
  modSector k (fun x => x.setEntry r (f (x.entry r))) s

/-- A step into a state: `f` sets the fields given by the step, Table 2.2 the others. -/
def stepTo (k : SectorNo) (r : RemoteNo) (st : RState) (info : StepInfo) (f : Entry → Entry) (s : State) : State :=
  let p := s.params k
  remoteStep k r info ((f (s.entry k r)).enter st p.restart p.attemptsLimit) s

/-- A step into QUEUED at the tail of the class: it takes the next tail stamp (R53). -/
def toQueueTail (k : SectorNo) (r : RemoteNo) (info : StepInfo) (f : Entry → Entry) (s : State) : State :=
  let s := modSector k readyTail s
  let stamp := (s.sector k).nextTail
  let s := modSector k (fun x => { x with nextTail := stamp + 1 }) s
  stepTo k r .queued info (fun e => { f e with order := stamp }) s

/-- A step into QUEUED at the head of the class: it takes the next head stamp (R53). -/
def toQueueHead (k : SectorNo) (r : RemoteNo) (info : StepInfo) (f : Entry → Entry) (s : State) : State :=
  let s := modSector k readyHead s
  let stamp := (s.sector k).nextHead
  let s := modSector k (fun x => { x with nextHead := stamp - 1 }) s
  stepTo k r .queued info (fun e => { f e with order := stamp }) s

/-! ### Charge and promotion (R24, R27, R59) -/

/-- The backoff after a charge that brings attempts to `a`: base × 2^min(a − 1, 5) (R24). -/
def chargeBackoff (base a : Nat) : Nat := base * 2 ^ min (a - 1) 5

/-- A charge with the cause of the failure that is charged (R24): FADED with its backoff below the limit; at the limit
EXCLUDED, with notice EXCLUDED and the exclusion handed to the episode. -/
def charge (k : SectorNo) (r : RemoteNo) (cause : StateCause) (margin : Option Int) (s : State) : State :=
  let p := s.params k
  let a := (s.entry k r).attempts + 1
  if a < p.attemptsLimit then
    stepTo k r .faded (StepInfo.heard cause margin)
      (fun e => { e with attempts := a, backoff := chargeBackoff p.backoffBase a, garbles := 0, solo := false }) s
  else
    raiseNotice .excluded
      (stepTo k r .excluded
        { StepInfo.heard cause margin with inputs := some { Inputs.none with exclusion := true } } id s)

/-- One promotion step: a FADED companion goes to QUEUED at the tail, whatever backoff remained (R27). The promoter's
report is not taken as this step's cause: the record's detail is the promoted remote's last margin (model's choice,
log 34). -/
def promoteOne (k : SectorNo) (promoter : RemoteNo) (g : Nat) (r : RemoteNo) (s : State) : State :=
  let e := s.entry k r
  if r ≠ promoter ∧ e.state = .faded ∧ e.group = some g then
    toQueueTail k r (StepInfo.plain .promoted) id s
  else s

/-- The group promotion of a heard probe: every other FADED remote of the group, in ascending remote number; none
where the promoter has no group (R59). -/
def promoteGroup (k : SectorNo) (promoter : RemoteNo) (s : State) : State :=
  match (s.entry k promoter).group with
  | some g => forRemotes remotes (promoteOne k promoter g) s
  | none => s

/-! ### Backoff (R26) -/

/-- A FADED remote of an ACTIVE sector that is not suspended, whose backoff stands at 0, goes to QUEUED at the tail of
its class (R26). -/
def backoffExpires (k : SectorNo) (r : RemoteNo) (s : State) : State :=
  let x := s.sector k
  if x.mode = .active ∧ x.suspended = false ∧ (x.entry r).state = .faded ∧ (x.entry r).backoff = 0 then
    toQueueTail k r (StepInfo.plain .backoff) id s
  else s

/-- One FADED remote's backoff reduced by the gap, not below 0. -/
def reduceBackoff (g : Nat) (e : Entry) : Entry :=
  if e.state = .faded then { e with backoff := e.backoff - g } else e

/-- Change every entry, in ascending remote number. -/
def mapEntries (f : Entry → Entry) (x : Sector) : Sector :=
  remotes.foldl (fun x r => x.setEntry r (f (x.entry r))) x

/-- Reduce the backoff of every FADED remote by the gap (R26, R81). -/
def reduceBackoffs (g : Nat) (x : Sector) : Sector := mapEntries (reduceBackoff g) x

end Sys2Proof.Machine
end

