-- ==== Sys2Proof/Machine/Descriptors.lean ====
section
/-! DEFINITION. Section 1, 1.4 and 1.5: descriptor changes on a live entry (R8 to R15), on a staged entry of a load (R16, R17),
and the comparison a relocation makes (R18). -/

namespace Sys2Proof.Machine

/-! ### Lane values (Table 1.3) -/

/-- The values the part takes for the ceiling lane. -/
def ceilingOk (b : Byte) : Bool := b.toNat ≤ 11
/-- The values the part takes for the class lane. -/
def classOk (b : Byte) : Bool := b.toNat ≤ 3
/-- The values the part takes for the group lane. -/
def groupOk (b : Byte) : Bool := b.toNat ≤ 15
/-- A group lane value as a group: 0 is absent (R12). -/
def groupOf (b : Byte) : Option Nat := if b.toNat = 0 then none else some b.toNat
/-- The admin lane: bit 0. -/
def adminOf (b : Byte) : Bool := b.getLsbD 0

/-! ### Live entries -/

/-- A refused lane value leaves the field and queues one DESCRIPTOR record with the value (R9). -/
def refuseLane (k : SectorNo) (r : RemoteNo) (cause : DescriptorCause) (b : Byte) (s : State) : State :=
  logSector k (.descriptor cause r (b.setWidth 32)) s

/-- The entry under a new ceiling, by its state (R10). -/
def Entry.withCeiling (e : Entry) (c restart limit : Nat) : Entry :=
  let n := { e with ceiling := c }
  match e.state with
  | .idle => { n with profile := c }
  | .serving => { n with profile := c }
  | .held => { n with profile := c }
  | .excluded => { n with profile := c }
  | .faded => { n with profile := n.restartProfile restart }
  | .queued => { n with profile := n.restartProfile restart }
  | .probing => { n with profile := n.restartProfile restart }
  | .ranging => { n with profile := min e.profile c }
  | .climbing => if c ≤ e.profile then n.enter .serving restart limit else n

/-- The ceiling lane (R10). -/
def changeCeiling (k : SectorNo) (r : RemoteNo) (b : Byte) (s : State) : State :=
  if !ceilingOk b then refuseLane k r .ceilingInvalid b s
  else if b.toNat = (s.entry k r).ceiling then s
  else
    let p := s.params k
    remoteStep k r (StepInfo.plain .ceiling) ((s.entry k r).withCeiling b.toNat p.restart p.attemptsLimit) s

/-- The class lane (R11, R56): the stamp is kept, and the mirror group is marked. -/
def changeClass (k : SectorNo) (r : RemoteNo) (b : Byte) (s : State) : State :=
  if !classOk b then refuseLane k r .classInvalid b s
  else if b.toNat = (s.entry k r).cls then s
  else markMirror k r (modEntry k r (fun e => { e with cls := b.toNat }) s)

/-- The group lane (R12). -/
def changeGroup (k : SectorNo) (r : RemoteNo) (b : Byte) (s : State) : State :=
  if !groupOk b then refuseLane k r .groupInvalid b s
  else modEntry k r (fun e => { e with group := groupOf b }) s

/-- Admin OFF of a sector that is not suspended: IDLE from any state (R13). `info` says of an admin step whether it hands
its change of n to the episode (R115). -/
def adminOff (info : StateCause → StepInfo) (k : SectorNo) (r : RemoteNo) (s : State) : State :=
  stepTo k r .idle (info .adminOff) (fun e => { e with admin := false }) s

/-- Admin ON of a sector that is not suspended: QUEUED at the tail in ACTIVE, SERVING otherwise (R14). -/
def adminOn (info : StateCause → StepInfo) (k : SectorNo) (r : RemoteNo) (s : State) : State :=
  match (s.sector k).mode with
  | .active =>
    toQueueTail k r (info .adminOn)
      (fun e => { e with admin := true, attempts := 0, garbles := 0, solo := false }) s
  | .shadow => stepTo k r .serving (info .adminOn) (fun e => { e with admin := true }) s
  | .pass => stepTo k r .serving (info .adminOn) (fun e => { e with admin := true }) s

/-- An admin value different from the present one is taken (R13, R14). -/
def takeAdmin (info : StateCause → StepInfo) (k : SectorNo) (r : RemoteNo) (v : Bool) (s : State) : State :=
  if v = (s.entry k r).admin then s else if v then adminOn info k r s else adminOff info k r s

/-- Set deferred; a change of whether it is present marks the mirror group (R15). -/
def setDeferred (k : SectorNo) (r : RemoteNo) (d : Option Bool) (s : State) : State :=
  let was := (s.entry k r).deferred
  let s := modEntry k r (fun e => { e with deferred := d }) s
  if was.isSome = d.isSome then s else markMirror k r s

/-- The admin lane: taken, or deferred while the sector is suspended (R13 to R15). -/
def changeAdmin (k : SectorNo) (r : RemoteNo) (b : Byte) (s : State) : State :=
  let v := adminOf b
  if (s.sector k).suspended then
    setDeferred k r (if v = (s.entry k r).admin then none else some v) s
  else takeAdmin StepInfo.plain k r v s

/-- One descriptor change: the enabled lanes in the order ceiling, class, group, admin (R8). -/
def changeDescriptor (k : SectorNo) (r : RemoteNo) (lanes : Lanes) (b : Beat) (s : State) : State :=
  let s := if laneOn lanes 1 then changeCeiling k r (beatByte b 1) s else s
  let s := if laneOn lanes 2 then changeClass k r (beatByte b 2) s else s
  let s := if laneOn lanes 3 then changeGroup k r (beatByte b 3) s else s
  if laneOn lanes 0 then changeAdmin k r (beatByte b 0) s else s

/-- Take one present deferred value, which then is absent (R15). -/
def takeDeferred (info : StateCause → StepInfo) (k : SectorNo) (r : RemoteNo) (s : State) : State :=
  match (s.entry k r).deferred with
  | some v => setDeferred k r none (takeAdmin info k r v s)
  | none => s

/-- Take every deferred value in ascending remote number, the suspended flag being clear (R15). -/
def takeAllDeferred (info : StateCause → StepInfo) (k : SectorNo) (s : State) : State :=
  forRemotes remotes (takeDeferred info k) s

/-! ### The read of a relocation (R18) -/

/-- The lanes of a descriptor whose values differ from the live entry. -/
def differingLanes (e : Entry) (b : Beat) : Lanes :=
  (if adminOf (beatByte b 0) = e.admin then (0 : Lanes) else 1) |||
  (if (beatByte b 1).toNat = e.ceiling then (0 : Lanes) else 2) |||
  (if (beatByte b 2).toNat = e.cls then (0 : Lanes) else 4) |||
  (if groupOk (beatByte b 3) && groupOf (beatByte b 3) == e.group then (0 : Lanes) else 8)

/-- Whether at least one lane differs and is not refused (R155). -/
def countsAsChanged (e : Entry) (b : Beat) : Bool :=
  let d := differingLanes e b
  laneOn d 0 || (laneOn d 1 && ceilingOk (beatByte b 1)) || (laneOn d 2 && classOk (beatByte b 2)) ||
    (laneOn d 3 && groupOk (beatByte b 3))

/-! ### Staged entries (R16, R17) -/

/-- The last value taken for a lane, where it was refused. -/
def refusedValue (ok : Bool) (b : Byte) : Option Byte := if ok then none else some b

/-- A descriptor change of a staged entry, in PASS, with no record, mark or tally (R17). The remote is SERVING at its
ceiling if admin is ON and IDLE at its ceiling if OFF. -/
def changeStaged (lanes : Lanes) (b : Beat) (e : StagedEntry) : StagedEntry :=
  let c := beatByte b 1
  let e := if laneOn lanes 1 then
      { e with badCeiling := refusedValue (ceilingOk c) c,
               entry := if ceilingOk c then { e.entry with ceiling := c.toNat, profile := c.toNat } else e.entry }
    else e
  let c := beatByte b 2
  let e := if laneOn lanes 2 then
      { e with badClass := refusedValue (classOk c) c,
               entry := if classOk c then { e.entry with cls := c.toNat } else e.entry }
    else e
  let c := beatByte b 3
  let e := if laneOn lanes 3 then
      { e with badGroup := refusedValue (groupOk c) c,
               entry := if groupOk c then { e.entry with group := groupOf c } else e.entry }
    else e
  let v := adminOf (beatByte b 0)
  if laneOn lanes 0 then
    { e with entry := { e.entry with admin := v, state := if v then .serving else .idle } }
  else e

/-- A staged entry before its lanes are taken: the provisioned fields of the current entry, every other field as R16
gives. -/
def stagedBase (current : Entry) : StagedEntry :=
  { entry := { Entry.reset with
      admin := current.admin, ceiling := current.ceiling, cls := current.cls, group := current.group,
      profile := current.ceiling, state := if current.admin then .serving else .idle }
    badCeiling := none, badClass := none, badGroup := none }

/-- The staged entry a descriptor builds (R16): every lane is taken; a refused one leaves the current entry's value. -/
def buildStaged (current : Entry) (b : Beat) : StagedEntry := changeStaged allLanes b (stagedBase current)

/-- The staged entry of an unconfigured sector (R166). -/
def stagedUnconfigured : StagedEntry :=
  { entry := Entry.reset, badCeiling := none, badClass := none, badGroup := none }

end Sys2Proof.Machine
end

