-- ==== Sys2Proof/Machine/Outcomes.lean ====
section
/-! DEFINITION. Section 2, 2.2 to 2.8: how a remote takes the outcome of an expectation, a report's or a timeout's, by the kind
of the expectation and its own state. -/

namespace Sys2Proof.Machine

/-- The outcome handed to the remote's state machine (R108); a MISMATCH is handed as `garbled` (R107). Margins in
quarter-decibels, timing in sixteenths of a symbol, power in half-decibels. -/
inductive BurstOutcome where
  | heard (margin timing power : Int)
  | crcFail (margin : Int)
  | silent
  | garbled
  | timeout
  deriving DecidableEq, Repr

/-- The margin a report measured: HEARD and CRC_FAIL have one; the margin field of SILENT and GARBLED is not used
(R108). -/
def BurstOutcome.margin : BurstOutcome → Option Int
  | .heard m _ _ => some m
  | .crcFail m => some m
  | .silent => none
  | .garbled => none
  | .timeout => none

/-! ### Fade watches (R22, R46) -/

/-- A fade from service or from a climb: FADED, uncharged, backoff the backoff base, cause FADE, and the fade handed to
the episode (R22, R39, R50). -/
def fadeOut (k : SectorNo) (r : RemoteNo) (o : BurstOutcome) (s : State) : State :=
  let base := (s.params k).backoffBase
  stepTo k r .faded
    { StepInfo.heard .fade o.margin with inputs := some { Inputs.none with fade := true } }
    (fun e => { e with backoff := base }) s

/-- A miss of a SERVING remote: the K-th fades it (R22). -/
def servingMiss (k : SectorNo) (r : RemoteNo) (o : BurstOutcome) (s : State) : State :=
  if (s.params k).fadeCount ≤ (s.entry k r).misses + 1 then fadeOut k r o s
  else modEntry k r (fun e => { e with misses := e.misses + 1 }) s

/-- A fade watch of a SERVING remote (R22). -/
def takeServing (k : SectorNo) (r : RemoteNo) (o : BurstOutcome) (s : State) : State :=
  match o with
  | .heard _ _ _ => modEntry k r (fun e => { e with misses := 0 }) s
  | .crcFail _ => servingMiss k r o s
  | .silent => servingMiss k r o s
  | .garbled => servingMiss k r o s
  | .timeout => servingMiss k r o s

/-- A fade watch of a FADED remote: HEARD in SHADOW returns it to SERVING; any other outcome leaves it (R46). -/
def takeFaded (k : SectorNo) (r : RemoteNo) (o : BurstOutcome) (s : State) : State :=
  match o with
  | .heard m _ _ =>
    if (s.sector k).mode = .shadow then
      stepTo k r .serving
        { StepInfo.heard .shadowHeard (some m) with inputs := some { Inputs.none with shadowHeard := true } } id s
    else s
  | .crcFail _ => s
  | .silent => s
  | .garbled => s
  | .timeout => s

/-! ### Probes (R29 to R33) -/

/-- A probe heard at or above the accept margin: RANGING, then the group promotion, then, for a scout, the scout heard
input (R29, R50). -/
def probeHeard (k : SectorNo) (r : RemoteNo) (scout : Bool) (margin : Int) (s : State) : State :=
  let s := promoteGroup k r (stepTo k r .ranging (StepInfo.heard .probeHeard (some margin)) id s)
  if scout then scoutHeardInput k s else s

/-- A normal probe heard below the accept margin, or CRC_FAIL: FADED, uncharged, backoff the backoff base; attempts,
garbles and solo kept (R30). -/
def probeBack (k : SectorNo) (r : RemoteNo) (cause : StateCause) (margin : Int) (s : State) : State :=
  let base := (s.params k).backoffBase
  stepTo k r .faded (StepInfo.heard cause (some margin)) (fun e => { e with backoff := base }) s

/-- A normal probe GARBLED (R32): a shared one repeats at the head of its class, the third time with solo set; a solo
one is charged. -/
def probeGarbled (k : SectorNo) (r : RemoteNo) (solo : Bool) (s : State) : State :=
  if solo then charge k r .probeGarbled none s
  else if (s.entry k r).garbles < 2 then
    toQueueHead k r (StepInfo.plain .probeGarbled) (fun e => { e with garbles := e.garbles + 1 }) s
  else toQueueHead k r (StepInfo.plain .probeGarbled) (fun e => { e with solo := true }) s

/-- A probe of normal mark (R29 to R32). -/
def takeNormalProbe (k : SectorNo) (r : RemoteNo) (solo : Bool) (o : BurstOutcome) (s : State) : State :=
  match o with
  | .heard m _ _ =>
    if (s.params k).acceptMargin ≤ m then probeHeard k r false m s else probeBack k r .probeWeak m s
  | .crcFail m => probeBack k r .probeCrc m s
  | .silent => charge k r .probeSilent none s
  | .timeout => charge k r .probeTimeout none s
  | .garbled => probeGarbled k r solo s

/-- A scout that is not accepted goes to QUEUED at the tail, uncharged, with the cause of its outcome (R33). -/
def scoutBack (k : SectorNo) (r : RemoteNo) (cause : StateCause) (margin : Option Int) (s : State) : State :=
  toQueueTail k r (StepInfo.heard cause margin) id s

/-- A probe of scout mark (R33). -/
def takeScoutProbe (k : SectorNo) (r : RemoteNo) (o : BurstOutcome) (s : State) : State :=
  match o with
  | .heard m _ _ =>
    if (s.params k).acceptMargin ≤ m then probeHeard k r true m s else scoutBack k r .probeWeak (some m) s
  | .crcFail m => scoutBack k r .probeCrc (some m) s
  | .silent => scoutBack k r .probeSilent none s
  | .timeout => scoutBack k r .probeTimeout none s
  | .garbled => scoutBack k r .probeGarbled none s

/-! ### Ranging (R35, R36) -/

/-- The silent mark of a member of the ranging order (R34). -/
def Sector.silentMark (x : Sector) (r : RemoteNo) : Bool :=
  x.rangingOrder.any fun m => m.remote = r && m.silent

/-- Set a member's silent mark (R36). -/
def setSilent (r : RemoteNo) (b : Bool) (x : Sector) : Sector :=
  { x with rangingOrder := x.rangingOrder.map fun m => if m.remote = r then { m with silent := b } else m }

/-- SILENT or a timeout (R36). -/
def BurstOutcome.isSilent : BurstOutcome → Bool
  | .silent => true
  | .timeout => true
  | .heard _ _ _ => false
  | .crcFail _ => false
  | .garbled => false

/-- A failed exchange: exchanges rises, the silent mark is set or cleared, and two consecutive silent exchanges or the
ranging limit charge the remote (R36). -/
def failedExchange (k : SectorNo) (r : RemoteNo) (o : BurstOutcome) (s : State) : State :=
  let wasSilent := (s.sector k).silentMark r
  let s := modSector k (setSilent r o.isSilent) (modEntry k r (fun e => { e with exchanges := e.exchanges + 1 }) s)
  if o.isSilent && wasSilent then charge k r .rangeSilent o.margin s
  else if (s.params k).rangingLimit ≤ (s.entry k r).exchanges then charge k r .rangeLimit o.margin s
  else s

/-- An exchange heard within tolerance completes the ranging: CLIMBING, or SERVING where the restart profile is at the
ceiling (R35). -/
def rangeDone (k : SectorNo) (r : RemoteNo) (margin : Int) (s : State) : State :=
  let e := s.entry k r
  let st := if e.restartProfile (s.params k).restart < e.ceiling then RState.climbing else RState.serving
  stepTo k r st (StepInfo.heard .rangeDone (some margin)) id s

/-- A range expectation (R35, R36). Both limits are inclusive. -/
def takeRange (k : SectorNo) (r : RemoteNo) (o : BurstOutcome) (s : State) : State :=
  match o with
  | .heard m timing power =>
    if timing.natAbs ≤ (s.params k).timingTolerance ∧ power.natAbs ≤ (s.params k).powerTolerance then
      rangeDone k r m s
    else failedExchange k r o s
  | .crcFail _ => failedExchange k r o s
  | .silent => failedExchange k r o s
  | .garbled => failedExchange k r o s
  | .timeout => failedExchange k r o s

/-! ### The climb ladder (R37 to R39) -/

/-- The margin reaches the enter margin of profile p. A profile that the table does not hold has none (log 22). -/
def State.reachesEnter (s : State) (p : Nat) (margin : Int) : Bool :=
  match s.store.profiles[p]? with
  | some m => decide (m.enter ≤ margin)
  | none => false

/-- The margin lies below the exit margin of profile p. -/
def State.belowExit (s : State) (p : Nat) (margin : Int) : Bool :=
  match s.store.profiles[p]? with
  | some m => decide (margin < m.exit)
  | none => false

/-- A miss of a CLIMBING remote: good is 0, and the K-th miss fades it with attempts kept (R39). -/
def climbMiss (k : SectorNo) (r : RemoteNo) (o : BurstOutcome) (s : State) : State :=
  if (s.params k).fadeCount ≤ (s.entry k r).misses + 1 then fadeOut k r o s
  else modEntry k r (fun e => { e with misses := e.misses + 1, good := 0 }) s

/-- A good report in CLIMBING: the climb hold raises the profile by one, into SERVING at the ceiling (R37). -/
def climbGood (k : SectorNo) (r : RemoteNo) (margin : Int) (s : State) : State :=
  let e := s.entry k r
  if (s.params k).climbHold ≤ e.good + 1 then
    if e.profile + 1 = e.ceiling then stepTo k r .serving (StepInfo.heard .climbUp (some margin)) id s
    else remoteStep k r (StepInfo.heard .climbUp (some margin))
      { e with profile := e.profile + 1, good := 0, misses := 0 } s
  else modEntry k r (fun e => { e with good := e.good + 1, misses := 0 }) s

/-- A report below the exit margin lowers the profile by one; at profile 0 it is a miss (R38). -/
def climbLow (k : SectorNo) (r : RemoteNo) (o : BurstOutcome) (margin : Int) (s : State) : State :=
  let e := s.entry k r
  if e.profile = 0 then climbMiss k r o s
  else remoteStep k r (StepInfo.heard .climbDown (some margin))
    { e with profile := e.profile - 1, good := 0, misses := 0 } s

/-- A climb watch of a CLIMBING remote, judged against the profile that holds when it is taken (R20, R37 to R39). -/
def takeClimb (k : SectorNo) (r : RemoteNo) (o : BurstOutcome) (s : State) : State :=
  match o with
  | .heard m _ _ =>
    let p := (s.entry k r).profile
    if s.reachesEnter (p + 1) m then climbGood k r m s
    else if s.belowExit p m then climbLow k r o m s
    else modEntry k r (fun e => { e with misses := 0, good := 0 }) s
  | .crcFail _ => climbMiss k r o s
  | .silent => climbMiss k r o s
  | .garbled => climbMiss k r o s
  | .timeout => climbMiss k r o s

/-! ### All together -/

/-- Hand an outcome to a remote by the kind of its expectation and its present state; an open expectation is always
of a kind that belongs to the state (R20), and no other pair does anything. -/
def takeOutcome (k : SectorNo) (r : RemoteNo) (kind : WatchKind) (o : BurstOutcome) (s : State) : State :=
  match kind, (s.entry k r).state with
  | .fadeWatch, .serving => takeServing k r o s
  | .fadeWatch, .faded => takeFaded k r o s
  | .climbWatch, .climbing => takeClimb k r o s
  | .probe solo false, .probing => takeNormalProbe k r solo o s
  | .probe _ true, .probing => takeScoutProbe k r o s
  | .range, .ranging => takeRange k r o s
  | _, _ => s

/-- A matched HEARD sets the last margin; CRC_FAIL does not (R5, R108). -/
def noteMargin (k : SectorNo) (r : RemoteNo) (o : BurstOutcome) (s : State) : State :=
  match o with
  | .heard m _ _ => modEntry k r (fun e => { e with lastMargin := some m }) s
  | .crcFail _ => s
  | .silent => s
  | .garbled => s
  | .timeout => s

end Sys2Proof.Machine
end

