-- ==== Sys2Proof/Machine/Plans.lean ====
section
/-! DEFINITION. Frame plans and their expectations (R79, R84, R85): looking one up, resolving it, the timeouts of a plan that
leaves, and the discard of a history. -/

namespace Sys2Proof.Machine

/-- The buffer number of a plan: its frame number modulo 2 (R83). -/
def Plan.buffer (p : Plan) : Nat := p.frame.toNat % 2

/-- The slot count of a plan. -/
def Plan.count (p : Plan) : Nat := p.slots.length

/-- The expectations of a decision by minislot: six for a PROBE, else one at minislot 0 (R106). -/
def Decision.watches : Decision → List (Option Expectation)
  | .raw w => [w]
  | .idle => [none]
  | .dataUp w => [some w]
  | .dataDown _ => [none]
  | .range w => [some w]
  | .probe _ ms => ms

def Decision.isProbe : Decision → Bool
  | .probe _ _ => true
  | _ => false

/-- The expectation of a plan at a slot and minislot, if there is one. -/
def Plan.watch (p : Plan) (slot minislot : Nat) : Option Expectation :=
  match p.slots[slot]? with
  | some (some d) => (d.decision.watches[minislot]?).join
  | _ => none

/-- Whether a slot is decided as PROBE. -/
def Plan.probeAt (p : Plan) (slot : Nat) : Bool :=
  match p.slots[slot]? with
  | some (some d) => d.decision.isProbe
  | _ => false

/-- Set the condition of one expectation of a decision. -/
def Decision.setCondition (minislot : Nat) (c : Condition) : Decision → Decision
  | .raw w => .raw (w.map fun w => { w with condition := c })
  | .idle => .idle
  | .dataUp w => .dataUp { w with condition := c }
  | .dataDown r => .dataDown r
  | .range w => .range { w with condition := c }
  | .probe solo ms => .probe solo (ms.modify minislot fun m => m.map fun w => { w with condition := c })

/-- Set the condition of one expectation of a plan. -/
def Plan.setCondition (slot minislot : Nat) (c : Condition) (p : Plan) : Plan :=
  { p with slots := p.slots.modify slot fun d =>
      d.map fun d => { d with decision := d.decision.setCondition minislot c } }

/-- Change the plans of one frame number; no two plans of a history share one (R84). -/
def modPlan (f : Frame) (g : Plan → Plan) (x : Sector) : Sector :=
  { x with history := x.history.map fun p => if p.frame = f then g p else p }

/-- The plan of a frame number in a history. -/
def Sector.planOf (x : Sector) (f : Frame) : Option Plan := x.history.find? fun p => p.frame = f

/-- The newest plan: the last of the history (R84). -/
def Sector.newest (x : Sector) : Option Plan := x.history.getLast?

/-- Resolve one expectation as a timeout, if it is open when its turn comes (R23). -/
def timeoutOne (k : SectorNo) (f : Frame) (slot minislot : Nat) (s : State) : State :=
  match ((s.sector k).planOf f).bind fun p => p.watch slot minislot with
  | some w =>
    match w.condition with
    | .open =>
      takeOutcome k w.remote w.kind .timeout (modSector k (modPlan f (Plan.setCondition slot minislot .resolved)) s)
    | .resolved => s
    | .void => s
  | none => s

/-- Resolve the open expectations of a plan in ascending slot index, then ascending minislot (R23). -/
def timeoutPlan (k : SectorNo) (f : Frame) (count : Nat) (s : State) : State :=
  (List.range count).foldl
    (fun t slot => (List.range 6).foldl (fun t minislot => timeoutOne k f slot minislot t) t) s

/-- A plan leaves the history. -/
def removePlan (f : Frame) (x : Sector) : Sector := { x with history := x.history.filter fun p => p.frame ≠ f }

/-- One old plan leaves: its open expectations time out in ACTIVE or SHADOW, and are void in a suspended sector
(R79). They cease to exist with the plan (R85). -/
def retirePlan (k : SectorNo) (p : Plan) (s : State) : State :=
  let x := s.sector k
  let s := if x.mode ≠ .pass ∧ x.suspended = false then timeoutPlan k p.frame p.count s else s
  modSector k (removePlan p.frame) s

/-- Work item 1 of a normal epoch: every plan more than D frames behind F leaves, oldest first (R79). -/
def retirePlans (k : SectorNo) (s : State) : State :=
  let x := s.sector k
  let old := x.history.filter fun p => (s.params k).latency < (x.frame - p.frame).toNat
  old.foldl (fun t p => retirePlan k p t) s

/-- Discard the plan history with every expectation in it, and empty wait list and roster (R70, R74, R80). -/
def discardHistory (x : Sector) : Sector := { x with history := [], waitList := [], roster := Roster.empty }

/-- The discard of an event that also sets resync pending (R74). -/
def discardForEvent (x : Sector) : Sector := { discardHistory x with resyncPending := true }

/-- A PROBING remote goes to QUEUED at the head of its class, uncharged (R48). -/
def requeueProbing (cause : StateCause) (k : SectorNo) (r : RemoteNo) (s : State) : State :=
  if (s.entry k r).state = .probing then toQueueHead k r (StepInfo.plain cause) id s else s

/-- Clear every silent mark (R48). -/
def clearSilent (x : Sector) : Sector :=
  { x with rangingOrder := x.rangingOrder.map fun m => { m with silent := false } }

/-- The remotes' part of a resync or RESUME in ACTIVE: PROBING remotes in descending number, silent marks cleared;
in SHADOW and PASS no remote moves (R48, R80). -/
def requeueForDiscard (cause : StateCause) (k : SectorNo) (s : State) : State :=
  if (s.sector k).mode = .active then
    modSector k clearSilent (forRemotes remotes.reverse (requeueProbing cause k) s)
  else s

end Sys2Proof.Machine
end

