-- ==== Sys2Proof/Machine/Windows.lean ====
section
/-! DEFINITION. Section 7, 7.3 to 7.7: windows and their overlap, the table's changes, the access matrix and the
classification of a request. -/

namespace Sys2Proof.Machine

/-! ### Windows (R133, R134) -/

def Window.size (w : Window) : Nat := 2 ^ w.sizeExp

/-- A window covers base to base + size − 1 (R133). -/
def Window.covers (w : Window) (a : Addr) : Bool :=
  decide (w.base.toNat ≤ a.toNat) && decide (a.toNat < w.base.toNat + w.size)

/-- Aligned to its size (R134). -/
def Window.aligned (w : Window) : Bool := w.base.toNat % w.size == 0

/-- Two windows overlap when any byte lies in both (R134). -/
def Window.overlaps (v w : Window) : Bool :=
  decide (v.base.toNat < w.base.toNat + w.size) && decide (w.base.toNat < v.base.toNat + v.size)

/-- The window of a sector and kind in a table. -/
def windowOf (ws : List Window) (kind : WindowKind) (k : SectorNo) : Option Window :=
  ws.find? fun w => w.kind = kind && w.sector = some k

/-- The window of a size exponent and base, where a configuration gives them. -/
def plainWindow (kind : WindowKind) : Option (Nat × Addr) → List Window
  | some (e, b) => [{ kind := kind, base := b, sizeExp := e, sector := none, mark := .none }]
  | none => []

/-- The three windows of a configured sector. -/
def sectorWindows (k : SectorNo) : Option SectorSetup → List Window
  | none => []
  | some x =>
    [{ kind := .descriptor, base := x.descBase, sizeExp := 10, sector := some k, mark := .none },
     { kind := .map, base := x.mapBase, sizeExp := 11, sector := some k, mark := .none },
     { kind := .report, base := x.reportBase, sizeExp := x.reportExp, sector := some k, mark := .none }]

/-- The windows a validated configuration gives, in the order of R167: ANCHOR, LOG, the GUARDs, then DESCRIPTOR, MAP
and REPORT of each configured sector. -/
def Setup.windows (c : Setup) (anchor : Addr) : List Window :=
  [Window.anchorAt anchor] ++ plainWindow .log (c.log.map fun p => (p.1 + 5, p.2)) ++ plainWindow .guard c.guard0 ++
    plainWindow .guard c.guard1 ++ sectorNos.flatMap fun k => sectorWindows k c.sectors[k]

/-- The table requests are classified against: the staged table while a validated load reads descriptors, else the
table in force (R135, R143). -/
def State.activeTable (s : State) : List Window :=
  match s.channel.inFlight with
  | some { phase := .readingDescriptors setup _ _ _ _, .. } => setup.windows s.channel.anchorBase
  | _ => s.windows

/-! ### Changes of the table by a relocation (R135) -/

/-- A MAP relocation is taken: the new window enters with mark new, the present one takes mark old. -/
def addMapWindow (k : SectorNo) (base : Addr) (s : State) : State :=
  { s with windows := (s.windows.map fun w =>
      if w.kind = .map ∧ w.sector = some k then { w with mark := .old } else w) ++
      [{ kind := .map, base := base, sizeExp := 11, sector := some k, mark := .new }] }

/-- A MAP relocation completes: the old window leaves, the new one's mark becomes none. -/
def keepNewMap (k : SectorNo) (s : State) : State :=
  { s with windows := (s.windows.filter fun w => !(w.kind = .map && w.sector = some k && w.mark = .old)).map fun w =>
      if w.kind = .map ∧ w.sector = some k then { w with mark := .none } else w }

/-- A MAP relocation ends without completing: the new window leaves, the old one's mark becomes none. -/
def keepOldMap (k : SectorNo) (s : State) : State :=
  { s with windows := (s.windows.filter fun w => !(w.kind = .map && w.sector = some k && w.mark = .new)).map fun w =>
      if w.kind = .map ∧ w.sector = some k then { w with mark := .none } else w }

/-- A REPORT or DESCRIPTOR relocation completes: the window gets its new base and size in the same place. -/
def moveWindow (kind : WindowKind) (k : SectorNo) (base : Addr) (sizeExp : Nat) (s : State) : State :=
  { s with windows := s.windows.map fun w =>
      if w.kind = kind ∧ w.sector = some k then { w with base := base, sizeExp := sizeExp } else w }

/-! ### Classification (R137 to R141) -/

/-- The aligned beat that holds an address. -/
def alignBeat (a : Addr) : Addr := a &&& ~~~(7 : Addr)

/-- The addresses of the beats a request covers (R127). -/
def beatAddrs (q : Request) : List Addr :=
  (List.range q.beats).map fun j => alignBeat q.addr + BitVec.ofNat 40 (8 * j)

/-- Beat 0 plus the length would pass the top of the address space (R137). -/
def passesTop (q : Request) : Bool := decide (2 ^ 40 < (alignBeat q.addr).toNat + 8 * q.beats)

/-- The window an address lies in. -/
def windowAt (ws : List Window) (a : Addr) : Option Window := ws.find? fun w => w.covers a

/-- The access class of a request, with what its copy or its refusal needs (R138). -/
inductive AccessClass where
  | pass
  | snoopDescriptor (w : Window) (k : SectorNo)
  | snoopReport (w : Window) (k : SectorNo)
  | patch (w : Window) (k : SectorNo)
  | takeCommand
  | takeTail
  | takeMarker
  | absorb
  | refuse (cause : AccessCause)
  deriving DecidableEq, Repr

/-- The areas of the anchor block (R141). -/
inductive AnchorArea where
  | command
  | result
  | tail
  | marker
  | status
  | ordinary
  deriving DecidableEq, Repr

/-- The area of an anchor offset (R141). -/
def anchorArea (off : Nat) : AnchorArea :=
  if off < 0x008 then .command
  else if off < 0x010 then .result
  else if off < 0x018 then .tail
  else if off < 0x020 then .marker
  else if 0x800 ≤ off ∧ off < 0x840 then .status
  else if 0x900 ≤ off ∧ off < 0xA00 then .status
  else if 0xC00 ≤ off then .status
  else .ordinary

/-- A CONTROLLER write in the ANCHOR window (R141). A multi-beat write on a TAKE word or in an ABSORB area is refused with
cause SPLIT as R141 and R159 say, where R139 gives ROLE for a refusal by R141 (model's choice, log 36). -/
def classifyAnchorWrite (w : Window) (q : Request) : AccessClass :=
  if q.beats = 1 then
    match anchorArea (alignBeat q.addr - w.base).toNat with
    | .command => .takeCommand
    | .result => .absorb
    | .tail => .takeTail
    | .marker => .takeMarker
    | .status => .absorb
    | .ordinary => .pass
  else if (beatAddrs q).all fun a => anchorArea (a - w.base).toNat = .ordinary then .pass
  else .refuse .split

/-- The access matrix (Table 7.2). -/
def classifyIn (w : Window) (role : Role) (q : Request) : AccessClass :=
  match w.kind, role, q.dir with
  | .anchor, .controller, .read => .pass
  | .anchor, .controller, .write => classifyAnchorWrite w q
  | .anchor, _, _ => .refuse .role
  | .descriptor, .controller, .write =>
    match w.sector with
    | some k => .snoopDescriptor w k
    | none => .pass
  | .descriptor, _, .read => .pass
  | .descriptor, _, .write => .refuse .role
  | .map, .controller, _ => .pass
  | .map, .builder k, .read => if w.sector = some k then .patch w k else .refuse .role
  | .map, _, .read => .pass
  | .map, _, .write => .refuse .role
  | .report, .controller, .read => .pass
  | .report, .controller, .write => .absorb
  | .report, .builder _, _ => .refuse .role
  | .report, .receiver _, .read => .pass
  | .report, .receiver k, .write => if w.sector = some k then .snoopReport w k else .refuse .role
  | .report, .other, .read => .pass
  | .report, .other, .write => .refuse .role
  | .log, .controller, .read => .pass
  | .log, .controller, .write => .absorb
  | .log, _, _ => .refuse .role
  | .guard, .controller, _ => .pass
  | .guard, _, _ => .refuse .role

/-- Whether every beat of the request lies in one window, and in which; or outside every window (R137). -/
inductive Placement where
  | outside
  | inside (w : Window)
  | split
  deriving DecidableEq, Repr

/-- Where a request lies in a table (R137). -/
def placementIn (ws : List Window) (q : Request) : Placement :=
  if passesTop q then .split
  else
    let found := (beatAddrs q).map (windowAt ws)
    match found with
    | [] => .outside
    | none :: rest => if rest.all fun w => w.isNone then .outside else .split
    | some w :: rest => if rest.all fun v => v = some w then .inside w else .split

/-- The role of a master. -/
def State.role (s : State) (m : MasterNo) : Role := s.roles[m]

/-- R159 row 1: the pending result word is occupied, or a decided result is not yet handed. -/
def State.resultWaits (s : State) : Bool := s.writer.pendingResult.isSome || !s.channel.held.isEmpty

/-- The class of a request in the table and role map in force (R137, R143). A command word write that row 1 of R159
would hold inside its master's open locked sequence is refused with cause LOCK (R159). -/
def classify (s : State) (q : Request) : AccessClass :=
  match placementIn s.activeTable q with
  | .outside => .pass
  | .split => .refuse .split
  | .inside w =>
    match classifyIn w (s.role q.master) q with
    | .takeCommand => if s.resultWaits && s.ports.locks.contains q.master then .refuse .lock else .takeCommand
    | c => c

/-- ABSORB and REFUSE need no memory port; the other classes do (R138). -/
def AccessClass.needsPort : AccessClass → Bool
  | .absorb => false
  | .refuse _ => false
  | .pass => true
  | .snoopDescriptor _ _ => true
  | .snoopReport _ _ => true
  | .patch _ _ => true
  | .takeCommand => true
  | .takeTail => true
  | .takeMarker => true

/-- The sector a role has. -/
def roleSector : Role → Option SectorNo
  | .controller => none
  | .builder k => some k
  | .receiver k => some k
  | .other => none

/-- The ACCESS record of a refusal and its notice (R139). -/
def logRefusal (cause : AccessCause) (q : Request) (s : State) : State :=
  let w := windowAt s.activeTable (alignBeat q.addr)
  let role := s.role q.master
  let k := (w.bind Window.sector).or (roleSector role)
  raiseNotice .access
    (logFor k (.access cause q.master role q.dir (w.map Window.kind) ((q.addr.setWidth 16).setWidth 32)) s)

end Sys2Proof.Machine
end

