-- ==== Sys2Proof/Machine/Configuration.lean ====
section
/-! DEFINITION. Section 9, 9.5: the configuration area's items (Table 11.8), their validation in the order of R167, and the one
step that applies a load (R16, R168). -/

namespace Sys2Proof.Machine

/-! ### Reading the area (Table 11.8); offsets are anchor offsets, the area starts at 100h -/

def areaByte (area : List Beat) (off : Nat) : Byte :=
  beatByte (area.getD ((off - 0x100) / 8) 0) ((off - 0x100) % 8)

def areaNat (area : List Beat) (off : Nat) : Nat := (areaByte area off).toNat

/-- A two-byte field. -/
def areaHalf (area : List Beat) (off : Nat) : BitVec 16 := areaByte area (off + 1) ++ areaByte area off

def areaSigned (area : List Beat) (off : Nat) : Int := (areaHalf area off).toInt

/-- An 8-byte base field, of which bits 0 to 39 are used. -/
def areaBase (area : List Beat) (off : Nat) : Addr := (area.getD ((off - 0x100) / 8) 0).extractLsb' 0 40

/-- The sector's block of the area. -/
def blockOff (k : SectorNo) : Nat := 0x200 + 0x100 * k.val

/-- The configured flag of a sector's block. -/
def areaConfigured (area : List Beat) (k : SectorNo) : Bool := (areaByte area (blockOff k)).getLsbD 0

/-- A sector's items. -/
def sectorSetupOf (area : List Beat) (k : SectorNo) : SectorSetup :=
  let b := blockOff k
  { descBase := areaBase area (b + 0x08), mapBase := areaBase area (b + 0x10), reportExp := areaNat area (b + 0x20),
    reportBase := areaBase area (b + 0x18),
    params :=
      { latency := areaNat area (b + 0x21), fadeCount := areaNat area (b + 0x22),
        attemptsLimit := areaNat area (b + 0x23), backoffBase := areaNat area (b + 0x24),
        rangingLimit := areaNat area (b + 0x25), climbHold := areaNat area (b + 0x26),
        acceptMargin := areaSigned area (b + 0x30), timingTolerance := areaNat area (b + 0x27),
        powerTolerance := areaNat area (b + 0x28), restart := areaNat area (b + 0x29) },
    tunables :=
      { floor := areaNat area (b + 0x2A), cap := areaNat area (b + 0x2B), budget := areaNat area (b + 0x2C),
        mask := (areaByte area (b + 0x2D)).extractLsb' 0 6, reclaim := areaNat area (b + 0x2E) == 1,
        threshold := areaNat area (b + 0x2F), holdDown := (areaHalf area (b + 0x32)).toNat,
        settle := areaNat area (b + 0x34) } }

/-- A size exponent with its base; an exponent of 0 is absence. -/
def sizedBase (area : List Beat) (expOff baseOff : Nat) : Option (Nat × Addr) :=
  if areaNat area expOff = 0 then none else some (areaNat area expOff, areaBase area baseOff)

/-- The configuration an area spells. -/
def setupOf (area : List Beat) : Setup :=
  { commandTimeout := areaNat area 0x100, floor := areaNat area 0x101,
    classes := perEight fun i => areaNat area (0x120 + i.val),
    log := sizedBase area 0x102 0x108, guard0 := sizedBase area 0x103 0x110, guard1 := sizedBase area 0x104 0x118,
    profiles := (List.range 12).map fun p =>
      { enter := areaSigned area (0x140 + 4 * p), exit := areaSigned area (0x142 + 4 * p) },
    roles := perEight fun m => (roleOfByte (areaByte area (0x128 + m.val))).getD .other,
    sectors := perSector fun k => if areaConfigured area k then some (sectorSetupOf area k) else none }

/-! ### Validation (R167, Table 9.4): each item's test with its code, in the order they are tested -/

def within (lo hi n : Nat) : Bool := decide (lo ≤ n) && decide (n ≤ hi)

def marginOk (m : Int) : Bool := decide (-512 ≤ m) && decide (m ≤ 511)

def alignedTo (exp : Nat) (a : Addr) : Bool := a.toNat % 2 ^ exp == 0

/-- The concurrency caps of Table 3.2. -/
def capOk (n : Nat) : Bool := n = 8 || n = 16 || n = 32 || n = 128

/-- The tests of a size item and its base item; the base is not tested when the size item is 0 (R167). -/
def sizedTests (expOk : Nat → Bool) (grow : Nat) (exp : Nat) (base : Addr) (expCode baseCode : Nat) : List (Bool × Nat) :=
  [(exp == 0 || expOk exp, expCode), (exp == 0 || alignedTo (exp + grow) base, baseCode)]

/-- The device items in ascending code. -/
def deviceTests (area : List Beat) : List (Bool × Nat) :=
  [(within 1 255 (areaNat area 0x100), 0x0001), (within 0 3 (areaNat area 0x101), 0x0002)] ++
  sizedTests (within 6 14) 5 (areaNat area 0x102) (areaBase area 0x108) 0x0004 0x0005 ++
  sizedTests (within 3 39) 0 (areaNat area 0x103) (areaBase area 0x110) 0x0006 0x0007 ++
  sizedTests (within 3 39) 0 (areaNat area 0x104) (areaBase area 0x118) 0x0008 0x0009 ++
  (List.range 8).map fun i => (within 0 3 (areaNat area (0x120 + i)), 0x0010 + i)

/-- Profile p: margins in range, exit below enter, enter above the enter of p − 1 (R167). -/
def profileTests (area : List Beat) : List (Bool × Nat) :=
  (List.range 12).map fun p =>
    let enter := areaSigned area (0x140 + 4 * p)
    let exit := areaSigned area (0x142 + 4 * p)
    (marginOk enter && marginOk exit && decide (exit < enter) &&
      (p == 0 || decide (areaSigned area (0x140 + 4 * (p - 1)) < enter)), 0x0020 + p)

/-- One configured sector's items in item order. -/
def sectorTests (area : List Beat) (k : SectorNo) : List (Bool × Nat) :=
  let b := blockOff k
  let x := sectorSetupOf area k
  let code (item : Nat) : Nat := 0x100 * (k.val + 1) + item
  [(alignedTo 10 x.descBase, code 0x01), (alignedTo 11 x.mapBase, code 0x02), (within 10 16 x.reportExp, code 0x03),
   (alignedTo x.reportExp x.reportBase, code 0x04), (within 1 4 x.params.latency, code 0x05),
   (within 1 15 x.params.fadeCount, code 0x06), (within 1 15 x.params.attemptsLimit, code 0x07),
   (within 1 255 x.params.backoffBase, code 0x08), (within 1 15 x.params.rangingLimit, code 0x09),
   (within 1 63 x.params.climbHold, code 0x0A), (marginOk x.params.acceptMargin, code 0x0B),
   (within 0 255 x.params.timingTolerance, code 0x0C), (within 0 31 x.params.powerTolerance, code 0x0D),
   (within 0 11 x.params.restart, code 0x0E), (within 0 3 x.tunables.floor, code 0x0F),
   (capOk x.tunables.cap, code 0x10), (within 0 8 x.tunables.budget, code 0x11),
   (within 0 0x3F (areaNat area (b + 0x2D)), code 0x12), (within 0 1 (areaNat area (b + 0x2E)), code 0x13),
   (within 2 64 x.tunables.threshold, code 0x14), (within 0 4095 x.tunables.holdDown, code 0x15),
   (within 0 255 x.tunables.settle, code 0x16)]

/-- The windows in the order of R167, each with its base item's code. -/
def windowCodes (c : Setup) (anchor : Addr) : List (Window × Nat) :=
  (c.windows anchor).zip
    ([0] ++ (if c.log.isSome then [0x0005] else []) ++ (if c.guard0.isSome then [0x0007] else []) ++
      (if c.guard1.isSome then [0x0009] else []) ++
      sectorNos.flatMap fun k =>
        if c.sectors[k].isSome then [0x100 * (k.val + 1) + 1, 0x100 * (k.val + 1) + 2, 0x100 * (k.val + 1) + 4]
        else [])

/-- Each window is tested against every window before it (R167). -/
def overlapTests : List Window → List (Window × Nat) → List (Bool × Nat)
  | _, [] => []
  | before, (w, code) :: rest =>
    (!before.any (fun v => v.overlaps w), 0x8000 + code) :: overlapTests (before ++ [w]) rest

/-- The role map's entries, then the need of a CONTROLLER (R136, R167). The entries are tested in ascending master number,
which R167 leaves open (model's choice, log 39). -/
def roleTests (area : List Beat) : List (Bool × Nat) :=
  ((List.range 8).map fun m =>
    (match roleOfByte (areaByte area (0x128 + m)) with
     | some (.builder k) => areaConfigured area k
     | some (.receiver k) => areaConfigured area k
     | some _ => true
     | none => false, 0x0030 + m)) ++
  [((List.range 8).any fun m => roleOfByte (areaByte area (0x128 + m)) = some .controller, 0x003F)]

/-- Every test in order: device items, profiles, configured sectors, overlap, role map (R167). -/
def allTests (area : List Beat) (anchor : Addr) : List (Bool × Nat) :=
  deviceTests area ++ profileTests area ++
    (sectorNos.flatMap fun k => if areaConfigured area k then sectorTests area k else []) ++
    overlapTests [] (windowCodes (setupOf area) anchor) ++ roleTests area

/-- The code of the first failing test, if any. -/
def firstFailure : List (Bool × Nat) → Option Nat
  | [] => none
  | (ok, code) :: rest => if ok then firstFailure rest else some code

/-- Validation: the detail of the first failing item, or none (R167). -/
def validate (area : List Beat) (anchor : Addr) : Option Nat := firstFailure (allTests area anchor)

/-- The number of sectors a configuration configures: LOAD_CONFIG's DONE detail (Table 9.2). -/
def Setup.configuredCount (c : Setup) : Nat := sectorNos.countP fun k => c.sectors[k].isSome

/-! ### Applying a load (R16, R168) -/

/-- One DESCRIPTOR record for a lane whose last value was refused (R16). -/
def logRefused (k : SectorNo) (r : RemoteNo) (cause : DescriptorCause) (b : Option Byte) (s : State) : State :=
  match b with
  | some b => refuseLane k r cause b s
  | none => s

/-- The records and the replacement of one entry (R16): refused lanes, then a STATE record with cause CONFIG if state
or profile differs. -/
def installEntry (staged : Vector (Vector StagedEntry 128) 4) (k : SectorNo) (r : RemoteNo) (s : State) : State :=
  let e := (staged[k])[r]
  let old := s.entry k r
  let s := modEntry k r (fun _ => e.entry) s
  let s := logRefused k r .ceilingInvalid e.badCeiling s
  let s := logRefused k r .classInvalid e.badClass s
  let s := logRefused k r .groupInvalid e.badGroup s
  logStep k r (StepInfo.silent .config) old e.entry s

/-- What a load does to a sector beside its entries (R54, R70, R72, R74, R98): history discarded, resync pending set,
pack buffer empty, stamps at their first values, ranging order empty, tunables set and nothing staged. An
unconfigured sector's items are not read, and keep their values (log 21). -/
def installSector (x : Option SectorSetup) (y : Sector) : Sector :=
  let y := { resetStamps (discardForEvent y) with pack := none, rangingOrder := [], staged := Staged.none }
  match x with
  | some x => { y with tunables := x.tunables }
  | none => y

/-- What the configuration store holds for a sector after a load. -/
def installParams (x : Option SectorSetup) (old : SectorConfig) : SectorConfig :=
  match x with
  | some x => { configured := true, params := x.params }
  | none => { old with configured := false }

/-- One whole sector of a load: its entries with their records, then the rest, its 32 mirror groups and its counter
block. -/
def installOne (setup : Setup) (staged : Vector (Vector StagedEntry 128) 4) (k : SectorNo) (s : State) : State :=
  let s := forRemotes remotes (installEntry staged k) s
  let s := modSector k (installSector setup.sectors[k]) s
  markCounter k (forRemotes remotes (markMirror k) s)

/-- The device items of a load: table, roles, store, notice classes and floor, log geometry with head and tail 0
(R135, R136, R168). The next sequence number and the skip count are kept. -/
def installDevice (setup : Setup) (s : State) : State :=
  { s with
    windows := setup.windows s.channel.anchorBase
    roles := setup.roles
    store :=
      { commandTimeout := setup.commandTimeout, profiles := setup.profiles,
        sectors := perSector fun k => installParams setup.sectors[k] s.store.sectors[k] }
    notices := { s.notices with classes := setup.classes, floor := setup.floor }
    writer := { s.writer with
      log := setup.log.map fun p => { base := p.2, k := p.1 }
      head := 0
      tail := 0 } }

/-- The one step that ends a load DONE (R168). -/
def applyLoad (setup : Setup) (staged : Vector (Vector StagedEntry 128) 4) (s : State) : State :=
  let s := sectorNos.foldl (fun t k => installOne setup staged k t) s
  finish .done (BitVec.ofNat 16 setup.configuredCount) (markDevice (installDevice setup s))

end Sys2Proof.Machine
end

