-- ==== Sys2Proof/Machine/Reports.lean ====
section
/-! DEFINITION. Section 5: report intake (beat classification, pack buffer, form check) and the matching of reports against
the plan history. -/

namespace Sys2Proof.Machine

/-- A REPORT_FAULT record raises notice kind REPORT_FAULT in the same step, skipped or not (R109). -/
def reportFault (k : SectorNo) (f : Frame) (cause : ReportFault) (remote : Option RemoteNo) (detail : Nat) (s : State) :
    State :=
  raiseNotice .reportFault (logFrame k f (.reportFault cause remote (BitVec.ofNat 32 detail)) s)

/-- The sector's current frame number. -/
def State.frame (s : State) (k : SectorNo) : Frame := (s.sector k).frame

/-- Advance the torn count (R110). -/
def bumpTorn (k : SectorNo) (s : State) : State := bumpCounts k (fun c => { c with torn := c.torn + 1 }) s

/-- A torn record or quarter: one TORN record with its window offset, and the torn count (R99, R100, R109). -/
def tear (k : SectorNo) (addr winBase : Addr) (s : State) : State :=
  bumpTorn k (reportFault k (s.frame k) .torn none (addr - winBase).toNat s)

/-! ### Matching (R104 to R108) -/

/-- The outcome a report gives, by its code (Table 11.1). The form check has refused the other codes. -/
def Report.outcomeOf (p : Report) : BurstOutcome :=
  match p.outcome with
  | 0 => .heard p.margin p.timing p.power
  | 1 => .silent
  | 2 => .garbled
  | _ => .crcFail p.margin

/-- HEARD and CRC_FAIL name the remote the receiver decoded (R107). -/
def BurstOutcome.namesRemote : BurstOutcome → Bool
  | .heard _ _ _ => true
  | .crcFail _ => true
  | .silent => false
  | .garbled => false
  | .timeout => false

/-- The plan a frame tag names (R105). -/
def Sector.planOfTag (x : Sector) (tag : Byte) : Option Plan :=
  x.history.find? fun p => p.frame.setWidth 8 = tag

/-- A STRAY report (R105, R109). -/
def takeStray (k : SectorNo) (p : Report) (s : State) : State :=
  bumpCounts k (fun c => { c with stray := c.stray + 1 })
    (reportFault k (s.frame k) .stray (some p.remote) (p.tag.toNat * 256 + p.slot) s)

/-- A MISMATCH: logged, counted, and resolved as GARBLED for the expected remote (R107). -/
def takeMismatch (k : SectorNo) (plan : Plan) (w : Expectation) (p : Report) (s : State) : State :=
  let s := bumpCounts k (fun c => { c with mismatch := c.mismatch + 1 })
    (reportFault k plan.frame .mismatch (some w.remote) p.remote.val s)
  takeOutcome k w.remote w.kind .garbled
    (modSector k (modPlan plan.frame (Plan.setCondition p.slot p.minislot .resolved)) s)

/-- A matched report: the expectation is resolved, the report counted, and the outcome handed to the remote (R108). -/
def takeMatched (k : SectorNo) (plan : Plan) (w : Expectation) (p : Report) (s : State) : State :=
  let s := bumpCounts k (fun c => { c with matched := c.matched + 1 })
    (modSector k (modPlan plan.frame (Plan.setCondition p.slot p.minislot .resolved)) s)
  takeOutcome k w.remote w.kind p.outcomeOf (noteMargin k w.remote p.outcomeOf s)

/-- A report that is not STRAY, by the condition of its expectation (R106). -/
def takeAtSlot (k : SectorNo) (plan : Plan) (p : Report) (s : State) : State :=
  match plan.watch p.slot p.minislot with
  | none => bumpCounts k (fun c => { c with unwatched := c.unwatched + 1 }) s
  | some w =>
    match w.condition with
    | .void => bumpCounts k (fun c => { c with void := c.void + 1 }) s
    | .resolved =>
      bumpCounts k (fun c => { c with duplicate := c.duplicate + 1 })
        (reportFault k plan.frame .duplicate (some w.remote) (p.slot * 8 + p.minislot) s)
    | .open =>
      if p.outcomeOf.namesRemote ∧ p.remote ≠ w.remote then takeMismatch k plan w p s
      else takeMatched k plan w p s

/-- Matching: the plan and slot first, STRAY where there is none (R105). -/
def matchReport (k : SectorNo) (p : Report) (s : State) : State :=
  match (s.sector k).planOfTag p.tag with
  | none => takeStray k p s
  | some plan =>
    if plan.count ≤ p.slot then takeStray k p s
    else if 0 < p.minislot ∧ plan.probeAt p.slot = false then takeStray k p s
    else takeAtSlot k plan p s

/-- The engine takes a report by its sector's mode and suspended flag (R104). -/
def takeReport (k : SectorNo) (p : Report) (s : State) : State :=
  let x := s.sector k
  if x.mode = .pass then bumpCounts k (fun c => { c with unwatched := c.unwatched + 1 }) s
  else if x.suspended then bumpCounts k (fun c => { c with suspendedIgnored := c.suspendedIgnored + 1 }) s
  else matchReport k p s

/-! ### Intake (R97 to R101) -/

/-- A complete record: ignored without its valid flag, refused on its form, else handed to the engine (R101). -/
def completeRecord (k : SectorNo) (addr winBase : Addr) (b : Beat) (s : State) : State :=
  let p := reportOf b
  if p.valid = false then s
  else if 63 < p.slot ∨ 5 < p.minislot ∨ 3 < p.outcome then
    bumpTorn k (reportFault k (s.frame k) .form (some p.remote) (addr - winBase).toNat s)
  else takeReport k p s

def setPack (k : SectorNo) (p : Option Pack) (s : State) : State := modSector k (fun x => { x with pack := p }) s

/-- A quarter on an empty buffer: quarter 0 starts a record, any other is torn (R99). -/
def startQuarter (k : SectorNo) (addr winBase : Addr) (q : Fin 4) (v : BitVec 16) (s : State) : State :=
  if q = 0 then setPack k (some { addr := addr, winBase := winBase, quarters := [v] }) s
  else tear k addr winBase s

/-- The record that four quarters make. -/
def ofQuarters (qs : List (BitVec 16)) : Beat := beatOfBytes (qs.flatMap fun v => leBytes 2 v.toNat)

/-- A quarter write (R99). -/
def takeQuarter (k : SectorNo) (addr winBase : Addr) (q : Fin 4) (v : BitVec 16) (s : State) : State :=
  match (s.sector k).pack with
  | none => startQuarter k addr winBase q v s
  | some p =>
    if p.addr = addr ∧ p.quarters.length = q.val then
      let qs := p.quarters ++ [v]
      if qs.length = 4 then completeRecord k addr winBase (ofQuarters qs) (setPack k none s)
      else setPack k (some { p with quarters := qs }) s
    else startQuarter k addr winBase q v (setPack k none (tear k p.addr p.winBase s))

/-- A full record: a held partial record is torn first (R100). -/
def takeFullRecord (k : SectorNo) (addr winBase : Addr) (b : Beat) (s : State) : State :=
  match (s.sector k).pack with
  | none => completeRecord k addr winBase b s
  | some p => completeRecord k addr winBase b (setPack k none (tear k p.addr p.winBase s))

/-- A width fault: one WIDTH record, the torn count, the pack buffer kept (R97). -/
def takeWidthFault (k : SectorNo) (addr winBase : Addr) (s : State) : State :=
  bumpTorn k (reportFault k (s.frame k) .width none (addr - winBase).toNat s)

/-- The quarter a lane pattern selects: lanes 2q and 2q + 1 exactly (R97). -/
def quarterOf (lanes : Lanes) : Option (Fin 4) :=
  if lanes = 0x03 then some 0
  else if lanes = 0x0C then some 1
  else if lanes = 0x30 then some 2
  else if lanes = 0xC0 then some 3
  else none

/-- One beat of a report write, by its lanes (R97). A beat of a multi-beat write has all lanes. -/
def takeReportBeat (k : SectorNo) (winBase addr : Addr) (lanes : Lanes) (b : Beat) (s : State) : State :=
  if lanes = allLanes then takeFullRecord k addr winBase b s
  else
    match quarterOf lanes with
    | some q => takeQuarter k addr winBase q (b.extractLsb' (16 * q.val) 16) s
    | none => takeWidthFault k addr winBase s

/-- The beats of a report write in ascending address order (R97). -/
def takeReportBeats (k : SectorNo) (winBase : Addr) (lanes : Lanes) : Addr → List Beat → State → State
  | _, [], s => s
  | addr, b :: bs, s =>
    takeReportBeats k winBase lanes (addr + 8) bs (takeReportBeat k winBase addr lanes b s)

end Sys2Proof.Machine
end

