-- ==== Sys2Proof/Machine/Modes.lean ====
section
/-! DEFINITION. Section 8: modes, suspension, sector reset and the completion or end of a relocation, as the engine takes
them. -/

namespace Sys2Proof.Machine

/-- Set the mode; a change marks the sector's counter block (R145). -/
def setModeTo (k : SectorNo) (m : Mode) (s : State) : State :=
  markCounter k (modSector k (fun x => { x with mode := m }) s)

/-- Set the suspended flag; a change marks the sector's counter block (R145). -/
def setSuspended (k : SectorNo) (b : Bool) (s : State) : State :=
  markCounter k (modSector k (fun x => { x with suspended := b }) s)

def setPendingOp (k : SectorNo) (p : Option PendingOp) (s : State) : State :=
  modSector k (fun x => { x with pendingOp := p }) s

/-! ### SET_MODE to PASS (R147) -/

/-- SERVING if admin is ON, IDLE if OFF. -/
def serviceState (e : Entry) : RState := if e.admin then .serving else .idle

/-- One remote's step of a change to PASS: a remote already in the state is left as it is (R19, R47, log 23). -/
def toService (cause : StateCause) (k : SectorNo) (r : RemoteNo) (s : State) : State :=
  let e := s.entry k r
  if e.state = serviceState e ∧ e.profile = e.ceiling then s
  else stepTo k r (serviceState e) (StepInfo.silent cause) id s

/-- A SET_MODE to PASS as one claim (R147), beside its result. The inputs of its remote steps are not handed to the
episode, those of the deferred admin values included (R115, R125, log 29). -/
def changeToPass (k : SectorNo) (s : State) : State :=
  let s := if (s.sector k).suspended then takeAllDeferred StepInfo.silent k (setSuspended k false s) else s
  let s := modSector k (fun x => { discardForEvent x with rangingOrder := [] }) s
  let s := forRemotes remotes (toService .mode k) s
  setModeTo k .pass (closeForEvent k .mode s)

/-! ### Completion of a mode change (R149) -/

/-- SHADOW to ACTIVE: a FADED remote goes to QUEUED at the tail, backoff 0. -/
def fadedToQueued (k : SectorNo) (r : RemoteNo) (s : State) : State :=
  if (s.entry k r).state = .faded then toQueueTail k r (StepInfo.plain .mode) id s else s

/-- ACTIVE to SHADOW: a QUEUED, PROBING, RANGING or CLIMBING remote goes to FADED, uncharged, backoff 0. -/
def restoringToFaded (k : SectorNo) (r : RemoteNo) (s : State) : State :=
  let st := (s.entry k r).state
  if st.restoring ∧ st ≠ .faded then
    stepTo k r .faded (StepInfo.plain .mode) (fun e => { e with backoff := 0 }) s
  else s

/-- The remotes moved by a mode change at its completing epoch (R149). -/
def moveForMode (k : SectorNo) (source target : Mode) (s : State) : State :=
  match source, target with
  | .shadow, .active => forRemotes remotes (fadedToQueued k) s
  | .active, .shadow => forRemotes remotes (restoringToFaded k) s
  | _, _ => s

/-- Work item 4 for a mode change: the remotes, the mode, the result DONE with the new mode (R148, R149). -/
def completeMode (k : SectorNo) (target : Mode) (s : State) : State :=
  let s := setModeTo k target (moveForMode k (s.sector k).mode target s)
  finish .done (BitVec.ofNat 16 (modeCode target)) (setPendingOp k none s)

/-! ### SUSPEND, RESUME, RESET_SECTOR (R150 to R152) -/

/-- RESUME as one claim, beside its result (R151). -/
def resumeSector (k : SectorNo) (s : State) : State :=
  let s := takeAllDeferred StepInfo.plain k (setSuspended k false s)
  requeueForDiscard .resume k (modSector k discardForEvent s)

/-- An entry after RESET_SECTOR (R152): faded at is set by the step (R5). -/
def Entry.afterReset (e : Entry) : Entry :=
  { e with state := serviceState e, profile := e.ceiling, misses := 0, attempts := 0, backoff := 0, exchanges := 0,
           garbles := 0, solo := false, good := 0, order := 0, lastMargin := none }

/-- One remote's step of RESET_SECTOR. -/
def resetRemote (k : SectorNo) (r : RemoteNo) (s : State) : State :=
  remoteStep k r (StepInfo.silent .reset) (s.entry k r).afterReset s

/-- RESET_SECTOR as one claim, beside its result (R152). -/
def resetSectorOp (k : SectorNo) (s : State) : State :=
  let s := modSector k (fun x => { discardForEvent x with rangingOrder := [] }) s
  let s := modSector k resetStamps (forRemotes remotes (resetRemote k) s)
  let s := closeForEvent k .reset s
  let s := modSector k (fun x => { x with pack := none, framesSeen := 0, counts := ReportCounts.zero }) s
  markCounter k (forRemotes remotes (markMirror k) s)

/-! ### Relocation (R153 to R156) -/

/-- The size exponent of a relocation: 2 KiB, the staged exponent, 1 KiB. -/
def relocSizeExp (kind : RelocKind) (b : Beat) : Nat :=
  match kind with
  | .map => 11
  | .report => stagingExp b
  | .descriptor => 10

/-- The checks of R153 steps 4 to 7: the detail of the first that fails, or none. -/
def relocationFault (s : State) (kind : RelocKind) (k : SectorNo) (b : Beat) : Option Nat :=
  let exp := relocSizeExp kind b
  let w : Window :=
    { kind := .map, base := stagingBase b, sizeExp := exp, sector := some k, mark := .new }
  if kind = .report ∧ within 10 16 exp = false then some 2
  else if w.aligned = false then some 3
  else if s.windows.any fun v => v.overlaps w then some 4
  else if kind = .map ∧ Config.windowPlaces ≤ s.windows.length then some 5
  else none

/-- The time base value at which the command timeout expires (R163). -/
def State.deadline (s : State) : Word := s.time + BitVec.ofNat 32 s.store.commandTimeout

/-- A RELOCATE that passes every check becomes the engine's pending operation; a MAP relocation adds its window; the
timeout starts (R153). -/
def startRelocation (k : SectorNo) (kind : RelocKind) (b : Beat) (s : State) : State :=
  let s := setPendingOp k (some (.relocation kind (stagingBase b) (relocSizeExp kind b) false)) s
  let s := match kind with
    | .map => addMapWindow k (stagingBase b) s
    | .report => s
    | .descriptor => s
  setPhase (.relocationPending s.deadline false) s

/-- Work item 4 for a MAP relocation (R154). -/
def completeMapRelocation (k : SectorNo) (s : State) : State :=
  finish .done 0 (setPendingOp k none (keepNewMap k s))

/-- Work item 4 for a REPORT relocation: a held record is torn at the switch (R98, R155). -/
def completeReportRelocation (k : SectorNo) (base : Addr) (sizeExp : Nat) (s : State) : State :=
  let s := match (s.sector k).pack with
    | some p => setPack k none (tear k p.addr p.winBase s)
    | none => s
  finish .done 0 (setPendingOp k none (moveWindow .report k base sizeExp s))

/-- Work item 4 for a DESCRIPTOR relocation: tracking moves, the timeout ends, and the read phase begins (R18, R155). -/
def switchDescriptorWindow (k : SectorNo) (base : Addr) (sizeExp : Nat) (s : State) : State :=
  let s := setPendingOp k (some (.relocation .descriptor base sizeExp true))
    (moveWindow .descriptor k base sizeExp s)
  let s := setPhase (.relocationReading 0 0 none [] none) s
  { s with channel := { s.channel with read := some (.relocDescriptor k 0) } }

/-- Work item 4: complete the pending operation that awaits this epoch (R82, R154). `winBase` is the base of the MAP window
the header read came through. It is compared with the new window's base alone, so that a read accepted through an earlier
MAP window of the same base counts as one through the new window (model's choice, log 35). -/
def completePending (k : SectorNo) (winBase : Addr) (s : State) : State :=
  match (s.sector k).pendingOp with
  | none => s
  | some (.modeChange target) => completeMode k target s
  | some (.relocation .map base _ _) => if winBase = base then completeMapRelocation k s else s
  | some (.relocation .report base e _) => completeReportRelocation k base e s
  | some (.relocation .descriptor base e switched) => if switched then s else switchDescriptorWindow k base e s

/-- A pending operation ends without completing, by timeout or CANCEL (R148, R156): a MAP relocation's new window leaves.
The detail is the present mode for a mode change, else 0 (log 13). -/
def abandonPending (k : SectorNo) (code : ResultCode) (s : State) : State :=
  match (s.sector k).pendingOp with
  | none => s
  | some (.modeChange _) =>
    finish code (BitVec.ofNat 16 (modeCode (s.sector k).mode)) (setPendingOp k none s)
  | some (.relocation .map _ _ _) => finish code 0 (setPendingOp k none (keepOldMap k s))
  | some (.relocation .report _ _ _) => finish code 0 (setPendingOp k none s)
  | some (.relocation .descriptor _ _ _) => finish code 0 (setPendingOp k none s)

end Sys2Proof.Machine
end

