-- ==== Sys2Proof/Machine/Epochs.lean ====
section
/-! DEFINITION. Section 4, 4.3 and 4.4: the header check, FRAME records, and the epoch with its six work items. -/

namespace Sys2Proof.Machine

/-- What a header read comes to (R75), in the order of its tests. -/
inductive HeaderOutcome where
  | invalid
  | badCount
  | badParity
  | reread
  | stale
  | epoch
  deriving DecidableEq, Repr

/-- The tests of R75, first failing one first. -/
def checkHeader (x : Sector) (buffer : Nat) (h : Header) : HeaderOutcome :=
  if h.valid = false then .invalid
  else if h.count = 0 ∨ 64 < h.count then .badCount
  else if buffer ≠ h.frame.toNat % 2 then .badParity
  else if x.history ≠ [] ∧ h.frame = x.frame then .reread
  else if x.history.dropLast.any fun p => p.frame = h.frame then .stale
  else .epoch

/-- A FRAME record with the frame number the header carries (R76). -/
def logHeader (k : SectorNo) (f : Frame) (cause : FrameCause) (detail : Nat) (s : State) : State :=
  logFrame k f (.frame cause (BitVec.ofNat 32 detail)) s

/-- A FRAME record that raises notice kind FRAME_FAULT in the same step (R76). -/
def faultHeader (k : SectorNo) (f : Frame) (cause : FrameCause) (detail : Nat) (s : State) : State :=
  raiseNotice .frameFault (logHeader k f cause detail s)

/-- Whether an epoch of gap g is a resync, and silent (R77). -/
def silentResync (x : Sector) : Bool :=
  x.resyncPending || (match x.pendingOp with
    | some (.modeChange _) => true
    | some (.relocation _ _ _ _) => false
    | none => false)

/-- The FRAME record of an epoch: RESYNC for a resync only because g is above 64; GAP for 2 to 64 (R77). -/
def logGap (k : SectorNo) (f : Frame) (g : Nat) (silent : Bool) (s : State) : State :=
  if silent then s
  else if Config.maxGap < g then faultHeader k f .resync (g % 65536) s
  else if 2 ≤ g then logHeader k f .gap g s
  else s

/-- Item 1: retire old plans at a normal epoch; at a resync discard the history and requeue PROBING remotes (R79,
R80). -/
def epochItem1 (k : SectorNo) (resync : Bool) (s : State) : State :=
  if resync then requeueForDiscard .resync k (modSector k discardHistory s) else retirePlans k s

/-- Item 2: reduce backoffs and the episode's count by the gap, by 0 at a resync (R81). Backoffs come first, in the
order of Table R81 (log 17). -/
def epochItem2 (k : SectorNo) (g : Nat) (s : State) : State :=
  let x := s.sector k
  if x.mode = .pass ∨ x.suspended then s
  else
    let s := if x.mode = .active then forRemotes remotes (backoffExpires k) (modSector k (reduceBackoffs g) s) else s
    countEpisode k g s

/-- The staged values become the in-force ones (R71, R82, R126). -/
def applyStaged (x : Sector) : Sector :=
  let t := x.tunables
  let g := x.staged
  { x with
    tunables :=
      { floor := g.floor.getD t.floor, cap := g.cap.getD t.cap, budget := g.budget.getD t.budget,
        mask := g.mask.getD t.mask, reclaim := g.reclaim.getD t.reclaim, threshold := g.threshold.getD t.threshold,
        holdDown := g.holdDown.getD t.holdDown, settle := g.settle.getD t.settle }
    staged := Staged.none }

/-- Item 3: apply the staged tunables, then test the threshold (R82, R116), in a suspended sector too (R126), where R150
lets an episode move by other inputs alone (model's choice, log 37). -/
def epochItem3 (k : SectorNo) (s : State) : State := testThreshold k (modSector k applyStaged s)

/-- The plan that item 6 adds: every slot undecided. -/
def newPlan (f : Frame) (count : Nat) : Plan := { frame := f, slots := List.replicate count none }

/-- Item 6: the new plan, resync pending clear, the wait list refilled, frames seen (R83, R92). -/
def epochItem6 (k : SectorNo) (f : Frame) (count : Nat) (s : State) : State :=
  markCounter k (modSector k (fun x =>
    { x with history := x.history ++ [newPlan f count], resyncPending := false,
             waitList := x.rangingOrder.map Ranger.remote, framesSeen := x.framesSeen + 1 }) s)

/-- An epoch for frame F (R77, R78). -/
def epoch (k : SectorNo) (f : Frame) (count : Nat) (winBase : Addr) (s : State) : State :=
  let x := s.sector k
  let g := (f - x.frame).toNat
  let silent := silentResync x
  let resync := silent || decide (Config.maxGap < g)
  let s := modSector k (fun x => { x with frame := f }) s
  let s := epochItem1 k resync (logGap k f g silent s)
  let s := epochItem2 k (if resync then 0 else g) s
  let s := completePending k winBase (epochItem3 k s)
  epochItem6 k f count (modSector k drawRoster s)

/-- A header read (R75, R76). -/
def takeHeader (k : SectorNo) (winBase : Addr) (buffer : Nat) (b : Beat) (s : State) : State :=
  let h := headerOf b
  match checkHeader (s.sector k) buffer h with
  | .invalid => s
  | .badCount => faultHeader k h.frame .header h.count s
  | .badParity => faultHeader k h.frame .parity buffer s
  | .reread => s
  | .stale => faultHeader k h.frame .header h.count s
  | .epoch => epoch k h.frame h.count winBase s

end Sys2Proof.Machine
end

