-- ==== Sys2Proof/Machine/MapReads.lean ====
section
/-! DEFINITION. Section 4, 4.6: deciding a map record read, placing probes, and the beats of a map read. -/

namespace Sys2Proof.Machine

/-- A freshly opened expectation (R85). -/
def openWatch (r : RemoteNo) (kind : WatchKind) : Expectation := { remote := r, kind := kind, condition := .open }

/-- Whether a decision assigns PROBE or RANGE to a remote (R88, R93). -/
def Decision.assigns (r : RemoteNo) : Decision → Bool
  | .range w => w.remote = r
  | .probe _ ms => ms.any fun m => m.any fun w => w.remote = r
  | .raw _ => false
  | .idle => false
  | .dataUp _ => false
  | .dataDown _ => false

/-- Whether a remote holds a PROBE or RANGE assignment in a plan. -/
def Plan.assigned (p : Plan) (r : RemoteNo) : Bool := p.slots.any fun d => d.any fun d => d.decision.assigns r

/-- Store a decision with the record returned in a slot of the newest plan, frame f (R84). -/
def storeDecision (k : SectorNo) (f : Frame) (slot : Nat) (d : Decision) (record : Option Beat) (s : State) : State :=
  modSector k (modPlan f fun p => { p with slots := p.slots.set slot (some { decision := d, record := record }) }) s

/-- A decision of an ACTIVE sector with the record it returns, and the state after it. -/
structure Answer where
  record : Beat
  state : State

/-- Decide a slot and return its record. -/
def decideSlot (k : SectorNo) (f : Frame) (slot : Nat) (d : Decision) (record : Beat) (s : State) : Answer :=
  { record := record, state := storeDecision k f slot d (some record) s }

/-- Give a remote its exchange: a RANGE decision, and it leaves the wait list (R88, R90, R93). -/
def decideRange (k : SectorNo) (f : Frame) (slot : Nat) (r : RemoteNo) (s : State) : Answer :=
  let record := rangeRecord r (s.entry k r).profile
  decideSlot k f slot (.range (openWatch r .range)) record
    (modSector k (fun x => { x with waitList := x.waitList.filter (· ≠ r) }) s)

/-- Place one occupant: QUEUED to PROBING with cause PLACED (R28). -/
def placeOne (k : SectorNo) (s : State) (o : Occupant) : State :=
  stepTo k o.member.remote .probing { StepInfo.plain .placed with placed := true } id s

/-- The six minislots of a filled slot with their probe expectations (R28, R68). -/
def minislotWatches (occupants : List Occupant) : List (Option Expectation) :=
  (List.finRange 6).map fun m =>
    (occupants.find? fun o => o.minislot = m).map fun o =>
      openWatch o.member.remote (.probe o.member.solo o.member.scout)

/-- The lowest of some profiles; 0 of none. -/
def lowest : List Nat → Nat
  | [] => 0
  | p :: ps => ps.foldl min p

/-- Fill a slot from the roster: a PROBE decision, the occupants placed in ascending minislot order (R68, R90, R93). -/
def decideProbe (k : SectorNo) (f : Frame) (slot : Nat) (s : State) : Answer :=
  let occupants := (s.sector k).roster.supply
  let solo := occupants.any fun o => o.member.solo
  let watches := minislotWatches occupants
  let profile := lowest (occupants.map fun o => (s.entry k o.member.remote).profile)
  let record := probeRecord solo profile (watches.map fun m => m.map Expectation.remote)
  let s := modSector k (fun x => { x with roster := x.roster.take occupants }) s
  decideSlot k f slot (.probe solo watches) record (occupants.foldl (placeOne k) s)

/-- An IDLE decision. -/
def decideIdle (k : SectorNo) (f : Frame) (slot : Nat) (s : State) : Answer := decideSlot k f slot .idle idleRecord s

/-- The first wait-list member with no PROBE or RANGE assignment in the plan (R90). -/
def nextRanger (x : Sector) (p : Plan) : Option RemoteNo := x.waitList.find? fun r => !p.assigned r

/-- A RESTORE record: RANGE, else PROBE, else IDLE (R90). -/
def decideRestore (k : SectorNo) (p : Plan) (slot : Nat) (s : State) : Answer :=
  match nextRanger (s.sector k) p with
  | some r => decideRange k p.frame slot r s
  | none => if (s.sector k).roster.canSupply then decideProbe k p.frame slot s else decideIdle k p.frame slot s

/-- Whether a DATA_UP record of a QUEUED or PROBING remote is reclaimed (R91). -/
def reclaims (x : Sector) : Bool :=
  decide (x.episode.state = .recovering) && x.tunables.reclaim && x.roster.canSupply

/-- A DATA_UP record (R88). -/
def decideDataUp (k : SectorNo) (p : Plan) (slot : Nat) (b : Beat) (raw : RawRecord) (s : State) : Answer :=
  let r := raw.remote
  let e := s.entry k r
  match e.state with
  | .idle => decideSlot k p.frame slot (.raw none) b s
  | .serving => decideSlot k p.frame slot (.raw (some (openWatch r .fadeWatch))) b s
  | .climbing =>
    decideSlot k p.frame slot (.dataUp (openWatch r .climbWatch)) (patchProfile b (min raw.profile e.profile)) s
  | .ranging =>
    if (s.sector k).waitList.contains r && !p.assigned r then decideRange k p.frame slot r s
    else decideIdle k p.frame slot s
  | .queued => if reclaims (s.sector k) then decideProbe k p.frame slot s else decideIdle k p.frame slot s
  | .probing => if reclaims (s.sector k) then decideProbe k p.frame slot s else decideIdle k p.frame slot s
  | .faded => decideIdle k p.frame slot s
  | .held => decideIdle k p.frame slot s
  | .excluded => decideIdle k p.frame slot s

/-- A DATA_DOWN record (R89). -/
def decideDataDown (k : SectorNo) (p : Plan) (slot : Nat) (b : Beat) (raw : RawRecord) (s : State) : Answer :=
  let r := raw.remote
  let e := s.entry k r
  match e.state with
  | .idle => decideSlot k p.frame slot (.raw none) b s
  | .serving => decideSlot k p.frame slot (.raw none) b s
  | .climbing => decideSlot k p.frame slot (.dataDown r) (patchProfile b (min raw.profile e.profile)) s
  | .ranging => decideSlot k p.frame slot (.dataDown r) (patchProfile b (min raw.profile e.profile)) s
  | .faded => decideIdle k p.frame slot s
  | .queued => decideIdle k p.frame slot s
  | .probing => decideIdle k p.frame slot s
  | .held => decideIdle k p.frame slot s
  | .excluded => decideIdle k p.frame slot s

/-- Decide an undecided slot of an ACTIVE sector by the raw record's kind (R87 to R90). -/
def decideActive (k : SectorNo) (p : Plan) (slot : Nat) (b : Beat) (s : State) : Answer :=
  let raw := rawRecordOf b
  match raw.kind with
  | .idle => decideSlot k p.frame slot (.raw none) b s
  | .other => decideSlot k p.frame slot (.raw none) b s
  | .dataUp => decideDataUp k p slot b raw s
  | .dataDown => decideDataDown k p slot b raw s
  | .restore => decideRestore k p slot s

/-- The watch a SHADOW decision opens: on a DATA_UP record of a SERVING or FADED remote (R94). -/
def shadowWatch (k : SectorNo) (b : Beat) (s : State) : Option Expectation :=
  let raw := rawRecordOf b
  let st := (s.entry k raw.remote).state
  if raw.kind = .dataUp ∧ (st = .serving ∨ st = .faded) then some (openWatch raw.remote .fadeWatch) else none

/-- A record read that meets the conditions of R86 in plan p, by the sector's mode (R86, R94). -/
def takeRecordIn (k : SectorNo) (p : Plan) (slot : Nat) (b : Beat) (s : State) : Answer :=
  match (s.sector k).mode with
  | .pass => { record := b, state := s }
  | .shadow =>
    match p.slots[slot]? with
    | some none => { record := b, state := storeDecision k p.frame slot (.raw (shadowWatch k b s)) none s }
    | _ => { record := b, state := s }
  | .active =>
    match p.slots[slot]? with
    | some none => decideActive k p slot b s
    | some (some d) => { record := d.record.getD b, state := s }
    | none => { record := b, state := s }

/-- A record read (R86, R94): decided in the current plan when its buffer and index lie in it and the sector is not
suspended; any other read passes raw. -/
def takeRecord (k : SectorNo) (buffer slot : Nat) (b : Beat) (s : State) : Answer :=
  match (s.sector k).newest with
  | none => { record := b, state := s }
  | some p =>
    if (s.sector k).suspended = false ∧ buffer = p.buffer ∧ slot < p.count then takeRecordIn k p slot b s
    else { record := b, state := s }

/-- One beat of a map read, by its window offset: header, record, or unused (R73). -/
def takeMapBeat (k : SectorNo) (winBase addr : Addr) (b : Beat) (s : State) : Answer :=
  let off := (addr - winBase).toNat
  let buffer := off / 1024
  let pos := off % 1024
  if pos = 0 then { record := b, state := takeHeader k winBase buffer b s }
  else if pos ≤ 0x200 then takeRecord k buffer (pos / 8 - 1) b s
  else { record := b, state := s }

/-- The beats of a map read in ascending address order, each as one claim (R73). -/
def takeMapBeats (k : SectorNo) (winBase : Addr) : Addr → List Beat → State → List Beat × State
  | _, [], s => ([], s)
  | addr, b :: bs, s =>
    let a := takeMapBeat k winBase addr b s
    let rest := takeMapBeats k winBase (addr + 8) bs a.state
    (a.record :: rest.1, rest.2)

end Sys2Proof.Machine
end

