-- ==== Sys2Proof/Machine/Commands.lean ====
section
/-! DEFINITION. Section 9, 9.2 to 9.6: taking a command word, one definition for each command, CANCEL, the command timeout,
and the log tail and marker words. -/

namespace Sys2Proof.Machine

/-! ### Command codes (Table 11.1) -/

def codeLoadConfig : Byte := 0x01
def codeSetMode : Byte := 0x02
def codeSetTune : Byte := 0x03
def codeHold : Byte := 0x04
def codeRelease : Byte := 0x05
def codeRearm : Byte := 0x06
def codeForceFade : Byte := 0x07
def codeSuspend : Byte := 0x08
def codeResume : Byte := 0x09
def codeResetSector : Byte := 0x0A
def codeRelocate : Byte := 0x0B
def codeAckNotice : Byte := 0x0C
def codeCancel : Byte := 0x0D

/-- 01h to 0Dh name a command (Table 11.1). -/
def namesCommand (code : Byte) : Bool := decide (1 ≤ code.toNat) && decide (code.toNat ≤ 13)

/-! ### Commands on single remotes (R40 to R44) -/

/-- The result's detail: the remote's state after the command (R40). -/
def stateDetail (k : SectorNo) (r : RemoteNo) (s : State) : Half := BitVec.ofNat 16 (s.entry k r).state.code

/-- A command on one remote of a sector (R40): refused with STATE unless the sector is ACTIVE and the remote's state is
accepted; else the step is taken and the result is DONE. -/
def remoteCommand (k : SectorNo) (r : RemoteNo) (accepts : RState → Bool) (act : State → State) (s : State) : State :=
  if (s.sector k).mode = .active ∧ accepts (s.entry k r).state then
    let t := act s
    finish .done (stateDetail k r t) t
  else finish .state (stateDetail k r s) s

/-- HOLD is accepted in every state except IDLE and HELD (R41). -/
def holdAccepts (st : RState) : Bool := st ≠ .idle && st ≠ .held

/-- HOLD: to HELD; attempts, garbles and solo kept (R41). -/
def cmdHold (k : SectorNo) (r : RemoteNo) (s : State) : State :=
  remoteCommand k r holdAccepts (stepTo k r .held (StepInfo.plain .hold) id) s

/-- An entry with its attempt count, garbles and solo cleared (R42, R43). -/
def Entry.fresh (e : Entry) : Entry := { e with attempts := 0, garbles := 0, solo := false }

/-- RELEASE is accepted in HELD alone: to QUEUED at the tail (R42). -/
def cmdRelease (k : SectorNo) (r : RemoteNo) (s : State) : State :=
  remoteCommand k r (fun st => st = .held) (toQueueTail k r (StepInfo.plain .release) Entry.fresh) s

/-- REARM is accepted in EXCLUDED alone: to QUEUED at the tail (R43). -/
def cmdRearm (k : SectorNo) (r : RemoteNo) (s : State) : State :=
  remoteCommand k r (fun st => st = .excluded) (toQueueTail k r (StepInfo.plain .rearm) Entry.fresh) s

/-- FORCE_FADE is accepted in SERVING, QUEUED, PROBING, RANGING and CLIMBING (R44). -/
def forceFadeAccepts : RState → Bool
  | .serving => true
  | .queued => true
  | .probing => true
  | .ranging => true
  | .climbing => true
  | .idle => false
  | .faded => false
  | .held => false
  | .excluded => false

/-- FORCE_FADE: to FADED, uncharged, backoff the backoff base, handed to the episode as a fade (R44). -/
def cmdForceFade (k : SectorNo) (r : RemoteNo) (s : State) : State :=
  let base := (s.params k).backoffBase
  remoteCommand k r forceFadeAccepts
    (stepTo k r .faded { StepInfo.plain .forceFade with inputs := some { Inputs.none with fade := true } }
      (fun e => { e with backoff := base })) s

/-! ### Commands on a sector (R146, R150 to R153, R169) -/

/-- SET_MODE (R146): to PASS at once, to SHADOW or ACTIVE pending until an epoch with its timeout started (R148). -/
def cmdSetMode (k : SectorNo) (arg : Half) (s : State) : State :=
  let x := s.sector k
  if s.configured k = false then finish .state 0 s
  else
    match modeOfCode arg.toNat with
    | none => finish .invalid arg s
    | some m =>
      if m = x.mode then finish .done (BitVec.ofNat 16 (modeCode m)) s
      else if m = .pass then finish .done (BitVec.ofNat 16 (modeCode .pass)) (changeToPass k s)
      else if x.suspended then finish .state (BitVec.ofNat 16 (modeCode x.mode)) s
      else setPhase (.modePending s.deadline false) (setPendingOp k (some (.modeChange m)) s)

/-- SUSPEND sets the flag of a SHADOW or ACTIVE sector; refused in PASS or with the flag set (R150). -/
def cmdSuspend (k : SectorNo) (s : State) : State :=
  let x := s.sector k
  if s.configured k = false ∨ x.mode = .pass ∨ x.suspended then finish .state 0 s
  else finish .done 0 (setSuspended k true s)

/-- RESUME of a sector whose flag is set; refused with the flag clear (R151). -/
def cmdResume (k : SectorNo) (s : State) : State :=
  if s.configured k = false ∨ (s.sector k).suspended = false then finish .state 0 s
  else finish .done 0 (resumeSector k s)

/-- RESET_SECTOR of a configured sector, in any mode (R152). -/
def cmdResetSector (k : SectorNo) (s : State) : State :=
  if s.configured k = false then finish .state 0 s else finish .done 0 (resetSectorOp k s)

/-- RELOCATE: sector check, kind check, then the staging read (R153). -/
def cmdRelocate (k : SectorNo) (arg : Half) (s : State) : State :=
  if s.configured k = false then finish .state 0 s
  else
    match relocKindOfCode arg.toNat with
    | none => finish .invalid 1 s
    | some kind =>
      let s := setPhase .readingStaging s
      { s with channel := { s.channel with read := some (.staging k kind) } }

/-- The staged tunables with one value staged, by parameter code; none where the value is out of range (R71, R126,
R169). -/
def stageValue (param v : Nat) (t : Staged) : Option Staged :=
  match param with
  | 0x0F => if v ≤ 3 then some { t with floor := some v } else none
  | 0x10 => if capOk v then some { t with cap := some v } else none
  | 0x11 => if v ≤ 8 then some { t with budget := some v } else none
  | 0x12 => if v ≤ 0x3F then some { t with mask := some (BitVec.ofNat 6 v) } else none
  | 0x13 => if v ≤ 1 then some { t with reclaim := some (v == 1) } else none
  | 0x14 => if within 2 64 v then some { t with threshold := some v } else none
  | 0x15 => if v ≤ 4095 then some { t with holdDown := some v } else none
  | 0x16 => if v ≤ 255 then some { t with settle := some v } else none
  | _ => none

/-- SET_TUNE (R169). -/
def cmdSetTune (k : SectorNo) (param : Byte) (arg : Half) (s : State) : State :=
  if s.configured k = false then finish .state 0 s
  else if within 0x0F 0x16 param.toNat = false then finish .invalid 1 s
  else
    match stageValue param.toNat arg.toNat (s.sector k).staged with
    | some t => finish .done arg (modSector k (fun x => { x with staged := t }) s)
    | none => finish .invalid 2 s

/-! ### LOAD_CONFIG, ACK_NOTICE (R166, R170) -/

/-- LOAD_CONFIG is taken only while every sector is PASS; it starts reading the configuration area (R166). -/
def cmdLoadConfig (s : State) : State :=
  if sectorNos.all fun k => (s.sector k).mode = .pass then
    let s := setPhase (.readingConfig []) s
    { s with channel := { s.channel with read := some (.config 0) } }
  else finish .state 0 s

/-- ACK_NOTICE clears the named kinds and answers those that were pending (R170). -/
def cmdAckNotice (arg : Half) (s : State) : State :=
  if 255 < arg.toNat then finish .invalid 1 s
  else
    let set : BitVec 8 := arg.setWidth 8
    let cleared := s.notices.pending &&& set
    finish .done (cleared.setWidth 16) (setPendingNotices (s.notices.pending &&& ~~~set) s)

/-! ### CANCEL (R162) -/

/-- Drop the waiting read, and discard the response of a read already issued (R162, log 20). -/
def dropReads (s : State) : State :=
  { s with
    channel := { s.channel with read := none }
    ports := { s.ports with
      outstanding := s.ports.outstanding.map fun p =>
        match p with
        | .read t _ => .read t true
        | .write => .write } }

/-- Put a command in flight (R160); the device status block shows its tag (R175). -/
def beginCommand (c : Command) (s : State) : State :=
  markDevice { s with channel := { s.channel with inFlight := some { cmd := c, phase := .decided } } }

/-- CANCEL: the abandonment of the command in flight by its phase, then DONE; or NOTHING (R162). -/
def cmdCancel (c : Command) (s : State) : State :=
  match s.channel.inFlight with
  | none => finish .nothing 0 (beginCommand c s)
  | some f =>
    let k := (sectorOfByte f.cmd.sector).getD 0
    match f.phase with
    | .decided => answer c .nothing 0 s
    | .readingConfig _ => answer c .done 0 (finish .cancelled 0 (dropReads s))
    | .readingDescriptors _ _ _ _ _ => answer c .done 0 (finish .cancelled 0 (dropReads s))
    | .readingStaging => answer c .done 0 (finish .cancelled 0 (dropReads s))
    | .modePending _ _ => answer c .done 0 (abandonPending k .cancelled s)
    | .relocationPending _ _ => answer c .done 0 (abandonPending k .cancelled s)
    | .relocationReading r n failed late none => setPhase (.relocationReading r n failed late (some c)) s
    | .relocationReading _ _ _ _ (some _) => answer c .nothing 0 s

/-! ### Taking a command word (R159, R160) -/

/-- Pass a command that is in flight to its owner (Table 9.2). -/
def runCommand (c : Command) (s : State) : State :=
  let k := (sectorOfByte c.sector).getD 0
  let r := (remoteOfByte c.remote).getD 0
  if c.code = codeLoadConfig then cmdLoadConfig s
  else if c.code = codeSetMode then cmdSetMode k c.arg s
  else if c.code = codeSetTune then cmdSetTune k c.remote c.arg s
  else if c.code = codeHold then cmdHold k r s
  else if c.code = codeRelease then cmdRelease k r s
  else if c.code = codeRearm then cmdRearm k r s
  else if c.code = codeForceFade then cmdForceFade k r s
  else if c.code = codeSuspend then cmdSuspend k s
  else if c.code = codeResume then cmdResume k s
  else if c.code = codeResetSector then cmdResetSector k s
  else if c.code = codeRelocate then cmdRelocate k c.arg s
  else cmdAckNotice c.arg s

/-- The first check of R160 that a command fails, in the order code, sector, remote; with its detail. -/
def commandFault (c : Command) : Option Half :=
  if namesCommand c.code = false then some 0xF002
  else if usesSector c.code && (sectorOfByte c.sector).isNone then some 0xF003
  else if usesRemote c.code && (remoteOfByte c.remote).isNone then some 0xF004
  else none

/-- A command word that is forwarded and taken (R159 row 4, R160). -/
def takeCommand (c : Command) (s : State) : State :=
  match commandFault c with
  | some d => answer c .invalid d s
  | none => if c.code = codeCancel then cmdCancel c s else runCommand c (beginCommand c s)

/-- Rows 2 and 3 of R159: the Command Channel absorbs the write. -/
def absorbsWord (s : State) (lanes : Lanes) (b : Beat) : Bool :=
  lanes != allLanes || (s.channel.inFlight.isSome && (commandOf b).code != codeCancel)

/-- The PARTIAL answer: tag, code, sector and remote only where their lanes are enabled (R159, R175, log 12). -/
def partialResult (lanes : Lanes) (b : Beat) : Result :=
  let c := commandOf (maskLanes lanes b)
  let r := resultOf c .invalid 0xF001 false
  { r with
    sector := if laneOn lanes 1 then r.sector else none
    remote := if laneOn lanes 2 then r.remote else none }

/-- What the Command Channel does with a word that row 1 of R159 does not hold (R159 rows 2 to 4). -/
def takeCommandWord (lanes : Lanes) (b : Beat) (s : State) : State :=
  if lanes ≠ allLanes then deliver (partialResult lanes b) s
  else if absorbsWord s lanes b then answer (commandOf b) .busy 0 s
  else takeCommand (commandOf b) s

/-! ### The command timeout (R163) -/

/-- One millisecond (R173). A pending operation whose timeout ends at this advance is due to expire (R163, log 14). -/
def advanceTime (s : State) : State :=
  let now := s.time + 1
  let s := { s with time := now }
  match s.channel.inFlight with
  | some { phase := .modePending d e, .. } => setPhase (.modePending d (e || now == d)) s
  | some { phase := .relocationPending d e, .. } => setPhase (.relocationPending d (e || now == d)) s
  | _ => s

/-- The expiry, one claim against the engine's pending operation (R148, R156, R163); nothing while none is due. -/
def expireTimeout (s : State) : State :=
  match s.channel.inFlight with
  | some { cmd := c, phase := .modePending _ true } => abandonPending ((sectorOfByte c.sector).getD 0) .timeout s
  | some { cmd := c, phase := .relocationPending _ true } => abandonPending ((sectorOfByte c.sector).getD 0) .timeout s
  | _ => s

/-! ### Log tail and marker words (R164, R165) -/

/-- The tail word's index: bytes 0 to 3, with the bytes of lanes not enabled taken as 0. -/
def tailIndex (lanes : Lanes) (b : Beat) : Nat := field (maskLanes lanes b) 0 32

/-- The first test of R164 that a tail word fails. -/
def tailFault (s : State) (lanes : Lanes) (b : Beat) : Option TailCause :=
  if lanes ≠ allLanes then some .partialWord
  else
    match s.writer.log with
    | none => some .noLog
    | some g =>
      let i := tailIndex lanes b
      let c := 2 ^ g.k
      if c ≤ i then some .range
      else if (s.writer.head + c - s.writer.tail) % c < (i + c - s.writer.tail) % c then some .order
      else none

/-- The log tail word: the tail index is set, or one TAIL record is queued (R164). -/
def takeTailWord (lanes : Lanes) (b : Beat) (s : State) : State :=
  match tailFault s lanes b with
  | some cause => logDevice (.tail cause (BitVec.ofNat 32 (tailIndex lanes b))) s
  | none => { s with writer := { s.writer with tail := tailIndex lanes b } }

/-- The marker word: one MARKER record (R165). -/
def takeMarkerWord (lanes : Lanes) (b : Beat) (s : State) : State :=
  logDevice (.marker lanes (maskLanes lanes b)) s

end Sys2Proof.Machine
end

