-- ==== Sys2Proof/Machine/Loads.lean ====
section
/-! DEFINITION. The Command Channel's reads: what the response to each does (R16 to R18, R153, R166 to R168), and where the
copy of a descriptor write goes while a load or a relocation reads (R17, R18, R143). -/

namespace Sys2Proof.Machine

/-- Set the Command Channel's waiting read. -/
def waitRead (t : Option ReadTarget) (s : State) : State := { s with channel := { s.channel with read := t } }

/-! ### LOAD_CONFIG: the area and its validation (R166, R167) -/

/-- The first descriptor a load reads: remote 0 of the lowest configured sector from `ks`. -/
def firstConfigured (setup : Setup) (ks : List SectorNo) : Option SectorNo :=
  ks.find? fun k => setup.sectors[k].isSome

/-- The descriptor a load reads after remote r of sector k (R166). -/
def nextDescriptor (setup : Setup) (k : SectorNo) (r : RemoteNo) : Option (SectorNo × RemoteNo) :=
  if h : r.val + 1 < 128 then some (k, ⟨r.val + 1, h⟩)
  else (firstConfigured setup (sectorNos.filter fun j => k < j)).map fun j => (j, 0)

/-- The staged entries before any descriptor is read: Table 1.2, which an unconfigured sector keeps (R166). -/
def stagedStart : Vector (Vector StagedEntry 128) 4 := perSector fun _ => Vector.replicate 128 stagedUnconfigured

/-- Read the next descriptor of a load, or apply the load after the last (R166, R168). -/
def continueLoad (setup : Setup) (staged : Vector (Vector StagedEntry 128) 4) (next : Option (SectorNo × RemoteNo))
    (s : State) : State :=
  match next with
  | some (k, r) => waitRead (some (.loadDescriptor k r)) (setPhase (.readingDescriptors setup staged k r []) s)
  | none => applyLoad setup staged s

/-- The area has been read: validate it; a failing item ends the load INVALID with its detail (R166, R167). -/
def validateLoad (area : List Beat) (s : State) : State :=
  match validate area s.channel.anchorBase with
  | some code => finish .invalid (BitVec.ofNat 16 code) s
  | none =>
    let setup := setupOf area
    continueLoad setup stagedStart ((firstConfigured setup sectorNos).map fun k => (k, 0)) s

/-- The response to read i of the configuration area (R166). -/
def takeConfigReply (i : Nat) (reply : Reply) (s : State) : State :=
  match s.channel.inFlight with
  | some { phase := .readingConfig area, .. } =>
    if reply.error then finish .memoryError (BitVec.ofNat 16 (0x100 + 64 * i)) s
    else
      let area := area ++ reply.data
      if i + 1 < 20 then waitRead (some (.config (i + 1))) (setPhase (.readingConfig area) s)
      else validateLoad area s
  | _ => s

/-! ### LOAD_CONFIG: the descriptors (R16, R17) -/

/-- Change one staged entry. -/
def modStaged (k : SectorNo) (r : RemoteNo) (f : StagedEntry → StagedEntry)
    (staged : Vector (Vector StagedEntry 128) 4) : Vector (Vector StagedEntry 128) 4 :=
  staged.set k.val ((staged[k]).set r.val (f (staged[k])[r]) r.isLt) k.isLt

/-- The writes accepted between the read's issue and its response, taken on the staged entry just built (R17,
log 19). -/
def lateOnStaged (late : List LateWrite) (e : StagedEntry) : StagedEntry :=
  late.foldl (fun e w => changeStaged w.lanes w.beat e) e

/-- The response to one descriptor read of a load (R16, R17, R166). -/
def takeLoadDescriptorReply (k : SectorNo) (r : RemoteNo) (reply : Reply) (s : State) : State :=
  match s.channel.inFlight with
  | some { phase := .readingDescriptors setup staged _ _ late, .. } =>
    if reply.error then finish .memoryError (BitVec.ofNat 16 (0x8000 + 128 * k.val + r.val)) s
    else
      let e := lateOnStaged late (buildStaged (s.entry k r) (reply.data.getD 0 0))
      continueLoad setup (modStaged k r (fun _ => e) staged) (nextDescriptor setup k r) s
  | _ => s

/-! ### RELOCATE (R18, R153, R155, R156) -/

/-- The response to a staging-entry read: the checks, then the pending operation (R153). -/
def takeStagingReply (k : SectorNo) (kind : RelocKind) (reply : Reply) (s : State) : State :=
  if reply.error then finish .memoryError 0 s
  else
    let b := reply.data.getD 0 0
    match relocationFault s kind k b with
    | some d => finish .invalid (BitVec.ofNat 16 d) s
    | none => startRelocation k kind b s

/-- The end of the read phase (R18, R155): DONE with the count of remotes that differed, or MEMORY_ERROR with the lowest
failing remote; where a CANCEL waits, CANCELLED in their place and then the CANCEL's DONE (R156, R162). -/
def endRelocation (k : SectorNo) (changed : Nat) (failed : Option RemoteNo) (cancel : Option Command) (s : State) :
    State :=
  let s := setPendingOp k none s
  match cancel, failed with
  | some c, none => answer c .done 0 (finish .cancelled 0xFFFF s)
  | some c, some r => answer c .done 0 (finish .cancelled (BitVec.ofNat 16 r.val) s)
  | none, none => finish .done (BitVec.ofNat 16 changed) s
  | none, some r => finish .memoryError (BitVec.ofNat 16 r.val) s

/-- Take the differing lanes of a descriptor that a relocation has read (R18). -/
def takeDifferences (k : SectorNo) (r : RemoteNo) (b : Beat) (s : State) : State :=
  changeDescriptor k r (differingLanes (s.entry k r) b) b s

/-- The response to one descriptor read of a relocation: its differences, or the entry left on ERROR; then the writes
accepted after the read was issued (R18, log 19); then the next read or the end. -/
def takeRelocDescriptorReply (k : SectorNo) (r : RemoteNo) (reply : Reply) (s : State) : State :=
  match s.channel.inFlight with
  | some { phase := .relocationReading _ changed failed late cancel, .. } =>
    let b := reply.data.getD 0 0
    let changed := if !reply.error && countsAsChanged (s.entry k r) b then changed + 1 else changed
    let failed := if reply.error then failed.or (some r) else failed
    let s := if reply.error then s else takeDifferences k r b s
    let s := late.foldl (fun t w => changeDescriptor k r w.lanes w.beat t) s
    if h : r.val + 1 < 128 then
      let next : RemoteNo := ⟨r.val + 1, h⟩
      waitRead (some (.relocDescriptor k next)) (setPhase (.relocationReading next changed failed [] cancel) s)
    else endRelocation k changed failed cancel s
  | _ => s

/-! ### The copy of a descriptor write (R8, R17, R18, R143) -/

/-- Where a descriptor stands against the reads of a load or relocation. -/
inductive ReadStand where
  | notYet
  | inFlight
  | returned
  deriving DecidableEq, Repr

/-- Descriptor number `i` against the read number `at`: the read of `at` is in flight once it has been granted. -/
def readStand (s : State) (i pos : Nat) : ReadStand :=
  if i < pos then .returned else if i = pos ∧ s.channel.read = none then .inFlight else .notYet

/-- One beat of a descriptor copy on the staged entries of a load (R17). -/
def copyToStaged (setup : Setup) (staged : Vector (Vector StagedEntry 128) 4) (k' : SectorNo) (r' : RemoteNo)
    (late : List LateWrite) (k : SectorNo) (r : RemoteNo) (lanes : Lanes) (b : Beat) (s : State) : State :=
  match readStand s (128 * k.val + r.val) (128 * k'.val + r'.val) with
  | .notYet => s
  | .inFlight => setPhase (.readingDescriptors setup staged k' r' (late ++ [{ lanes := lanes, beat := b }])) s
  | .returned => setPhase (.readingDescriptors setup (modStaged k r (changeStaged lanes b) staged) k' r' late) s

/-- One beat of a descriptor copy during the read phase of its sector's relocation (R18). -/
def copyInReadPhase (r' : RemoteNo) (changed : Nat) (failed : Option RemoteNo) (late : List LateWrite)
    (cancel : Option Command) (k : SectorNo) (r : RemoteNo) (lanes : Lanes) (b : Beat) (s : State) : State :=
  match readStand s r.val r'.val with
  | .notYet => s
  | .inFlight =>
    setPhase (.relocationReading r' changed failed (late ++ [{ lanes := lanes, beat := b }]) cancel) s
  | .returned => changeDescriptor k r lanes b s

/-- One beat of a descriptor copy in a window of the active table. -/
def copyDescriptor (k : SectorNo) (r : RemoteNo) (lanes : Lanes) (b : Beat) (s : State) : State :=
  match s.channel.inFlight with
  | some { cmd := c, phase := .relocationReading r' changed failed late cancel } =>
    if sectorOfByte c.sector = some k then copyInReadPhase r' changed failed late cancel k r lanes b s
    else changeDescriptor k r lanes b s
  | some { phase := .readingDescriptors setup staged k' r' late, .. } =>
    copyToStaged setup staged k' r' late k r lanes b s
  | _ => changeDescriptor k r lanes b s

/-- The remote whose descriptor a beat of a DESCRIPTOR window is (R8). -/
def remoteAt (w : Window) (addr : Addr) : RemoteNo :=
  ⟨(addr - w.base).toNat / 8 % 128, Nat.mod_lt _ (by decide)⟩

/-- The beats of a descriptor write in ascending address order, each as one change by `take` (R8). -/
def copyBeats (take : RemoteNo → Lanes → Beat → State → State) (w : Window) (lanes : Lanes) :
    Addr → List Beat → State → State
  | _, [], s => s
  | addr, b :: bs, s => copyBeats take w lanes (addr + 8) bs (take (remoteAt w addr) lanes b s)

/-- The DESCRIPTOR window of the table in force that a CONTROLLER write lies in while the staged table classifies it
(R17, R143); none at any other time. -/
def inForceDescriptor (s : State) (q : Request) : Option (Window × SectorNo) :=
  match s.channel.inFlight with
  | some { phase := .readingDescriptors _ _ _ _ _, .. } =>
    if q.dir = .write ∧ s.role q.master = .controller then
      match placementIn s.windows q with
      | .inside w => if w.kind = .descriptor then w.sector.map fun k => (w, k) else none
      | .outside => none
      | .split => none
    else none
  | _ => none

/-- The copy to the current entries of a write in a DESCRIPTOR window of the table in force during a load (R17). -/
def copyInForce (q : Request) (s : State) : State :=
  match inForceDescriptor s q with
  | some (w, k) => copyBeats (changeDescriptor k) w q.lanes (alignBeat q.addr) q.data s
  | none => s

end Sys2Proof.Machine
end

