-- ==== Sys2Proof/Machine/Outbound.lean ====
section
/-! DEFINITION. Section 10: forming outbound writes, the log ring, status and counter blocks, the handing of held results, and
the completion of a write. -/

namespace Sys2Proof.Machine

/-! ### Blocks as bytes (Tables 11.12 and 11.13) -/

/-- The in-flight flag and tag of the device status block. -/
def State.inFlightBytes (s : State) : List Byte :=
  match s.channel.inFlight with
  | some f => [1, f.cmd.tag]
  | none => [0, 0]

/-- The device status block (R180, Table 11.13). -/
def deviceBlock (s : State) : List Beat :=
  beatsOfBytes 8 ([s.notices.pending] ++ s.inFlightBytes ++ [0] ++ leBytes 4 s.writer.faults.toNat ++
    leBytes 4 s.writer.head ++ leBytes 4 s.writer.seq.toNat ++ leBytes 4 s.writer.skips.toNat ++
    leBytes 4 s.time.toNat)

/-- The eight report counts in the order of Table 11.13. -/
def ReportCounts.bytes (c : ReportCounts) : List Byte :=
  [c.matched, c.stray, c.duplicate, c.mismatch, c.torn, c.unwatched, c.void, c.suspendedIgnored].flatMap
    fun w => leBytes 4 w.toNat

/-- A sector counter block (R181, Table 11.13). -/
def counterBlock (x : Sector) : List Beat :=
  beatsOfBytes 8 ([BitVec.ofNat 8 (modeCode x.mode), if x.suspended then 1 else 0,
      BitVec.ofNat 8 x.episode.state.code, BitVec.ofNat 8 x.n] ++ leBytes 2 x.episode.record.number.toNat ++
    RState.all.map (fun st => BitVec.ofNat 8 (x.tally st)) ++ [0] ++ leBytes 4 x.framesSeen.toNat ++ x.counts.bytes)

/-- The sector of a mirror group. -/
def groupSector (g : Fin 128) : SectorNo := ⟨g.val / 32, by have := g.isLt; omega⟩

/-- The remotes of a mirror group, item 0 first (R7). -/
def groupRemotes (g : Fin 128) : List RemoteNo :=
  (List.finRange 4).map fun i => ⟨4 * (g.val % 32) + i.val, by have := i.isLt; omega⟩

/-- A mirror group: four items of 2 bytes (R7, Table 11.12). -/
def mirrorBeat (s : State) (g : Fin 128) : Beat :=
  beatOfBytes ((groupRemotes g).flatMap fun r => leBytes 2 (mirrorItem (s.entry (groupSector g) r)))

/-! ### Where writes land (Figure 10.1) -/

/-- An anchor offset as an address. -/
def State.anchor (s : State) (off : Nat) : Addr := s.channel.anchorBase + BitVec.ofNat 40 off

/-- The anchor offset of a source's write; log writes land in the ring. -/
def WriteSource.offset : WriteSource → Nat
  | .result => 0x008
  | .log => 0
  | .device => 0x800
  | .counter k => 0x900 + 0x40 * k.val
  | .mirror g => 0xC00 + 8 * g.val

/-- A formed write enters a free place as the youngest ready write (R174). -/
def pushWrite (source : WriteSource) (addr : Addr) (data : List Beat) (s : State) : State :=
  { s with writer := { s.writer with
      buffer := s.writer.buffer ++ [{ source := source, addr := addr, data := data, issued := false }] } }

/-- A formed write of the anchor block. -/
def pushAnchorWrite (source : WriteSource) (data : List Beat) (s : State) : State :=
  pushWrite source (s.anchor source.offset) data s

/-! ### The log source (R176) -/

/-- The ring's capacity (R176). -/
def LogGeometry.capacity (g : LogGeometry) : Nat := 2 ^ g.k

/-- The records owed to the host (R176). -/
def Writer.owed (w : Writer) (c : Nat) : Nat := (w.head + c - w.tail) % c

/-- A geometry with room for a record, if there is one (R176). -/
def Writer.roomy (w : Writer) : Option LogGeometry :=
  match w.log with
  | some g => if w.owed g.capacity + 1 < g.capacity then some g else none
  | none => none

/-- Write a record at the head index: it takes the next sequence number, and both advance (R176). -/
def writeRecord (g : LogGeometry) (rec : LogRecord) (s : State) : State :=
  let w := s.writer
  let s := pushWrite .log (g.base + BitVec.ofNat 40 (32 * w.head)) (rec.beats w.seq) s
  markDevice { s with writer := { s.writer with seq := w.seq + 1, head := (w.head + 1) % g.capacity } }

/-- The OVERFLOW record of the present skips (R176, R178). -/
def overflowRecord (s : State) : LogRecord :=
  { time := s.time, sector := none, frame := none, body := .overflow s.writer.skips }

/-- Form the OVERFLOW record: the skip count becomes 0 and LOG_SKIP is raised (R176). -/
def writeOverflow (g : LogGeometry) (s : State) : State :=
  let s := writeRecord g (overflowRecord s) s
  raiseNotice .logSkip { s with writer := { s.writer with skips := 0 } }

/-- Discard the queue's head record (R176): `rest` is the queue behind it. -/
def discardRecord (rest : List LogRecord) (s : State) : State :=
  let s := setQueue rest s
  markDevice { s with writer := { s.writer with skips := s.writer.skips + 1, seq := s.writer.seq + 1 } }

/-- Discard every record of a queue, one at a time (R176). -/
def discardAll : List LogRecord → State → State
  | [], s => s
  | _ :: rest, s => discardAll rest (discardRecord rest s)

/-- The log source considered for a free place (R176): whether it has filled the place, and the state. A full ring or an
absent geometry empties the queue and leaves the place free (log 24). -/
def formLog (s : State) : Bool × State :=
  match s.writer.roomy with
  | some g =>
    if s.writer.skips ≠ 0 then (true, writeOverflow g s)
    else
      match s.writer.queue with
      | rec :: rest => (true, writeRecord g rec (setQueue rest s))
      | [] => (false, s)
  | none => (false, discardAll s.writer.queue s)

/-! ### The other sources (R174) -/

/-- Form the result word: the pending word becomes empty, and the command whose result it is leaves flight (R161,
R174, R175). -/
def formResult (r : Result) (s : State) : State :=
  let s := pushAnchorWrite .result [resultBeat r] { s with writer := { s.writer with pendingResult := none } }
  if r.closes then markDevice { s with channel := { s.channel with inFlight := none } } else s

/-- Form the device status block; it is unmarked (R174, R180). -/
def formDevice (s : State) : State :=
  pushAnchorWrite .device (deviceBlock s) { s with writer := { s.writer with deviceDirty := false } }

/-- Form a sector counter block; it is unmarked (R174, R181). -/
def formCounter (k : SectorNo) (s : State) : State :=
  pushAnchorWrite (.counter k) (counterBlock (s.sector k))
    { s with writer := { s.writer with counterDirty := s.writer.counterDirty.set k.val false k.isLt } }

/-- Form a mirror group; it is unmarked and becomes the group last formed (R174). -/
def formMirror (g : Fin 128) (s : State) : State :=
  pushAnchorWrite (.mirror g) [mirrorBeat s g]
    { s with writer := { s.writer with mirrorDirty := s.writer.mirrorDirty.set g.val false g.isLt, lastGroup := g } }

/-- The lowest-numbered marked sector counter block. -/
def Writer.nextCounter (w : Writer) : Option SectorNo := sectorNos.find? fun k => w.counterDirty[k]

/-- The first marked group after the group last formed, wrapping from 127 to 0 (R174). -/
def Writer.nextGroup (w : Writer) : Option (Fin 128) :=
  ((List.finRange 128).map fun i => w.lastGroup + 1 + i).find? fun g => w.mirrorDirty[g]

/-- The counter and mirror dirty sets, in that order (R174). -/
def formDirty (s : State) : State :=
  if s.writer.deviceDirty then formDevice s
  else
    match s.writer.nextCounter with
    | some k => formCounter k s
    | none =>
      match s.writer.nextGroup with
      | some g => formMirror g s
      | none => s

/-- One selection: with a place free, one write from the first source that has material (R174). -/
def formWrite (s : State) : State :=
  if Config.outboundPlaces ≤ s.writer.buffer.length then s
  else
    match s.writer.pendingResult with
    | some r => formResult r s
    | none =>
      let l := formLog s
      if l.1 then l.2 else formDirty l.2

/-! ### Handing held results (R161) -/

/-- The oldest held result enters the free pending result word (R161, R175). -/
def handHeld (s : State) : State :=
  match s.writer.pendingResult, s.channel.held with
  | none, r :: rest => enterPending r { s with channel := { s.channel with held := rest } }
  | _, _ => s

/-! ### Completion (R175, R179) -/

/-- The cause and sector of the MEMORY record of a dropped write; a log write has none (R179). -/
def memoryCause : WriteSource → Option (MemoryCause × Option SectorNo)
  | .result => some (.result, none)
  | .log => none
  | .device => some (.counter, none)
  | .counter k => some (.counter, some k)
  | .mirror g => some (.mirror, some (groupSector g))

/-- A write answered ERROR is dropped: fault count, MEMORY_FAULT, and one MEMORY record unless it was a log write
(R179). -/
def dropWrite (source : WriteSource) (s : State) : State :=
  let s := markDevice { s with writer := { s.writer with faults := s.writer.faults + 1 } }
  let s := raiseNotice .memoryFault s
  match memoryCause source with
  | some (cause, k) => logFor k (.memory cause (BitVec.ofNat 32 source.offset)) s
  | none => s

/-- A write answered OKAY: a result word raises COMMAND (R175). -/
def completeWrite (source : WriteSource) (s : State) : State :=
  match source with
  | .result => raiseNotice .command s
  | .log => s
  | .device => s
  | .counter _ => s
  | .mirror _ => s

/-- Take the oldest issued write out of the buffer. -/
def removeIssued : List OutWrite → List OutWrite
  | [] => []
  | w :: ws => if w.issued then ws else w :: removeIssued ws

/-- Mark the oldest ready write issued (R174). -/
def issueOldest : List OutWrite → List OutWrite
  | [] => []
  | w :: ws => if w.issued then w :: issueOldest ws else { w with issued := true } :: ws

end Sys2Proof.Machine
end

