-- ==== Sys2Proof/Machine/Fabric.lean ====
section
/-! DEFINITION. Section 7, 7.1, 7.2 and 7.7: channels and response order, the memory port arbiter, the acceptance of a
request with the copies its class calls for, and memory's responses. -/

namespace Sys2Proof.Machine

/-! ### Channels and response order (R127, R128) -/

def State.waitingAt (s : State) (m : MasterNo) : List Request := s.ports.channels[m]

def State.owedTo (s : State) (m : MasterNo) : List Owed := s.ports.owed[m]

def setChannel (m : MasterNo) (qs : List Request) (s : State) : State :=
  { s with ports := { s.ports with channels := s.ports.channels.set m.val qs m.isLt } }

def setOwed (m : MasterNo) (os : List Owed) (s : State) : State :=
  { s with ports := { s.ports with owed := s.ports.owed.set m.val os m.isLt } }

/-- The formed responses at the front of a master's order. -/
def formedFront : List Owed → List Response
  | .formed r :: rest => r :: formedFront rest
  | .awaiting _ _ :: _ => []
  | [] => []

/-- What is owed behind them. -/
def behindFormed : List Owed → List Owed
  | .formed _ :: rest => behindFormed rest
  | .awaiting n p :: rest => .awaiting n p :: rest
  | [] => []

/-- Return the responses of a master whose turn has come (R128). -/
def returnReady (m : MasterNo) (s : State) : State :=
  let os := s.owedTo m
  let s := setOwed m (behindFormed os) s
  { s with ports := { s.ports with returned := s.ports.returned ++ (formedFront os).map fun r => (m, r) } }

/-- A forwarded request as it leaves for memory: whole, under its master number, its address, lanes, lock flag and data
as received (R127, R129). -/
def Request.toMemory (q : Request) : MemoryRequest :=
  { master := q.master.castSucc, dir := q.dir, addr := q.addr, beats := q.beats, lanes := q.lanes, lock := q.lock,
    data := q.data }

/-- A request leaves at the memory port, after every one issued before it (R128, R129). -/
def issueToMemory (r : MemoryRequest) (s : State) : State :=
  { s with ports := { s.ports with issued := s.ports.issued ++ [r] } }

/-- Forward a request to memory, and owe its master the response that memory will give. -/
def oweAwaited (q : Request) (patch : Option Patch) (s : State) : State :=
  let n := match q.dir with
    | .read => q.beats
    | .write => 0
  issueToMemory (Request.toMemory q) (setOwed q.master (s.owedTo q.master ++ [.awaiting n patch]) s)

/-- Owe a response the part forms itself; it is returned once every earlier one has been (R128). -/
def oweFormed (m : MasterNo) (r : Response) (s : State) : State :=
  returnReady m (setOwed m (s.owedTo m ++ [.formed r]) s)

/-! ### Locked sequences (R130) -/

/-- A request with the lock flag opens or continues its master's sequence; one without closes it (R130, log 7). -/
def locksAfter (q : Request) (locks : List MasterNo) : List MasterNo :=
  if q.lock then (if locks.contains q.master then locks else locks ++ [q.master])
  else locks.filter (· ≠ q.master)

/-! ### The arbiter (R131) -/

/-- A RECEIVER report write waits while the hold-off is on, but not inside its master's open locked sequence (R103). -/
def heldOff (s : State) (q : Request) : Bool := s.holdOff && !s.ports.locks.contains q.master

/-- Whether a request that needs the port is eligible for a grant, by its class (R103, R131, R159 row 1). -/
def eligibleClass (s : State) (q : Request) : AccessClass → Bool
  | .pass => true
  | .snoopDescriptor _ _ => true
  | .snoopReport _ _ => !heldOff s q
  | .patch _ _ => true
  | .takeCommand => !s.resultWaits
  | .takeTail => true
  | .takeMarker => true
  | .absorb => false
  | .refuse _ => false

/-- Whether a master has an eligible head request. -/
def eligible (s : State) (m : MasterNo) : Bool :=
  match s.waitingAt m with
  | q :: _ => eligibleClass s q (classify s q)
  | [] => false

/-- A ready write stands in the outbound buffer. -/
def Writer.hasReady (w : Writer) : Bool := w.buffer.any fun o => !o.issued

/-- Rule 2 of R131: six writes held, one ready, and the grant before was not an outbound write. -/
def outboundFirst (s : State) : Bool :=
  decide (Config.outboundPlaces ≤ s.writer.buffer.length) && s.writer.hasReady && !s.ports.lastOutbound

/-- The masters in the order the arbiter looks at them: after the one last granted, wrapping from 7 to 0. -/
def masterOrder (last : MasterNo) : List MasterNo := (List.finRange 8).map fun i => last + 1 + i

/-- What the port is granted to. -/
inductive Grant where
  | passThrough (m : MasterNo)
  | partRead
  | outbound
  | nothing
  deriving DecidableEq, Repr

/-- The arbiter's choice whenever the port can take a request (R131). -/
def arbiter (s : State) : Grant :=
  match s.ports.locks with
  | m :: _ => if eligible s m then .passThrough m else .nothing
  | [] =>
    if outboundFirst s then .outbound
    else
      match (masterOrder s.ports.lastMaster).find? fun m => eligible s m with
      | some m => .passThrough m
      | none =>
        if s.channel.read.isSome then .partRead
        else if s.writer.hasReady then .outbound
        else .nothing

/-! ### Acceptance (R127, R138, R142) -/

/-- The head leaves its channel; the locked sequences follow its flag (R127, R130). -/
def leaveChannel (q : Request) (s : State) : State :=
  let s := setChannel q.master (s.waitingAt q.master).tail s
  { s with ports := { s.ports with locks := locksAfter q s.ports.locks } }

/-- A grant to a pass-through request, a released one included (R131). -/
def noteGrant (m : MasterNo) (s : State) : State :=
  { s with ports := { s.ports with lastMaster := m, lastOutbound := false } }

/-- OKAY with no data. -/
def okay : Response := { error := false, data := [] }

/-- ERROR, with zero data in every beat of a read (R139). -/
def refusal (q : Request) : Response :=
  { error := true
    data := match q.dir with
      | .read => List.replicate q.beats 0
      | .write => [] }

/-- A command word: absorbed with OKAY, or forwarded; taken in either case (R138, R159). -/
def acceptCommandWord (q : Request) (s : State) : State :=
  let b := q.data.getD 0 0
  let s' := if absorbsWord s q.lanes b then oweFormed q.master okay s else oweAwaited q none s
  takeCommandWord q.lanes b s'

/-- Accept a request with the class in force: its response is owed, and its copy goes to the owning block in the same
step (R138, R139, R142). During a load a CONTROLLER write in a DESCRIPTOR window of the table in force is in addition
copied to the current entries, whatever class the staged table gives it (R17, R143, log 27). -/
def acceptAs (q : Request) (c : AccessClass) (s : State) : State :=
  match c with
  | .pass => copyInForce q (oweAwaited q none s)
  | .snoopDescriptor w k =>
    copyInForce q (copyBeats (copyDescriptor k) w q.lanes (alignBeat q.addr) q.data (oweAwaited q none s))
  | .snoopReport w k => takeReportBeats k w.base q.lanes (alignBeat q.addr) q.data (oweAwaited q none s)
  | .patch w k => oweAwaited q (some { sector := k, addr := alignBeat q.addr, winBase := w.base }) s
  | .takeCommand => acceptCommandWord q s
  | .takeTail => takeTailWord q.lanes (q.data.getD 0 0) (oweAwaited q none s)
  | .takeMarker => takeMarkerWord q.lanes (q.data.getD 0 0) (oweAwaited q none s)
  | .absorb => copyInForce q (oweFormed q.master okay s)
  | .refuse cause => copyInForce q (oweFormed q.master (refusal q) (logRefusal cause q s))

/-- Accept the head request q of its master's channel. -/
def accept (q : Request) (s : State) : State :=
  let c := classify s q
  let s := leaveChannel q (if c.needsPort then noteGrant q.master s else s)
  acceptAs q c s

/-- Accept the requests at the head of a master's channel for as long as the head needs no port, at most as many as
stand there (R127). -/
def acceptFree (m : MasterNo) : Nat → State → State
  | 0, s => s
  | n + 1, s =>
    match s.waitingAt m with
    | [] => s
    | q :: _ => if (classify s q).needsPort then s else acceptFree m n (accept q s)

/-- Accept a head request; the requests behind it that need no port follow as each becomes the head (R127). -/
def acceptHead (m : MasterNo) (q : Request) (behind : List Request) (s : State) : State :=
  acceptFree m behind.length (accept q s)

/-- Consider the head of a master's channel (R127): a request that needs no port is accepted; one that does is accepted
if the arbiter grants its master the port, else it waits. -/
def consider (m : MasterNo) (s : State) : State :=
  match s.waitingAt m with
  | [] => s
  | q :: rest =>
    if (classify s q).needsPort then
      if arbiter s = .passThrough m then acceptHead m q rest s else s
    else acceptHead m q rest s

/-- Consider the head of a master's channel while the memory controller takes no request (R129): one that needs the
port waits. -/
def considerStalled (m : MasterNo) (s : State) : State :=
  match s.waitingAt m with
  | [] => s
  | q :: rest => if (classify s q).needsPort then s else acceptHead m q rest s

/-- A request joins the tail of its master's channel (R127). -/
def joinChannel (q : Request) (s : State) : State := setChannel q.master (s.waitingAt q.master ++ [q]) s

/-- A master issues a request: it joins the tail of the master's channel, and the channel's head is considered. -/
def issue (q : Request) (s : State) : State := consider q.master (joinChannel q s)

/-- A master issues a request while the memory controller takes none (R129). -/
def issueStalled (q : Request) (s : State) : State := considerStalled q.master (joinChannel q s)

/-! ### Grants to the part's own requests (R131) -/

/-- A request of the part itself, under master number 8: every lane, no lock flag (R129, log 33). -/
def partRequest (dir : Dir) (addr : Addr) (beats : Nat) (data : List Beat) : MemoryRequest :=
  { master := 8, dir := dir, addr := addr, beats := beats, lanes := allLanes, lock := false, data := data }

/-- The beats of a read of the Command Channel (R16, R18, R153, R166). -/
def ReadTarget.beats : ReadTarget → Nat
  | .config _ => 8
  | .loadDescriptor _ _ => 1
  | .staging _ _ => 1
  | .relocDescriptor _ _ => 1

/-- The base of the descriptor array that a load reads for a sector (R16): its new DESCRIPTOR window's. -/
def State.stagedDescBase (s : State) (k : SectorNo) : Option Addr :=
  match s.channel.inFlight with
  | some { phase := .readingDescriptors setup _ _ _ _, .. } => (setup.sectors[k]).map SectorSetup.descBase
  | _ => none

/-- Descriptor r of an array (R8). A descriptor is read only while the array it lies in stands, so that there is a base. -/
def descriptorAddr (base : Option Addr) (r : RemoteNo) : Addr := base.getD 0 + BitVec.ofNat 40 (8 * r.val)

/-- Where a read of the Command Channel begins: the configuration area's block i (R166), a descriptor of the new array of
a load (R16) or of the DESCRIPTOR window a relocation has moved to (R18), a staging entry (R153). -/
def ReadTarget.addr (s : State) : ReadTarget → Addr
  | .config i => s.anchor (0x100 + 64 * i)
  | .loadDescriptor k r => descriptorAddr (s.stagedDescBase k) r
  | .staging k kind => s.anchor (0x600 + 8 * (3 * k.val + kind.code))
  | .relocDescriptor k r => descriptorAddr ((windowOf s.windows .descriptor k).map Window.base) r

/-- The Command Channel's read is issued. -/
def grantRead (s : State) : State :=
  match s.channel.read with
  | some t =>
    issueToMemory (partRequest .read (t.addr s) t.beats [])
      { s with
        channel := { s.channel with read := none }
        ports := { s.ports with outstanding := s.ports.outstanding ++ [.read t false], lastOutbound := false } }
  | none => s

/-- The request of an outbound write: all its beats in one write (R129, R174). -/
def OutWrite.toMemory (w : OutWrite) : MemoryRequest := partRequest .write w.addr w.data.length w.data

/-- The oldest ready write of the outbound buffer. -/
def Writer.oldestReady (w : Writer) : Option OutWrite := w.buffer.find? fun o => !o.issued

/-- The oldest ready outbound write is issued. -/
def grantOutbound (s : State) : State :=
  { s with
    writer := { s.writer with buffer := issueOldest s.writer.buffer }
    ports := { s.ports with
      issued := s.ports.issued ++ (s.writer.oldestReady.map OutWrite.toMemory).toList
      outstanding := s.ports.outstanding ++ [.write]
      lastOutbound := true } }

/-! ### Memory's responses (R128, R129, R132) -/

/-- A reply's beats fit a request of n beats of read data. -/
def Reply.fits (n : Nat) (r : Reply) : Bool := r.data.length == n

/-- The oldest awaited response of a master, when it is its turn: its beats and PATCH mark, and what is owed behind. -/
def oldestAwaited (s : State) (m : MasterNo) : Option (Nat × Option Patch × List Owed) :=
  match s.owedTo m with
  | .awaiting n p :: rest => some (n, p, rest)
  | .formed _ :: _ => none
  | [] => none

/-- Give a master the response formed for its oldest awaited request, and return what is ready. -/
def answerOldest (m : MasterNo) (r : Response) (rest : List Owed) (s : State) : State :=
  returnReady m (setOwed m (.formed r :: rest) s)

/-- The response of a map read: the engine takes its beats; an ERROR is returned with no beat taken (R73, R132). R132 and R73 do
not say which data go with the ERROR of a PATCH read: the data memory gave are returned, unpatched (model's choice, log 40). -/
def takeMapReply (p : Patch) (reply : Reply) (s : State) : Response × State :=
  if reply.error then ({ error := true, data := reply.data }, s)
  else
    let t := takeMapBeats p.sector p.winBase p.addr reply.data s
    ({ error := false, data := t.1 }, t.2)

/-- The oldest outstanding request of master number 8 is answered. -/
def popOutstanding (s : State) : State :=
  { s with ports := { s.ports with outstanding := s.ports.outstanding.tail } }

end Sys2Proof.Machine
end

