-- ==== Sys2Proof/WellFormed.lean ====
section
/-! DEFINITION. Which commands the outside can send: requests of the form R127 allows, replies no longer than a request,
and a code that names no command for the row that says so. -/

namespace Sys2Proof

/-- A request of the form of R127: 1 to 8 beats; at least one lane of a single beat, every lane of a longer request;
a write carries one beat of data for each beat and a read none. -/
def Request.ok (q : Request) : Bool :=
  (1 ≤ q.beats && q.beats ≤ 8) &&
  (if q.beats = 1 then q.lanes != 0 else q.lanes == allLanes) &&
  (match q.dir with
   | .read => q.data.length == 0
   | .write => q.data.length == q.beats)

/-- A single-beat write enables at least one lane (R127). -/
def CommandWrite.ok (w : CommandWrite) : Bool := w.lanes != 0

/-- A single-beat write enables at least one lane (R127). -/
def WordWrite.ok (w : WordWrite) : Bool := w.lanes != 0

/-- A waiting request was checked when it was issued. -/
def Issue.ok {α : Type} (f : α → Bool) : Issue α → Bool
  | .new a => f a
  | .stalled a => f a
  | .waiting _ => true

/-- No request is longer than 8 beats (R127), so no reply is (R128). -/
def Reply.ok (r : Reply) : Bool := r.data.length ≤ 8

/-- The codes of Table 11.1 that name a command are 01h to 0Dh. -/
def codeNamesCommand (code : Byte) : Bool := 1 ≤ code.toNat && code.toNat ≤ 13

/-- The check of a command, one case for each row. -/
def Instr.wellFormed : Instr → Bool
  | .powerOnReset _ => true
  | .timeBaseAdvance => true
  | .commandTimeout => true
  | .loadConfig w => w.ok CommandWrite.ok
  | .setMode w => w.ok CommandWrite.ok
  | .setTune w => w.ok CommandWrite.ok
  | .hold w => w.ok CommandWrite.ok
  | .release w => w.ok CommandWrite.ok
  | .rearm w => w.ok CommandWrite.ok
  | .forceFade w => w.ok CommandWrite.ok
  | .suspend w => w.ok CommandWrite.ok
  | .resume w => w.ok CommandWrite.ok
  | .resetSector w => w.ok CommandWrite.ok
  | .relocate w => w.ok CommandWrite.ok
  | .ackNotice w => w.ok CommandWrite.ok
  | .cancel w => w.ok CommandWrite.ok
  | .logTailWord w => w.ok WordWrite.ok
  | .markerWord w => w.ok WordWrite.ok
  | .absorbedWrite q => q.ok Request.ok
  | .passThroughRequest q => q.ok Request.ok
  | .descriptorWrite q => q.ok Request.ok
  | .reportWrite q => q.ok Request.ok
  | .mapRead q => q.ok Request.ok
  | .mapReadResponse _ reply => reply.ok
  | .refusedRequest q => q.ok Request.ok
  | .memoryResponse _ reply => reply.ok
  | .outboundWriteFormed => true
  | .outboundWriteGrant => true
  | .outboundWriteCompletion _ => true
  | .partReadGrant => true
  | .configReadResponse reply => reply.ok
  | .loadDescriptorReadResponse reply => reply.ok
  | .stagingReadResponse reply => reply.ok
  | .relocationDescriptorReadResponse reply => reply.ok
  | .resultHandoff => true
  | .backoffExpiry _ _ => true
  | .holdDownExpiry _ => true
  | .settleExpiry _ => true
  | .codeNamingNoCommand code w => !codeNamesCommand code && w.ok CommandWrite.ok

end Sys2Proof
end

