-- ==== Sys2Proof/Machine/CommandRows.lean ====
section
/-! DEFINITION. The meanings of the rows that write the command word, the log tail word or the marker word: the request
each makes, taken on the fabric port like any other request. -/

namespace Sys2Proof.Machine

/-- A request of the form of R127 is issued as `act` says; any other form never reaches the part (log 8). -/
def takeRequest (act : Request → State → State) (q : Request) (s : State) : Host.Outcome State Fault Refusal :=
  if q.ok then .next (act q s) else .fault .malformedRequest

/-- A fabric row: a new request, one issued while memory takes none, or the head of a master's channel considered
again (log 2). -/
def takeIssue {α : Type} (request : α → Request) (i : Issue α) (s : State) : Host.Outcome State Fault Refusal :=
  match i with
  | .new a => takeRequest issue (request a) s
  | .stalled a => takeRequest issueStalled (request a) s
  | .waiting m => .next (consider m s)

/-- A single-beat write of a beat at an address. -/
def wordRequest (master : MasterNo) (lock : Bool) (addr : Addr) (lanes : Lanes) (b : Beat) : Request :=
  { master := master, dir := .write, addr := addr, beats := 1, lanes := lanes, lock := lock, data := [b] }

/-- The write of a command word with the given code (Table 11.6), at anchor offset 000h. -/
def commandRequest (s : State) (code : Byte) (w : CommandWrite) : Request :=
  wordRequest w.master w.lock (s.channel.anchorBase + w.low.setWidth 40) w.lanes
    (commandBeat code w.sector w.remote w.tag w.arg w.spare)

/-- A write of the log tail word, at anchor offset 010h. -/
def tailRequest (s : State) (w : WordWrite) : Request :=
  wordRequest w.master w.lock (s.channel.anchorBase + 0x10 + w.low.setWidth 40) w.lanes w.word

/-- A write of the marker word, at anchor offset 018h. -/
def markerRequest (s : State) (w : WordWrite) : Request :=
  wordRequest w.master w.lock (s.channel.anchorBase + 0x18 + w.low.setWidth 40) w.lanes w.word

/-- LOAD_CONFIG (R166). -/
def execLoadConfig (w : Issue CommandWrite) (s : State) : Host.Outcome State Fault Refusal :=
  takeIssue (commandRequest s codeLoadConfig) w s

/-- SET_MODE (R146). -/
def execSetMode (w : Issue CommandWrite) (s : State) : Host.Outcome State Fault Refusal :=
  takeIssue (commandRequest s codeSetMode) w s

/-- SET_TUNE (R169). -/
def execSetTune (w : Issue CommandWrite) (s : State) : Host.Outcome State Fault Refusal :=
  takeIssue (commandRequest s codeSetTune) w s

/-- HOLD (R41). -/
def execHold (w : Issue CommandWrite) (s : State) : Host.Outcome State Fault Refusal :=
  takeIssue (commandRequest s codeHold) w s

/-- RELEASE (R42). -/
def execRelease (w : Issue CommandWrite) (s : State) : Host.Outcome State Fault Refusal :=
  takeIssue (commandRequest s codeRelease) w s

/-- REARM (R43). -/
def execRearm (w : Issue CommandWrite) (s : State) : Host.Outcome State Fault Refusal :=
  takeIssue (commandRequest s codeRearm) w s

/-- FORCE_FADE (R44). -/
def execForceFade (w : Issue CommandWrite) (s : State) : Host.Outcome State Fault Refusal :=
  takeIssue (commandRequest s codeForceFade) w s

/-- SUSPEND (R150). -/
def execSuspend (w : Issue CommandWrite) (s : State) : Host.Outcome State Fault Refusal :=
  takeIssue (commandRequest s codeSuspend) w s

/-- RESUME (R151). -/
def execResume (w : Issue CommandWrite) (s : State) : Host.Outcome State Fault Refusal :=
  takeIssue (commandRequest s codeResume) w s

/-- RESET_SECTOR (R152). -/
def execResetSector (w : Issue CommandWrite) (s : State) : Host.Outcome State Fault Refusal :=
  takeIssue (commandRequest s codeResetSector) w s

/-- RELOCATE (R153). -/
def execRelocate (w : Issue CommandWrite) (s : State) : Host.Outcome State Fault Refusal :=
  takeIssue (commandRequest s codeRelocate) w s

/-- ACK_NOTICE (R170). -/
def execAckNotice (w : Issue CommandWrite) (s : State) : Host.Outcome State Fault Refusal :=
  takeIssue (commandRequest s codeAckNotice) w s

/-- CANCEL (R162). -/
def execCancel (w : Issue CommandWrite) (s : State) : Host.Outcome State Fault Refusal :=
  takeIssue (commandRequest s codeCancel) w s

/-- A command word whose code is the operand's (R160). -/
def execCodeNamingNoCommand (code : Byte) (w : Issue CommandWrite) (s : State) : Host.Outcome State Fault Refusal :=
  takeIssue (commandRequest s code) w s

/-- LOG_TAIL_WORD (R164). -/
def execLogTailWord (w : Issue WordWrite) (s : State) : Host.Outcome State Fault Refusal :=
  takeIssue (tailRequest s) w s

/-- MARKER_WORD (R165). -/
def execMarkerWord (w : Issue WordWrite) (s : State) : Host.Outcome State Fault Refusal :=
  takeIssue (markerRequest s) w s

end Sys2Proof.Machine
end

