-- ==== Sys2Proof/Machine/PortRows.lean ====
section
/-! DEFINITION. The meanings of the fabric rows that carry a whole request and of the rows by which memory answers: the row
names what the request or response is expected to be, and the class or mark in force decides what it is (R143, log 3). -/

namespace Sys2Proof.Machine

/-! ### Requests -/

/-- ABSORBED_WRITE (R138). -/
def execAbsorbedWrite (q : Issue Request) (s : State) : Host.Outcome State Fault Refusal := takeIssue id q s

/-- PASS_THROUGH_REQUEST (R138). -/
def execPassThroughRequest (q : Issue Request) (s : State) : Host.Outcome State Fault Refusal := takeIssue id q s

/-- DESCRIPTOR_WRITE (R8). -/
def execDescriptorWrite (q : Issue Request) (s : State) : Host.Outcome State Fault Refusal := takeIssue id q s

/-- REPORT_WRITE (R96). -/
def execReportWrite (q : Issue Request) (s : State) : Host.Outcome State Fault Refusal := takeIssue id q s

/-- MAP_READ (R73). -/
def execMapRead (q : Issue Request) (s : State) : Host.Outcome State Fault Refusal := takeIssue id q s

/-- REFUSED_REQUEST (R139). -/
def execRefusedRequest (q : Issue Request) (s : State) : Host.Outcome State Fault Refusal := takeIssue id q s

/-! ### Responses to a master's requests (R73, R128) -/

/-- The response that memory's reply to the oldest awaited request becomes, and the state once a map read's beats are
taken. -/
def takeReply (patch : Option Patch) (reply : Reply) (s : State) : Response × State :=
  match patch with
  | some p => takeMapReply p reply s
  | none => ({ error := reply.error, data := reply.data }, s)

/-- Memory answers the oldest request that a master has outstanding there (R128). -/
def memoryReply (m : MasterNo) (reply : Reply) (s : State) : Host.Outcome State Fault Refusal :=
  match oldestAwaited s m with
  | some (n, patch, rest) =>
    if Reply.fits n reply then
      let t := takeReply patch reply s
      .next (answerOldest m t.1 rest t.2)
    else .fault .responseNotOwed
  | none => .fault .responseNotOwed

/-- MAP_READ_RESPONSE (R73). -/
def execMapReadResponse (m : MasterNo) (reply : Reply) (s : State) : Host.Outcome State Fault Refusal :=
  memoryReply m reply s

/-- MEMORY_RESPONSE (R128). -/
def execMemoryResponse (m : MasterNo) (reply : Reply) (s : State) : Host.Outcome State Fault Refusal :=
  memoryReply m reply s

/-! ### Responses to the part's own reads (R131) -/

/-- What the response to a read of the Command Channel does, by its target. -/
def takePartReply (t : ReadTarget) (reply : Reply) (s : State) : State :=
  match t with
  | .config i => takeConfigReply i reply s
  | .loadDescriptor k r => takeLoadDescriptorReply k r reply s
  | .staging k kind => takeStagingReply k kind reply s
  | .relocDescriptor k r => takeRelocDescriptorReply k r reply s

/-- Memory answers the part's oldest outstanding request, a read (R129); the response of an abandoned operation's read
is discarded (R162). -/
def partReadReply (reply : Reply) (s : State) : Host.Outcome State Fault Refusal :=
  match s.ports.outstanding with
  | .read t discard :: _ =>
    if Reply.fits t.beats reply then
      .next (if discard then popOutstanding s else takePartReply t reply (popOutstanding s))
    else .fault .responseNotOwed
  | .write :: _ => .fault .responseNotOwed
  | [] => .fault .responseNotOwed

/-- CONFIG_READ_RESPONSE (R166). -/
def execConfigReadResponse (reply : Reply) (s : State) : Host.Outcome State Fault Refusal := partReadReply reply s

/-- LOAD_DESCRIPTOR_READ_RESPONSE (R17). -/
def execLoadDescriptorReadResponse (reply : Reply) (s : State) : Host.Outcome State Fault Refusal :=
  partReadReply reply s

/-- STAGING_READ_RESPONSE (R153). -/
def execStagingReadResponse (reply : Reply) (s : State) : Host.Outcome State Fault Refusal := partReadReply reply s

/-- RELOCATION_DESCRIPTOR_READ_RESPONSE (R18). -/
def execRelocationDescriptorReadResponse (reply : Reply) (s : State) : Host.Outcome State Fault Refusal :=
  partReadReply reply s

end Sys2Proof.Machine
end

