-- ==== Sys2Proof/Machine/EventRows.lean ====
section
/-! DEFINITION. The meanings of the rows that are events of the part itself: reset, the time base and the command timeout, the
Outbound Writer's moments, the part's grants, and the expiries. -/

namespace Sys2Proof.Machine

/-- POWER_ON_RESET (R144): every block at its reset value, the straps sampled (R158). -/
def execPowerOnReset (straps : Byte) (s : State) : Host.Outcome State Fault Refusal :=
  .next { State.resetWith straps with pending := s.pending }

/-- TIME_BASE_ADVANCE (R173). -/
def execTimeBaseAdvance (s : State) : Host.Outcome State Fault Refusal := .next (advanceTime s)

/-- COMMAND_TIMEOUT (R163). -/
def execCommandTimeout (s : State) : Host.Outcome State Fault Refusal := .next (expireTimeout s)

/-- OUTBOUND_WRITE_FORMED (R174). -/
def execOutboundWriteFormed (s : State) : Host.Outcome State Fault Refusal := .next (formWrite s)

/-- OUTBOUND_WRITE_GRANT (R131): nothing while the arbiter's rules grant the port otherwise. -/
def execOutboundWriteGrant (s : State) : Host.Outcome State Fault Refusal :=
  .next (if arbiter s = .outbound then grantOutbound s else s)

/-- The source of the oldest issued write. -/
def oldestIssued : List OutWrite → Option WriteSource
  | [] => none
  | w :: ws => if w.issued then some w.source else oldestIssued ws

/-- The place of the oldest issued write becomes free (R174). -/
def freePlace (s : State) : State := { s with writer := { s.writer with buffer := removeIssued s.writer.buffer } }

/-- OUTBOUND_WRITE_COMPLETION (R174, R175, R179): memory answers the part's oldest outstanding request, a write. The response to
a write issued before a locked sequence was opened frees its place while that sequence holds the port (model's choice,
log 41). -/
def execOutboundWriteCompletion (error : Bool) (s : State) : Host.Outcome State Fault Refusal :=
  match s.ports.outstanding, oldestIssued s.writer.buffer with
  | .write :: _, some source =>
    let s := freePlace (popOutstanding s)
    .next (if error then dropWrite source s else completeWrite source s)
  | _, _ => .fault .responseNotOwed

/-- PART_READ_GRANT (R131): nothing while the arbiter's rules grant the port otherwise. -/
def execPartReadGrant (s : State) : Host.Outcome State Fault Refusal :=
  .next (if arbiter s = .partRead then grantRead s else s)

/-- RESULT_HANDOFF (R161). -/
def execResultHandoff (s : State) : Host.Outcome State Fault Refusal := .next (handHeld s)

/-- Whether an engine counts at its epochs: ACTIVE or SHADOW and not suspended (R81, R118, R120). -/
def Sector.counting (x : Sector) : Bool := decide (x.mode ≠ .pass) && !x.suspended

/-- BACKOFF_EXPIRY (R26); at an epoch it is part of MAP_READ_RESPONSE (log 16). -/
def execBackoffExpiry (k : SectorNo) (r : RemoteNo) (s : State) : Host.Outcome State Fault Refusal :=
  .next (backoffExpires k r s)

/-- HOLD_DOWN_EXPIRY (R118); at an epoch it is part of MAP_READ_RESPONSE (log 16). -/
def execHoldDownExpiry (k : SectorNo) (s : State) : Host.Outcome State Fault Refusal :=
  .next (if (s.sector k).counting then holdDownExpires k s else s)

/-- SETTLE_EXPIRY (R120); at an epoch it is part of MAP_READ_RESPONSE (log 16). -/
def execSettleExpiry (k : SectorNo) (s : State) : Host.Outcome State Fault Refusal :=
  .next (if (s.sector k).counting then settleExpires k s else s)

end Sys2Proof.Machine
end

