-- ==== Sys2Proof/Machine/Dispatch.lean ====
section
/-! DEFINITION. One arm for each command. -/

namespace Sys2Proof.Machine

def exec (i : Instr) (s : State) : Host.Outcome State Fault Refusal :=
  match i with
  | .powerOnReset straps => Sys2Proof.Machine.execPowerOnReset straps s
  | .timeBaseAdvance => Sys2Proof.Machine.execTimeBaseAdvance s
  | .commandTimeout => Sys2Proof.Machine.execCommandTimeout s
  | .loadConfig w => Sys2Proof.Machine.execLoadConfig w s
  | .setMode w => Sys2Proof.Machine.execSetMode w s
  | .setTune w => Sys2Proof.Machine.execSetTune w s
  | .hold w => Sys2Proof.Machine.execHold w s
  | .release w => Sys2Proof.Machine.execRelease w s
  | .rearm w => Sys2Proof.Machine.execRearm w s
  | .forceFade w => Sys2Proof.Machine.execForceFade w s
  | .suspend w => Sys2Proof.Machine.execSuspend w s
  | .resume w => Sys2Proof.Machine.execResume w s
  | .resetSector w => Sys2Proof.Machine.execResetSector w s
  | .relocate w => Sys2Proof.Machine.execRelocate w s
  | .ackNotice w => Sys2Proof.Machine.execAckNotice w s
  | .cancel w => Sys2Proof.Machine.execCancel w s
  | .logTailWord w => Sys2Proof.Machine.execLogTailWord w s
  | .markerWord w => Sys2Proof.Machine.execMarkerWord w s
  | .absorbedWrite q => Sys2Proof.Machine.execAbsorbedWrite q s
  | .passThroughRequest q => Sys2Proof.Machine.execPassThroughRequest q s
  | .descriptorWrite q => Sys2Proof.Machine.execDescriptorWrite q s
  | .reportWrite q => Sys2Proof.Machine.execReportWrite q s
  | .mapRead q => Sys2Proof.Machine.execMapRead q s
  | .mapReadResponse m reply => Sys2Proof.Machine.execMapReadResponse m reply s
  | .refusedRequest q => Sys2Proof.Machine.execRefusedRequest q s
  | .memoryResponse m reply => Sys2Proof.Machine.execMemoryResponse m reply s
  | .outboundWriteFormed => Sys2Proof.Machine.execOutboundWriteFormed s
  | .outboundWriteGrant => Sys2Proof.Machine.execOutboundWriteGrant s
  | .outboundWriteCompletion error => Sys2Proof.Machine.execOutboundWriteCompletion error s
  | .partReadGrant => Sys2Proof.Machine.execPartReadGrant s
  | .configReadResponse reply => Sys2Proof.Machine.execConfigReadResponse reply s
  | .loadDescriptorReadResponse reply => Sys2Proof.Machine.execLoadDescriptorReadResponse reply s
  | .stagingReadResponse reply => Sys2Proof.Machine.execStagingReadResponse reply s
  | .relocationDescriptorReadResponse reply => Sys2Proof.Machine.execRelocationDescriptorReadResponse reply s
  | .resultHandoff => Sys2Proof.Machine.execResultHandoff s
  | .backoffExpiry k r => Sys2Proof.Machine.execBackoffExpiry k r s
  | .holdDownExpiry k => Sys2Proof.Machine.execHoldDownExpiry k s
  | .settleExpiry k => Sys2Proof.Machine.execSettleExpiry k s
  | .codeNamingNoCommand code w => Sys2Proof.Machine.execCodeNamingNoCommand code w s

end Sys2Proof.Machine
end

