-- ==== Sys2Proof/Safety.lean ====
section
/-! DEFINITION. What the statements are said in: the invariants of the part, the conditions under which a request is taken
at once, the port bookkeeping of a forwarded request, and the frames (what a step leaves as it was). -/

namespace Sys2Proof

/-- The command that a command word write carries (Table 11.6). -/
def CommandWrite.command (w : CommandWrite) (code : Byte) : Machine.Command :=
  { code := code, sector := w.sector, remote := w.remote, tag := w.tag, arg := w.arg }

/-- The staged value of a parameter, as the number a SET_TUNE carries. -/
def Staged.value (g : Staged) (param : Nat) : Option Nat :=
  match param with
  | 0x0F => g.floor
  | 0x10 => g.cap
  | 0x11 => g.budget
  | 0x12 => g.mask.map BitVec.toNat
  | 0x13 => g.reclaim.map Bool.toNat
  | 0x14 => g.threshold
  | 0x15 => g.holdDown
  | 0x16 => g.settle
  | _ => Option.none

/-- In-force tunables read as a full set of values. -/
def stagedOf (t : Tunables) : Staged :=
  { floor := some t.floor, cap := some t.cap, budget := some t.budget, mask := some t.mask, reclaim := some t.reclaim,
    threshold := some t.threshold, holdDown := some t.holdDown, settle := some t.settle }

end Sys2Proof

namespace Sys2Proof.Machine

/-! ### Invariants -/

/-- The record queue's bound, and the hold-off state that follows its fill level (R102, R172). -/
def State.recordQueueOk (s : State) : Prop :=
  s.writer.queue.length ≤ 64 ∧ (48 ≤ s.writer.queue.length → s.holdOff = true) ∧
    (s.writer.queue.length ≤ 32 → s.holdOff = false)

/-- The ANCHOR window stands in the table at the anchor base, which a strap value gives (R133, R158). -/
def State.anchored (s : State) : Prop :=
  s.windows.head? = some (Window.anchorAt s.channel.anchorBase) ∧
    ∃ straps : Byte, s.channel.anchorBase = anchorBaseOf straps

/-- The suspended flag is set only in SHADOW or ACTIVE (R145), and no change to PASS is ever pending (R146). -/
def Sector.modeOk (x : Sector) : Prop :=
  (x.mode = .pass → x.suspended = false) ∧ x.pendingOp ≠ some (.modeChange .pass)

/-- The bounds of R102, R133, R134, R145, R172 and R174 that every step keeps. -/
structure State.Inv (s : State) : Prop where
  queue : s.recordQueueOk
  buffer : s.writer.buffer.length ≤ 6
  places : s.windows.length ≤ 16
  anchor : s.anchored
  modes : ∀ k, (s.sector k).modeOk

/-- A plan history under report latency D: distinct frame numbers, each within D frames behind the current frame number,
the newest plan's frame number the current one (R74, R84). -/
def Sector.plansOk (x : Sector) (D : Nat) : Prop :=
  (x.history.map Plan.frame).Nodup ∧ (∀ p ∈ x.history, (x.frame - p.frame).toNat ≤ D) ∧
    (∀ p, x.history.getLast? = some p → p.frame = x.frame)

/-- The report latencies a validated load carries are in range (R167). -/
def State.stagedLatencyOk (s : State) : Prop :=
  ∀ f setup staged k r late, s.channel.inFlight = some f → f.phase = .readingDescriptors setup staged k r late →
    ∀ (j : SectorNo) (x : SectorSetup), setup.sectors[j] = some x → x.params.latency ≤ 4

/-- Every plan history is of the form of R84, and every report latency in force or staged is at most 4. -/
structure State.PlansInv (s : State) : Prop where
  plans : ∀ k, (s.sector k).plansOk (s.params k).latency
  latency : ∀ k, (s.params k).latency ≤ 4
  staged : s.stagedLatencyOk

/-! ### When a request is taken at once -/

/-- No request waits, no locked sequence is open, and rule 2 of R131 does not put an outbound write first. -/
def State.portFree (s : State) : Prop :=
  (∀ m, s.waitingAt m = []) ∧ s.ports.locks = [] ∧ outboundFirst s = false

/-- A load is not reading descriptors: the table in force classifies every request, and descriptor copies go to the
entries (R17, R143). -/
def State.notLoading (s : State) : Prop :=
  ∀ f setup staged k r late, s.channel.inFlight = some f → f.phase ≠ .readingDescriptors setup staged k r late

/-- A CONTROLLER's full-width write to an anchor word would be granted the port now, with no result waiting (R131,
R159). -/
structure State.ready (s : State) (w : CommandWrite) : Prop where
  anchor : s.anchored
  port : s.portFree
  role : s.role w.master = .controller
  free : s.resultWaits = false
  full : w.lanes = allLanes

/-- A CONTROLLER's write to the tail or marker word would be granted the port now (R131, R164, R165). -/
structure State.readyFor (s : State) (w : WordWrite) : Prop where
  anchor : s.anchored
  port : s.portFree
  role : s.role w.master = .controller
  some_lane : w.lanes ≠ 0

/-- The rows that name a command, with their codes (Table 11.1). -/
def commandRows : List ((Issue CommandWrite → Instr) × Byte) :=
  [(.loadConfig, 0x01), (.setMode, 0x02), (.setTune, 0x03), (.hold, 0x04), (.release, 0x05), (.rearm, 0x06),
   (.forceFade, 0x07), (.suspend, 0x08), (.resume, 0x09), (.resetSector, 0x0A), (.relocate, 0x0B), (.ackNotice, 0x0C),
   (.cancel, 0x0D)]

/-- The states in which HOLD, RELEASE, REARM and FORCE_FADE are accepted in an ACTIVE sector (R41 to R44), by code. -/
def acceptedIn (code : Byte) (st : RState) : Prop :=
  (code = 0x04 ∧ st ∉ [.idle, .held]) ∨ (code = 0x05 ∧ st = .held) ∨ (code = 0x06 ∧ st = .excluded) ∨
    (code = 0x07 ∧ st ∈ [.serving, .queued, .probing, .ranging, .climbing])

/-! ### Entries in a state (Table 2.2), and the records of a step -/

/-- An entry FADED with that backoff: at the restart profile clamped to the ceiling, misses, good and exchanges 0. -/
def Entry.fadedAs (e : Entry) (restart backoff : Nat) : Entry :=
  { e with state := .faded, profile := min restart e.ceiling, misses := 0, good := 0, exchanges := 0, backoff := backoff }

/-- An entry QUEUED with that entry order stamp: at the restart profile clamped to the ceiling, backoff, misses, good and
exchanges 0. -/
def Entry.queuedAs (e : Entry) (restart stamp : Nat) : Entry :=
  { e with state := .queued, profile := min restart e.ceiling, misses := 0, good := 0, exchanges := 0, backoff := 0,
           order := stamp }

/-- An entry in service at its ceiling, every count 0 and faded at absent; `st` is SERVING or IDLE. -/
def Entry.serviceAs (e : Entry) (st : RState) : Entry :=
  { e with state := st, profile := e.ceiling, misses := 0, good := 0, exchanges := 0, backoff := 0, attempts := 0,
           garbles := 0, solo := false, fadedAt := none }

/-- An entry RANGING: misses, good, exchanges, backoff and garbles 0, solo clear. -/
def Entry.rangingAs (e : Entry) : Entry :=
  { e with state := .ranging, misses := 0, good := 0, exchanges := 0, backoff := 0, garbles := 0, solo := false }

/-- An entry after a charge (R24): attempts one more; below the limit FADED with the doubled backoff, at it EXCLUDED at the
ceiling; garbles and solo cleared in either case. -/
def Entry.chargedAs (e : Entry) (p : Params) : Entry :=
  if e.attempts + 1 < p.attemptsLimit then
    { e.fadedAs p.restart (p.backoffBase * 2 ^ min e.attempts 5) with
      attempts := e.attempts + 1, garbles := 0, solo := false }
  else
    { e with state := .excluded, profile := e.ceiling, misses := 0, good := 0, exchanges := 0, backoff := 0,
             attempts := p.attemptsLimit, garbles := 0, solo := false }

/-- One record is queued, or, with 64 queued, skipped and counted (R172, R176). -/
def Logged (rec : LogRecord) (s t : State) : Prop :=
  (s.writer.queue.length < 64 → t.writer.queue = s.writer.queue ++ [rec]) ∧
    (64 ≤ s.writer.queue.length → t.writer.queue = s.writer.queue ∧ t.writer.skips = s.writer.skips + 1 ∧
      t.writer.seq = s.writer.seq + 1)

/-- A report heard. -/
def BurstOutcome.isHeard : BurstOutcome → Bool
  | .heard _ _ _ => true
  | .crcFail _ => false
  | .silent => false
  | .garbled => false
  | .timeout => false

/-! ### Tunables by parameter code (Table 9.4) -/

/-- The range of each tunable (R126, R169, Table 3.2). -/
def tuneInRange (param v : Nat) : Prop :=
  (param = 0x0F ∧ v ≤ 3) ∨ (param = 0x10 ∧ v ∈ [8, 16, 32, 128]) ∨ (param = 0x11 ∧ v ≤ 8) ∨
    (param = 0x12 ∧ v ≤ 63) ∨ (param = 0x13 ∧ v ≤ 1) ∨ (param = 0x14 ∧ 2 ≤ v ∧ v ≤ 64) ∨
    (param = 0x15 ∧ v ≤ 4095) ∨ (param = 0x16 ∧ v ≤ 255)

/-! ### The port's bookkeeping -/

/-- A request granted the port: it is issued to memory whole, its response is owed, its master is the one last granted,
its lock flag acts (R127, R129 to R131). -/
def forwarded (patch : Option Patch) (q : Request) (s : State) : State :=
  { s with ports := { s.ports with
      owed := s.ports.owed.set q.master.val
        (s.owedTo q.master ++ [.awaiting (if q.dir = .read then q.beats else 0) patch]) q.master.isLt
      issued := s.ports.issued ++ [Request.toMemory q]
      locks := if q.lock then [q.master] else []
      lastMaster := q.master
      lastOutbound := false } }

/-- Everything but the two ports is unchanged. -/
def SameButPorts (s t : State) : Prop := { t with ports := s.ports } = s

/-- The device items that no engine step touches: time, table, roles, store, classes, floor, log geometry and indices,
outbound buffer, fault count, anchor base, waiting read, and the queue of commands. -/
structure DeviceKept (s t : State) : Prop where
  pending : t.pending = s.pending
  time : t.time = s.time
  windows : t.windows = s.windows
  roles : t.roles = s.roles
  store : t.store = s.store
  classes : t.notices.classes = s.notices.classes
  floor : t.notices.floor = s.notices.floor
  log : t.writer.log = s.writer.log
  head : t.writer.head = s.writer.head
  tail : t.writer.tail = s.writer.tail
  buffer : t.writer.buffer = s.writer.buffer
  lastGroup : t.writer.lastGroup = s.writer.lastGroup
  faults : t.writer.faults = s.writer.faults
  base : t.channel.anchorBase = s.channel.anchorBase

/-- Every sector but k is unchanged. -/
def OtherSectors (k : SectorNo) (s t : State) : Prop := ∀ j, j ≠ k → t.sector j = s.sector j

/-- Every entry of sector k but that of r is the one of x, and the other sectors are unchanged. -/
def OtherEntries (k : SectorNo) (r : RemoteNo) (x : Sector) (s t : State) : Prop :=
  OtherSectors k s t ∧ ∀ q, q ≠ r → t.entry k q = x.entry q

/-- The mode, flag, pending operation, tunables, frame state, pack buffer and counts of a sector are kept. -/
structure SectorKept (x y : Sector) : Prop where
  mode : y.mode = x.mode
  suspended : y.suspended = x.suspended
  pendingOp : y.pendingOp = x.pendingOp
  tunables : y.tunables = x.tunables
  staged : y.staged = x.staged
  frame : y.frame = x.frame
  resync : y.resyncPending = x.resyncPending
  pack : y.pack = x.pack
  framesSeen : y.framesSeen = x.framesSeen
  counts : y.counts = x.counts

/-- The first record that the step of remote r from s to t queues, where there is room: its STATE record, with the cause,
the states before and after, and the profile and attempts after the step (R21). -/
def StateLogged (k : SectorNo) (r : RemoteNo) (cause : StateCause) (s t : State) : Prop :=
  s.writer.queue.length < 64 → ∃ d : Word,
    s.writer.queue ++ [{
      time := s.time, sector := some k, frame := some (s.sector k).frame,
      body := .state cause r (s.entry k r).state (t.entry k r).state (t.entry k r).profile (t.entry k r).attempts d }]
    <+: t.writer.queue

/-- The state an expectation of that kind belongs to, and in which a remote that enters it keeps it open (R20); a fade watch
is kept in none. -/
def WatchKind.keptIn : WatchKind → RState → Prop
  | .fadeWatch, _ => False
  | .climbWatch, st => st = .climbing
  | .probe _ _, st => st = .probing
  | .range, st => st = .ranging

/-- The plans after some expectations have been voided: every other expectation, decision and record is as before. -/
def VoidedWhere (p : Expectation → Prop) (before after : List Plan) : Prop :=
  ∃ f : Expectation → Expectation, after = before.map (fun plan => plan.mapWatches f) ∧
    ∀ w, (p w → f w = { w with condition := .void }) ∧ (¬ p w → f w = w)

/-- The plans after remote r has entered a state: each open expectation of r is void unless its kind is the state's own
(R20). -/
def VoidedFor (r : RemoteNo) (st : RState) (before after : List Plan) : Prop :=
  VoidedWhere (fun w => w.condition = .open ∧ w.remote = r ∧ ¬ w.kind.keptIn st) before after

/-- What a change of remote r's state does beside its entry, from sector x to sector y: its open expectations are voided
(R20); it leaves the ranging order and the wait list with RANGING, and joins their ends with it (R19, R34); it leaves the roster
with QUEUED (R69), and the stamp counters take their first values with the last QUEUED remote (R54). A step that keeps the state
does none of this. -/
structure Followed (r : RemoteNo) (old new : RState) (x y : Sector) : Prop where
  kept : old = new → y.history = x.history ∧ y.rangingOrder = x.rangingOrder ∧ y.waitList = x.waitList ∧ y.roster = x.roster
  plans : old ≠ new → VoidedFor r new x.history y.history
  ranging : old ≠ new →
    y.rangingOrder = (if new = .ranging then x.rangingOrder ++ [{ remote := r, silent := false }]
      else if old = .ranging then x.rangingOrder.filter fun m => m.remote ≠ r else x.rangingOrder) ∧
    y.waitList = (if new = .ranging then x.waitList ++ [r]
      else if old = .ranging then x.waitList.filter fun q => q ≠ r else x.waitList)
  roster : old ≠ new → y.roster = if old = .queued then
    { x.roster with members := x.roster.members.filter fun m => m.remote ≠ r } else x.roster
  stamps : old = .queued → (∀ q, (y.entry q).state ≠ .queued) → y.nextHead = 32767 ∧ y.nextTail = 32768

/-- One step has given remote r of sector k the entry e, with its STATE record; the sector's other entries are those of x,
what follows from the change of state has happened, and beside the episode and the stamps of the sector nothing else has
moved. -/
structure Moved (k : SectorNo) (r : RemoteNo) (c : StateCause) (x : Sector) (e : Entry) (s t : State) : Prop where
  entry : t.entry k r = e
  others : OtherEntries k r x s t
  logged : StateLogged k r c s t
  followed : Followed r (s.entry k r).state e.state (s.sector k) (t.sector k)
  sector : SectorKept (s.sector k) (t.sector k)
  device : DeviceKept s t
  ports : t.ports = s.ports
  channel : t.channel = s.channel

/-- The episode of sector k has changed its state: it stands as given, one EPISODE record carries the cause, the states before
and after, n and the record as it then stands, the counter block is marked, and an opening or closing raises notice EPISODE
(R122); nothing else of the sector has changed. -/
structure EpisodeMoved (k : SectorNo) (cause : EpisodeCause) (new : Episode) (s t : State) : Prop where
  sector : t.sector k = { s.sector k with episode := new }
  others : OtherSectors k s t
  logged : Logged {
    time := s.time, sector := some k, frame := some (s.sector k).frame
    body := .episode cause (s.sector k).episode.state new.state (s.sector k).n new.record } s t
  dirty : t.writer.counterDirty[k] = true
  notice : t.notices.pending =
    if new.state = .clear ∨ new.state = .fading then s.notices.pending ||| 1 else s.notices.pending
  device : DeviceKept s t
  ports : t.ports = s.ports
  channel : t.channel = s.channel

/-! ### A valid configuration (R167, Table 9.4) -/

/-- Two windows have no byte in common (R134). -/
def Window.apart (v w : Window) : Prop :=
  v.base.toNat + 2 ^ v.sizeExp ≤ w.base.toNat ∨ w.base.toNat + 2 ^ w.sizeExp ≤ v.base.toNat

/-- The items of one configured sector in their ranges (Table 9.4). -/
structure SectorSetup.Valid (x : SectorSetup) : Prop where
  descriptor : x.descBase.toNat % 1024 = 0
  map : x.mapBase.toNat % 2048 = 0
  report : 10 ≤ x.reportExp ∧ x.reportExp ≤ 16 ∧ x.reportBase.toNat % 2 ^ x.reportExp = 0
  latency : 1 ≤ x.params.latency ∧ x.params.latency ≤ 4
  fadeCount : 1 ≤ x.params.fadeCount ∧ x.params.fadeCount ≤ 15
  attempts : 1 ≤ x.params.attemptsLimit ∧ x.params.attemptsLimit ≤ 15
  backoff : 1 ≤ x.params.backoffBase ∧ x.params.backoffBase ≤ 255
  ranging : 1 ≤ x.params.rangingLimit ∧ x.params.rangingLimit ≤ 15
  climb : 1 ≤ x.params.climbHold ∧ x.params.climbHold ≤ 63
  margin : -512 ≤ x.params.acceptMargin ∧ x.params.acceptMargin ≤ 511
  timing : x.params.timingTolerance ≤ 255
  power : x.params.powerTolerance ≤ 31
  restart : x.params.restart ≤ 11
  floor : x.tunables.floor ≤ 3
  cap : x.tunables.cap ∈ [8, 16, 32, 128]
  budget : x.tunables.budget ≤ 8
  threshold : 2 ≤ x.tunables.threshold ∧ x.tunables.threshold ≤ 64
  holdDown : x.tunables.holdDown ≤ 4095
  settle : x.tunables.settle ≤ 255

/-- What R167 asks of a whole configuration: device items and profiles in their ranges, every window aligned and apart from
every other, every sector's items, roles of configured sectors alone, and a CONTROLLER. -/
structure Setup.Valid (c : Setup) (anchor : Addr) : Prop where
  timeout : 1 ≤ c.commandTimeout ∧ c.commandTimeout ≤ 255
  floor : c.floor ≤ 3
  classes : ∀ i : Fin 8, c.classes[i] ≤ 3
  log : ∀ k b, c.log = some (k, b) → 6 ≤ k ∧ k ≤ 14 ∧ b.toNat % 2 ^ (k + 5) = 0
  guards : ∀ e b, c.guard0 = some (e, b) ∨ c.guard1 = some (e, b) → 3 ≤ e ∧ e ≤ 39 ∧ b.toNat % 2 ^ e = 0
  profiles : c.profiles.length = 12 ∧ ∀ m ∈ c.profiles, -512 ≤ m.exit ∧ m.exit < m.enter ∧ m.enter ≤ 511
  rising : ∀ p a b, c.profiles[p]? = some a → c.profiles[p + 1]? = some b → a.enter < b.enter
  sectors : ∀ (k : SectorNo) (x : SectorSetup), c.sectors[k] = some x → x.Valid
  apart : (c.windows anchor).Pairwise Window.apart
  roles : ∀ (m : MasterNo) (k : SectorNo), c.roles[m] = .builder k ∨ c.roles[m] = .receiver k → c.sectors[k].isSome = true
  controller : ∃ m : MasterNo, c.roles[m] = .controller

/-- The command has its result: it stands in the pending result word with the command's tag, and no other is held. -/
def State.answered (t : State) (w : CommandWrite) (code : ResultCode) (detail : Half) : Prop :=
  t.channel.held = [] ∧ ∃ r, t.writer.pendingResult = some r ∧ r.tag = w.tag ∧ r.result = code ∧ r.detail = detail

end Sys2Proof.Machine
end

