-- ==== Sys2Proof/Certificates/Slice0/Obligations.lean ====
section
/-! DEFINITION. The statements about the part, file by file of the spec. Each says of a command that it answers a next state,
for every state and operands that meet hypotheses on them alone, and what that state holds; the last ones are the
invariants that every step keeps. -/

open Sys2Proof Sys2Proof.Machine

/-! ### The queue of commands -/

/-- A step runs the command at the front of the queue on the state with the queue's rest; with no command waiting the part
idles (log 1). -/
def Obligations.StepRunsFrontOfQueue : Prop :=
  (∀ (c : Instr) (rest : List Instr) (s : State), s.pending = c :: rest → step s = exec c { s with pending := rest }) ∧
  ∀ s : State, s.pending = [] → step s = .next s

/-- A request of a form R127 does not allow, and a response that no request awaits, stop the model (logs 8 and 9, the
model's choice). -/
def Obligations.OutsideFaultsStop : Prop :=
  (∀ (q : Request) (s : State), q.ok = false →
    exec (.passThroughRequest (.new q)) s = .fault .malformedRequest ∧
    exec (.passThroughRequest (.stalled q)) s = .fault .malformedRequest) ∧
  (∀ (m : MasterNo) (reply : Reply) (s : State), s.owedTo m = [] →
    exec (.memoryResponse m reply) s = .fault .responseNotOwed ∧
    exec (.mapReadResponse m reply) s = .fault .responseNotOwed) ∧
  ∀ (reply : Reply) (error : Bool) (s : State), s.ports.outstanding = [] →
    exec (.configReadResponse reply) s = .fault .responseNotOwed ∧
    exec (.outboundWriteCompletion error) s = .fault .responseNotOwed

/-! ### Reset and time -/

/-- POWER_ON_RESET, from any state and with any straps (R2, R61, R74, R98, R102, R114, R133, R136, R144, R145, R158, R171,
R173, R174, R177, R180 to R183). That it keeps the queue of commands is no rule of the spec: it is the model's choice
(log 1). -/
def Obligations.PowerOnResetGivesResetValues : Prop :=
  ∀ (straps : Byte) (s : State), ∃ t, exec (.powerOnReset straps) s = .next t ∧ t.pending = s.pending ∧
    t.channel.anchorBase.toNat = straps.toNat * 65536 ∧
    t.windows = [{ kind := .anchor, base := t.channel.anchorBase, sizeExp := 12, sector := none, mark := .none }] ∧
    t.activeTable = t.windows ∧ t.time = 0 ∧ t.holdOff = false ∧ t.notice = false ∧
    (∀ m, t.role m = .controller ∧ t.waitingAt m = [] ∧ t.owedTo m = []) ∧
    t.ports.locks = [] ∧ t.ports.lastMaster = 7 ∧ t.ports.lastOutbound = false ∧ t.ports.outstanding = [] ∧
    t.channel.inFlight = none ∧ t.channel.held = [] ∧ t.channel.read = none ∧
    t.writer.pendingResult = none ∧ t.writer.queue = [] ∧ t.writer.buffer = [] ∧ t.writer.log = none ∧
    t.writer.head = 0 ∧ t.writer.tail = 0 ∧ t.writer.seq = 0 ∧ t.writer.skips = 0 ∧ t.writer.faults = 0 ∧
    t.writer.lastGroup = 127 ∧ t.writer.deviceDirty = false ∧ (∀ k : SectorNo, t.writer.counterDirty[k] = false) ∧
    (∀ g : Fin 128, t.writer.mirrorDirty[g] = false) ∧
    t.notices.pending = 0 ∧ (∀ i : Fin 8, t.notices.classes[i] = 3) ∧ t.notices.floor = 0 ∧
    t.store.commandTimeout = 20 ∧ t.store.profiles = [] ∧
    ∀ k, t.configured k = false ∧ t.params k = Params.default ∧
      (∀ r, t.entry k r = {
        admin := false, ceiling := 0, cls := 0, group := none, deferred := none, state := .idle, profile := 0,
        misses := 0, attempts := 0, backoff := 0, exchanges := 0, garbles := 0, solo := false, good := 0,
        order := 0, fadedAt := none, lastMargin := none }) ∧
      (t.sector k).mode = .pass ∧ (t.sector k).suspended = false ∧ (t.sector k).pendingOp = none ∧
      (t.sector k).frame = 0 ∧ (t.sector k).resyncPending = true ∧ (t.sector k).history = [] ∧
      (t.sector k).rangingOrder = [] ∧ (t.sector k).waitList = [] ∧ (t.sector k).roster.members = [] ∧
      (t.sector k).nextHead = 32767 ∧ (t.sector k).nextTail = 32768 ∧ (t.sector k).pack = none ∧
      (t.sector k).framesSeen = 0 ∧ (t.sector k).counts = ReportCounts.zero ∧
      (t.sector k).episode.state = .clear ∧ (t.sector k).episode.record.number = 0 ∧
      (t.sector k).tunables = Tunables.default ∧ (t.sector k).staged = Staged.none

/-- TIME_BASE_ADVANCE: the count rises by one, modulo 2^32. Of the command in flight, a pending operation whose deadline is
the new count is now due, and one that was due stays so; every other phase, and everything else, is kept (R163, R173).
That the expiry is then a row of its own is the model's choice (log 14). -/
def Obligations.TimeBaseAdvances : Prop :=
  ∀ s : State, ∃ t, exec .timeBaseAdvance s = .next t ∧ t.time = s.time + 1 ∧
    { t with time := s.time, channel := { t.channel with inFlight := s.channel.inFlight } } = s ∧
    (s.channel.inFlight = none → t.channel.inFlight = none) ∧
    ∀ (c : Command) (old : Phase), s.channel.inFlight = some { cmd := c, phase := old } →
      ∃ new, t.channel.inFlight = some { cmd := c, phase := new } ∧
        (∀ d e, old = .modePending d e → new = .modePending d (e || s.time + 1 == d)) ∧
        (∀ d e, old = .relocationPending d e → new = .relocationPending d (e || s.time + 1 == d)) ∧
        ((∀ d e, old ≠ .modePending d e ∧ old ≠ .relocationPending d e) → new = old)

/-- Every command but TIME_BASE_ADVANCE and POWER_ON_RESET leaves the time base as it stands (R173). -/
def Obligations.OnlyTicksMoveTheTimeBase : Prop :=
  ∀ (c : Instr) (s t : State), exec c s = .next t → c ≠ .timeBaseAdvance → (∀ straps, c ≠ .powerOnReset straps) →
    t.time = s.time

/-- COMMAND_TIMEOUT. With no pending operation due, nothing. Of a mode change that is due: result TIMEOUT with the present
mode, the mode unchanged, no pending operation. Of a relocation that is due: result TIMEOUT with detail 0, no pending
operation; the window table is kept, but that a MAP relocation's window, the sector's MAP window with mark new, leaves
it and the sector's other MAP windows have mark none (R135, R148, R156, R163). That an operation is due from the advance
that ends its timeout until this row is taken is the model's choice (log 14). -/
def Obligations.TimeoutEndsThePendingOperation : Prop :=
  (∀ s : State, (∀ f d, s.channel.inFlight = some f → f.phase ≠ .modePending d true ∧ f.phase ≠ .relocationPending d true) →
    exec .commandTimeout s = .next s) ∧
  (∀ (s : State) (f : InFlight) (d : Word) (k : SectorNo) (m : Mode), s.resultWaits = false →
    s.channel.inFlight = some f → f.phase = .modePending d true → sectorOfByte f.cmd.sector = some k →
    (s.sector k).pendingOp = some (.modeChange m) →
    ∃ t, exec .commandTimeout s = .next t ∧ t.sector k = { s.sector k with pendingOp := none } ∧
      OtherSectors k s t ∧ DeviceKept s t ∧ t.ports = s.ports ∧ t.channel.held = [] ∧
      ∃ r, t.writer.pendingResult = some r ∧ r.tag = f.cmd.tag ∧ r.result = .timeout ∧
        r.detail = BitVec.ofNat 16 (modeCode (s.sector k).mode)) ∧
  ∀ (s : State) (f : InFlight) (d : Word) (k : SectorNo) (kind : RelocKind) (b : Addr) (e : Nat) (sw : Bool),
    s.resultWaits = false → s.channel.inFlight = some f → f.phase = .relocationPending d true →
    sectorOfByte f.cmd.sector = some k → (s.sector k).pendingOp = some (.relocation kind b e sw) →
    ∃ t, exec .commandTimeout s = .next t ∧ t.sector k = { s.sector k with pendingOp := none } ∧
      OtherSectors k s t ∧ DeviceKept s { t with windows := s.windows } ∧ t.ports = s.ports ∧ t.channel.held = [] ∧
      (kind ≠ .map → t.windows = s.windows) ∧
      (kind = .map →
        (∀ w ∈ t.windows, w.kind = .map → w.sector = some k → w.mark = .none) ∧
        t.windows = (s.windows.filter fun w => !decide (w.kind = .map ∧ w.sector = some k ∧ w.mark = .new)).map fun w =>
          if w.kind = .map ∧ w.sector = some k then { w with mark := .none } else w) ∧
      ∃ r, t.writer.pendingResult = some r ∧ r.tag = f.cmd.tag ∧ r.result = .timeout ∧ r.detail = 0

/-! ### The command word (Section 9) -/

/-- Every row that writes the command word is taken, at any operand, when the port is free, no result waits and no
command is in flight (a CANCEL also while one is): the write is forwarded and the command taken (R159, R160). -/
def Obligations.CommandWordRowsAreTaken : Prop :=
  (∀ row code, (row, code) ∈ commandRows → ∀ (w : CommandWrite) (s : State), s.ready w →
    (s.channel.inFlight = none ∨ code = 0x0D) →
    exec (row (.new w)) s = .next (takeCommand (w.command code) (forwarded none (commandRequest s code w) s))) ∧
  ∀ (code : Byte) (w : CommandWrite) (s : State), s.ready w → (s.channel.inFlight = none ∨ code = 0x0D) →
    exec (.codeNamingNoCommand code (.new w)) s =
      .next (takeCommand (w.command code) (forwarded none (commandRequest s code w) s))

/-- While a result waits, a command word write waits at the head of its channel, and nothing else changes (R159 row
1). -/
def Obligations.WaitingResultHoldsCommandWords : Prop :=
  ∀ row code, (row, code) ∈ commandRows → ∀ (w : CommandWrite) (s : State), s.anchored →
    s.role w.master = .controller → w.lanes ≠ 0 → s.resultWaits = true → s.waitingAt w.master = [] →
    w.master ∉ s.ports.locks →
    ∃ t, exec (row (.new w)) s = .next t ∧ SameButPorts s t ∧
      t.waitingAt w.master = [commandRequest s code w] ∧
      { t.ports with channels := s.ports.channels } = s.ports

/-- Two kinds of command word are absorbed. One written with fewer than eight lanes is answered INVALID with F001h; its tag
counts where its lane is enabled (R159 row 2). A command other than CANCEL written while one is in flight is answered
BUSY, and the command in flight is untouched (R159 row 3). -/
def Obligations.AbsorbedCommandWordsAnswered : Prop :=
  (∀ row code, (row, code) ∈ commandRows → ∀ (w : CommandWrite) (s : State), s.anchored → s.portFree →
    s.role w.master = .controller → s.resultWaits = false → w.lanes ≠ 0 → w.lanes ≠ allLanes →
    s.owedTo w.master = [] →
    ∃ t, exec (row (.new w)) s = .next t ∧ t.sectors = s.sectors ∧ DeviceKept s t ∧
      t.channel = s.channel ∧ t.ports.returned = s.ports.returned ++ [(w.master, { error := false, data := [] })] ∧
      ∃ r, t.writer.pendingResult = some r ∧ r.tag = (if w.lanes.getLsbD 3 then w.tag else 0) ∧
        r.result = .invalid ∧ r.detail = 0xF001) ∧
  ∀ row code, (row, code) ∈ commandRows → code ≠ 0x0D → ∀ (w : CommandWrite) (s : State), s.ready w →
    s.channel.inFlight.isSome = true → s.owedTo w.master = [] →
    ∃ t, exec (row (.new w)) s = .next t ∧ t.sectors = s.sectors ∧ DeviceKept s t ∧ t.channel = s.channel ∧
      t.ports.returned = s.ports.returned ++ [(w.master, { error := false, data := [] })] ∧
      t.answered w .busy 0

/-- The field checks of R160. A code that names no command is answered INVALID with F002h; a sector above 3, where the
command uses one, with F003h; a remote above 127, where the command uses one and the sector passes, with F004h. No
command is in flight after it. -/
def Obligations.FieldChecksAnsweredInvalid : Prop :=
  (∀ (code : Byte) (w : CommandWrite) (s : State), (code = 0 ∨ 13 < code.toNat) → s.ready w →
    s.channel.inFlight = none →
    ∃ t, exec (.codeNamingNoCommand code (.new w)) s = .next t ∧ t.sectors = s.sectors ∧ DeviceKept s t ∧
      t.ports = (forwarded none (commandRequest s code w) s).ports ∧ t.channel.inFlight = none ∧
      t.answered w .invalid 0xF002) ∧
  ∀ row code, (row, code) ∈ commandRows → ∀ (w : CommandWrite) (s : State) (detail : Half), s.ready w →
    s.channel.inFlight = none →
    ((code ∉ [0x01, 0x0C, 0x0D] ∧ 3 < w.sector.toNat ∧ detail = 0xF003) ∨
      (code ∈ [0x03, 0x04, 0x05, 0x06, 0x07] ∧ w.sector.toNat ≤ 3 ∧ 127 < w.remote.toNat ∧ detail = 0xF004)) →
    ∃ t, exec (row (.new w)) s = .next t ∧ t.sectors = s.sectors ∧ DeviceKept s t ∧
      t.ports = (forwarded none (commandRequest s code w) s).ports ∧ t.channel.inFlight = none ∧
      t.answered w .invalid detail

/-- LOAD_CONFIG starts reading the configuration area while every sector is PASS, and is answered STATE while one is not
(R166). -/
def Obligations.LoadConfigStartsReading : Prop :=
  ∀ (w : CommandWrite) (s : State), s.ready w → s.channel.inFlight = none →
    ∃ t, exec (.loadConfig (.new w)) s = .next t ∧ t.sectors = s.sectors ∧ DeviceKept s t ∧ t.notices = s.notices ∧
      ((∀ k, (s.sector k).mode = .pass) →
        t.channel.inFlight = some { cmd := w.command 0x01, phase := .readingConfig [] } ∧
        t.channel.read = some (.config 0) ∧ t.channel.held = [] ∧ t.writer.queue = s.writer.queue ∧
        t.writer.pendingResult = none) ∧
      ((∃ k, (s.sector k).mode ≠ .pass) → t.channel.read = s.channel.read ∧ t.answered w .state 0)

/-- SET_MODE to SHADOW or ACTIVE of a sector that is neither suspended nor in that mode waits for an epoch, with its
timeout started (R146, R148, R163). -/
def Obligations.SetModeWaitsForAnEpoch : Prop :=
  ∀ (w : CommandWrite) (s : State) (k : SectorNo) (m : Mode), s.ready w → s.channel.inFlight = none →
    sectorOfByte w.sector = some k → s.configured k = true → w.arg = BitVec.ofNat 16 (modeCode m) → m ≠ .pass →
    m ≠ (s.sector k).mode → (s.sector k).suspended = false →
    ∃ t, exec (.setMode (.new w)) s = .next t ∧
      t.sector k = { s.sector k with pendingOp := some (.modeChange m) } ∧ OtherSectors k s t ∧ DeviceKept s t ∧
      t.channel.inFlight = some {
        cmd := w.command 0x02
        phase := .modePending (s.time + BitVec.ofNat 32 s.store.commandTimeout) false } ∧
      t.writer.pendingResult = none ∧ t.writer.queue = s.writer.queue ∧ t.notices = s.notices

/-- SET_MODE to PASS from SHADOW or ACTIVE, suspended or not: flag clear, history, wait list, roster and ranging order
empty, the episode CLEAR, the mode PASS. In a suspended sector each deferred admin value is taken and none is left; every
remote is then SERVING or IDLE by its admin, at its ceiling, its counts 0 and faded at absent, or as it was where it already
stood so; ceiling, class, group and last margin are kept, and outside suspension the stamp (R15, R147; that a remote already
in its state makes no step is log 23). -/
def Obligations.SetModeToPassReturnsRemotesToService : Prop :=
  ∀ (w : CommandWrite) (s : State) (k : SectorNo), s.ready w → s.channel.inFlight = none →
    sectorOfByte w.sector = some k → s.configured k = true → w.arg = 0 → (s.sector k).mode ≠ .pass →
    ∃ t, exec (.setMode (.new w)) s = .next t ∧ OtherSectors k s t ∧ DeviceKept s t ∧
      (t.sector k).mode = .pass ∧ (t.sector k).suspended = false ∧ (t.sector k).resyncPending = true ∧
      (t.sector k).history = [] ∧ (t.sector k).waitList = [] ∧ (t.sector k).roster.members = [] ∧
      (t.sector k).rangingOrder = [] ∧ (t.sector k).episode.state = .clear ∧
      (∀ r,
        let e := s.entry k r
        let admin := if (s.sector k).suspended then e.deferred.getD e.admin else e.admin
        let st : RState := if admin then .serving else .idle
        ∃ stamp, ((s.sector k).suspended = false → stamp = e.order) ∧
          t.entry k r = { (if admin = e.admin ∧ e.state = st ∧ e.profile = e.ceiling then e else e.serviceAs st) with
            admin := admin
            deferred := if (s.sector k).suspended then none else e.deferred
            order := stamp }) ∧
      (∀ r, (t.entry k r).state = (if (t.entry k r).admin then .serving else .idle) ∧
        (t.entry k r).profile = (t.entry k r).ceiling) ∧
      (t.sector k).tunables = (s.sector k).tunables ∧ (t.sector k).staged = (s.sector k).staged ∧
      (t.sector k).pack = (s.sector k).pack ∧ (t.sector k).counts = (s.sector k).counts ∧
      t.answered w .done 0

/-- SET_TUNE stages a value in range, for each of the eight tunables, and leaves the others and the in-force values. A
value out of range is answered INVALID with detail 2, a parameter code of no tunable with detail 1, and nothing is
staged (R71, R126, R169). -/
def Obligations.SetTuneStagesValue : Prop :=
  ∀ (w : CommandWrite) (s : State) (k : SectorNo), s.ready w → s.channel.inFlight = none →
    sectorOfByte w.sector = some k → s.configured k = true → w.remote.toNat < 128 →
    ∃ t, exec (.setTune (.new w)) s = .next t ∧ OtherSectors k s t ∧ DeviceKept s t ∧
      t.sector k = { s.sector k with staged := (t.sector k).staged } ∧
      (tuneInRange w.remote.toNat w.arg.toNat →
        (t.sector k).staged.value w.remote.toNat = some w.arg.toNat ∧
        (∀ p, p ≠ w.remote.toNat → (t.sector k).staged.value p = (s.sector k).staged.value p) ∧
        t.answered w .done w.arg) ∧
      (¬ tuneInRange w.remote.toNat w.arg.toNat → t.sectors = s.sectors ∧
        t.answered w .invalid (if 0x0F ≤ w.remote.toNat ∧ w.remote.toNat ≤ 0x16 then 2 else 1))

/-! ### Commands on single remotes (2.7) -/

/-- HOLD, in every state but IDLE and HELD: the remote is parked; its open expectations are voided, and it leaves the queue
and roster or the ranging order and wait list it was in (R19, R20, R34, R40, R41, R54, R69). -/
def Obligations.HoldParksRemote : Prop :=
  ∀ (w : CommandWrite) (s : State) (k : SectorNo) (r : RemoteNo), s.ready w → s.channel.inFlight = none →
    sectorOfByte w.sector = some k → remoteOfByte w.remote = some r → (s.sector k).mode = .active →
    acceptedIn 0x04 (s.entry k r).state →
    ∃ t, exec (.hold (.new w)) s = .next t ∧
      t.entry k r = { s.entry k r with
        state := .held, profile := (s.entry k r).ceiling, misses := 0, good := 0, exchanges := 0, backoff := 0,
        fadedAt := if (s.entry k r).state = .serving then some (s.sector k).frame else (s.entry k r).fadedAt } ∧
      Followed r (s.entry k r).state .held (s.sector k) (t.sector k) ∧
      OtherEntries k r (s.sector k) s t ∧ SectorKept (s.sector k) (t.sector k) ∧ DeviceKept s t ∧
      t.answered w .done 7

/-- RELEASE of a HELD remote and REARM of an EXCLUDED one: QUEUED at the tail with a new tail stamp, its open expectations
voided, and n one more (R20, R42, R43, R53, R54). `x` is the sector after the restamp that R54 takes where the next tail stamp
stands at 65536. -/
def Obligations.ReleaseAndRearmQueueAtTail : Prop :=
  ∀ row old, (row, old) ∈ [(Instr.release, RState.held), (Instr.rearm, RState.excluded)] →
    ∀ (w : CommandWrite) (s : State) (k : SectorNo) (r : RemoteNo), s.ready w → s.channel.inFlight = none →
    sectorOfByte w.sector = some k → remoteOfByte w.remote = some r → (s.sector k).mode = .active →
    (s.entry k r).state = old →
    ∃ t x, x = readyTail (s.sector k) ∧ exec (row (.new w)) s = .next t ∧
      t.entry k r = { s.entry k r with
        state := .queued, profile := min (s.params k).restart (s.entry k r).ceiling, misses := 0, good := 0,
        exchanges := 0, backoff := 0, attempts := 0, garbles := 0, solo := false, order := x.nextTail } ∧
      (t.sector k).nextTail = x.nextTail + 1 ∧ (t.sector k).n = (s.sector k).n + 1 ∧
      Followed r old .queued (s.sector k) (t.sector k) ∧
      OtherEntries k r x s t ∧ SectorKept (s.sector k) (t.sector k) ∧ DeviceKept s t ∧ t.answered w .done 3

/-- FORCE_FADE: FADED with the backoff base, uncharged; its open expectations are voided, and it leaves the queue and roster
or the ranging order and wait list it was in (R19, R20, R34, R44, R54, R69). -/
def Obligations.ForceFadeFadesUncharged : Prop :=
  ∀ (w : CommandWrite) (s : State) (k : SectorNo) (r : RemoteNo), s.ready w → s.channel.inFlight = none →
    sectorOfByte w.sector = some k → remoteOfByte w.remote = some r → (s.sector k).mode = .active →
    acceptedIn 0x07 (s.entry k r).state →
    ∃ t, exec (.forceFade (.new w)) s = .next t ∧
      t.entry k r = { s.entry k r with
        state := .faded, profile := min (s.params k).restart (s.entry k r).ceiling, misses := 0, good := 0,
        exchanges := 0, backoff := (s.params k).backoffBase,
        fadedAt := if (s.entry k r).state = .serving then some (s.sector k).frame else (s.entry k r).fadedAt } ∧
      Followed r (s.entry k r).state .faded (s.sector k) (t.sector k) ∧
      OtherEntries k r (s.sector k) s t ∧ SectorKept (s.sector k) (t.sector k) ∧ DeviceKept s t ∧
      t.answered w .done 2

/-- HOLD, RELEASE, REARM and FORCE_FADE are refused with STATE in a sector that is not ACTIVE or a state the command does
not accept; no entry changes, and the detail is the remote's state (R40 to R44). -/
def Obligations.RemoteCommandsRefusedWithState : Prop :=
  ∀ row code, (row, code) ∈ commandRows → code ∈ [0x04, 0x05, 0x06, 0x07] →
    ∀ (w : CommandWrite) (s : State) (k : SectorNo) (r : RemoteNo), s.ready w → s.channel.inFlight = none →
    sectorOfByte w.sector = some k → remoteOfByte w.remote = some r →
    ((s.sector k).mode ≠ .active ∨ ¬ acceptedIn code (s.entry k r).state) →
    ∃ t, exec (row (.new w)) s = .next t ∧ t.sectors = s.sectors ∧ DeviceKept s t ∧
      t.answered w .state (BitVec.ofNat 16 (s.entry k r).state.code)

/-! ### Commands on a sector (Section 8) -/

/-- SUSPEND of a configured SHADOW or ACTIVE sector whose flag is clear sets the flag and changes nothing else of the
sector (R150). -/
def Obligations.SuspendSetsTheFlag : Prop :=
  ∀ (w : CommandWrite) (s : State) (k : SectorNo), s.ready w → s.channel.inFlight = none →
    sectorOfByte w.sector = some k → s.configured k = true → (s.sector k).mode ≠ .pass →
    (s.sector k).suspended = false →
    ∃ t, exec (.suspend (.new w)) s = .next t ∧ t.sector k = { s.sector k with suspended := true } ∧
      OtherSectors k s t ∧ DeviceKept s t ∧ t.writer.counterDirty[k] = true ∧ t.answered w .done 0

/-- RESUME of a suspended sector: the flag clear, no value deferred, history, wait list and roster empty, resync pending,
and in ACTIVE no remote left PROBING (R15, R48, R74, R151). -/
def Obligations.ResumeClearsTheFlag : Prop :=
  ∀ (w : CommandWrite) (s : State) (k : SectorNo), s.ready w → s.channel.inFlight = none →
    sectorOfByte w.sector = some k → s.configured k = true → (s.sector k).suspended = true →
    ∃ t, exec (.resume (.new w)) s = .next t ∧ OtherSectors k s t ∧ DeviceKept s t ∧
      (t.sector k).mode = (s.sector k).mode ∧ (t.sector k).suspended = false ∧ (t.sector k).resyncPending = true ∧
      (t.sector k).history = [] ∧ (t.sector k).waitList = [] ∧ (t.sector k).roster.members = [] ∧
      (∀ r, (t.entry k r).deferred = none) ∧
      ((s.sector k).mode = .active → ∀ r, (t.entry k r).state ≠ .probing) ∧
      (∀ r v, (s.entry k r).deferred = some v → (t.entry k r).admin = v) ∧
      (t.sector k).pack = (s.sector k).pack ∧ (t.sector k).counts = (s.sector k).counts ∧ t.answered w .done 0

/-- RESET_SECTOR of a configured sector, in any mode (R152). -/
def Obligations.ResetSectorRestoresEntries : Prop :=
  ∀ (w : CommandWrite) (s : State) (k : SectorNo), s.ready w → s.channel.inFlight = none →
    sectorOfByte w.sector = some k → s.configured k = true →
    ∃ t, exec (.resetSector (.new w)) s = .next t ∧ OtherSectors k s t ∧ DeviceKept s t ∧
      (∀ r, t.entry k r = { s.entry k r with
        state := (if (s.entry k r).admin then .serving else .idle), profile := (s.entry k r).ceiling, misses := 0,
        attempts := 0, backoff := 0, exchanges := 0, garbles := 0, solo := false, good := 0, order := 0,
        fadedAt := none, lastMargin := none }) ∧
      (t.sector k).history = [] ∧ (t.sector k).waitList = [] ∧ (t.sector k).roster.members = [] ∧
      (t.sector k).rangingOrder = [] ∧ (t.sector k).resyncPending = true ∧ (t.sector k).nextHead = 32767 ∧
      (t.sector k).nextTail = 32768 ∧ (t.sector k).pack = none ∧ (t.sector k).framesSeen = 0 ∧
      (t.sector k).counts = ReportCounts.zero ∧ (t.sector k).episode.state = .clear ∧
      (t.sector k).mode = (s.sector k).mode ∧ (t.sector k).suspended = (s.sector k).suspended ∧
      (t.sector k).tunables = (s.sector k).tunables ∧ (t.sector k).staged = (s.sector k).staged ∧
      (t.sector k).frame = (s.sector k).frame ∧ t.answered w .done 0

/-- The sector commands that change nothing. An unconfigured sector: STATE. SET_MODE: INVALID with the argument where it is
no mode code; DONE with the mode where it is the present one; STATE with the present mode where it is SHADOW or ACTIVE,
another, and the sector is suspended. SUSPEND in PASS or with the flag set, RESUME with the flag clear: STATE. RELOCATE
with no kind code: INVALID with detail 1 (R145 note 2, R146, R150 to R153, R169). -/
def Obligations.SectorCommandsThatChangeNothing : Prop :=
  ∀ row code, (row, code) ∈ commandRows → ∀ (w : CommandWrite) (s : State) (k : SectorNo) (result : ResultCode)
    (detail : Half), s.ready w → s.channel.inFlight = none → sectorOfByte w.sector = some k →
    ((code ∈ [0x02, 0x03, 0x08, 0x09, 0x0A, 0x0B] ∧ (code = 0x03 → w.remote.toNat ≤ 127) ∧ s.configured k = false ∧
        result = .state ∧ detail = 0) ∨
      (code = 0x02 ∧ s.configured k = true ∧ 2 < w.arg.toNat ∧ result = .invalid ∧ detail = w.arg) ∨
      (code = 0x02 ∧ s.configured k = true ∧ w.arg = BitVec.ofNat 16 (modeCode (s.sector k).mode) ∧
        result = .done ∧ detail = w.arg) ∨
      (code = 0x02 ∧ s.configured k = true ∧ (s.sector k).suspended = true ∧ (w.arg = 1 ∨ w.arg = 2) ∧
        w.arg ≠ BitVec.ofNat 16 (modeCode (s.sector k).mode) ∧ result = .state ∧
        detail = BitVec.ofNat 16 (modeCode (s.sector k).mode)) ∨
      (code = 0x08 ∧ ((s.sector k).mode = .pass ∨ (s.sector k).suspended = true) ∧ result = .state ∧ detail = 0) ∨
      (code = 0x09 ∧ (s.sector k).suspended = false ∧ result = .state ∧ detail = 0) ∨
      (code = 0x0B ∧ s.configured k = true ∧ 2 < w.arg.toNat ∧ result = .invalid ∧ detail = 1)) →
    ∃ t, exec (row (.new w)) s = .next t ∧ t.sectors = s.sectors ∧ DeviceKept s t ∧ t.notices = s.notices ∧
      t.channel.read = s.channel.read ∧ t.answered w result detail

/-- RELOCATE of a configured sector with a kind of Table 11.1 starts reading its staging entry (R153 steps 1 to 3). -/
def Obligations.RelocateReadsItsStagingEntry : Prop :=
  ∀ (w : CommandWrite) (s : State) (k : SectorNo) (kind : RelocKind), s.ready w → s.channel.inFlight = none →
    sectorOfByte w.sector = some k → s.configured k = true → w.arg = BitVec.ofNat 16 kind.code →
    ∃ t, exec (.relocate (.new w)) s = .next t ∧ t.sectors = s.sectors ∧ DeviceKept s t ∧
      t.channel.inFlight = some { cmd := w.command 0x0B, phase := .readingStaging } ∧
      t.channel.read = some (.staging k kind) ∧ t.writer.pendingResult = none ∧ t.writer.queue = s.writer.queue

/-- ACK_NOTICE clears the kinds of its set and answers those that were pending; with bits 8 to 15 set it is answered
INVALID with detail 1 and clears nothing. NOTICE follows the pending set (R170, R183). -/
def Obligations.AckNoticeClearsKinds : Prop :=
  ∀ (w : CommandWrite) (s : State), s.ready w → s.channel.inFlight = none →
    ∃ t, exec (.ackNotice (.new w)) s = .next t ∧ t.sectors = s.sectors ∧ DeviceKept s t ∧
      (w.arg.toNat ≤ 255 → t.notices.pending = s.notices.pending &&& ~~~(w.arg.setWidth 8) ∧
        t.answered w .done ((s.notices.pending &&& w.arg.setWidth 8).setWidth 16)) ∧
      (255 < w.arg.toNat → t.notices.pending = s.notices.pending ∧ t.answered w .invalid 1) ∧
      (t.notice = true ↔ ∃ i : Fin 8, t.notices.pending.getLsbD i.val = true ∧ s.notices.floor ≤ s.notices.classes[i])

/-- CANCEL with no command in flight is forwarded and answered NOTHING with detail 0. CANCEL of a pending mode change:
CANCELLED for it, then DONE for the CANCEL, the mode unchanged and nothing pending (R148, R162). CANCEL of a load or of a
staging read: its waiting read is gone, the response of one already issued will be discarded, and the results are the
same two. CANCEL of a pending relocation: the same two results, nothing pending, a MAP relocation's new window gone from
the table. CANCEL in the read phase of a DESCRIPTOR relocation waits for its end. CANCEL once the result in flight is
decided, or while another CANCEL waits: NOTHING (R156, R162; log 20 for the discarded response). -/
def Obligations.CancelAbandonsTheCommand : Prop :=
  (∀ (w : CommandWrite) (s : State), s.ready w → s.channel.inFlight = none →
    ∃ t, exec (.cancel (.new w)) s = .next t ∧ t.sectors = s.sectors ∧ DeviceKept s t ∧
      t.ports = (forwarded none (commandRequest s 0x0D w) s).ports ∧ t.answered w .nothing 0) ∧
  (∀ (w : CommandWrite) (s : State) (f : InFlight) (d : Word) (e : Bool) (k : SectorNo) (m : Mode), s.ready w →
    s.channel.inFlight = some f → f.phase = .modePending d e → sectorOfByte f.cmd.sector = some k →
    (s.sector k).pendingOp = some (.modeChange m) →
    ∃ t, exec (.cancel (.new w)) s = .next t ∧ t.sector k = { s.sector k with pendingOp := none } ∧
      OtherSectors k s t ∧ DeviceKept s t ∧
      (∃ r, t.writer.pendingResult = some r ∧ r.tag = f.cmd.tag ∧ r.result = .cancelled) ∧
      ∃ r, t.channel.held = [r] ∧ r.tag = w.tag ∧ r.result = .done ∧ r.detail = 0) ∧
  (∀ (w : CommandWrite) (s : State) (f : InFlight), s.ready w → s.channel.inFlight = some f →
    ((∃ area, f.phase = .readingConfig area) ∨ (∃ c st k r late, f.phase = .readingDescriptors c st k r late) ∨
      f.phase = .readingStaging) →
    ∃ t, exec (.cancel (.new w)) s = .next t ∧ t.sectors = s.sectors ∧ DeviceKept s t ∧ t.channel.read = none ∧
      t.ports.outstanding = s.ports.outstanding.map (fun p => match p with
        | .read target _ => .read target true
        | .write => .write) ∧
      (∃ r, t.writer.pendingResult = some r ∧ r.tag = f.cmd.tag ∧ r.result = .cancelled ∧ r.detail = 0) ∧
      ∃ r, t.channel.held = [r] ∧ r.tag = w.tag ∧ r.result = .done ∧ r.detail = 0) ∧
  (∀ (w : CommandWrite) (s : State) (f : InFlight) (d : Word) (e : Bool) (k : SectorNo) (kind : RelocKind) (b : Addr)
    (x : Nat) (sw : Bool), s.ready w → s.channel.inFlight = some f → f.phase = .relocationPending d e →
    sectorOfByte f.cmd.sector = some k → (s.sector k).pendingOp = some (.relocation kind b x sw) →
    ∃ t, exec (.cancel (.new w)) s = .next t ∧ t.sector k = { s.sector k with pendingOp := none } ∧
      OtherSectors k s t ∧ DeviceKept s { t with windows := s.windows } ∧ (kind ≠ .map → t.windows = s.windows) ∧
      (kind = .map →
        t.windows = (s.windows.filter fun w => !decide (w.kind = .map ∧ w.sector = some k ∧ w.mark = .new)).map fun w =>
          if w.kind = .map ∧ w.sector = some k then { w with mark := .none } else w) ∧
      (∃ r, t.writer.pendingResult = some r ∧ r.tag = f.cmd.tag ∧ r.result = .cancelled ∧ r.detail = 0) ∧
      ∃ r, t.channel.held = [r] ∧ r.tag = w.tag ∧ r.result = .done ∧ r.detail = 0) ∧
  (∀ (w : CommandWrite) (s : State) (c : Command) (r : RemoteNo) (n : Nat) (failed : Option RemoteNo)
    (late : List LateWrite), s.ready w →
    s.channel.inFlight = some { cmd := c, phase := .relocationReading r n failed late none } →
    exec (.cancel (.new w)) s = .next
      { forwarded none (commandRequest s 0x0D w) s with channel := { s.channel with
          inFlight := some { cmd := c, phase := .relocationReading r n failed late (some (w.command 0x0D)) } } }) ∧
  ∀ (w : CommandWrite) (s : State) (f : InFlight), s.ready w → s.channel.inFlight = some f →
    (f.phase = .decided ∨ ∃ r n failed late c, f.phase = .relocationReading r n failed late (some c)) →
    ∃ t, exec (.cancel (.new w)) s = .next t ∧ t.sectors = s.sectors ∧ DeviceKept s t ∧
      t.channel.inFlight = s.channel.inFlight ∧ t.channel.read = s.channel.read ∧ t.answered w .nothing 0

/-! ### Log tail and marker words (9.4) -/

/-- A full-width tail word whose index lies in the ring, forward from the tail no later than the head, sets the tail
index and nothing else. Any other leaves it and queues one TAIL record with the cause of the first test that fails, or
is skipped; no notice is raised (R164, R172). -/
def Obligations.LogTailWordSetsTail : Prop :=
  ∀ (w : WordWrite) (s : State) (i : Nat), s.readyFor w → i = (w.word.setWidth 32).toNat →
    ∃ t, exec (.logTailWord (.new w)) s = .next t ∧ t.sectors = s.sectors ∧ t.channel = s.channel ∧
      t.notices = s.notices ∧ t.ports = (forwarded none (tailRequest s w) s).ports ∧
      (∀ g, w.lanes = allLanes → s.writer.log = some g → i < 2 ^ g.k →
        (i + 2 ^ g.k - s.writer.tail) % 2 ^ g.k ≤ (s.writer.head + 2 ^ g.k - s.writer.tail) % 2 ^ g.k →
        t = { forwarded none (tailRequest s w) s with writer := { s.writer with tail := i } }) ∧
      ∀ cause : TailCause,
        (w.lanes ≠ allLanes ∧ cause = .partialWord) ∨ (w.lanes = allLanes ∧ s.writer.log = none ∧ cause = .noLog) ∨
          (∃ g, w.lanes = allLanes ∧ s.writer.log = some g ∧ 2 ^ g.k ≤ i ∧ cause = .range) ∨
          (∃ g, w.lanes = allLanes ∧ s.writer.log = some g ∧ i < 2 ^ g.k ∧ cause = .order ∧
            (s.writer.head + 2 ^ g.k - s.writer.tail) % 2 ^ g.k < (i + 2 ^ g.k - s.writer.tail) % 2 ^ g.k) →
        DeviceKept s t ∧
          (s.writer.queue.length < 64 → ∃ d : Word, (w.lanes = allLanes → d = w.word.setWidth 32) ∧
            t.writer.queue = s.writer.queue ++
              [{ time := s.time, sector := none, frame := none, body := .tail cause d }]) ∧
          (64 ≤ s.writer.queue.length → t.writer.queue = s.writer.queue ∧ t.writer.skips = s.writer.skips + 1)

/-- A marker word is forwarded and queues one MARKER record with the enabled lanes and the written bytes, those of other
lanes zero; it raises no notice, and while the record queue is full it is skipped and counted (R165). -/
def Obligations.MarkerWordQueuesARecord : Prop :=
  ∀ (w : WordWrite) (s : State), s.readyFor w →
    ∃ t b, exec (.markerWord (.new w)) s = .next t ∧ t.sectors = s.sectors ∧ t.channel = s.channel ∧
      t.ports = (forwarded none (markerRequest s w) s).ports ∧ DeviceKept s t ∧ t.notices = s.notices ∧
      (∀ n : Fin 8, beatByte b n.val = if w.lanes.getLsbD n.val then beatByte w.word n.val else 0) ∧
      (s.writer.queue.length < 64 → t.writer.queue = s.writer.queue ++
        [{ time := s.time, sector := none, frame := none, body := .marker w.lanes b }]) ∧
      (64 ≤ s.writer.queue.length → t.writer.queue = s.writer.queue ∧ t.writer.skips = s.writer.skips + 1 ∧
        t.writer.seq = s.writer.seq + 1)

/-! ### The fabric port (Section 7) -/

/-- The access matrix, cell by cell: for a window, a role and a direction, the class of a request inside it (Table
7.2); the cell of a CONTROLLER's write of the ANCHOR window goes by the area of its offset: one beat as the table of R141
gives, several beats PASS where all are ordinary. Several with a beat elsewhere are refused with cause SPLIT, as R141
says (log 36 for the cause).

The class of a whole request (R137, R143): beats past the top of the address space, or in two windows, or in one and outside
it: refused with cause SPLIT; every beat outside every window: PASS; every beat in one window: its cell for the master's role,
but that a command word write which R159 would hold inside its master's open locked sequence is refused with cause LOCK. The
table is the one in force, and while a load reads descriptors the staged one. -/
def Obligations.AccessMatrixAsTabulated : Prop :=
  (∀ (w : Window) (role : Role) (q : Request),
    (w.kind = .anchor → role = .controller → q.dir = .read → classifyIn w role q = .pass) ∧
    (w.kind = .anchor → role = .controller → q.dir = .write → classifyIn w role q = classifyAnchorWrite w q) ∧
    (w.kind = .anchor → role ≠ .controller → classifyIn w role q = .refuse .role) ∧
    (w.kind = .descriptor → q.dir = .read → classifyIn w role q = .pass) ∧
    (∀ k, w.kind = .descriptor → w.sector = some k → role = .controller → q.dir = .write →
      classifyIn w role q = .snoopDescriptor w k) ∧
    (w.kind = .descriptor → role ≠ .controller → q.dir = .write → classifyIn w role q = .refuse .role) ∧
    (w.kind = .map → role = .controller → classifyIn w role q = .pass) ∧
    (∀ k, w.kind = .map → w.sector = some k → role = .builder k → q.dir = .read → classifyIn w role q = .patch w k) ∧
    (∀ k, w.kind = .map → w.sector ≠ some k → role = .builder k → q.dir = .read →
      classifyIn w role q = .refuse .role) ∧
    (∀ k, w.kind = .map → (role = .receiver k ∨ role = .other) → q.dir = .read → classifyIn w role q = .pass) ∧
    (w.kind = .map → role ≠ .controller → q.dir = .write → classifyIn w role q = .refuse .role) ∧
    (w.kind = .report → role = .controller → classifyIn w role q = if q.dir = .read then .pass else .absorb) ∧
    (∀ k, w.kind = .report → role = .builder k → classifyIn w role q = .refuse .role) ∧
    (∀ k, w.kind = .report → (role = .receiver k ∨ role = .other) → q.dir = .read → classifyIn w role q = .pass) ∧
    (w.kind = .report → role = .other → q.dir = .write → classifyIn w role q = .refuse .role) ∧
    (∀ k, w.kind = .report → role = .receiver k → q.dir = .write →
      classifyIn w role q = if w.sector = some k then .snoopReport w k else .refuse .role) ∧
    (w.kind = .log → role = .controller → classifyIn w role q = if q.dir = .read then .pass else .absorb) ∧
    (w.kind = .guard → role = .controller → classifyIn w role q = .pass) ∧
    (w.kind = .log ∨ w.kind = .guard → role ≠ .controller → classifyIn w role q = .refuse .role)) ∧
  (∀ (w : Window) (q : Request),
    let off := (alignBeat q.addr - w.base).toNat
    let ordinary := fun n : Nat => 0x020 ≤ n ∧ ¬ (0x800 ≤ n ∧ n < 0x840) ∧ ¬ (0x900 ≤ n ∧ n < 0xA00) ∧ n < 0xC00
    (q.beats = 1 → off < 0x008 → classifyAnchorWrite w q = .takeCommand) ∧
    (q.beats = 1 → 0x008 ≤ off → off < 0x010 → classifyAnchorWrite w q = .absorb) ∧
    (q.beats = 1 → 0x010 ≤ off → off < 0x018 → classifyAnchorWrite w q = .takeTail) ∧
    (q.beats = 1 → 0x018 ≤ off → off < 0x020 → classifyAnchorWrite w q = .takeMarker) ∧
    (q.beats = 1 → 0x020 ≤ off → ¬ ordinary off → classifyAnchorWrite w q = .absorb) ∧
    (q.beats = 1 → ordinary off → classifyAnchorWrite w q = .pass) ∧
    (q.beats ≠ 1 → (∀ a ∈ beatAddrs q, ordinary (a - w.base).toNat) → classifyAnchorWrite w q = .pass) ∧
    (q.beats ≠ 1 → (∃ a ∈ beatAddrs q, ¬ ordinary (a - w.base).toNat) → classifyAnchorWrite w q = .refuse .split)) ∧
  ∀ (s : State) (q : Request),
    let first := q.addr.toNat / 8 * 8
    let windowOfBeat := fun j : Nat => s.activeTable.find? fun w =>
      decide (w.base.toNat ≤ first + 8 * j ∧ first + 8 * j < w.base.toNat + 2 ^ w.sizeExp)
    let held := s.writer.pendingResult ≠ none ∨ s.channel.held ≠ []
    (s.notLoading → s.activeTable = s.windows) ∧
    (∀ c setup staged k r late,
      s.channel.inFlight = some { cmd := c, phase := .readingDescriptors setup staged k r late } →
      s.activeTable = setup.windows s.channel.anchorBase) ∧
    (2 ^ 40 < first + 8 * q.beats → classify s q = .refuse .split) ∧
    (first + 8 * q.beats ≤ 2 ^ 40 →
      ((∀ j, j < q.beats → windowOfBeat j = none) → classify s q = .pass) ∧
      (∀ w, q.beats ≠ 0 → (∀ j, j < q.beats → windowOfBeat j = some w) →
        let cell := classifyIn w (s.role q.master) q
        (cell ≠ .takeCommand → classify s q = cell) ∧
        (cell = .takeCommand → held → q.master ∈ s.ports.locks → classify s q = .refuse .lock) ∧
        (cell = .takeCommand → ¬ (held ∧ q.master ∈ s.ports.locks) → classify s q = .takeCommand)) ∧
      (∀ i j, i < q.beats → j < q.beats → windowOfBeat i ≠ windowOfBeat j → classify s q = .refuse .split))

/-- A CONTROLLER write of class ABSORB at the head of an idle channel is answered OKAY; nothing else changes but the
locked sequences (R127, R138). Only during a load, where the write lies in a DESCRIPTOR window of the table in force, is it
then taken on the current entries (R17, R143). -/
def Obligations.AbsorbedWriteAnsweredOkay : Prop :=
  ∀ (q : Request) (s : State), q.ok = true → s.waitingAt q.master = [] → s.owedTo q.master = [] →
    classify s q = .absorb →
    ∃ t u, exec (.absorbedWrite (.new q)) s = .next u ∧
      (inForceDescriptor s q = none → u = t) ∧
      (∀ w k, inForceDescriptor s q = some (w, k) →
        u = copyBeats (changeDescriptor k) w q.lanes (alignBeat q.addr) q.data t) ∧ SameButPorts s t ∧
      { t.ports with locks := s.ports.locks, returned := s.ports.returned } = s.ports ∧
      t.ports.returned = s.ports.returned ++ [(q.master, { error := false, data := [] })]

/-- A request of class PASS is forwarded when the port is free: its response is owed, its master is the one last
granted, and nothing else changes (R127, R131, R138). Only during a load, where the request is a write in a DESCRIPTOR window
of the table in force, is it then taken on the current entries (R17, R143). -/
def Obligations.PassThroughRequestForwarded : Prop :=
  ∀ (q : Request) (s : State), q.ok = true → s.portFree → classify s q = .pass →
    (inForceDescriptor s q = none → exec (.passThroughRequest (.new q)) s = .next (forwarded none q s)) ∧
    ∀ w k, inForceDescriptor s q = some (w, k) →
      exec (.passThroughRequest (.new q)) s =
        .next (copyBeats (changeDescriptor k) w q.lanes (alignBeat q.addr) q.data (forwarded none q s))

/-- Where memory takes no request, one that needs the port waits. While the hold-off is on, a report write outside an
open locked sequence waits at the head of its channel and is not copied (R103, R129). While a locked sequence is open the
port serves its master alone, before any outbound write; every other master's head that needs the port waits (R130). That of
several open sequences the first opened holds the port, so that a master with a younger one waits too, is the model's choice
(log 7). With none open and no outbound write first, the port goes to the first master with an eligible head, looking from the
one after the master last granted and wrapping from 7 to 0; a head it does not go to waits (R131 rule 3). -/
def Obligations.HeldRequestsWait : Prop :=
  (∀ (q : Request) (s : State), q.ok = true → s.waitingAt q.master = [] →
    ((classify s q).needsPort = true →
      ∃ t, exec (.passThroughRequest (.stalled q)) s = .next t ∧ SameButPorts s t ∧ t.waitingAt q.master = [q] ∧
        { t.ports with channels := s.ports.channels } = s.ports) ∧
    (∀ w k, s.holdOff = true → q.master ∉ s.ports.locks → classify s q = .snoopReport w k →
      ∃ t, exec (.reportWrite (.new q)) s = .next t ∧ SameButPorts s t ∧ t.waitingAt q.master = [q] ∧
        { t.ports with channels := s.ports.channels } = s.ports)) ∧
  (∀ (q : Request) (s : State), q.ok = true → s.waitingAt q.master = [] → s.ports.locks = [q.master] →
    classify s q = .pass → s.notLoading → exec (.passThroughRequest (.new q)) s = .next (forwarded none q s)) ∧
  (∀ (m : MasterNo) (q : Request) (rest : List Request) (s : State) (n : MasterNo) (others : List MasterNo),
    s.ports.locks = n :: others → n ≠ m → s.waitingAt m = q :: rest → (classify s q).needsPort = true →
    exec (.passThroughRequest (.waiting m)) s = .next s) ∧
  ∀ (s : State) (i : Fin 8), s.ports.locks = [] → outboundFirst s = false →
    eligible s (s.ports.lastMaster + 1 + i) = true →
    (∀ j : Fin 8, j < i → eligible s (s.ports.lastMaster + 1 + j) = false) →
    (∀ (q : Request), q.master = s.ports.lastMaster + 1 + i → s.waitingAt q.master = [q] → classify s q = .pass →
      s.notLoading →
      ∃ t, exec (.passThroughRequest (.waiting q.master)) s = .next t ∧ SameButPorts s t ∧ t.waitingAt q.master = [] ∧
        (∀ m, m ≠ q.master → t.waitingAt m = s.waitingAt m) ∧
        { t.ports with channels := s.ports.channels } = (forwarded none q s).ports) ∧
    ∀ (m : MasterNo) (q : Request) (rest : List Request), m ≠ s.ports.lastMaster + 1 + i → s.waitingAt m = q :: rest →
      (classify s q).needsPort = true → exec (.passThroughRequest (.waiting m)) s = .next s

/-- The three classes whose copies go to an engine, when the port is free. A descriptor write is forwarded, and each of
its beats is taken, lowest address first, as a change of its remote's descriptor. A report write is forwarded and copied beat
by beat to Report Intake while the hold-off is off. A map read is forwarded as PATCH, and nothing is decided until memory
answers (R8, R73, R96, R97, R103).

Where a beat of a descriptor copy goes (R17, R18): with neither a load reading descriptors nor the read phase of its sector's
relocation, to the entry. During a load, to the staged entry, without a record or mark, where the load has read the
descriptor, and nowhere where it has not yet. In the read phase, to the entry where the descriptor has been read, and nowhere
where it has not yet. That a copy of a descriptor whose read is issued and not answered is kept and taken after the answer is
the model's choice (log 19). During a load a CONTROLLER's write in a DESCRIPTOR window of the table in force is in addition
taken on the entries of that window's sector (R17, R143; log 27 for the order of the two). The last clause says which
window. -/
def Obligations.EngineRequestsTaken : Prop :=
  (∀ (q : Request) (s : State) (w : Window) (k : SectorNo), q.ok = true → s.portFree →
    (s.channel.inFlight = none → classify s q = .snoopDescriptor w k →
      exec (.descriptorWrite (.new q)) s =
        .next (copyBeats (changeDescriptor k) w q.lanes (alignBeat q.addr) q.data (forwarded none q s))) ∧
    (classify s q = .snoopDescriptor w k →
      let t := copyBeats (copyDescriptor k) w q.lanes (alignBeat q.addr) q.data (forwarded none q s)
      (inForceDescriptor s q = none → exec (.descriptorWrite (.new q)) s = .next t) ∧
      ∀ v j, inForceDescriptor s q = some (v, j) → exec (.descriptorWrite (.new q)) s =
        .next (copyBeats (changeDescriptor j) v q.lanes (alignBeat q.addr) q.data t)) ∧
    (s.holdOff = false → classify s q = .snoopReport w k →
      exec (.reportWrite (.new q)) s =
        .next (takeReportBeats k w.base q.lanes (alignBeat q.addr) q.data (forwarded none q s))) ∧
    (classify s q = .patch w k →
      exec (.mapRead (.new q)) s =
        .next (forwarded (some { sector := k, addr := alignBeat q.addr, winBase := w.base }) q s))) ∧
  (∀ (take : RemoteNo → Lanes → Beat → State → State) (w : Window) (lanes : Lanes) (a : Addr) (s : State),
    copyBeats take w lanes a [] s = s ∧
    ∀ (b : Beat) (bs : List Beat) (r : RemoteNo), r.val = (a - w.base).toNat / 8 % 128 →
      copyBeats take w lanes a (b :: bs) s = copyBeats take w lanes (a + 8) bs (take r lanes b s)) ∧
  (∀ (k : SectorNo) (r : RemoteNo) (lanes : Lanes) (b : Beat) (s : State),
    let t := copyDescriptor k r lanes b s
    let late : LateWrite := { lanes := lanes, beat := b }
    let inPhase := fun (c : Command) (p : Phase) =>
      { s with channel := { s.channel with inFlight := some { cmd := c, phase := p } } }
    (s.notLoading →
      (∀ c q n failed ls x, s.channel.inFlight = some { cmd := c, phase := .relocationReading q n failed ls x } →
        sectorOfByte c.sector ≠ some k) → t = changeDescriptor k r lanes b s) ∧
    (∀ c setup staged j q ls,
      s.channel.inFlight = some { cmd := c, phase := .readingDescriptors setup staged j q ls } →
      let number := 128 * k.val + r.val
      let next := 128 * j.val + q.val
      (number < next → t = inPhase c (.readingDescriptors setup
        (staged.set k.val ((staged[k]).set r.val (changeStaged lanes b (staged[k])[r]) r.isLt) k.isLt) j q ls)) ∧
      (number = next → s.channel.read = none → t = inPhase c (.readingDescriptors setup staged j q (ls ++ [late]))) ∧
      (number = next → s.channel.read ≠ none → t = s) ∧ (next < number → t = s)) ∧
    ∀ c q n failed ls x, s.channel.inFlight = some { cmd := c, phase := .relocationReading q n failed ls x } →
      sectorOfByte c.sector = some k →
      (r < q → t = changeDescriptor k r lanes b s) ∧
      (r = q → s.channel.read = none → t = inPhase c (.relocationReading q n failed (ls ++ [late]) x)) ∧
      (r = q → s.channel.read ≠ none → t = s) ∧ (q < r → t = s)) ∧
  (∀ (lanes : Lanes) (b : Beat) (e : StagedEntry),
    let c := (beatByte b 1).toNat
    let g := (beatByte b 3).toNat
    let on := fun n : Nat => lanes.getLsbD n
    let bad := fun (n limit : Nat) (old : Option Byte) =>
      if on n then (if (beatByte b n).toNat ≤ limit then none else some (beatByte b n)) else old
    changeStaged lanes b e = {
      entry := { e.entry with
        ceiling := if on 1 ∧ c ≤ 11 then c else e.entry.ceiling
        profile := if on 1 ∧ c ≤ 11 then c else e.entry.profile
        cls := if on 2 ∧ (beatByte b 2).toNat ≤ 3 then (beatByte b 2).toNat else e.entry.cls
        group := if on 3 ∧ g ≤ 15 then (if g = 0 then none else some g) else e.entry.group
        admin := if on 0 then b.getLsbD 0 else e.entry.admin
        state := if on 0 then (if b.getLsbD 0 then .serving else .idle) else e.entry.state }
      badCeiling := bad 1 11 e.badCeiling
      badClass := bad 2 3 e.badClass
      badGroup := bad 3 15 e.badGroup }) ∧
  ∀ (s : State) (q : Request),
    let first := q.addr.toNat / 8 * 8
    let windowOfBeat := fun j : Nat => s.windows.find? fun w =>
      decide (w.base.toNat ≤ first + 8 * j ∧ first + 8 * j < w.base.toNat + 2 ^ w.sizeExp)
    ((s.notLoading ∨ q.dir = .read ∨ s.role q.master ≠ .controller) → inForceDescriptor s q = none) ∧
    (¬ s.notLoading → q.dir = .write → s.role q.master = .controller → q.beats ≠ 0 →
      (∀ w k, first + 8 * q.beats ≤ 2 ^ 40 → (∀ j, j < q.beats → windowOfBeat j = some w) → w.kind = .descriptor →
        w.sector = some k → inForceDescriptor s q = some (w, k)) ∧
      ((2 ^ 40 < first + 8 * q.beats ∨ ∀ w k, (∀ j, j < q.beats → windowOfBeat j = some w) → w.kind = .descriptor →
        w.sector ≠ some k) → inForceDescriptor s q = none))

/-- One descriptor change, lane by lane, in any mode, suspended or not; with several lanes enabled, the changes of the enabled
ones one after another in the order ceiling, class, group, admin, as one claim (R8). Class and group: each value in range is
taken, each refused value leaves its field and queues one DESCRIPTOR record with the value; nothing else changes but the marks
(R8, R9, R11, R12). Ceiling: a refused value likewise; the present value changes nothing; another sets the ceiling and brings
the profile to it by the remote's state, a CLIMBING remote at or above it going to SERVING (R10). Admin: in a suspended
sector the value is deferred where it differs from the present one, and no value is deferred where it is the same; in any
other sector OFF takes the remote to IDLE, ON to QUEUED at the tail in ACTIVE and to SERVING in PASS and SHADOW, and the
present value changes nothing (R13 to R15). A change of state voids the remote's open expectations and takes it off the
sector's lists (R19, R20, R34, R54, R69). That a step's STATE record stands before the other records of the step is the
model's choice (log 32). -/
def Obligations.ClassAndGroupLanesTaken : Prop :=
  (∀ (k : SectorNo) (r : RemoteNo) (lanes : Lanes) (b : Beat) (s : State),
    let one := fun (n : Nat) (u : State) =>
      if lanes.getLsbD n then changeDescriptor k r ((1 : Lanes) <<< n) b u else u
    changeDescriptor k r lanes b s = one 0 (one 3 (one 2 (one 1 s)))) ∧
  (∀ (k : SectorNo) (r : RemoteNo) (lanes : Lanes) (b : Beat) (s : State), lanes.getLsbD 0 = false →
    lanes.getLsbD 1 = false →
    let t := changeDescriptor k r lanes b s
    let e := s.entry k r
    let cls := (beatByte b 2).toNat
    let group := (beatByte b 3).toNat
    let badClass := lanes.getLsbD 2 = true ∧ 3 < cls
    let badGroup := lanes.getLsbD 3 = true ∧ 15 < group
    let refused := fun (cause : DescriptorCause) (n : Nat) => ({
      time := s.time, sector := some k, frame := some (s.sector k).frame
      body := .descriptor cause r ((beatByte b n).setWidth 32) } : LogRecord)
    t.sector k = (s.sector k).setEntry r { e with
      cls := if lanes.getLsbD 2 ∧ cls ≤ 3 then cls else e.cls
      group := if lanes.getLsbD 3 ∧ group ≤ 15 then (if group = 0 then none else some group) else e.group } ∧
    OtherSectors k s t ∧ DeviceKept s t ∧ t.ports = s.ports ∧ t.channel = s.channel ∧ t.notices = s.notices ∧
    (¬ badClass → ¬ badGroup → t.writer.queue = s.writer.queue) ∧
    (badClass → ¬ badGroup → Logged (refused .classInvalid 2) s t) ∧
    (¬ badClass → badGroup → Logged (refused .groupInvalid 3) s t) ∧
    (badClass → badGroup → s.writer.queue.length < 63 →
      t.writer.queue = s.writer.queue ++ [refused .classInvalid 2, refused .groupInvalid 3])) ∧
  (∀ (k : SectorNo) (r : RemoteNo) (b : Beat) (s : State) (c : Nat), c = (beatByte b 1).toNat →
    let t := changeDescriptor k r 0x02 b s
    let e := s.entry k r
    let p := s.params k
    (11 < c → t.sectors = s.sectors ∧ DeviceKept s t ∧ Logged {
        time := s.time, sector := some k, frame := some (s.sector k).frame
        body := .descriptor .ceilingInvalid r ((beatByte b 1).setWidth 32) } s t) ∧
    (c ≤ 11 → c = e.ceiling → t = s) ∧
    (c ≤ 11 → c ≠ e.ceiling → e.state = .climbing → c ≤ e.profile →
      Moved k r .ceiling (s.sector k) ({ e with ceiling := c }.serviceAs .serving) s t) ∧
    (c ≤ 11 → c ≠ e.ceiling → ¬ (e.state = .climbing ∧ c ≤ e.profile) →
      t.sector k = (s.sector k).setEntry r { e with
        ceiling := c
        profile := if e.state ∈ [.idle, .serving, .held, .excluded] then c
          else if e.state ∈ [.faded, .queued, .probing] then min p.restart c
          else if e.state = .ranging then min e.profile c else e.profile
        fadedAt := if e.state ∈ [.idle, .serving] then none else e.fadedAt } ∧
      OtherSectors k s t ∧ DeviceKept s t ∧ t.ports = s.ports ∧ t.channel = s.channel ∧
      ((t.entry k r).profile ≠ e.profile → StateLogged k r .ceiling s t) ∧
      ((t.entry k r).profile = e.profile → t.writer.queue = s.writer.queue))) ∧
  ∀ (k : SectorNo) (r : RemoteNo) (b : Beat) (s : State) (v : Bool), v = b.getLsbD 0 →
    let t := changeDescriptor k r 0x01 b s
    let e := s.entry k r
    let p := s.params k
    let x := readyTail (s.sector k)
    ((s.sector k).suspended = true →
      t.sector k = (s.sector k).setEntry r { e with deferred := if v = e.admin then none else some v } ∧
      OtherSectors k s t ∧ DeviceKept s t ∧ t.writer.queue = s.writer.queue) ∧
    ((s.sector k).suspended = false → v = e.admin → t = s) ∧
    ((s.sector k).suspended = false → v = false → e.admin = true →
      t.entry k r = { e with admin := false }.serviceAs .idle ∧
      Followed r e.state .idle (s.sector k) (t.sector k) ∧ OtherEntries k r (s.sector k) s t ∧
      SectorKept (s.sector k) (t.sector k) ∧ DeviceKept s t ∧
      (e.state ≠ .idle → StateLogged k r .adminOff s t)) ∧
    ((s.sector k).suspended = false → v = true → e.admin = false → (s.sector k).mode = .active →
      t.entry k r = { { e with admin := true, attempts := 0, garbles := 0, solo := false }.queuedAs p.restart x.nextTail with
        fadedAt := if e.state ∈ [.idle, .serving] then some (s.sector k).frame else e.fadedAt } ∧
      Followed r e.state .queued (s.sector k) (t.sector k) ∧ OtherEntries k r x s t ∧
      SectorKept (s.sector k) (t.sector k) ∧ DeviceKept s t ∧
      (e.state ≠ .queued → StateLogged k r .adminOn s t)) ∧
    ((s.sector k).suspended = false → v = true → e.admin = false → (s.sector k).mode ≠ .active →
      t.entry k r = { e with admin := true }.serviceAs .serving ∧
      Followed r e.state .serving (s.sector k) (t.sector k) ∧ OtherEntries k r (s.sector k) s t ∧
      SectorKept (s.sector k) (t.sector k) ∧ DeviceKept s t ∧
      (e.state ≠ .serving → StateLogged k r .adminOn s t))

/-- A refused request is answered ERROR, with zero data in every beat of a read; one ACCESS record is queued or skipped, with
the kind of the window of beat 0, where it lies in one, that window's sector, else the sector of the master's role, where
there is one, the frame number of that sector, and the low 16 bits of the address; the ACCESS notice is raised in either
case, and no window, role, entry or plan changes (R139, R172). Only during a load, where the write lies in a DESCRIPTOR
window of the table in force, is it then taken on the current entries (R17, R143; log 27 for the order). A command word that
row 1 of R159 would hold inside its master's open locked sequence is refused with cause LOCK. -/
def Obligations.RefusedRequestAnsweredError : Prop :=
  (∀ (q : Request) (s : State) (cause : AccessCause), q.ok = true → s.waitingAt q.master = [] →
    s.owedTo q.master = [] → classify s q = .refuse cause →
    ∃ t u, exec (.refusedRequest (.new q)) s = .next u ∧
      (inForceDescriptor s q = none → u = t) ∧
      (∀ w k, inForceDescriptor s q = some (w, k) →
        u = copyBeats (changeDescriptor k) w q.lanes (alignBeat q.addr) q.data t) ∧
      t.sectors = s.sectors ∧ DeviceKept s t ∧ t.channel = s.channel ∧
      t.ports.returned = s.ports.returned ++
        [(q.master, { error := true, data := if q.dir = .read then List.replicate q.beats 0 else [] })] ∧
      t.notices.pending = s.notices.pending ||| 8 ∧
      let first := q.addr.toNat / 8 * 8
      let window := s.activeTable.find? fun w => decide (w.base.toNat ≤ first ∧ first < w.base.toNat + 2 ^ w.sizeExp)
      let own := match s.role q.master with
        | .builder k => some k
        | .receiver k => some k
        | .controller => none
        | .other => none
      let sector := match window.bind Window.sector with
        | some k => some k
        | none => own
      Logged {
        time := s.time, sector := sector, frame := sector.map fun k => (s.sector k).frame
        body := .access cause q.master (s.role q.master) q.dir (window.map Window.kind)
          ((q.addr.setWidth 16).setWidth 32) } s t) ∧
  ∀ row code, (row, code) ∈ commandRows → ∀ (w : CommandWrite) (s : State), s.anchored → s.role w.master = .controller →
    w.lanes ≠ 0 → s.resultWaits = true → s.waitingAt w.master = [] → w.master ∈ s.ports.locks →
    s.owedTo w.master = [] →
    ∃ t, exec (row (.new w)) s = .next t ∧ t.sectors = s.sectors ∧ DeviceKept s t ∧ t.channel = s.channel ∧
      t.ports.returned = s.ports.returned ++ [(w.master, { error := true, data := [] })] ∧
      t.notices.pending = s.notices.pending ||| 8 ∧
      Logged {
        time := s.time, sector := none, frame := none
        body := .access .lock w.master .controller .write (some .anchor)
          (((commandRequest s code w).addr.setWidth 16).setWidth 32) } s t

/-- Memory's OKAY response to a map read: the engine takes its beats, the master gets them, and the other sectors are
unchanged; an ERROR response takes no beat (R73, R132). That the ERROR returned to the master carries the data memory gave is
the model's choice (log 40). The beats are taken in ascending address order, each by its buffer offset: a header at 000h,
record i at 008h + 8i, the beats above 200h as memory gave them (R73). The fields of a header and of a raw record are those of
Tables 11.3 and 11.4 (R87 for the kinds). -/
def Obligations.MapReadResponseTaken : Prop :=
  (∀ (m : MasterNo) (reply : Reply) (s : State) (n : Nat) (p : Patch),
    s.owedTo m = [.awaiting n (some p)] → reply.data.length = n →
    ∃ t, exec (.mapReadResponse m reply) s = .next t ∧
      (reply.error = true → SameButPorts s t ∧
        t.ports.returned = s.ports.returned ++ [(m, { error := true, data := reply.data })]) ∧
      (reply.error = false →
        { t with ports := s.ports } = (takeMapBeats p.sector p.winBase p.addr reply.data s).2 ∧
        OtherSectors p.sector s t ∧ t.ports.returned = s.ports.returned ++
          [(m, { error := false, data := (takeMapBeats p.sector p.winBase p.addr reply.data s).1 })])) ∧
  (∀ (k : SectorNo) (base a : Addr) (s : State),
    takeMapBeats k base a [] s = ([], s) ∧
    ∀ (b : Beat) (bs : List Beat),
      let one := takeMapBeat k base a b s
      let rest := takeMapBeats k base (a + 8) bs one.state
      takeMapBeats k base a (b :: bs) s = (one.record :: rest.1, rest.2)) ∧
  (∀ (k : SectorNo) (base a : Addr) (b : Beat) (s : State),
    let off := (a - base).toNat
    (off % 0x400 = 0 →
      takeMapBeat k base a b s = { record := b, state := takeHeader k base (off / 0x400) b s }) ∧
    (∀ i, i < 64 → off % 0x400 = 8 + 8 * i → takeMapBeat k base a b s = takeRecord k (off / 0x400) i b s) ∧
    (0x200 < off % 0x400 → takeMapBeat k base a b s = { record := b, state := s })) ∧
  ∀ b : Beat,
    let kind := b.toNat % 16
    (headerOf b).frame.toNat = b.toNat % 2 ^ 24 ∧ (headerOf b).count = b.toNat / 2 ^ 24 % 128 ∧
    ((headerOf b).valid = true ↔ b.toNat / 2 ^ 31 % 2 = 1) ∧
    (rawRecordOf b).profile = b.toNat / 2 ^ 4 % 16 ∧ (rawRecordOf b).remote.val = b.toNat / 2 ^ 8 % 128 ∧
    ((rawRecordOf b).kind = .idle ↔ kind = 0) ∧ ((rawRecordOf b).kind = .dataUp ↔ kind = 1) ∧
    ((rawRecordOf b).kind = .dataDown ↔ kind = 2) ∧ ((rawRecordOf b).kind = .restore ↔ 3 ≤ kind ∧ kind ≤ 5)

/-- A map read of a sector in SHADOW or PASS with no mode change pending, or suspended, returns every beat as memory
gave it (R94, R140). -/
def Obligations.UnsubstitutedMapReadsReturnMemory : Prop :=
  ∀ (k : SectorNo) (base : Addr) (data : List Beat) (addr : Addr) (s : State),
    (s.sector k).suspended = true ∨ ((s.sector k).mode ≠ .active ∧ ∀ m, (s.sector k).pendingOp ≠ some (.modeChange m)) →
    (takeMapBeats k base addr data s).1 = data

/-- A record of the current plan that is read for the first time, in an ACTIVE sector that is not suspended, is decided by
the raw record's kind and, for DATA_UP and DATA_DOWN, its remote's state; the decision is stored with the record the read
returns (R84, R87 to R91, R93). A RESTORE record gives the first remote of the wait list with no assignment in the plan an
exchange, else fills the slot from the roster, else is IDLE; a DATA_UP record of a QUEUED or PROBING remote fills the slot
where reclaiming is on in a RECOVERING episode (R68, R90, R91). A filled slot stores the PROBE decision with its record, its
solo mark, and one open probe expectation for each occupant with its solo and scout marks; the occupants are PROBING and
marked placed in the roster (R28, R84, R85). Read again, the record returns what its first read returned, whatever memory
holds by then (R86).

In SHADOW a record of the current plan is returned as memory gave it; at its first read a raw decision is stored, with a fade
watch for the remote of a DATA_UP record that is SERVING or FADED, and no other. A record in PASS, in a suspended sector, of
the other buffer, at or above the slot count or with no plan passes raw with no effect (R86, R94). The last clauses give the
storing of a decision and the records the part forms (R84, R93, Table 11.4). -/
def Obligations.ReReadsReturnTheStoredRecord : Prop :=
  (∀ (k : SectorNo) (p : Plan) (slot : Nat) (b b' : Beat) (s : State), (s.sector k).mode = .active →
    (s.sector k).suspended = false → (s.sector k).history.getLast? = some p → p.slots[slot]? = some none →
    (takeRecord k p.buffer slot b' (takeRecord k p.buffer slot b s).state).record =
      (takeRecord k p.buffer slot b s).record) ∧
  (∀ (k : SectorNo) (p : Plan) (slot : Nat) (b : Beat) (s : State), (s.sector k).mode = .active →
    (s.sector k).suspended = false → (s.sector k).history.getLast? = some p → p.slots[slot]? = some none →
    let a := takeRecord k p.buffer slot b s
    let raw := rawRecordOf b
    let r := raw.remote
    let e := s.entry k r
    let decided := fun (d : Decision) (record : Beat) =>
      a.record = record ∧ a.state = storeDecision k p.frame slot d (some record) s
    let ranged := fun q : RemoteNo =>
      a.record = rangeRecord q (s.entry k q).profile ∧
      a.state = storeDecision k p.frame slot (.range { remote := q, kind := .range, condition := .open }) (some a.record)
        (s.setSector k { s.sector k with waitList := (s.sector k).waitList.filter (· ≠ q) })
    let filled :=
      let supply := (s.sector k).roster.supply
      a.record = probeRecord (supply.any fun o => o.member.solo)
        (lowest (supply.map fun o => (s.entry k o.member.remote).profile))
        ((List.finRange 6).map fun m => (supply.find? fun o => o.minislot = m).map fun o => o.member.remote) ∧
      (∀ o ∈ supply, (a.state.entry k o.member.remote).state = .probing) ∧
      (∀ q, (∀ o ∈ supply, o.member.remote ≠ q) → a.state.entry k q = s.entry k q) ∧
      (a.state.sector k).roster = { (s.sector k).roster with
        members := (s.sector k).roster.members.map fun m =>
          if ∃ o ∈ supply, o.member.remote = m.remote then { m with placed := true } else m
        used := (s.sector k).roster.used + 1 } ∧ OtherSectors k s a.state ∧
      ((a.state.sector k).history.getLast?.bind fun plan => plan.slots[slot]?) = some (some {
        decision := .probe (supply.any fun o => o.member.solo) ((List.finRange 6).map fun m =>
          (supply.find? fun o => o.minislot = m).map fun o => {
            remote := o.member.remote, kind := .probe o.member.solo o.member.scout, condition := .open })
        record := some a.record })
    let free := (s.sector k).waitList.find? fun q => !p.assigned q
    let reclaims := (s.sector k).episode.state = .recovering ∧ (s.sector k).tunables.reclaim = true ∧
      (s.sector k).roster.canSupply = true
    (raw.kind = .idle ∨ raw.kind = .other → decided (.raw none) b) ∧
    (raw.kind = .dataUp → e.state = .idle → decided (.raw none) b) ∧
    (raw.kind = .dataUp → e.state = .serving →
      decided (.raw (some { remote := r, kind := .fadeWatch, condition := .open })) b) ∧
    (raw.kind = .dataUp → e.state = .climbing →
      decided (.dataUp { remote := r, kind := .climbWatch, condition := .open })
        (patchProfile b (min raw.profile e.profile))) ∧
    (raw.kind = .dataUp → e.state = .ranging → r ∈ (s.sector k).waitList → p.assigned r = false → ranged r) ∧
    (raw.kind = .dataUp → e.state = .ranging → ¬ (r ∈ (s.sector k).waitList ∧ p.assigned r = false) →
      decided .idle idleRecord) ∧
    (raw.kind = .dataUp → e.state ∈ [.faded, .held, .excluded] → decided .idle idleRecord) ∧
    (raw.kind = .dataUp → e.state ∈ [.queued, .probing] → ¬ reclaims → decided .idle idleRecord) ∧
    (raw.kind = .dataUp → e.state ∈ [.queued, .probing] → reclaims → filled) ∧
    (raw.kind = .dataDown → e.state ∈ [.idle, .serving] → decided (.raw none) b) ∧
    (raw.kind = .dataDown → e.state ∈ [.climbing, .ranging] →
      decided (.dataDown r) (patchProfile b (min raw.profile e.profile))) ∧
    (raw.kind = .dataDown → e.state ∈ [.faded, .queued, .probing, .held, .excluded] → decided .idle idleRecord) ∧
    (∀ q, raw.kind = .restore → free = some q → ranged q) ∧
    (raw.kind = .restore → free = none → (s.sector k).roster.canSupply = true → filled) ∧
    (raw.kind = .restore → free = none → (s.sector k).roster.canSupply = false → decided .idle idleRecord)) ∧
  (∀ (k : SectorNo) (p : Plan) (buffer slot : Nat) (b : Beat) (s : State),
    let a := takeRecord k buffer slot b s
    let x := s.sector k
    let current := x.suspended = false ∧ x.history.getLast? = some p ∧ buffer = p.frame.toNat % 2
    let watched := b.toNat % 16 = 1 ∧ (s.entry k (rawRecordOf b).remote).state ∈ [.serving, .faded]
    ((x.mode = .pass ∨ x.suspended = true ∨ x.history = []) → a = { record := b, state := s }) ∧
    (x.history.getLast? = some p → (buffer ≠ p.frame.toNat % 2 ∨ p.slots.length ≤ slot) →
      a = { record := b, state := s }) ∧
    (x.mode = .shadow → current → p.slots[slot]? = some none →
      a.record = b ∧
      (watched → a.state = storeDecision k p.frame slot
        (.raw (some { remote := (rawRecordOf b).remote, kind := .fadeWatch, condition := .open })) none s) ∧
      (¬ watched → a.state = storeDecision k p.frame slot (.raw none) none s)) ∧
    (∀ d, x.mode = .shadow → current → p.slots[slot]? = some (some d) → a = { record := b, state := s }) ∧
    (∀ d, x.mode = .active → current → p.slots[slot]? = some (some d) → a = { record := d.record.getD b, state := s })) ∧
  (∀ (k : SectorNo) (f : Frame) (slot : Nat) (d : Decision) (record : Option Beat) (s : State),
    storeDecision k f slot d record s = s.setSector k { s.sector k with
      history := (s.sector k).history.map fun p =>
        if p.frame = f then { p with slots := p.slots.set slot (some { decision := d, record := record }) } else p }) ∧
  (∀ (b : Beat) (profile : Nat) (r : RemoteNo) (solo : Bool) (occupants : List (Option RemoteNo)), profile ≤ 15 →
    let probe := probeRecord solo profile occupants
    idleRecord = 0 ∧
    (patchProfile b profile).extractLsb' 0 4 = b.extractLsb' 0 4 ∧
    (patchProfile b profile).extractLsb' 4 4 = BitVec.ofNat 4 profile ∧
    (patchProfile b profile).extractLsb' 8 56 = b.extractLsb' 8 56 ∧
    (rangeRecord r profile).toNat = 5 + 16 * profile + 256 * r.val ∧
    beatByte probe 0 = BitVec.ofNat 8 (4 + 16 * profile) ∧ beatByte probe 1 = (if solo then 0x80 else 0) ∧
    ∀ m : Fin 6, beatByte probe (2 + m.val) =
      match occupants.getD m.val none with
      | some o => BitVec.ofNat 8 (128 + o.val)
      | none => 0) ∧
  ∀ t : Roster,
    (∀ m, t.unplaced.head? = some m → m.solo = true → t.supply = [{ minislot := 0, member := m }]) ∧
    (∀ m, t.unplaced.head? = some m → m.solo = false →
      t.supply = ((minislotsOf t.mask).zip (t.unplaced.filter fun c => !c.solo)).map fun o =>
        { minislot := o.1, member := o.2 }) ∧
    (t.canSupply = true ↔ t.unplaced ≠ [] ∧ t.used < t.budget)

/-- The response to a read of a map header that passes the tests of R75 takes an epoch of the sector. With nothing pending:
the frame number is the header's, the staged tunables are in force, resync pending is clear, the newest plan is the header's
with every slot undecided, the wait list is the ranging order, frames seen is one more; the master gets the header as memory
gave it (R73, R75, R78, R82, R83).

The tests of R75, in their order: a header with its valid flag clear, and a re-read, change nothing; a refused slot count, a
wrong buffer and a stale header queue a FRAME record and raise FRAME_FAULT, and nothing else changes; any other is an epoch
(R75, R76). An epoch takes its six items in order, by 0 frames at a resync and by the gap else (R77, R78, R81); its FRAME
record is GAP or RESYNC, or none (R76, R77).

Item 1 at a resync empties history, wait list and roster, and in ACTIVE moves the PROBING remotes to the head of the queue,
lowest remote number first, and clears the silent marks (R48, R80). Item 1 at a normal epoch: the plans more than D frames
behind leave; in an ACTIVE or SHADOW sector that is not suspended each leaves, oldest first, after its open expectations have
timed out by slot and minislot; else no remote is touched (R23, R79). Item 2: in a PASS or suspended sector nothing; in ACTIVE
the backoffs of the FADED remotes fall by the gap, and those at 0 go to QUEUED at the tail with cause BACKOFF, in ascending
remote number; in ACTIVE and SHADOW the hold-down count of a FADING episode and the settle count of a SETTLING one fall by the
gap, and expire at 0 (R26, R81, R118, R120). That the FRAME record comes before item 1, and the backoffs before the episode's
count, is the model's choice (log 17). -/
def Obligations.HeaderReadTakesAnEpoch : Prop :=
  (∀ (m : MasterNo) (b : Beat) (s : State) (p : Patch) (k : SectorNo), s.owedTo m = [.awaiting 1 (some p)] →
    p.sector = k → (p.addr - p.winBase).toNat % 1024 = 0 →
    checkHeader (s.sector k) ((p.addr - p.winBase).toNat / 1024) (headerOf b) = .epoch →
    (s.sector k).pendingOp = none →
    ∃ t, exec (.mapReadResponse m { error := false, data := [b] }) s = .next t ∧ OtherSectors k s t ∧
      t.time = s.time ∧ t.windows = s.windows ∧ t.channel = s.channel ∧
      t.ports.returned = s.ports.returned ++ [(m, { error := false, data := [b] })] ∧
      (t.sector k).mode = (s.sector k).mode ∧ (t.sector k).suspended = (s.sector k).suspended ∧
      (t.sector k).pendingOp = none ∧ (t.sector k).frame = (headerOf b).frame ∧
      (t.sector k).resyncPending = false ∧ (t.sector k).framesSeen = (s.sector k).framesSeen + 1 ∧
      (t.sector k).history.getLast? =
        some { frame := (headerOf b).frame, slots := List.replicate (headerOf b).count none } ∧
      (t.sector k).waitList = (t.sector k).rangingOrder.map Ranger.remote ∧ (t.sector k).staged = Staged.none ∧
      ∀ q, Staged.value (stagedOf (t.sector k).tunables) q =
        (Staged.value (s.sector k).staged q).or (Staged.value (stagedOf (s.sector k).tunables) q)) ∧
  (∀ (m : MasterNo) (b : Beat) (s : State) (p : Patch) (k : SectorNo), s.owedTo m = [.awaiting 1 (some p)] →
    p.sector = k → (p.addr - p.winBase).toNat % 1024 = 0 →
    let x := s.sector k
    let h := headerOf b
    let buffer := (p.addr - p.winBase).toNat / 1024
    let good := h.valid = true ∧ 1 ≤ h.count ∧ h.count ≤ 64
    let reread := x.history ≠ [] ∧ h.frame = x.frame
    let stale := ∃ q ∈ x.history.dropLast, q.frame = h.frame
    ∃ t, exec (.mapReadResponse m { error := false, data := [b] }) s = .next t ∧
      t.ports.returned = s.ports.returned ++ [(m, { error := false, data := [b] })] ∧
      let u := { t with ports := s.ports }
      let fault := fun (cause : FrameCause) (detail : Nat) =>
        t.sectors = s.sectors ∧ DeviceKept s t ∧ t.channel = s.channel ∧
        t.notices.pending = s.notices.pending ||| 0x20 ∧
        Logged { time := s.time, sector := some k, frame := some h.frame
                 body := .frame cause (BitVec.ofNat 32 detail) } s t
      (h.valid = false → u = s) ∧
      (h.valid = true → (h.count = 0 ∨ 64 < h.count) → fault .header h.count) ∧
      (good → buffer ≠ h.frame.toNat % 2 → fault .parity buffer) ∧
      (good → buffer = h.frame.toNat % 2 → reread → u = s) ∧
      (good → buffer = h.frame.toNat % 2 → ¬ reread → stale → fault .header h.count) ∧
      (good → buffer = h.frame.toNat % 2 → ¬ reread → ¬ stale → u = epoch k h.frame h.count p.winBase s)) ∧
  (∀ (k : SectorNo) (f : Frame) (count : Nat) (base : Addr) (s : State) (silent resync : Bool),
    let x := s.sector k
    let g := (f - x.frame).toNat
    (silent = true ↔ x.resyncPending = true ∨ ∃ m, x.pendingOp = some (.modeChange m)) →
    (resync = true ↔ silent = true ∨ 64 < g) →
    epoch k f count base s =
      epochItem6 k f count (modSector k drawRoster (completePending k base (epochItem3 k
        (epochItem2 k (if resync then 0 else g)
          (epochItem1 k resync (logGap k f g silent (s.setSector k { x with frame := f })))))))) ∧
  (∀ (k : SectorNo) (f : Frame) (g : Nat) (silent : Bool) (s : State),
    let t := logGap k f g silent s
    let logged := fun (cause : FrameCause) (detail : Nat) =>
      t.sectors = s.sectors ∧ DeviceKept s t ∧ t.channel = s.channel ∧ t.ports = s.ports ∧
      Logged { time := s.time, sector := some k, frame := some f
               body := .frame cause (BitVec.ofNat 32 detail) } s t
    ((silent = true ∨ g < 2) → t = s) ∧
    (silent = false → 64 < g → logged .resync (g % 65536) ∧ t.notices.pending = s.notices.pending ||| 0x20) ∧
    (silent = false → 2 ≤ g → g ≤ 64 → logged .gap g ∧ t.notices = s.notices)) ∧
  (∀ (k : SectorNo) (s : State),
    let x := s.sector k
    let t := epochItem1 k true s
    let y := t.sector k
    y.history = [] ∧ y.waitList = [] ∧ y.roster.members = [] ∧ OtherSectors k s t ∧ DeviceKept s t ∧ SectorKept x y ∧
    t.ports = s.ports ∧ t.channel = s.channel ∧ y.episode = x.episode ∧
    (x.mode ≠ .active → t = s.setSector k { x with history := [], waitList := [], roster := y.roster }) ∧
    (x.mode = .active →
      y.rangingOrder = (x.rangingOrder.map fun m => { m with silent := false }) ∧
      (∀ r, (s.entry k r).state = .probing → ∃ stamp, t.entry k r = (s.entry k r).queuedAs (s.params k).restart stamp) ∧
      (∀ r, (s.entry k r).state ≠ .probing → ∃ stamp, t.entry k r = { s.entry k r with order := stamp } ∧
        ((s.entry k r).state ≠ .queued → stamp = (s.entry k r).order)) ∧
      (∀ r q, r < q → (s.entry k r).state = .probing → (s.entry k q).state = .probing →
        (t.entry k r).order < (t.entry k q).order) ∧
      let rs := (List.finRange 128).reverse.filter fun r => (s.entry k r).state = .probing
      (s.writer.queue.length + rs.length ≤ 64 → ∃ d : RemoteNo → Word,
        t.writer.queue = s.writer.queue ++ rs.map fun r => {
          time := s.time, sector := some k, frame := some x.frame
          body := .state .resync r .probing .queued (t.entry k r).profile (t.entry k r).attempts (d r) }))) ∧
  (∀ (k : SectorNo) (s : State),
    let x := s.sector k
    let t := epochItem1 k false s
    let late := fun p : Plan => (s.params k).latency < (x.frame - p.frame).toNat
    let timeout := fun (f : Frame) (slot minislot : Nat) (u : State) =>
      match ((u.sector k).history.find? fun p => p.frame = f).bind fun p => p.watch slot minislot with
      | none => u
      | some w => if w.condition = .open then
          takeOutcome k w.remote w.kind .timeout
            (u.setSector k (modPlan f (Plan.setCondition slot minislot .resolved) (u.sector k)))
        else u
    let leave := fun (p : Plan) (u : State) =>
      let v := (List.range p.slots.length).foldl
        (fun v slot => (List.range 6).foldl (fun v minislot => timeout p.frame slot minislot v) v) u
      v.setSector k { v.sector k with history := (v.sector k).history.filter fun q => q.frame ≠ p.frame }
    OtherSectors k s t ∧ DeviceKept s t ∧ SectorKept x (t.sector k) ∧ t.ports = s.ports ∧ t.channel = s.channel ∧
    (t.sector k).history.map Plan.frame = (x.history.filter fun p => ¬ late p).map Plan.frame ∧
    ((x.mode = .pass ∨ x.suspended = true) →
      t = s.setSector k { x with history := x.history.filter fun p => ¬ late p }) ∧
    (x.mode ≠ .pass → x.suspended = false → t = (x.history.filter fun p => late p).foldl (fun u p => leave p u) s)) ∧
  ∀ (k : SectorNo) (g : Nat) (s : State),
    let x := s.sector k
    let t := epochItem2 k g s
    let due := fun r : RemoteNo => (s.entry k r).state = .faded ∧ (s.entry k r).backoff ≤ g
    ((x.mode = .pass ∨ x.suspended = true) → t = s) ∧
    (x.mode ≠ .pass → x.suspended = false → ∃ u,
      (x.mode = .shadow → u = s) ∧
      (x.mode = .active →
        OtherSectors k s u ∧ DeviceKept s u ∧ SectorKept x (u.sector k) ∧ u.notices = s.notices ∧ u.ports = s.ports ∧
        u.channel = s.channel ∧ (u.sector k).episode = x.episode ∧
        (∀ r, due r → ∃ stamp, u.entry k r = (s.entry k r).queuedAs (s.params k).restart stamp) ∧
        (∀ r q, r < q → due r → due q → (u.entry k r).order < (u.entry k q).order) ∧
        (∀ r, (s.entry k r).state = .faded → g < (s.entry k r).backoff →
          u.entry k r = { s.entry k r with backoff := (s.entry k r).backoff - g }) ∧
        (∀ r, (s.entry k r).state ≠ .faded → ∃ stamp, u.entry k r = { s.entry k r with order := stamp } ∧
          ((s.entry k r).state ≠ .queued → stamp = (s.entry k r).order)) ∧
        let rs := (List.finRange 128).filter fun r => due r
        (s.writer.queue.length + rs.length ≤ 64 → ∃ d : RemoteNo → Word,
          u.writer.queue = s.writer.queue ++ rs.map fun r => {
            time := s.time, sector := some k, frame := some x.frame
            body := .state .backoff r .faded .queued (u.entry k r).profile (u.entry k r).attempts (d r) })) ∧
      let y := u.sector k
      let e := y.episode
      ((e.state = .clear ∨ e.state = .recovering) → t = u) ∧
      (e.state = .fading → g < e.holdDown →
        t = u.setSector k { y with episode := { e with holdDown := e.holdDown - g } }) ∧
      (e.state = .fading → e.holdDown ≤ g → EpisodeMoved k .holdDown { e with
        state := .recovering, holdDown := 0, record := { e.record with recovering := some .holdDown } } u t) ∧
      (e.state = .settling → g < e.settle →
        t = u.setSector k { y with episode := { e with settle := e.settle - g } }) ∧
      (e.state = .settling → e.settle ≤ g → EpisodeMoved k .settled {
        state := .clear, holdDown := 0, settle := 0, record := { e.record with closing := some y.frame } } u t))

/-- An epoch completes a pending mode change: the mode is the target, nothing is pending, the result is DONE with the new
mode, the new plan is the only one. To ACTIVE no remote is left FADED; to SHADOW none is left QUEUED, PROBING, RANGING or
CLIMBING (R80, R82, R148, R149). A pending MAP relocation completes where the header came through the new window: the old
window leaves, the new one has mark none, the result is DONE; else it stays pending (R135, R154; log 35 for a window of
the same base). A REPORT relocation moves the window, tears a held record, and its result is DONE. A DESCRIPTOR relocation
moves the window and begins its read phase with descriptor 0 (R18, R155). -/
def Obligations.EpochCompletesTheModeChange : Prop :=
  (∀ (k : SectorNo) (f : Frame) (count : Nat) (base : Addr) (s : State) (target : Mode) (c : Command) (d : Word)
    (e : Bool), (s.sector k).pendingOp = some (.modeChange target) →
    s.channel.inFlight = some { cmd := c, phase := .modePending d e } → s.resultWaits = false →
    ((epoch k f count base s).sector k).mode = target ∧ ((epoch k f count base s).sector k).pendingOp = none ∧
    ((epoch k f count base s).sector k).history = [{ frame := f, slots := List.replicate count none }] ∧
    ((epoch k f count base s).sector k).resyncPending = false ∧ OtherSectors k s (epoch k f count base s) ∧
    (∃ r, (epoch k f count base s).writer.pendingResult = some r ∧ r.tag = c.tag ∧ r.result = .done ∧
      r.detail = BitVec.ofNat 16 (modeCode target)) ∧
    ((s.sector k).mode = .shadow → target = .active → ∀ r, ((epoch k f count base s).entry k r).state ≠ .faded) ∧
    ((s.sector k).mode = .active → target = .shadow → ∀ r,
      ((epoch k f count base s).entry k r).state ∉ [.queued, .probing, .ranging, .climbing])) ∧
  ∀ (k : SectorNo) (f : Frame) (count : Nat) (base : Addr) (s : State) (kind : RelocKind) (b : Addr) (x : Nat)
    (c : Command) (d : Word) (e : Bool), (s.sector k).pendingOp = some (.relocation kind b x false) →
    s.channel.inFlight = some { cmd := c, phase := .relocationPending d e } → s.resultWaits = false →
    let t := epoch k f count base s
    let done := (t.sector k).pendingOp = none ∧ t.channel.inFlight = some { cmd := c, phase := .decided } ∧
      ∃ r, t.writer.pendingResult = some r ∧ r.tag = c.tag ∧ r.result = .done ∧ r.detail = 0
    OtherSectors k s t ∧ (t.sector k).mode = (s.sector k).mode ∧
    (kind = .map → base = b →
      t.windows = ((s.windows.filter fun w => !decide (w.kind = .map ∧ w.sector = some k ∧ w.mark = .old)).map fun w =>
        if w.kind = .map ∧ w.sector = some k then { w with mark := .none } else w) ∧ done) ∧
    (kind = .map → base ≠ b →
      (t.sector k).pendingOp = (s.sector k).pendingOp ∧ t.windows = s.windows ∧ t.channel = s.channel ∧
      t.writer.pendingResult = none) ∧
    (kind = .report →
      t.windows = (s.windows.map fun w =>
        if w.kind = .report ∧ w.sector = some k then { w with base := b, sizeExp := x } else w) ∧
      (t.sector k).pack = none ∧ (t.sector k).counts = (if (s.sector k).pack = none then (s.sector k).counts
        else { (s.sector k).counts with torn := (s.sector k).counts.torn + 1 }) ∧ done) ∧
    (kind = .descriptor →
      t.windows = (s.windows.map fun w =>
        if w.kind = .descriptor ∧ w.sector = some k then { w with base := b, sizeExp := x } else w) ∧
      (t.sector k).pendingOp = some (.relocation .descriptor b x true) ∧
      t.channel.inFlight = some { cmd := c, phase := .relocationReading 0 0 none [] none } ∧
      t.channel.read = some (.relocDescriptor k 0) ∧ t.writer.pendingResult = none)

/-- Every report the engine takes is counted once: one of the seven counts beside torn is one more (R104, R110). In PASS it
is unwatched, in a suspended sector ignored, and nothing else changes. Else a report with no plan of its tag, or no slot or
minislot in it, is STRAY; one with no expectation is unwatched, with a void one void, with a resolved one a DUPLICATE. With
an open one the expectation is resolved: a MISMATCH where the report names another remote, whose expected remote takes it
as GARBLED, else matched, with its margin kept and its outcome handed to the remote (R5, R105 to R109).

Report Intake (R97 to R101). A beat with all lanes is a full record, which first tears a held one; with a pair of lanes it
is a quarter, which is held, completes the record, or tears what it does not continue; with any other lanes it is a width
fault. A complete record without its valid flag is ignored, one whose form fails is refused and counted torn, and any
other is handed to the engine. The last clause gives the fields of a record (Table 11.5). -/
def Obligations.EveryReportIsCountedOnce : Prop :=
  (∀ (k : SectorNo) (p : Report) (s : State), ((takeReport k p s).sector k).counts.torn = (s.sector k).counts.torn ∧
    let total := fun c : ReportCounts =>
      c.matched + c.stray + c.duplicate + c.mismatch + c.unwatched + c.void + c.suspendedIgnored
    total ((takeReport k p s).sector k).counts = total (s.sector k).counts + 1) ∧
  (∀ (k : SectorNo) (p : Report) (s : State) (plan : Plan) (w : Expectation),
    let x := s.sector k
    let t := takeReport k p s
    let counted := fun (c : ReportCounts) => (s.setSector k { x with counts := c }).sectors
    let named := (p.outcome = 0 ∨ 3 ≤ p.outcome) ∧ p.remote ≠ w.remote
    let resolved := modPlan plan.frame (Plan.setCondition p.slot p.minislot .resolved) x
    (x.mode = .pass →
      t.sectors = counted { x.counts with unwatched := x.counts.unwatched + 1 } ∧ t.writer.queue = s.writer.queue) ∧
    (x.mode ≠ .pass → x.suspended = true →
      t.sectors = counted { x.counts with suspendedIgnored := x.counts.suspendedIgnored + 1 } ∧
      t.writer.queue = s.writer.queue) ∧
    (x.mode ≠ .pass → x.suspended = false →
      (x.planOfTag p.tag = none ∨
        (x.planOfTag p.tag = some plan ∧ (plan.count ≤ p.slot ∨ (0 < p.minislot ∧ plan.probeAt p.slot = false)))) →
      t.sectors = counted { x.counts with stray := x.counts.stray + 1 } ∧
      t.notices.pending = s.notices.pending ||| 16 ∧
      Logged { time := s.time, sector := some k, frame := some x.frame
               body := .reportFault .stray (some p.remote) (BitVec.ofNat 32 (p.tag.toNat * 256 + p.slot)) } s t) ∧
    (x.mode ≠ .pass → x.suspended = false → x.planOfTag p.tag = some plan → p.slot < plan.count →
      (p.minislot = 0 ∨ plan.probeAt p.slot = true) →
      (plan.watch p.slot p.minislot = none →
        t.sectors = counted { x.counts with unwatched := x.counts.unwatched + 1 } ∧ t.writer.queue = s.writer.queue) ∧
      (plan.watch p.slot p.minislot = some w → w.condition = .void →
        t.sectors = counted { x.counts with void := x.counts.void + 1 } ∧ t.writer.queue = s.writer.queue) ∧
      (plan.watch p.slot p.minislot = some w → w.condition = .resolved →
        t.sectors = counted { x.counts with duplicate := x.counts.duplicate + 1 } ∧
        t.notices.pending = s.notices.pending ||| 16 ∧
        Logged { time := s.time, sector := some k, frame := some plan.frame
                 body := .reportFault .duplicate (some w.remote) (BitVec.ofNat 32 (p.slot * 8 + p.minislot)) } s t) ∧
      (plan.watch p.slot p.minislot = some w → w.condition = .open → named →
        ∃ u, t = takeOutcome k w.remote w.kind .garbled u ∧
          u.sectors = (s.setSector k
            { resolved with counts := { x.counts with mismatch := x.counts.mismatch + 1 } }).sectors ∧
          u.notices.pending = s.notices.pending ||| 16 ∧
          Logged { time := s.time, sector := some k, frame := some plan.frame
                   body := .reportFault .mismatch (some w.remote) (BitVec.ofNat 32 p.remote.val) } s u) ∧
      (plan.watch p.slot p.minislot = some w → w.condition = .open → ¬ named →
        ∃ u, t = takeOutcome k w.remote w.kind
            (match p.outcome with
              | 0 => .heard p.margin p.timing p.power
              | 1 => .silent
              | 2 => .garbled
              | _ => .crcFail p.margin) u ∧
          u.writer.queue = s.writer.queue ∧
          u.sectors = (s.setSector k
            { resolved.setEntry w.remote { s.entry k w.remote with
                lastMargin := if p.outcome = 0 then some p.margin else (s.entry k w.remote).lastMargin } with
              counts := { x.counts with matched := x.counts.matched + 1 } }).sectors))) ∧
  ∀ (k : SectorNo) (winBase addr : Addr) (lanes : Lanes) (b : Beat) (s : State),
    let x := s.sector k
    let t := takeReportBeat k winBase addr lanes b s
    let torn := fun (cause : ReportFault) (remote : Option RemoteNo) (off : Nat) (u : State) =>
      u.sectors = (s.setSector k { x with counts := { x.counts with torn := x.counts.torn + 1 } }).sectors ∧
      DeviceKept s u ∧ u.ports = s.ports ∧ u.channel = s.channel ∧
      u.notices.pending = s.notices.pending ||| 16 ∧
      Logged { time := s.time, sector := some k, frame := some x.frame
               body := .reportFault cause remote (BitVec.ofNat 32 off) } s u
    let emptied := fun u : State => u.setSector k { u.sector k with pack := none }
    (lanes = allLanes → x.pack = none → (reportOf b).valid = false → t = s) ∧
    (lanes = allLanes → x.pack = none → (reportOf b).valid = true →
      (63 < (reportOf b).slot ∨ 5 < (reportOf b).minislot ∨ 3 < (reportOf b).outcome) →
      torn .form (some (reportOf b).remote) (addr - winBase).toNat t) ∧
    (lanes = allLanes → x.pack = none → (reportOf b).valid = true → (reportOf b).slot ≤ 63 →
      (reportOf b).minislot ≤ 5 → (reportOf b).outcome ≤ 3 → t = takeReport k (reportOf b) s) ∧
    (∀ p, lanes = allLanes → x.pack = some p →
      ∃ u, torn .torn none (p.addr - p.winBase).toNat u ∧ t = takeReportBeat k winBase addr allLanes b (emptied u)) ∧
    (lanes = 0x03 → x.pack = none →
      t = s.setSector k { x with pack := some { addr := addr, winBase := winBase, quarters := [b.extractLsb' 0 16] } }) ∧
    (∀ q : Fin 4, q ≠ 0 → quarterOf lanes = some q → x.pack = none → torn .torn none (addr - winBase).toNat t) ∧
    (∀ (q : Fin 4) (p : Pack), quarterOf lanes = some q → x.pack = some p → p.addr = addr →
      p.quarters.length = q.val → q ≠ 3 →
      t = s.setSector k { x with
        pack := some { p with quarters := p.quarters ++ [b.extractLsb' (16 * q.val) 16] } }) ∧
    (∀ (base : Addr) (q0 q1 q2 : BitVec 16), lanes = 0xC0 →
      x.pack = some { addr := addr, winBase := base, quarters := [q0, q1, q2] } →
      t = takeReportBeat k winBase addr allLanes (b.extractLsb' 48 16 ++ q2 ++ q1 ++ q0) (emptied s)) ∧
    (∀ (q : Fin 4) (p : Pack), quarterOf lanes = some q → x.pack = some p →
      ¬ (p.addr = addr ∧ p.quarters.length = q.val) →
      ∃ u, torn .torn none (p.addr - p.winBase).toNat u ∧ t = takeReportBeat k winBase addr lanes b (emptied u)) ∧
    (lanes ≠ allLanes → quarterOf lanes = none → torn .width none (addr - winBase).toNat t) ∧
    (∀ q : Fin 4, quarterOf lanes = some q ↔ lanes = (3 : Lanes) <<< (2 * q.val)) ∧
    let field := fun lo len : Nat => b.toNat / 2 ^ lo % 2 ^ len
    let signed := fun lo len : Nat => if field lo len < 2 ^ (len - 1) then (field lo len : Int) else field lo len - 2 ^ len
    (reportOf b).tag.toNat = field 0 8 ∧ (reportOf b).slot = field 8 7 ∧ ((reportOf b).valid = true ↔ field 15 1 = 1) ∧
    (reportOf b).minislot = field 16 3 ∧ (reportOf b).outcome = field 19 3 ∧ (reportOf b).remote.val = field 24 7 ∧
    (reportOf b).margin = signed 32 10 ∧ (reportOf b).timing = signed 42 12 ∧ (reportOf b).power = signed 54 8

/-- Memory's response to any other forwarded request is returned to its master unchanged, and with it, in order, the
responses the part has formed since and held for it; a response the part forms while an earlier one is owed is held
(R128, R132). -/
def Obligations.MemoryResponseReturned : Prop :=
  (∀ (m : MasterNo) (reply : Reply) (s : State) (n : Nat), s.owedTo m = [.awaiting n none] → reply.data.length = n →
    ∃ t, exec (.memoryResponse m reply) s = .next t ∧ SameButPorts s t ∧ t.owedTo m = [] ∧
      t.ports.returned = s.ports.returned ++ [(m, { error := reply.error, data := reply.data })] ∧
      { t.ports with owed := s.ports.owed, returned := s.ports.returned } = s.ports ∧
      ∀ j, j ≠ m → t.owedTo j = s.owedTo j) ∧
  (∀ (m : MasterNo) (reply : Reply) (s : State) (n : Nat) (held : List Response) (behind : List Owed),
    s.owedTo m = .awaiting n none :: (held.map Owed.formed ++ behind) → (∀ r, behind.head? ≠ some (.formed r)) →
    reply.data.length = n →
    ∃ t, exec (.memoryResponse m reply) s = .next t ∧ SameButPorts s t ∧ t.owedTo m = behind ∧
      t.ports.returned = s.ports.returned ++
        (m, { error := reply.error, data := reply.data }) :: held.map fun r => (m, r)) ∧
  ∀ (q : Request) (s : State) (n : Nat) (p : Option Patch) (behind : List Owed), q.ok = true →
    s.waitingAt q.master = [] → s.owedTo q.master = .awaiting n p :: behind → classify s q = .absorb → s.notLoading →
    ∃ t, exec (.absorbedWrite (.new q)) s = .next t ∧ SameButPorts s t ∧ t.ports.returned = s.ports.returned ∧
      t.owedTo q.master = s.owedTo q.master ++ [.formed { error := false, data := [] }]

/-! ### Outbound writes and the part's reads (Sections 9 and 10) -/

/-- OUTBOUND_WRITE_FORMED. With six writes held, nothing. With a place free, one write from the first source that has
material (R174): a pending result word, which becomes empty (R161); else, the ring having room, the OVERFLOW record of the
skips, or the queue's head record, at the head index with the next sequence number (R176); else the device status block,
the lowest marked counter block, or the next marked mirror group after the one last formed, which is unmarked (R7, R180,
R181). A full ring, or an absent geometry, skips every queued record and forms no log write; that it does so in one step,
in which the device block it marks is formed, is the model's choice (log 24). The next clauses give the contents of the
blocks (R6, R7, Tables 11.12 and 11.13).

The last clauses give the bytes of the result word (R175, Table 11.9), the bytes of a log record, its common part and its body
by kind (R173, R178, R185, Tables 11.10 and 11.11), and the codes (Tables 11.1 and 11.2). That the bytes no table names, and the
unused bits of a role byte and of an EPISODE record's +16, are written 0 is the model's choice (log 38). -/
def Obligations.OutboundWriteFormedInOrder : Prop :=
  (∀ s : State, 6 ≤ s.writer.buffer.length → exec .outboundWriteFormed s = .next s) ∧
  (∀ s : State, s.writer.buffer.length < 6 →
    let room := fun g : LogGeometry => (s.writer.head + 2 ^ g.k - s.writer.tail) % 2 ^ g.k + 1 < 2 ^ g.k
    let formed := fun (source : WriteSource) (addr : Addr) (data : List Beat) =>
      s.writer.buffer ++ [{ source := source, addr := addr, data := data, issued := false }]
    let anchor := fun off : Nat => s.channel.anchorBase + BitVec.ofNat 40 off
    let blocks := s.writer.pendingResult = none ∧ s.writer.queue = [] ∧
      ∀ g, s.writer.log = some g → room g → s.writer.skips = 0
    ∃ t, exec .outboundWriteFormed s = .next t ∧ t.sectors = s.sectors ∧ t.ports = s.ports ∧ t.time = s.time ∧
      t.windows = s.windows ∧
      (∀ r, s.writer.pendingResult = some r →
        t.writer.buffer = formed .result (anchor 0x008) [resultBeat r] ∧
        t.writer.pendingResult = none ∧ t.writer.queue = s.writer.queue ∧
        t.channel.inFlight = (if r.closes then none else s.channel.inFlight)) ∧
      (∀ g rec rest, s.writer.pendingResult = none → s.writer.log = some g → room g → s.writer.skips = 0 →
        s.writer.queue = rec :: rest →
        t.writer.buffer = formed .log (g.base + BitVec.ofNat 40 (32 * s.writer.head)) (rec.beats s.writer.seq) ∧
        t.writer.queue = rest ∧ t.writer.seq = s.writer.seq + 1 ∧
        t.writer.head = (s.writer.head + 1) % 2 ^ g.k ∧ t.writer.deviceDirty = true ∧ t.channel = s.channel) ∧
      (∀ g, s.writer.pendingResult = none → s.writer.log = some g → room g → s.writer.skips ≠ 0 →
        t.writer.buffer = formed .log (g.base + BitVec.ofNat 40 (32 * s.writer.head))
          (LogRecord.beats s.writer.seq
            { time := s.time, sector := none, frame := none, body := .overflow s.writer.skips }) ∧
        t.writer.skips = 0 ∧ t.writer.seq = s.writer.seq + 1 ∧ t.writer.queue = s.writer.queue ∧
        t.writer.head = (s.writer.head + 1) % 2 ^ g.k ∧ t.writer.deviceDirty = true ∧
        t.notices.pending = s.notices.pending ||| 4) ∧
      (s.writer.pendingResult = none → (∀ g, s.writer.log = some g → ¬ room g) →
        t.writer.queue = [] ∧ t.writer.skips = s.writer.skips + BitVec.ofNat 32 s.writer.queue.length ∧
        t.writer.seq = s.writer.seq + BitVec.ofNat 32 s.writer.queue.length ∧ t.writer.head = s.writer.head ∧
        (s.writer.queue ≠ [] →
          t.writer.buffer = formed .device (anchor 0x800)
            (deviceBlock { s with writer := { s.writer with skips := t.writer.skips, seq := t.writer.seq } }) ∧
          t.writer.deviceDirty = false)) ∧
      (blocks → s.writer.deviceDirty = true →
        t = { s with writer := { s.writer with
          buffer := formed .device (anchor 0x800) (deviceBlock s), deviceDirty := false } }) ∧
      (∀ k : SectorNo, blocks → s.writer.deviceDirty = false → s.writer.counterDirty[k] = true →
        (∀ j : SectorNo, j < k → s.writer.counterDirty[j] = false) →
        t = { s with writer := { s.writer with
          buffer := formed (.counter k) (anchor (0x900 + 0x40 * k.val)) (counterBlock (s.sector k))
          counterDirty := s.writer.counterDirty.set k.val false k.isLt } }) ∧
      (∀ i : Fin 128, blocks → s.writer.deviceDirty = false → (∀ k : SectorNo, s.writer.counterDirty[k] = false) →
        s.writer.mirrorDirty[s.writer.lastGroup + 1 + i] = true →
        (∀ j : Fin 128, j < i → s.writer.mirrorDirty[s.writer.lastGroup + 1 + j] = false) →
        let g : Fin 128 := s.writer.lastGroup + 1 + i
        t = { s with writer := { s.writer with
          buffer := formed (.mirror g) (anchor (0xC00 + 8 * g.val)) [mirrorBeat s g]
          mirrorDirty := s.writer.mirrorDirty.set g.val false g.isLt
          lastGroup := g } }) ∧
      (blocks → s.writer.deviceDirty = false → (∀ k : SectorNo, s.writer.counterDirty[k] = false) →
        (∀ g : Fin 128, s.writer.mirrorDirty[g] = false) → t = s)) ∧
  (∀ (s : State) (f : Byte × Byte),
    f = (match s.channel.inFlight with
      | some c => (1, c.cmd.tag)
      | none => (0, 0)) →
    deviceBlock s = [s.writer.faults ++ (0 : Byte) ++ f.2 ++ f.1 ++ s.notices.pending,
      s.writer.seq ++ BitVec.ofNat 32 s.writer.head, s.time ++ s.writer.skips, 0, 0, 0, 0, 0]) ∧
  (∀ x : Sector,
    let byte := fun n : Nat => beatByte ((counterBlock x).getD (n / 8) 0) (n % 8)
    let word := fun n : Nat => byte (n + 3) ++ byte (n + 2) ++ byte (n + 1) ++ byte n
    byte 0 = BitVec.ofNat 8 (modeCode x.mode) ∧ byte 1 = (if x.suspended then 1 else 0) ∧
    byte 2 = BitVec.ofNat 8 x.episode.state.code ∧ byte 3 = BitVec.ofNat 8 x.n ∧
    byte 5 ++ byte 4 = x.episode.record.number ∧
    (∀ st : RState, byte (6 + st.code) = BitVec.ofNat 8 (x.tally st)) ∧ byte 15 = 0 ∧ word 16 = x.framesSeen ∧
    word 20 = x.counts.matched ∧ word 24 = x.counts.stray ∧ word 28 = x.counts.duplicate ∧
    word 32 = x.counts.mismatch ∧ word 36 = x.counts.torn ∧ word 40 = x.counts.unwatched ∧
    word 44 = x.counts.void ∧ word 48 = x.counts.suspendedIgnored ∧ (∀ n, 52 ≤ n → byte n = 0)) ∧
  (∀ (s : State) (k : SectorNo) (r : RemoteNo),
    let item := (mirrorBeat s (mirrorGroup k r)).extractLsb' (16 * (r.val % 4)) 16
    let e := s.entry k r
    item.extractLsb' 0 4 = BitVec.ofNat 4 e.state.code ∧ item.extractLsb' 4 4 = BitVec.ofNat 4 e.profile ∧
    item.extractLsb' 8 4 = BitVec.ofNat 4 e.attempts ∧ item.extractLsb' 12 2 = BitVec.ofNat 2 e.cls ∧
    item.getLsbD 14 = e.admin ∧ item.getLsbD 15 = e.deferred.isSome) ∧
  (∀ r : Result, resultBeat r = (0 : Word) ++ r.detail ++ BitVec.ofNat 8 r.result.code ++ r.tag) ∧
  (∀ (seq : Word) (rec : LogRecord),
    let byte := fun n : Nat => beatByte ((rec.beats seq).getD (n / 8) 0) (n % 8)
    let half := fun n : Nat => byte (n + 1) ++ byte n
    let frame := fun n : Nat => byte (n + 2) ++ byte (n + 1) ++ byte n
    let word := fun n : Nat => byte (n + 3) ++ byte (n + 2) ++ byte (n + 1) ++ byte n
    let head := fun (kind cause present peak : Nat) =>
      byte 8 = BitVec.ofNat 8 kind ∧ byte 9 = BitVec.ofNat 8 cause ∧ byte 15 = BitVec.ofNat 8 peak ∧
      byte 11 = BitVec.ofNat 8 (present + (if rec.sector.isSome then 1 else 0) + (if rec.frame.isSome then 2 else 0))
    let plain := fun (remote old new profile attempts code tag : Nat) (detail : Word) =>
      byte 16 = BitVec.ofNat 8 remote ∧ byte 17 = BitVec.ofNat 8 old ∧ byte 18 = BitVec.ofNat 8 new ∧
      byte 19 = BitVec.ofNat 8 profile ∧ byte 20 = BitVec.ofNat 8 attempts ∧ byte 21 = 0 ∧
      byte 22 = BitVec.ofNat 8 code ∧ byte 23 = BitVec.ofNat 8 tag ∧ word 24 = detail ∧ word 28 = 0
    (rec.beats seq).length = 4 ∧ word 0 = seq ∧ word 4 = rec.time ∧
    byte 10 = BitVec.ofNat 8 ((rec.sector.map Fin.val).getD 0) ∧ frame 12 = rec.frame.getD 0 ∧
    match rec.body with
    | .state cause r old new profile attempts detail =>
      head 1 cause.code 0x7C 0 ∧ plain r.val old.code new.code profile attempts 0 0 detail
    | .episode cause old new n x =>
      head 2 cause.code (0x18 + if x.closing.isSome then 0x80 else 0) x.peak ∧
      (byte 16).extractLsb' 0 2 = BitVec.ofNat 2 old.code ∧ (byte 16).extractLsb' 2 2 = BitVec.ofNat 2 new.code ∧
      (byte 16).extractLsb' 4 2 = BitVec.ofNat 2 ((x.recovering.map RecoveringCause.code).getD 0) ∧
      (byte 16).extractLsb' 6 2 = 0 ∧ byte 17 = BitVec.ofNat 8 n ∧ half 18 = x.number ∧
      half 20 = BitVec.ofNat 16 x.faded ∧ half 22 = BitVec.ofNat 16 x.excluded ∧ half 24 = BitVec.ofNat 16 x.refades ∧
      frame 26 = x.opening ∧ frame 29 = x.closing.getD 0
    | .reportFault cause r detail =>
      head 3 cause.code (if r.isSome then 4 else 0) 0 ∧ plain ((r.map Fin.val).getD 0) 0 0 0 0 0 0 detail
    | .access cause m role dir w detail =>
      head 4 cause.code 0 0 ∧ byte 16 = BitVec.ofNat 8 m.val ∧
      byte 17 = (match role with
        | .controller => 0
        | .builder k => BitVec.ofNat 8 (1 + 16 * k.val)
        | .receiver k => BitVec.ofNat 8 (2 + 16 * k.val)
        | .other => 3) ∧
      byte 18 = (if dir = .read then 0 else 1) ∧ byte 19 = BitVec.ofNat 8 ((w.map WindowKind.code).getD 0) ∧
      word 20 = 0 ∧ word 24 = detail ∧ word 28 = 0
    | .frame cause detail => head 5 cause.code 0 0 ∧ plain 0 0 0 0 0 0 0 detail
    | .descriptor cause r detail => head 6 cause.code 4 0 ∧ plain r.val 0 0 0 0 0 0 detail
    | .marker lanes data =>
      head 7 0 0 0 ∧ word 16 = 0 ∧ byte 20 = 0 ∧ byte 21 = lanes ∧ half 22 = 0 ∧ word 28 ++ word 24 = data
    | .command result code r tag detail =>
      head 8 result.code (if r.isSome then 4 else 0) 0 ∧
      plain ((r.map BitVec.toNat).getD 0) 0 0 0 0 code.toNat tag.toNat (detail.setWidth 32)
    | .tail cause detail => head 9 cause.code 0 0 ∧ plain 0 0 0 0 0 0 0 detail
    | .memory cause detail => head 10 cause.code 0 0 ∧ plain 0 0 0 0 0 0 0 detail
    | .overflow skips => head 11 0 0 0 ∧ plain 0 0 0 0 0 0 0 skips) ∧
  [RState.idle, .serving, .faded, .queued, .probing, .ranging, .climbing, .held, .excluded].map RState.code = List.range 9 ∧
  [Mode.pass, .shadow, .active].map modeCode = List.range 3 ∧
  [EpisodeState.clear, .fading, .recovering, .settling].map EpisodeState.code = List.range 4 ∧
  [WindowKind.anchor, .descriptor, .map, .report, .log, .guard].map WindowKind.code = List.range' 1 6 ∧
  [RelocKind.map, .report, .descriptor].map RelocKind.code = List.range 3 ∧
  [ResultCode.done, .busy, .invalid, .state, .timeout, .cancelled, .nothing, .memoryError].map ResultCode.code =
    List.range' 1 8 ∧
  [RecoveringCause.scoutHeard, .holdDown, .shadowHeard].map RecoveringCause.code = List.range' 1 3 ∧
  [StateCause.fade, .forceFade, .backoff, .promoted, .placed, .probeHeard, .probeWeak, .probeCrc, .probeSilent,
    .probeTimeout, .probeGarbled, .rangeDone, .rangeSilent, .rangeLimit, .climbUp, .climbDown, .shadowHeard, .hold, .release,
    .rearm, .adminOff, .adminOn, .ceiling, .config, .resync, .resume, .mode, .reset].map StateCause.code =
    List.range' 1 28 ∧
  [EpisodeCause.threshold, .scoutHeard, .holdDown, .shadowHeard, .drained, .refade, .settled, .emptied, .mode,
    .reset].map EpisodeCause.code = List.range' 1 10 ∧
  [ReportFault.torn, .width, .form, .stray, .duplicate, .mismatch].map ReportFault.code = List.range' 1 6 ∧
  [AccessCause.role, .split, .lock].map AccessCause.code = List.range' 1 3 ∧
  [FrameCause.header, .parity, .gap, .resync].map FrameCause.code = List.range' 1 4 ∧
  [DescriptorCause.ceilingInvalid, .classInvalid, .groupInvalid].map DescriptorCause.code = List.range' 1 3 ∧
  [TailCause.partialWord, .noLog, .range, .order].map TailCause.code = List.range' 1 4 ∧
  [MemoryCause.result, .counter, .mirror].map MemoryCause.code = List.range' 1 3

/-- OUTBOUND_WRITE_GRANT issues the oldest ready write where no locked sequence is open and either rule 2 of R131 puts it
first or nothing else is eligible; PART_READ_GRANT issues the Command Channel's read where no locked sequence is open, no
pass-through request is eligible and rule 2 does not act (R131). Each leaves under master number 8 at its address with its beats
(R129; log 33 for the lanes and the lock flag). Where the rules of the arbiter give the port to another or to none, neither row
changes anything. A head is eligible where its class needs the port, is no report write held off (R103), and no command word
that waits for a result (R159). The last clauses give the addresses: block i of the configuration area (R166), a staging
entry (R153), a descriptor of a load's new array (R16), a descriptor of the relocated window (R18). -/
def Obligations.PartGrantsIssueTheirRequests : Prop :=
  (∀ (s : State) (a : List OutWrite) (o : OutWrite) (b : List OutWrite), s.ports.locks = [] →
    (outboundFirst s = true ∨ ((∀ m, eligible s m = false) ∧ s.channel.read = none)) →
    s.writer.buffer = a ++ o :: b → (∀ x ∈ a, x.issued = true) → o.issued = false →
    exec .outboundWriteGrant s = .next { s with
      writer := { s.writer with buffer := a ++ { o with issued := true } :: b }
      ports := { s.ports with
        issued := s.ports.issued ++ [{
          master := 8, dir := .write, addr := o.addr, beats := o.data.length, lanes := allLanes, lock := false
          data := o.data }]
        outstanding := s.ports.outstanding ++ [.write]
        lastOutbound := true } }) ∧
  (∀ (s : State) (target : ReadTarget), s.ports.locks = [] → outboundFirst s = false → (∀ m, eligible s m = false) →
    s.channel.read = some target →
    exec .partReadGrant s = .next { s with
      channel := { s.channel with read := none }
      ports := { s.ports with
        issued := s.ports.issued ++ [{
          master := 8, dir := .read, addr := target.addr s, lanes := allLanes, lock := false, data := []
          beats := match target with
            | .config _ => 8
            | _ => 1 }]
        outstanding := s.ports.outstanding ++ [.read target false]
        lastOutbound := false } }) ∧
  (∀ s : State,
    (s.ports.locks ≠ [] ∨ (outboundFirst s = false ∧ ((∃ m, eligible s m = true) ∨ s.channel.read ≠ none)) ∨
      (∀ o ∈ s.writer.buffer, o.issued = true) → exec .outboundWriteGrant s = .next s) ∧
    (s.ports.locks ≠ [] ∨ outboundFirst s = true ∨ (∃ m, eligible s m = true) ∨ s.channel.read = none →
      exec .partReadGrant s = .next s)) ∧
  (∀ (s : State) (m : MasterNo),
    (s.waitingAt m = [] → eligible s m = false) ∧
    (∀ (q : Request) (rest : List Request), s.waitingAt m = q :: rest →
      let c := classify s q
      (eligible s m = true ↔ c.needsPort = true ∧
        (∀ w k, c = .snoopReport w k → s.holdOff = false ∨ q.master ∈ s.ports.locks) ∧
        (c = .takeCommand → s.writer.pendingResult = none ∧ s.channel.held = []))) ∧
    (outboundFirst s = true ↔ 6 ≤ s.writer.buffer.length ∧ (∃ o ∈ s.writer.buffer, o.issued = false) ∧
      s.ports.lastOutbound = false)) ∧
  (∀ c : AccessClass, c.needsPort = false ↔ c = .absorb ∨ ∃ cause, c = .refuse cause) ∧
  ∀ (s : State) (k : SectorNo) (r : RemoteNo),
    (∀ i, (ReadTarget.config i).addr s = s.channel.anchorBase + BitVec.ofNat 40 (0x100 + 64 * i)) ∧
    (∀ kind, (ReadTarget.staging k kind).addr s =
      s.channel.anchorBase + BitVec.ofNat 40 (0x600 + 8 * (3 * k.val + kind.code))) ∧
    (∀ c setup staged k' r' late x,
      s.channel.inFlight = some { cmd := c, phase := .readingDescriptors setup staged k' r' late } →
      setup.sectors[k] = some x →
      (ReadTarget.loadDescriptor k r).addr s = x.descBase + BitVec.ofNat 40 (8 * r.val)) ∧
    ∀ w, (s.windows.find? fun w => w.kind = .descriptor && w.sector = some k) = some w →
      (ReadTarget.relocDescriptor k r).addr s = w.base + BitVec.ofNat 40 (8 * r.val)

/-- OUTBOUND_WRITE_COMPLETION frees the place of the oldest issued write; OKAY to a result word raises COMMAND; ERROR counts a
fault, marks the device status block, raises MEMORY_FAULT and queues one MEMORY record, unless the write was a log write; the
dropped block or group is not marked again (R174, R175, R179). That the place becomes free while a locked sequence opened since
holds the port is the model's choice (log 41). -/
def Obligations.OutboundWriteCompletionFreesPlace : Prop :=
  ∀ (s : State) (error : Bool) (rest : List PartRequest) (a : List OutWrite) (o : OutWrite) (b : List OutWrite),
    s.ports.outstanding = .write :: rest → s.writer.buffer = a ++ o :: b → (∀ x ∈ a, x.issued = false) →
    o.issued = true →
    ∃ t, exec (.outboundWriteCompletion error) s = .next t ∧ t.writer.buffer = a ++ b ∧
      t.ports = { s.ports with outstanding := rest } ∧ t.sectors = s.sectors ∧ t.channel = s.channel ∧
      (error = false → t.notices.pending =
        (if o.source = .result then s.notices.pending ||| 0x40 else s.notices.pending) ∧
        t.writer.queue = s.writer.queue ∧ t.writer.faults = s.writer.faults) ∧
      (error = true → t.notices.pending = s.notices.pending ||| 0x80 ∧ t.writer.faults = s.writer.faults + 1 ∧
        t.writer.deviceDirty = true ∧ t.writer.counterDirty = s.writer.counterDirty ∧
        t.writer.mirrorDirty = s.writer.mirrorDirty ∧
        let dropped := fun (cause : MemoryCause) (sector : Option SectorNo) (off : Nat) => Logged {
          time := s.time, sector := sector, frame := sector.map fun k => (s.sector k).frame
          body := .memory cause (BitVec.ofNat 32 off) } s t
        (o.source = .log → t.writer.queue = s.writer.queue ∧ t.writer.skips = s.writer.skips) ∧
        (o.source = .result → dropped .result none 0x008) ∧
        (o.source = .device → dropped .counter none 0x800) ∧
        (∀ k : SectorNo, o.source = .counter k → dropped .counter (some k) (0x900 + 0x40 * k.val)) ∧
        ∀ (g : Fin 128) (k : SectorNo), o.source = .mirror g → k.val = g.val / 32 →
          dropped .mirror (some k) (0xC00 + 8 * g.val))

/-- The response to read i of the configuration area, i below 19: the load keeps it and reads on; an ERROR ends the load
with the read's anchor offset (R166). The response to the last read: the first test that fails, in the order of R167, ends
the load INVALID with its code, and nothing changes (log 39 for the order of the role map's entries). Where none fails, the
configuration is valid as Table 9.4 and R167 ask, and the load goes on to descriptor 0 of the lowest configured sector, or,
with none configured, is applied at once with result DONE, detail 0. The last clauses give each item of the configuration by its
offset in the area (Table 11.8), and the windows it gives (R133, R167). -/
def Obligations.ConfigReadResponseContinues : Prop :=
  (∀ (s : State) (reply : Reply) (i : Nat) (rest : List PartRequest) (cmd : Command) (area : List Beat),
    s.ports.outstanding = .read (.config i) false :: rest → reply.data.length = 8 →
    s.channel.inFlight = some { cmd := cmd, phase := .readingConfig area } → s.resultWaits = false →
    ∃ t, exec (.configReadResponse reply) s = .next t ∧ t.ports = { s.ports with outstanding := rest } ∧
      (reply.error = false → i < 19 →
        t = { s with
          ports := { s.ports with outstanding := rest }
          channel := { s.channel with
            inFlight := some { cmd := cmd, phase := .readingConfig (area ++ reply.data) }
            read := some (.config (i + 1)) } }) ∧
      (reply.error = true → t.sectors = s.sectors ∧ DeviceKept s t ∧
        ∃ r, t.writer.pendingResult = some r ∧ r.tag = cmd.tag ∧ r.result = .memoryError ∧
          r.detail = BitVec.ofNat 16 (0x100 + 64 * i))) ∧
  (∀ (s : State) (reply : Reply) (rest : List PartRequest) (cmd : Command) (area : List Beat),
    s.ports.outstanding = .read (.config 19) false :: rest → reply.data.length = 8 → reply.error = false →
    s.channel.inFlight = some { cmd := cmd, phase := .readingConfig area } → s.resultWaits = false →
    let c := setupOf (area ++ reply.data)
    let tests := allTests (area ++ reply.data) s.channel.anchorBase
    ∃ t, exec (.configReadResponse reply) s = .next t ∧ t.ports = { s.ports with outstanding := rest } ∧
      (∀ pre code post, tests = pre ++ (false, code) :: post → (∀ x ∈ pre, x.1 = true) →
        t.sectors = s.sectors ∧ DeviceKept s t ∧
        ∃ r, t.writer.pendingResult = some r ∧ r.tag = cmd.tag ∧ r.result = .invalid ∧ r.detail = BitVec.ofNat 16 code) ∧
      (∀ k : SectorNo, (∀ x ∈ tests, x.1 = true) → c.sectors[k].isSome = true →
        (∀ j : SectorNo, j < k → c.sectors[j] = none) →
        t = { s with
          ports := { s.ports with outstanding := rest }
          channel := { s.channel with
            inFlight := some { cmd := cmd, phase := .readingDescriptors c stagedStart k 0 [] }
            read := some (.loadDescriptor k 0) } }) ∧
      ((∀ x ∈ tests, x.1 = true) → (∀ k : SectorNo, c.sectors[k] = none) →
        t.windows = c.windows s.channel.anchorBase ∧ t.roles = c.roles ∧
        t.channel.inFlight = some { cmd := cmd, phase := .decided } ∧ (∀ k, t.configured k = false) ∧
        ∃ r, t.writer.pendingResult = some r ∧ r.tag = cmd.tag ∧ r.result = .done ∧ r.detail = 0)) ∧
  (∀ (area : List Beat) (anchor : Addr),
    let c := setupOf area
    let within := fun (low high n : Nat) => decide (low ≤ n ∧ n ≤ high)
    let aligned := fun (e : Nat) (a : Addr) => decide (a.toNat % 2 ^ e = 0)
    let margin := fun m : Int => decide (-512 ≤ m ∧ m ≤ 511)
    let byte := fun n : Nat => (beatByte (area.getD ((n - 0x100) / 8) 0) ((n - 0x100) % 8)).toNat
    let profile := fun p : Nat => c.profiles.getD p { enter := 0, exit := 0 }
    let size := fun (low high grow : Nat) (w : Option (Nat × Addr)) (code : Nat) =>
      [(w.all fun p => within low high p.1, code), (w.all fun p => aligned (p.1 + grow) p.2, code + 1)]
    let windows := c.windows anchor
    let codes := [0] ++ (if c.log.isSome then [0x0005] else []) ++ (if c.guard0.isSome then [0x0007] else []) ++
      (if c.guard1.isSome then [0x0009] else []) ++ (List.finRange 4).flatMap fun k =>
        if c.sectors[k].isSome then [1, 2, 4].map fun item => 0x100 * (k.val + 1) + item else []
    let role := fun m : Nat => byte (0x128 + m) % 8
    allTests area anchor =
      [(within 1 255 c.commandTimeout, 0x0001), (within 0 3 c.floor, 0x0002)] ++ size 6 14 5 c.log 0x0004 ++
      size 3 39 0 c.guard0 0x0006 ++ size 3 39 0 c.guard1 0x0008 ++
      ((List.finRange 8).map fun i => (within 0 3 c.classes[i], 0x0010 + i.val)) ++
      ((List.range 12).map fun p => (margin (profile p).enter && margin (profile p).exit &&
        decide ((profile p).exit < (profile p).enter) &&
        decide (0 < p → (profile (p - 1)).enter < (profile p).enter), 0x0020 + p)) ++
      ((List.finRange 4).flatMap fun k => match c.sectors[k] with
        | none => []
        | some x =>
          [(aligned 10 x.descBase, 0x01), (aligned 11 x.mapBase, 0x02), (within 10 16 x.reportExp, 0x03),
           (aligned x.reportExp x.reportBase, 0x04), (within 1 4 x.params.latency, 0x05),
           (within 1 15 x.params.fadeCount, 0x06), (within 1 15 x.params.attemptsLimit, 0x07),
           (within 1 255 x.params.backoffBase, 0x08), (within 1 15 x.params.rangingLimit, 0x09),
           (within 1 63 x.params.climbHold, 0x0A), (margin x.params.acceptMargin, 0x0B),
           (within 0 255 x.params.timingTolerance, 0x0C), (within 0 31 x.params.powerTolerance, 0x0D),
           (within 0 11 x.params.restart, 0x0E), (within 0 3 x.tunables.floor, 0x0F),
           (decide (x.tunables.cap ∈ [8, 16, 32, 128]), 0x10), (within 0 8 x.tunables.budget, 0x11),
           (within 0 0x3F (byte (0x22D + 0x100 * k.val)), 0x12), (within 0 1 (byte (0x22E + 0x100 * k.val)), 0x13),
           (within 2 64 x.tunables.threshold, 0x14), (within 0 4095 x.tunables.holdDown, 0x15),
           (within 0 255 x.tunables.settle, 0x16)].map fun test => (test.1, 0x100 * (k.val + 1) + test.2)) ++
      ((windows.zip codes).zipIdx.map fun w => ((windows.take w.2).all fun v =>
        decide (v.base.toNat + 2 ^ v.sizeExp ≤ w.1.1.base.toNat ∨ w.1.1.base.toNat + 2 ^ w.1.1.sizeExp ≤ v.base.toNat),
        0x8000 + w.1.2)) ++
      ((List.range 8).map fun m => (decide (role m = 0 ∨ role m = 3 ∨ ((role m = 1 ∨ role m = 2) ∧
        c.sectors[byte (0x128 + m) / 16 % 4]!.isSome = true)), 0x0030 + m)) ++
      [((List.range 8).any fun m => role m = 0, 0x003F)]) ∧
  (∀ (area : List Beat) (anchor : Addr), (∀ x ∈ allTests area anchor, x.1 = true) → (setupOf area).Valid anchor) ∧
  (∀ area : List Beat,
    let c := setupOf area
    let byte := fun off : Nat => beatByte (area.getD ((off - 0x100) / 8) 0) ((off - 0x100) % 8)
    let nat := fun off : Nat => (byte off).toNat
    let half := fun off : Nat => byte (off + 1) ++ byte off
    let base : Nat → Addr := fun off => byte (off + 4) ++ byte (off + 3) ++ byte (off + 2) ++ byte (off + 1) ++ byte off
    let sized := fun exp off : Nat => if nat exp = 0 then none else some (nat exp, base off)
    c.commandTimeout = nat 0x100 ∧ c.floor = nat 0x101 ∧ c.log = sized 0x102 0x108 ∧ c.guard0 = sized 0x103 0x110 ∧
    c.guard1 = sized 0x104 0x118 ∧ (∀ kind : Fin 8, c.classes[kind] = nat (0x120 + kind.val)) ∧
    c.profiles = ((List.range 12).map fun p =>
      { enter := (half (0x140 + 4 * p)).toInt, exit := (half (0x142 + 4 * p)).toInt }) ∧
    (∀ (m : MasterNo) (k : SectorNo), k.val = nat (0x128 + m.val) / 16 % 4 →
      (nat (0x128 + m.val) % 8 = 0 → c.roles[m] = .controller) ∧ (nat (0x128 + m.val) % 8 = 1 → c.roles[m] = .builder k) ∧
      (nat (0x128 + m.val) % 8 = 2 → c.roles[m] = .receiver k) ∧ (nat (0x128 + m.val) % 8 = 3 → c.roles[m] = .other)) ∧
    ∀ k : SectorNo,
      let o := 0x200 + 0x100 * k.val
      c.sectors[k] = if nat o % 2 = 0 then none else some {
        descBase := base (o + 0x08), mapBase := base (o + 0x10), reportBase := base (o + 0x18), reportExp := nat (o + 0x20)
        params := {
          latency := nat (o + 0x21), fadeCount := nat (o + 0x22), attemptsLimit := nat (o + 0x23)
          backoffBase := nat (o + 0x24), rangingLimit := nat (o + 0x25), climbHold := nat (o + 0x26)
          timingTolerance := nat (o + 0x27), powerTolerance := nat (o + 0x28), restart := nat (o + 0x29)
          acceptMargin := (half (o + 0x30)).toInt }
        tunables := {
          floor := nat (o + 0x2A), cap := nat (o + 0x2B), budget := nat (o + 0x2C), mask := BitVec.ofNat 6 (nat (o + 0x2D))
          reclaim := decide (nat (o + 0x2E) = 1), threshold := nat (o + 0x2F), holdDown := (half (o + 0x32)).toNat
          settle := nat (o + 0x34) } }) ∧
  ∀ (c : Setup) (anchor : Addr),
    let window := fun (kind : WindowKind) (base : Addr) (e : Nat) (sector : Option SectorNo) =>
      ({ kind := kind, base := base, sizeExp := e, sector := sector, mark := .none } : Window)
    let plain := fun (kind : WindowKind) (grow : Nat) (w : Option (Nat × Addr)) =>
      (w.map fun p => window kind p.2 (p.1 + grow) none).toList
    c.windows anchor = window .anchor anchor 12 none :: plain .log 5 c.log ++ plain .guard 0 c.guard0 ++
      plain .guard 0 c.guard1 ++ (List.finRange 4).flatMap fun k => match c.sectors[k] with
        | none => []
        | some x =>
          [window .descriptor x.descBase 10 (some k), window .map x.mapBase 11 (some k),
            window .report x.reportBase x.reportExp (some k)]

/-- The response to a load's read of descriptor r of sector k, r below 127: the staged entry is built from it, and the
next descriptor is read; an ERROR ends the load with 8000h + 128k + r. No current entry changes (R16, R17, R166). The built
entry takes each lane in range, a refused lane leaving the value of the current entry and kept for its record; its state goes by
admin, its profile is its ceiling, and every other field is that of Table 1.2. Then the writes accepted since the read was
issued change it (model's choice, log 19). Every other staged entry is kept. -/
def Obligations.LoadDescriptorReadBuildsStagedEntry : Prop :=
  ∀ (s : State) (reply : Reply) (b : Beat) (k : SectorNo) (r r' : RemoteNo) (rest : List PartRequest) (cmd : Command)
    (setup : Setup) (staged : Vector (Vector StagedEntry 128) 4) (late : List LateWrite),
    s.ports.outstanding = .read (.loadDescriptor k r) false :: rest → reply.data = [b] → r'.val = r.val + 1 →
    s.channel.inFlight = some { cmd := cmd, phase := .readingDescriptors setup staged k r late } →
    s.resultWaits = false →
    let e := s.entry k r
    let c := (beatByte b 1).toNat
    let cls := (beatByte b 2).toNat
    let group := (beatByte b 3).toNat
    let bad := fun n limit : Nat => if (beatByte b n).toNat ≤ limit then none else some (beatByte b n)
    let built : StagedEntry := {
      entry := {
        admin := b.getLsbD 0, ceiling := if c ≤ 11 then c else e.ceiling, cls := if cls ≤ 3 then cls else e.cls
        group := if group ≤ 15 then (if group = 0 then none else some group) else e.group, deferred := none
        state := if b.getLsbD 0 then .serving else .idle, profile := if c ≤ 11 then c else e.ceiling, misses := 0
        attempts := 0, backoff := 0, exchanges := 0, garbles := 0, solo := false, good := 0, order := 0, fadedAt := none
        lastMargin := none }
      badCeiling := bad 1 11, badClass := bad 2 3, badGroup := bad 3 15 }
    ∃ t, exec (.loadDescriptorReadResponse reply) s = .next t ∧ t.ports = { s.ports with outstanding := rest } ∧
      t.sectors = s.sectors ∧ DeviceKept s t ∧
      (reply.error = false → t.channel.read = some (.loadDescriptor k r') ∧ t.writer = s.writer ∧
        ∃ staged', t.channel.inFlight = some { cmd := cmd, phase := .readingDescriptors setup staged' k r' [] } ∧
          (staged'[k])[r] = late.foldl (fun x w => changeStaged w.lanes w.beat x) built ∧
          ∀ (j : SectorNo) (q : RemoteNo), (j, q) ≠ (k, r) → (staged'[j])[q] = (staged[j])[q]) ∧
      (reply.error = true → ∃ res, t.writer.pendingResult = some res ∧ res.tag = cmd.tag ∧
        res.result = .memoryError ∧ res.detail = BitVec.ofNat 16 (0x8000 + 128 * k.val + r.val))

/-- The response to a load's last descriptor read applies the load in one step: window table, role map, store, notice
classes and floor, log geometry with both indices 0, and each sector's entries, tunables and parameters, with every
history discarded; the result is DONE (R16, R135, R168). `j`, `q` is any other remote than the one read last. -/
def Obligations.LastDescriptorAppliesTheLoad : Prop :=
  ∀ (s : State) (b : Beat) (k : SectorNo) (r : RemoteNo) (rest : List PartRequest) (cmd : Command) (setup : Setup)
    (staged : Vector (Vector StagedEntry 128) 4) (late : List LateWrite),
    s.ports.outstanding = .read (.loadDescriptor k r) false :: rest → nextDescriptor setup k r = none →
    s.channel.inFlight = some { cmd := cmd, phase := .readingDescriptors setup staged k r late } →
    s.resultWaits = false →
    ∃ t, exec (.loadDescriptorReadResponse { error := false, data := [b] }) s = .next t ∧
      t.time = s.time ∧ t.windows = setup.windows s.channel.anchorBase ∧ t.roles = setup.roles ∧
      t.store.commandTimeout = setup.commandTimeout ∧ t.store.profiles = setup.profiles ∧
      t.notices.pending = s.notices.pending ∧ t.notices.classes = setup.classes ∧ t.notices.floor = setup.floor ∧
      t.writer.log = setup.log.map (fun p => { base := p.2, k := p.1 }) ∧ t.writer.head = 0 ∧ t.writer.tail = 0 ∧
      t.channel.inFlight = some { cmd := cmd, phase := .decided } ∧
      (∃ res, t.writer.pendingResult = some res ∧ res.tag = cmd.tag ∧ res.result = .done) ∧
      ∀ j, t.configured j = setup.sectors[j].isSome ∧
        (∀ x, setup.sectors[j] = some x → t.params j = x.params ∧ (t.sector j).tunables = x.tunables) ∧
        (t.sector j).mode = (s.sector j).mode ∧ (t.sector j).history = [] ∧ (t.sector j).resyncPending = true ∧
        (t.sector j).pack = none ∧ (t.sector j).staged = Staged.none ∧
        ∀ q, (j, q) ≠ (k, r) → t.entry j q = ((staged[j])[q]).entry

/-- The response to a staging read: an ERROR ends the RELOCATE with MEMORY_ERROR, detail 0; an entry that fails a check
ends it INVALID with the check's number; one that passes makes the relocation pending with its timeout started, and
a MAP relocation's new window enters the table (R135, R153, R163). The checks, in order: a REPORT size exponent of 10 to
16, the base aligned to the size, no overlap with any window of the table, and for a MAP a free place in it. -/
def Obligations.StagingReadResponseMakesTheChecks : Prop :=
  (∀ (s : State) (reply : Reply) (b : Beat) (k : SectorNo) (kind : RelocKind) (rest : List PartRequest) (cmd : Command),
    s.ports.outstanding = .read (.staging k kind) false :: rest → reply.data = [b] →
    s.channel.inFlight = some { cmd := cmd, phase := .readingStaging } → s.resultWaits = false →
    ∃ t, exec (.stagingReadResponse reply) s = .next t ∧ t.ports = { s.ports with outstanding := rest } ∧
      t.time = s.time ∧ OtherSectors k s t ∧
      (reply.error = true → t.sectors = s.sectors ∧ t.windows = s.windows ∧
        ∃ r, t.writer.pendingResult = some r ∧ r.tag = cmd.tag ∧ r.result = .memoryError ∧ r.detail = 0) ∧
      (∀ d, reply.error = false → relocationFault s kind k b = some d → t.sectors = s.sectors ∧
        t.windows = s.windows ∧
        ∃ r, t.writer.pendingResult = some r ∧ r.tag = cmd.tag ∧ r.result = .invalid ∧
          r.detail = BitVec.ofNat 16 d) ∧
      (reply.error = false → relocationFault s kind k b = none →
        t.sector k = { s.sector k with
          pendingOp := some (.relocation kind (stagingBase b) (relocSizeExp kind b) false) } ∧
        t.channel.inFlight = some {
          cmd := cmd
          phase := .relocationPending (s.time + BitVec.ofNat 32 s.store.commandTimeout) false } ∧
        t.writer = s.writer ∧
        (kind ≠ .map → t.windows = s.windows) ∧
        (kind = .map → t.windows.length = s.windows.length + 1 ∧
          t.windows.getLast? = some
            { kind := .map, base := stagingBase b, sizeExp := 11, sector := some k, mark := .new } ∧
          ∀ w ∈ s.windows, ¬ (w.kind = .map ∧ w.sector = some k) → w ∈ t.windows))) ∧
  ∀ (s : State) (kind : RelocKind) (k : SectorNo) (b : Beat) (base : Addr) (exp : Nat), base = b.extractLsb' 0 40 →
    exp = (if kind = .map then 11 else if kind = .report then (b.extractLsb' 40 5).toNat else 10) →
    relocationFault s kind k b =
      if kind = .report ∧ ¬ (10 ≤ exp ∧ exp ≤ 16) then some 2
      else if base.toNat % 2 ^ exp ≠ 0 then some 3
      else if ∃ w ∈ s.windows, w.base.toNat < base.toNat + 2 ^ exp ∧ base.toNat < w.base.toNat + 2 ^ w.sizeExp then some 4
      else if kind = .map ∧ 16 ≤ s.windows.length then some 5
      else none

/-- The response to a relocation's read of descriptor r: its differing lanes are taken as a descriptor change, or the entry is
left on ERROR; then the writes accepted since the read was issued are taken (model's choice, log 19); below 127 the next
descriptor is read. The last ends the read phase: DONE with the count of remotes that differed, or MEMORY_ERROR with the lowest
failing remote; where a CANCEL waits, CANCELLED with FFFFh or that remote, and then DONE for the CANCEL (R18, R155, R156, R162).
A lane differs where its value is not the live entry's, a refused value included; a remote is counted where at least one lane
differs and is not refused, whether or not suspension defers its admin (R18, R155). -/
def Obligations.RelocationReadTakesDifferences : Prop :=
  (∀ (s : State) (reply : Reply) (b : Beat) (k : SectorNo) (r r' : RemoteNo) (rest : List PartRequest) (cmd : Command)
    (changed : Nat) (failed : Option RemoteNo) (late : List LateWrite) (cancel : Option Command),
    s.ports.outstanding = .read (.relocDescriptor k r) false :: rest → reply.data = [b] → r'.val = r.val + 1 →
    s.channel.inFlight = some { cmd := cmd, phase := .relocationReading r changed failed late cancel } →
    let popped := { s with ports := { s.ports with outstanding := rest } }
    let u := late.foldl (fun x w => changeDescriptor k r w.lanes w.beat x)
      (if reply.error then popped else changeDescriptor k r (differingLanes (s.entry k r) b) b popped)
    ∃ t, exec (.relocationDescriptorReadResponse reply) s = .next t ∧
      t.ports = { s.ports with outstanding := rest } ∧ DeviceKept s t ∧ OtherSectors k s t ∧
      t.channel.read = some (.relocDescriptor k r') ∧ t.sectors = u.sectors ∧ t.writer = u.writer ∧
      (reply.error = false →
        t.channel.inFlight = some {
          cmd := cmd
          phase := .relocationReading r'
            (if countsAsChanged (s.entry k r) b then changed + 1 else changed) failed [] cancel }) ∧
      (reply.error = true → (late = [] → t.sectors = s.sectors ∧ t.writer = s.writer) ∧
        t.channel.inFlight = some {
          cmd := cmd
          phase := .relocationReading r' changed (some (failed.getD r)) [] cancel })) ∧
  (∀ (s : State) (reply : Reply) (b : Beat) (k : SectorNo) (rest : List PartRequest) (cmd : Command) (changed : Nat)
    (failed : Option RemoteNo) (late : List LateWrite) (cancel : Option Command),
    s.ports.outstanding = .read (.relocDescriptor k 127) false :: rest → reply.data = [b] →
    s.channel.inFlight = some { cmd := cmd, phase := .relocationReading 127 changed failed late cancel } →
    s.resultWaits = false →
    let popped := { s with ports := { s.ports with outstanding := rest } }
    let u := late.foldl (fun x w => changeDescriptor k 127 w.lanes w.beat x)
      (if reply.error then popped else changeDescriptor k 127 (differingLanes (s.entry k 127) b) b popped)
    let lowest := if reply.error then some (failed.getD 127) else failed
    let count := if reply.error = false ∧ countsAsChanged (s.entry k 127) b = true then changed + 1 else changed
    ∃ t, exec (.relocationDescriptorReadResponse reply) s = .next t ∧
      t.ports = { s.ports with outstanding := rest } ∧ DeviceKept s t ∧ OtherSectors k s t ∧
      (t.sector k).pendingOp = none ∧ (∀ q, t.entry k q = u.entry k q) ∧
      (reply.error = true → late = [] → ∀ q, t.entry k q = s.entry k q) ∧
      ∃ r, t.writer.pendingResult = some r ∧ r.tag = cmd.tag ∧
        (cancel = none → t.channel.held = [] ∧ r.result = (if lowest.isSome then .memoryError else .done) ∧
          r.detail = BitVec.ofNat 16 ((lowest.map Fin.val).getD count)) ∧
        ∀ c, cancel = some c → r.result = .cancelled ∧
          r.detail = BitVec.ofNat 16 ((lowest.map Fin.val).getD 0xFFFF) ∧
          ∃ h, t.channel.held = [h] ∧ h.tag = c.tag ∧ h.result = .done ∧ h.detail = 0) ∧
  ∀ (e : Entry) (b : Beat),
    let d := differingLanes e b
    let c := (beatByte b 1).toNat
    let cls := (beatByte b 2).toNat
    let group := (beatByte b 3).toNat
    let admins := b.getLsbD 0 ≠ e.admin
    let groups := ¬ (group ≤ 15 ∧ e.group = if group = 0 then none else some group)
    (d.getLsbD 0 = true ↔ admins) ∧ (d.getLsbD 1 = true ↔ c ≠ e.ceiling) ∧ (d.getLsbD 2 = true ↔ cls ≠ e.cls) ∧
    (d.getLsbD 3 = true ↔ groups) ∧ (∀ n, 4 ≤ n → d.getLsbD n = false) ∧
    (countsAsChanged e b = true ↔
      admins ∨ (c ≠ e.ceiling ∧ c ≤ 11) ∨ (cls ≠ e.cls ∧ cls ≤ 3) ∨ (groups ∧ group ≤ 15))

/-- RESULT_HANDOFF: the oldest held result enters the free pending result word with its COMMAND record, which carries the
result code, the command code, the tag and the detail (R161, R175). -/
def Obligations.ResultHandoffFillsThePendingWord : Prop :=
  ∀ (s : State) (r : Result) (rest : List Result), s.writer.pendingResult = none → s.channel.held = r :: rest →
    ∃ t, exec .resultHandoff s = .next t ∧ t.writer.pendingResult = some r ∧
      t.channel = { s.channel with held := rest } ∧ t.sectors = s.sectors ∧ t.ports = s.ports ∧ DeviceKept s t ∧
      t.notices = s.notices ∧
      (s.writer.queue.length < 64 → ∃ rec, t.writer.queue = s.writer.queue ++ [rec] ∧ rec.time = s.time ∧
        rec.sector = r.sector ∧ rec.body = .command r.result r.code r.remote r.tag r.detail)

/-! ### Expiries and charges (Sections 2 and 6) -/

/-- BACKOFF_EXPIRY of a FADED remote whose backoff stands at 0, in an ACTIVE sector that is not suspended: QUEUED at the
tail; attempts, garbles and solo kept (R26, R53, R54; log 16 for the row outside an epoch). -/
def Obligations.BackoffExpiryQueuesAtTail : Prop :=
  ∀ (s : State) (k : SectorNo) (r : RemoteNo), (s.sector k).mode = .active → (s.sector k).suspended = false →
    (s.entry k r).state = .faded → (s.entry k r).backoff = 0 →
    ∃ t x, x = readyTail (s.sector k) ∧ exec (.backoffExpiry k r) s = .next t ∧
      t.entry k r = { s.entry k r with
        state := .queued, profile := min (s.params k).restart (s.entry k r).ceiling, misses := 0, good := 0,
        exchanges := 0, order := x.nextTail } ∧
      (t.sector k).nextTail = x.nextTail + 1 ∧ OtherEntries k r x s t ∧
      SectorKept (s.sector k) (t.sector k) ∧ DeviceKept s t ∧ t.ports = s.ports ∧ t.channel = s.channel

/-- HOLD_DOWN_EXPIRY of a FADING episode whose count stands at 0: RECOVERING with recovering cause HOLD_DOWN, one EPISODE
record, no notice. SETTLE_EXPIRY of a SETTLING episode whose count stands at 0: CLEAR, the closing frame set, one
EPISODE record, notice EPISODE raised (R118, R120, R122; log 16 for the rows outside an epoch).

The inputs of an episode (R115): a CLEAR one opens where n has reached the threshold (R116). A change of n to 0 closes a
FADING one and moves a RECOVERING one to SETTLING, any other raises the peak, and one in SETTLING moves it back to
RECOVERING with one refade more (R117, R119, R120). An exclusion and a fade are counted while it is open (R121). A scout
heard and a SHADOW heard move a FADING one to RECOVERING. Inputs of one step are taken in the order exclusion, fade, heard,
change of n. -/
def Obligations.EpisodeCountsExpire : Prop :=
  (∀ (s : State) (k : SectorNo), (s.sector k).mode ≠ .pass → (s.sector k).suspended = false →
    ((s.sector k).episode.state = .fading → (s.sector k).episode.holdDown = 0 →
      ∃ t, exec (.holdDownExpiry k) s = .next t ∧
        t.sector k = { s.sector k with episode := { (s.sector k).episode with
          state := .recovering, record := { (s.sector k).episode.record with recovering := some .holdDown } } } ∧
        OtherSectors k s t ∧ DeviceKept s t ∧ t.notices = s.notices ∧ t.writer.counterDirty[k] = true ∧
        (s.writer.queue.length < 64 → ∃ rec, t.writer.queue = s.writer.queue ++ [rec] ∧
          rec.body = .episode .holdDown .fading .recovering (s.sector k).n (t.sector k).episode.record)) ∧
    ((s.sector k).episode.state = .settling → (s.sector k).episode.settle = 0 →
      ∃ t, exec (.settleExpiry k) s = .next t ∧ (t.sector k).episode.state = .clear ∧
        (t.sector k).episode.record = { (s.sector k).episode.record with closing := some (s.sector k).frame } ∧
        t.sector k = { s.sector k with episode := (t.sector k).episode } ∧
        OtherSectors k s t ∧ DeviceKept s t ∧ t.notices.pending = s.notices.pending ||| 1 ∧
        (s.writer.queue.length < 64 → ∃ rec, t.writer.queue = s.writer.queue ++ [rec] ∧
          rec.body = .episode .settled .settling .clear (s.sector k).n (t.sector k).episode.record))) ∧
  (∀ (k : SectorNo) (s : State),
    let x := s.sector k
    (x.episode.state = .clear → x.tunables.threshold ≤ x.n →
      EpisodeMoved k .threshold {
        state := .fading, holdDown := x.tunables.holdDown, settle := 0
        record := {
          number := x.episode.record.number + 1, opening := x.frame, peak := x.n, faded := min x.n 65535, excluded := 0
          recovering := none, refades := 0, closing := none } } s (testThreshold k s)) ∧
    (¬ (x.episode.state = .clear ∧ x.tunables.threshold ≤ x.n) → testThreshold k s = s)) ∧
  (∀ (k : SectorNo) (before : Nat) (s : State),
    let x := s.sector k
    let e := x.episode
    let t := handInputs k Inputs.none before s
    let peaked := fun rec : EpisodeRecord => { rec with peak := max rec.peak x.n }
    (x.n = before → t = s) ∧
    (x.n ≠ before → e.state = .clear → t = testThreshold k s) ∧
    (x.n ≠ before → e.state = .fading → x.n = 0 →
      EpisodeMoved k .emptied
        { state := .clear, holdDown := 0, settle := 0, record := { e.record with closing := some x.frame } } s t) ∧
    (x.n ≠ before → e.state = .recovering → x.n = 0 →
      EpisodeMoved k .drained { e with state := .settling, settle := x.tunables.settle } s t) ∧
    (x.n ≠ before → (e.state = .fading ∨ e.state = .recovering) → x.n ≠ 0 →
      t = s.setSector k { x with episode := { e with record := peaked e.record } }) ∧
    (x.n ≠ before → e.state = .settling → x.n ≠ 0 →
      EpisodeMoved k .refade { e with
        state := .recovering, settle := 0
        record := peaked { e.record with refades := min (e.record.refades + 1) 65535 } } s t) ∧
    (e.state = .settling → x.n = 0 → t = s)) ∧
  (∀ (k : SectorNo) (s : State),
    let x := s.sector k
    let e := x.episode
    let one := fun inp : Inputs => handInputs k inp x.n s
    let counted := fun rec : EpisodeRecord => s.setSector k { x with episode := { e with record := rec } }
    let recovering := fun (why : RecoveringCause) (cause : EpisodeCause) (t : State) =>
      EpisodeMoved k cause { e with
        state := .recovering, holdDown := 0, record := { e.record with recovering := some why } } s t
    (e.state ≠ .clear → one { exclusion := true, fade := false, shadowHeard := false } =
      counted { e.record with excluded := min (e.record.excluded + 1) 65535 }) ∧
    (e.state ≠ .clear → one { exclusion := false, fade := true, shadowHeard := false } =
      counted { e.record with faded := min (e.record.faded + 1) 65535 }) ∧
    (e.state = .clear → one { exclusion := true, fade := false, shadowHeard := false } = s ∧
      one { exclusion := false, fade := true, shadowHeard := false } = s) ∧
    (e.state = .fading → recovering .scoutHeard .scoutHeard (scoutHeardInput k s) ∧
      recovering .shadowHeard .shadowHeard (one { exclusion := false, fade := false, shadowHeard := true })) ∧
    (e.state ≠ .fading → scoutHeardInput k s = s ∧
      one { exclusion := false, fade := false, shadowHeard := true } = s)) ∧
  ∀ (k : SectorNo) (a b c : Bool) (before : Nat) (s : State),
    let one := fun (on : Bool) (inp : Inputs) (s : State) => if on then handInputs k inp (s.sector k).n s else s
    handInputs k { exclusion := a, fade := b, shadowHeard := c } before s =
      handInputs k Inputs.none before
        (one c { exclusion := false, fade := false, shadowHeard := true }
          (one b { exclusion := false, fade := true, shadowHeard := false }
            (one a { exclusion := true, fade := false, shadowHeard := false } s)))

/-- A charge below the limit: FADED, attempts one more, a doubled backoff, garbles and solo cleared; at the limit
EXCLUDED at the ceiling with attempts the limit, and notice EXCLUDED (R24).

The outcomes of the four kinds of expectation. A fade watch: HEARD ends the misses of a SERVING remote, the K-th miss fades
it, and HEARD returns a FADED one to service in SHADOW alone (R22, R46). A probe: accepted, it moves the remote to RANGING
and its FADED companions to the queue; weak or CRC_FAIL, it fades it uncharged; SILENT, a timeout or a solo GARBLED charge
it; a shared GARBLED puts it back at the head; a scout that is not accepted goes back to the tail (R23, R27, R29 to R33).
Ranging: within tolerance it is done, into CLIMBING or SERVING; a failed exchange is counted, and two silent ones in a row or
the limit charge the remote (R34 to R36). The climb: good reports raise the profile, low ones lower it, misses fade the
remote (R37 to R39). Every change of state voids the remote's open expectations and takes it off the sector's lists (R19, R20,
R34, R54, R69). The last clause gives the marks of every step (R6, R7). That a step's STATE record stands before the other
records of the step is the model's choice (log 32). -/
def Obligations.ChargeCountsAnAttempt : Prop :=
  (∀ (k : SectorNo) (r : RemoteNo) (cause : StateCause) (margin : Option Int) (s : State) (a : Nat),
    a = (s.entry k r).attempts + 1 → (s.entry k r).state = .probing ∨ (s.entry k r).state = .ranging →
    a ≤ (s.params k).attemptsLimit →
    (a < (s.params k).attemptsLimit → (charge k r cause margin s).entry k r = { s.entry k r with
        state := .faded, profile := min (s.params k).restart (s.entry k r).ceiling, misses := 0, good := 0,
        exchanges := 0, attempts := a, backoff := (s.params k).backoffBase * 2 ^ min (a - 1) 5, garbles := 0,
        solo := false }) ∧
    (a = (s.params k).attemptsLimit → (charge k r cause margin s).entry k r = { s.entry k r with
        state := .excluded, profile := (s.entry k r).ceiling, misses := 0, good := 0, exchanges := 0, backoff := 0,
        attempts := (s.params k).attemptsLimit, garbles := 0, solo := false } ∧
      (charge k r cause margin s).notices.pending.getLsbD 1 = true) ∧
    OtherEntries k r (s.sector k) s (charge k r cause margin s) ∧ DeviceKept s (charge k r cause margin s)) ∧
  (∀ (k : SectorNo) (r : RemoteNo) (o : BurstOutcome) (s : State),
    let e := s.entry k r
    let p := s.params k
    let t := takeOutcome k r .fadeWatch o s
    (e.state = .serving → o.isHeard = true →
      t = s.setSector k ((s.sector k).setEntry r { e with misses := 0 })) ∧
    (e.state = .serving → o.isHeard = false → e.misses + 1 < p.fadeCount →
      t = s.setSector k ((s.sector k).setEntry r { e with misses := e.misses + 1 })) ∧
    (e.state = .serving → o.isHeard = false → p.fadeCount ≤ e.misses + 1 →
      Moved k r .fade (s.sector k) { e.fadedAs p.restart p.backoffBase with fadedAt := some (s.sector k).frame } s t) ∧
    (e.state = .faded → (s.sector k).mode = .shadow → o.isHeard = true →
      Moved k r .shadowHeard (s.sector k) (e.serviceAs .serving) s t) ∧
    (e.state = .faded → ((s.sector k).mode ≠ .shadow ∨ o.isHeard = false) → t = s)) ∧
  (∀ (k : SectorNo) (r : RemoteNo) (o : BurstOutcome) (s : State) (solo : Bool), (s.entry k r).state = .probing →
    let e := s.entry k r
    let p := s.params k
    let t := fun scout => takeOutcome k r (.probe solo scout) o s
    (∀ scout m timing power, o = .heard m timing power → p.acceptMargin ≤ m →
      (t scout).entry k r = e.rangingAs ∧ StateLogged k r .probeHeard s (t scout) ∧
      ((t scout).sector k).rangingOrder = (s.sector k).rangingOrder ++ [{ remote := r, silent := false }] ∧
      ((t scout).sector k).waitList = (s.sector k).waitList ++ [r] ∧
      VoidedWhere (fun w => w.condition = .open ∧ ((w.remote = r ∧ w.kind ≠ .range) ∨
        (w.remote ≠ r ∧ (s.entry k w.remote).state = .faded ∧ e.group ≠ none ∧ (s.entry k w.remote).group = e.group)))
        (s.sector k).history ((t scout).sector k).history ∧
      ∀ q, q ≠ r →
        let companion := (s.entry k q).state = .faded ∧ e.group ≠ none ∧ (s.entry k q).group = e.group
        (companion → ∃ stamp, (t scout).entry k q = (s.entry k q).queuedAs p.restart stamp) ∧
        (¬ companion → ∃ stamp, (t scout).entry k q = { s.entry k q with order := stamp } ∧
          ((s.entry k q).state ≠ .queued → stamp = (s.entry k q).order))) ∧
    (∀ cause, (∃ m timing power, o = .heard m timing power ∧ m < p.acceptMargin ∧ cause = .probeWeak) ∨
        (∃ m, o = .crcFail m ∧ cause = .probeCrc) →
      Moved k r cause (s.sector k) (e.fadedAs p.restart p.backoffBase) s (t false)) ∧
    (∀ cause, (o = .silent ∧ cause = .probeSilent) ∨ (o = .timeout ∧ cause = .probeTimeout) ∨
        (o = .garbled ∧ solo = true ∧ cause = .probeGarbled) →
      Moved k r cause (s.sector k) (e.chargedAs p) s (t false)) ∧
    (o = .garbled → solo = false →
      let x := readyHead (s.sector k)
      Moved k r .probeGarbled x
        (if e.garbles < 2 then { e.queuedAs p.restart x.nextHead with garbles := e.garbles + 1 }
         else { e.queuedAs p.restart x.nextHead with solo := true }) s (t false)) ∧
    (∀ cause, (∃ m timing power, o = .heard m timing power ∧ m < p.acceptMargin ∧ cause = .probeWeak) ∨
        (∃ m, o = .crcFail m ∧ cause = .probeCrc) ∨ (o = .silent ∧ cause = .probeSilent) ∨
        (o = .timeout ∧ cause = .probeTimeout) ∨ (o = .garbled ∧ cause = .probeGarbled) →
      let x := readyTail (s.sector k)
      Moved k r cause x (e.queuedAs p.restart x.nextTail) s (t true))) ∧
  (∀ (k : SectorNo) (r : RemoteNo) (o : BurstOutcome) (s : State) (done silent : Bool), (s.entry k r).state = .ranging →
    let e := s.entry k r
    let p := s.params k
    let t := takeOutcome k r .range o s
    let again := silent = true ∧ ({ remote := r, silent := true } : Ranger) ∈ (s.sector k).rangingOrder
    (done = true ↔ ∃ m timing power, o = .heard m timing power ∧ timing.natAbs ≤ p.timingTolerance ∧
      power.natAbs ≤ p.powerTolerance) →
    (silent = true ↔ o = .silent ∨ o = .timeout) →
    (done = true → min p.restart e.ceiling < e.ceiling →
      Moved k r .rangeDone (s.sector k) { e with
        state := .climbing, profile := min p.restart e.ceiling, misses := 0, good := 0, exchanges := 0, backoff := 0,
        garbles := 0, solo := false } s t) ∧
    (done = true → e.ceiling ≤ min p.restart e.ceiling →
      Moved k r .rangeDone (s.sector k) (e.serviceAs .serving) s t) ∧
    (done = false → ¬ again → e.exchanges + 1 < p.rangingLimit →
      t = s.setSector k { (s.sector k).setEntry r { e with exchanges := e.exchanges + 1 } with
        rangingOrder := (s.sector k).rangingOrder.map fun m => if m.remote = r then { m with silent := silent } else m }) ∧
    (∀ cause, done = false → (again ∧ cause = .rangeSilent) ∨
        (¬ again ∧ p.rangingLimit ≤ e.exchanges + 1 ∧ cause = .rangeLimit) →
      Moved k r cause (s.sector k) (e.chargedAs p) s t)) ∧
  (∀ (k : SectorNo) (r : RemoteNo) (o : BurstOutcome) (s : State) (here up : Margins), (s.entry k r).state = .climbing →
    s.store.profiles[(s.entry k r).profile]? = some here → s.store.profiles[(s.entry k r).profile + 1]? = some up →
    let e := s.entry k r
    let p := s.params k
    let t := takeOutcome k r .climbWatch o s
    (∀ m timing power, o = .heard m timing power →
      (up.enter ≤ m → e.good + 1 < p.climbHold →
        t = s.setSector k ((s.sector k).setEntry r { e with good := e.good + 1, misses := 0 })) ∧
      (up.enter ≤ m → p.climbHold ≤ e.good + 1 → e.profile + 1 ≠ e.ceiling →
        Moved k r .climbUp (s.sector k) { e with profile := e.profile + 1, good := 0, misses := 0 } s t) ∧
      (up.enter ≤ m → p.climbHold ≤ e.good + 1 → e.profile + 1 = e.ceiling →
        Moved k r .climbUp (s.sector k) (e.serviceAs .serving) s t) ∧
      (m < up.enter → m < here.exit → e.profile ≠ 0 →
        Moved k r .climbDown (s.sector k) { e with profile := e.profile - 1, good := 0, misses := 0 } s t) ∧
      (m < up.enter → here.exit ≤ m →
        t = s.setSector k ((s.sector k).setEntry r { e with misses := 0, good := 0 }))) ∧
    ((o.isHeard = false ∨ ∃ m timing power, o = .heard m timing power ∧ e.profile = 0 ∧ m < up.enter ∧ m < here.exit) →
      (e.misses + 1 < p.fadeCount →
        t = s.setSector k ((s.sector k).setEntry r { e with misses := e.misses + 1, good := 0 })) ∧
      (p.fadeCount ≤ e.misses + 1 →
        Moved k r .fade (s.sector k) (e.fadedAs p.restart p.backoffBase) s t))) ∧
  ∀ (k : SectorNo) (r : RemoteNo) (info : StepInfo) (e : Entry) (s : State),
    let t := remoteStep k r info e s
    ((t.entry k r).shown ≠ (s.entry k r).shown → t.writer.mirrorDirty[mirrorGroup k r] = true) ∧
    ((t.entry k r).shown = (s.entry k r).shown → t.writer.mirrorDirty = s.writer.mirrorDirty) ∧
    (∀ g : Fin 128, g ≠ mirrorGroup k r → t.writer.mirrorDirty[g] = s.writer.mirrorDirty[g]) ∧
    ((t.entry k r).state ≠ (s.entry k r).state → t.writer.counterDirty[k] = true)

/-! ### Queue and roster (Section 3) -/

/-- The readmission queue: exactly the QUEUED remotes, each once, by class highest first and, within a class, by entry
order lowest first (R51, R52). -/
def Obligations.QueueStandsByClassAndStamp : Prop :=
  ∀ x : Sector, x.queue.Nodup ∧ (∀ r, r ∈ x.queue ↔ (x.entry r).state = .queued) ∧
    x.queue.Pairwise fun a b => (x.entry b).cls < (x.entry a).cls ∨
      ((x.entry a).cls = (x.entry b).cls ∧ (x.entry a).order ≤ (x.entry b).order)

/-- The roster drawn at item 5 keeps the slot bound and the cap bound, takes eligible QUEUED remotes without duplicates,
and is at most one scout while the episode is FADING (R57, R63 to R66). It is greedy: the members are the first of the
eligible remotes in queue order, and the next one, where there is one, would break a bound; while the episode is FADING a
scout is drawn where there is an eligible remote, a budget and room. In any other sector it is empty (R62, R67). A stamp
counter at its end is restamped: the QUEUED remotes take stamps from 16384 on in the order of their present ones, and
the counters stand around them; no other entry changes (R54). -/
def Obligations.RosterKeepsItsBounds : Prop :=
  (∀ x : Sector, x.mode = .active → x.suspended = false →
    let ms := (drawRoster x).roster.members
    (ms.map Member.remote).Nodup ∧
    (∀ m ∈ ms, (x.entry m.remote).state = .queued ∧ x.tunables.floor ≤ (x.entry m.remote).cls ∧ m.placed = false) ∧
    ms.length ≤ x.tunables.cap - x.engaged ∧
    slotsNeeded (ms.countP fun m => m.solo) (ms.countP fun m => !m.solo) (minislotsOf x.tunables.mask).length ≤
      x.tunables.budget ∧
    (x.episode.state = .fading → ms.length ≤ 1 ∧ ∀ m ∈ ms, m.scout = true ∧ m.solo = true) ∧
    (x.episode.state ≠ .fading → ∀ m ∈ ms, m.scout = false)) ∧
  (∀ x : Sector, x.mode = .active → x.suspended = false →
    let roster := (drawRoster x).roster
    let eligible := x.queue.filter fun r => x.tunables.floor ≤ (x.entry r).cls
    let room := x.tunables.cap - x.engaged
    let solo := fun r : RemoteNo => (x.entry r).solo || x.tunables.mask == 0
    let soloes := roster.members.countP fun m => m.solo
    let shared := roster.members.countP fun m => !m.solo
    roster.mask = x.tunables.mask ∧ roster.budget = x.tunables.budget ∧ roster.used = 0 ∧
    (x.episode.state ≠ .fading →
      roster.members.map Member.remote <+: eligible ∧ (∀ m ∈ roster.members, m.solo = solo m.remote) ∧
      ∀ r, eligible[roster.members.length]? = some r →
        x.tunables.budget < slotsNeeded (if solo r then soloes + 1 else soloes) (if solo r then shared else shared + 1)
          (minislotsOf x.tunables.mask).length ∨
        room < roster.members.length + 1) ∧
    (∀ r, x.episode.state = .fading → eligible.head? = some r → 1 ≤ x.tunables.budget → 1 ≤ room →
      roster.members.map Member.remote = [r])) ∧
  (∀ x : Sector, (x.mode ≠ .active ∨ x.suspended = true) → (drawRoster x).roster.members = []) ∧
  ∀ x : Sector,
    (x.nextTail < 65536 → readyTail x = x) ∧ (0 < x.nextHead → readyHead x = x) ∧
    ∀ y, (65536 ≤ x.nextTail ∧ y = readyTail x) ∨ (x.nextHead = 0 ∧ y = readyHead x) →
      y.nextHead = 16383 ∧ y.nextTail = 16384 + x.queued.length ∧
      { y with entries := x.entries, nextHead := x.nextHead, nextTail := x.nextTail } = x ∧
      (∀ r, (x.entry r).state ≠ .queued → y.entry r = x.entry r) ∧
      (∀ r, (x.entry r).state = .queued → ∃ stamp, y.entry r = { x.entry r with order := stamp } ∧
        16384 ≤ stamp ∧ stamp < 16384 + x.queued.length) ∧
      ∀ a b, (x.entry a).state = .queued → (x.entry b).state = .queued → (x.entry a).order < (x.entry b).order →
        (y.entry a).order < (y.entry b).order

/-- The hold-off state is off after power-on reset and follows the record queue's fill level at each change of it: on at
48 or more, off at 32 or less, otherwise as it was (R102). -/
def Obligations.HoldOffFollowsTheFillLevel : Prop :=
  State.reset.holdOff = false ∧ (∀ straps, (State.resetWith straps).holdOff = false) ∧
    ∀ (q : List LogRecord) (s : State),
      (s.holdOff = false → ((setQueue q s).holdOff = true ↔ 48 ≤ q.length)) ∧
      (s.holdOff = true → ((setQueue q s).holdOff = false ↔ q.length ≤ 32))

/-! ### Invariants -/

/-- The bounds of the record queue, its hold-off, the outbound buffer and the window table, the ANCHOR window's place,
and the flag and pending operation of every sector, hold after power-on reset. -/
def Obligations.InvariantHoldsAtReset : Prop :=
  State.Inv State.reset ∧ State.PlansInv State.reset ∧
    ∀ (straps : Byte) (s t : State), exec (.powerOnReset straps) s = .next t → t.Inv ∧ t.PlansInv

/-- Every step keeps the invariant: at most 64 records queued with the hold-off state following the fill level, at most
six outbound writes, at most 16 windows with the ANCHOR window at the anchor base, the suspended flag only in SHADOW
or ACTIVE (R102, R133, R145, R172, R174). -/
def Obligations.EveryStepKeepsTheInvariant : Prop := ∀ s t : State, s.Inv → step s = .next t → t.Inv

/-- Every step keeps the form of the plan histories: distinct frame numbers, each within the report latency behind the
current frame number, the newest plan the current frame's, latency at most 4 (R79, R84). -/
def Obligations.EveryStepKeepsThePlanHistories : Prop :=
  ∀ s t : State, s.Inv → s.PlansInv → step s = .next t → t.PlansInv

/-- Under that invariant a sector's plan history holds at most five frame plans, and no two of them have the same frame
number (R84). -/
def Obligations.PlanHistoryHoldsAtMostFive : Prop :=
  ∀ (s : State) (k : SectorNo), s.PlansInv →
    (s.sector k).history.length ≤ 5 ∧ ((s.sector k).history.map Plan.frame).Nodup
end

