-- ==== Sys2Proof/Laws/State.lean ====
section
/-! SUPPORT. What each named update leaves as it was: one lemma for each field of State, and of the Outbound Writer where the
update is of it; and what a replaced sector or entry reads as. -/

namespace Sys2Proof.Machine

@[simp] theorem setSector_pending (k : SectorNo) (x : Sector) (s : State) : (State.setSector s k x).pending = s.pending := rfl
@[simp] theorem setSector_time (k : SectorNo) (x : Sector) (s : State) : (State.setSector s k x).time = s.time := rfl
@[simp] theorem setSector_ports (k : SectorNo) (x : Sector) (s : State) : (State.setSector s k x).ports = s.ports := rfl
@[simp] theorem setSector_windows (k : SectorNo) (x : Sector) (s : State) : (State.setSector s k x).windows = s.windows := rfl
@[simp] theorem setSector_roles (k : SectorNo) (x : Sector) (s : State) : (State.setSector s k x).roles = s.roles := rfl
@[simp] theorem setSector_store (k : SectorNo) (x : Sector) (s : State) : (State.setSector s k x).store = s.store := rfl
@[simp] theorem setSector_holdOff (k : SectorNo) (x : Sector) (s : State) : (State.setSector s k x).holdOff = s.holdOff := rfl
@[simp] theorem setSector_channel (k : SectorNo) (x : Sector) (s : State) : (State.setSector s k x).channel = s.channel := rfl
@[simp] theorem setSector_writer (k : SectorNo) (x : Sector) (s : State) : (State.setSector s k x).writer = s.writer := rfl
@[simp] theorem setSector_notices (k : SectorNo) (x : Sector) (s : State) : (State.setSector s k x).notices = s.notices := rfl

@[simp] theorem modSector_pending (k : SectorNo) (f : Sector → Sector) (s : State) : (modSector k f s).pending = s.pending := rfl
@[simp] theorem modSector_time (k : SectorNo) (f : Sector → Sector) (s : State) : (modSector k f s).time = s.time := rfl
@[simp] theorem modSector_ports (k : SectorNo) (f : Sector → Sector) (s : State) : (modSector k f s).ports = s.ports := rfl
@[simp] theorem modSector_windows (k : SectorNo) (f : Sector → Sector) (s : State) : (modSector k f s).windows = s.windows := rfl
@[simp] theorem modSector_roles (k : SectorNo) (f : Sector → Sector) (s : State) : (modSector k f s).roles = s.roles := rfl
@[simp] theorem modSector_store (k : SectorNo) (f : Sector → Sector) (s : State) : (modSector k f s).store = s.store := rfl
@[simp] theorem modSector_holdOff (k : SectorNo) (f : Sector → Sector) (s : State) : (modSector k f s).holdOff = s.holdOff := rfl
@[simp] theorem modSector_channel (k : SectorNo) (f : Sector → Sector) (s : State) : (modSector k f s).channel = s.channel := rfl
@[simp] theorem modSector_writer (k : SectorNo) (f : Sector → Sector) (s : State) : (modSector k f s).writer = s.writer := rfl
@[simp] theorem modSector_notices (k : SectorNo) (f : Sector → Sector) (s : State) : (modSector k f s).notices = s.notices := rfl

@[simp] theorem modEntry_pending (k : SectorNo) (r : RemoteNo) (f : Entry → Entry) (s : State) : (modEntry k r f s).pending = s.pending := rfl
@[simp] theorem modEntry_time (k : SectorNo) (r : RemoteNo) (f : Entry → Entry) (s : State) : (modEntry k r f s).time = s.time := rfl
@[simp] theorem modEntry_ports (k : SectorNo) (r : RemoteNo) (f : Entry → Entry) (s : State) : (modEntry k r f s).ports = s.ports := rfl
@[simp] theorem modEntry_windows (k : SectorNo) (r : RemoteNo) (f : Entry → Entry) (s : State) : (modEntry k r f s).windows = s.windows := rfl
@[simp] theorem modEntry_roles (k : SectorNo) (r : RemoteNo) (f : Entry → Entry) (s : State) : (modEntry k r f s).roles = s.roles := rfl
@[simp] theorem modEntry_store (k : SectorNo) (r : RemoteNo) (f : Entry → Entry) (s : State) : (modEntry k r f s).store = s.store := rfl
@[simp] theorem modEntry_holdOff (k : SectorNo) (r : RemoteNo) (f : Entry → Entry) (s : State) : (modEntry k r f s).holdOff = s.holdOff := rfl
@[simp] theorem modEntry_channel (k : SectorNo) (r : RemoteNo) (f : Entry → Entry) (s : State) : (modEntry k r f s).channel = s.channel := rfl
@[simp] theorem modEntry_writer (k : SectorNo) (r : RemoteNo) (f : Entry → Entry) (s : State) : (modEntry k r f s).writer = s.writer := rfl
@[simp] theorem modEntry_notices (k : SectorNo) (r : RemoteNo) (f : Entry → Entry) (s : State) : (modEntry k r f s).notices = s.notices := rfl

@[simp] theorem setPack_pending (k : SectorNo) (p : Option Pack) (s : State) : (setPack k p s).pending = s.pending := rfl
@[simp] theorem setPack_time (k : SectorNo) (p : Option Pack) (s : State) : (setPack k p s).time = s.time := rfl
@[simp] theorem setPack_ports (k : SectorNo) (p : Option Pack) (s : State) : (setPack k p s).ports = s.ports := rfl
@[simp] theorem setPack_windows (k : SectorNo) (p : Option Pack) (s : State) : (setPack k p s).windows = s.windows := rfl
@[simp] theorem setPack_roles (k : SectorNo) (p : Option Pack) (s : State) : (setPack k p s).roles = s.roles := rfl
@[simp] theorem setPack_store (k : SectorNo) (p : Option Pack) (s : State) : (setPack k p s).store = s.store := rfl
@[simp] theorem setPack_holdOff (k : SectorNo) (p : Option Pack) (s : State) : (setPack k p s).holdOff = s.holdOff := rfl
@[simp] theorem setPack_channel (k : SectorNo) (p : Option Pack) (s : State) : (setPack k p s).channel = s.channel := rfl
@[simp] theorem setPack_writer (k : SectorNo) (p : Option Pack) (s : State) : (setPack k p s).writer = s.writer := rfl
@[simp] theorem setPack_notices (k : SectorNo) (p : Option Pack) (s : State) : (setPack k p s).notices = s.notices := rfl

@[simp] theorem markDevice_pending (s : State) : (markDevice s).pending = s.pending := rfl
@[simp] theorem markDevice_time (s : State) : (markDevice s).time = s.time := rfl
@[simp] theorem markDevice_ports (s : State) : (markDevice s).ports = s.ports := rfl
@[simp] theorem markDevice_windows (s : State) : (markDevice s).windows = s.windows := rfl
@[simp] theorem markDevice_roles (s : State) : (markDevice s).roles = s.roles := rfl
@[simp] theorem markDevice_store (s : State) : (markDevice s).store = s.store := rfl
@[simp] theorem markDevice_sectors (s : State) : (markDevice s).sectors = s.sectors := rfl
@[simp] theorem markDevice_holdOff (s : State) : (markDevice s).holdOff = s.holdOff := rfl
@[simp] theorem markDevice_channel (s : State) : (markDevice s).channel = s.channel := rfl
@[simp] theorem markDevice_notices (s : State) : (markDevice s).notices = s.notices := rfl
@[simp] theorem markDevice_writer_pendingResult (s : State) : (markDevice s).writer.pendingResult = s.writer.pendingResult := rfl
@[simp] theorem markDevice_writer_queue (s : State) : (markDevice s).writer.queue = s.writer.queue := rfl
@[simp] theorem markDevice_writer_counterDirty (s : State) : (markDevice s).writer.counterDirty = s.writer.counterDirty := rfl
@[simp] theorem markDevice_writer_mirrorDirty (s : State) : (markDevice s).writer.mirrorDirty = s.writer.mirrorDirty := rfl
@[simp] theorem markDevice_writer_lastGroup (s : State) : (markDevice s).writer.lastGroup = s.writer.lastGroup := rfl
@[simp] theorem markDevice_writer_buffer (s : State) : (markDevice s).writer.buffer = s.writer.buffer := rfl
@[simp] theorem markDevice_writer_log (s : State) : (markDevice s).writer.log = s.writer.log := rfl
@[simp] theorem markDevice_writer_head (s : State) : (markDevice s).writer.head = s.writer.head := rfl
@[simp] theorem markDevice_writer_tail (s : State) : (markDevice s).writer.tail = s.writer.tail := rfl
@[simp] theorem markDevice_writer_seq (s : State) : (markDevice s).writer.seq = s.writer.seq := rfl
@[simp] theorem markDevice_writer_skips (s : State) : (markDevice s).writer.skips = s.writer.skips := rfl
@[simp] theorem markDevice_writer_faults (s : State) : (markDevice s).writer.faults = s.writer.faults := rfl

@[simp] theorem markCounter_pending (k : SectorNo) (s : State) : (markCounter k s).pending = s.pending := rfl
@[simp] theorem markCounter_time (k : SectorNo) (s : State) : (markCounter k s).time = s.time := rfl
@[simp] theorem markCounter_ports (k : SectorNo) (s : State) : (markCounter k s).ports = s.ports := rfl
@[simp] theorem markCounter_windows (k : SectorNo) (s : State) : (markCounter k s).windows = s.windows := rfl
@[simp] theorem markCounter_roles (k : SectorNo) (s : State) : (markCounter k s).roles = s.roles := rfl
@[simp] theorem markCounter_store (k : SectorNo) (s : State) : (markCounter k s).store = s.store := rfl
@[simp] theorem markCounter_sectors (k : SectorNo) (s : State) : (markCounter k s).sectors = s.sectors := rfl
@[simp] theorem markCounter_holdOff (k : SectorNo) (s : State) : (markCounter k s).holdOff = s.holdOff := rfl
@[simp] theorem markCounter_channel (k : SectorNo) (s : State) : (markCounter k s).channel = s.channel := rfl
@[simp] theorem markCounter_notices (k : SectorNo) (s : State) : (markCounter k s).notices = s.notices := rfl
@[simp] theorem markCounter_writer_pendingResult (k : SectorNo) (s : State) : (markCounter k s).writer.pendingResult = s.writer.pendingResult := rfl
@[simp] theorem markCounter_writer_queue (k : SectorNo) (s : State) : (markCounter k s).writer.queue = s.writer.queue := rfl
@[simp] theorem markCounter_writer_deviceDirty (k : SectorNo) (s : State) : (markCounter k s).writer.deviceDirty = s.writer.deviceDirty := rfl
@[simp] theorem markCounter_writer_mirrorDirty (k : SectorNo) (s : State) : (markCounter k s).writer.mirrorDirty = s.writer.mirrorDirty := rfl
@[simp] theorem markCounter_writer_lastGroup (k : SectorNo) (s : State) : (markCounter k s).writer.lastGroup = s.writer.lastGroup := rfl
@[simp] theorem markCounter_writer_buffer (k : SectorNo) (s : State) : (markCounter k s).writer.buffer = s.writer.buffer := rfl
@[simp] theorem markCounter_writer_log (k : SectorNo) (s : State) : (markCounter k s).writer.log = s.writer.log := rfl
@[simp] theorem markCounter_writer_head (k : SectorNo) (s : State) : (markCounter k s).writer.head = s.writer.head := rfl
@[simp] theorem markCounter_writer_tail (k : SectorNo) (s : State) : (markCounter k s).writer.tail = s.writer.tail := rfl
@[simp] theorem markCounter_writer_seq (k : SectorNo) (s : State) : (markCounter k s).writer.seq = s.writer.seq := rfl
@[simp] theorem markCounter_writer_skips (k : SectorNo) (s : State) : (markCounter k s).writer.skips = s.writer.skips := rfl
@[simp] theorem markCounter_writer_faults (k : SectorNo) (s : State) : (markCounter k s).writer.faults = s.writer.faults := rfl

@[simp] theorem markMirror_pending (k : SectorNo) (r : RemoteNo) (s : State) : (markMirror k r s).pending = s.pending := rfl
@[simp] theorem markMirror_time (k : SectorNo) (r : RemoteNo) (s : State) : (markMirror k r s).time = s.time := rfl
@[simp] theorem markMirror_ports (k : SectorNo) (r : RemoteNo) (s : State) : (markMirror k r s).ports = s.ports := rfl
@[simp] theorem markMirror_windows (k : SectorNo) (r : RemoteNo) (s : State) : (markMirror k r s).windows = s.windows := rfl
@[simp] theorem markMirror_roles (k : SectorNo) (r : RemoteNo) (s : State) : (markMirror k r s).roles = s.roles := rfl
@[simp] theorem markMirror_store (k : SectorNo) (r : RemoteNo) (s : State) : (markMirror k r s).store = s.store := rfl
@[simp] theorem markMirror_sectors (k : SectorNo) (r : RemoteNo) (s : State) : (markMirror k r s).sectors = s.sectors := rfl
@[simp] theorem markMirror_holdOff (k : SectorNo) (r : RemoteNo) (s : State) : (markMirror k r s).holdOff = s.holdOff := rfl
@[simp] theorem markMirror_channel (k : SectorNo) (r : RemoteNo) (s : State) : (markMirror k r s).channel = s.channel := rfl
@[simp] theorem markMirror_notices (k : SectorNo) (r : RemoteNo) (s : State) : (markMirror k r s).notices = s.notices := rfl
@[simp] theorem markMirror_writer_pendingResult (k : SectorNo) (r : RemoteNo) (s : State) : (markMirror k r s).writer.pendingResult = s.writer.pendingResult := rfl
@[simp] theorem markMirror_writer_queue (k : SectorNo) (r : RemoteNo) (s : State) : (markMirror k r s).writer.queue = s.writer.queue := rfl
@[simp] theorem markMirror_writer_deviceDirty (k : SectorNo) (r : RemoteNo) (s : State) : (markMirror k r s).writer.deviceDirty = s.writer.deviceDirty := rfl
@[simp] theorem markMirror_writer_counterDirty (k : SectorNo) (r : RemoteNo) (s : State) : (markMirror k r s).writer.counterDirty = s.writer.counterDirty := rfl
@[simp] theorem markMirror_writer_lastGroup (k : SectorNo) (r : RemoteNo) (s : State) : (markMirror k r s).writer.lastGroup = s.writer.lastGroup := rfl
@[simp] theorem markMirror_writer_buffer (k : SectorNo) (r : RemoteNo) (s : State) : (markMirror k r s).writer.buffer = s.writer.buffer := rfl
@[simp] theorem markMirror_writer_log (k : SectorNo) (r : RemoteNo) (s : State) : (markMirror k r s).writer.log = s.writer.log := rfl
@[simp] theorem markMirror_writer_head (k : SectorNo) (r : RemoteNo) (s : State) : (markMirror k r s).writer.head = s.writer.head := rfl
@[simp] theorem markMirror_writer_tail (k : SectorNo) (r : RemoteNo) (s : State) : (markMirror k r s).writer.tail = s.writer.tail := rfl
@[simp] theorem markMirror_writer_seq (k : SectorNo) (r : RemoteNo) (s : State) : (markMirror k r s).writer.seq = s.writer.seq := rfl
@[simp] theorem markMirror_writer_skips (k : SectorNo) (r : RemoteNo) (s : State) : (markMirror k r s).writer.skips = s.writer.skips := rfl
@[simp] theorem markMirror_writer_faults (k : SectorNo) (r : RemoteNo) (s : State) : (markMirror k r s).writer.faults = s.writer.faults := rfl

@[simp] theorem setQueue_pending (q : List LogRecord) (s : State) : (setQueue q s).pending = s.pending := rfl
@[simp] theorem setQueue_time (q : List LogRecord) (s : State) : (setQueue q s).time = s.time := rfl
@[simp] theorem setQueue_ports (q : List LogRecord) (s : State) : (setQueue q s).ports = s.ports := rfl
@[simp] theorem setQueue_windows (q : List LogRecord) (s : State) : (setQueue q s).windows = s.windows := rfl
@[simp] theorem setQueue_roles (q : List LogRecord) (s : State) : (setQueue q s).roles = s.roles := rfl
@[simp] theorem setQueue_store (q : List LogRecord) (s : State) : (setQueue q s).store = s.store := rfl
@[simp] theorem setQueue_sectors (q : List LogRecord) (s : State) : (setQueue q s).sectors = s.sectors := rfl
@[simp] theorem setQueue_channel (q : List LogRecord) (s : State) : (setQueue q s).channel = s.channel := rfl
@[simp] theorem setQueue_notices (q : List LogRecord) (s : State) : (setQueue q s).notices = s.notices := rfl
@[simp] theorem setQueue_writer_pendingResult (q : List LogRecord) (s : State) : (setQueue q s).writer.pendingResult = s.writer.pendingResult := rfl
@[simp] theorem setQueue_writer_deviceDirty (q : List LogRecord) (s : State) : (setQueue q s).writer.deviceDirty = s.writer.deviceDirty := rfl
@[simp] theorem setQueue_writer_counterDirty (q : List LogRecord) (s : State) : (setQueue q s).writer.counterDirty = s.writer.counterDirty := rfl
@[simp] theorem setQueue_writer_mirrorDirty (q : List LogRecord) (s : State) : (setQueue q s).writer.mirrorDirty = s.writer.mirrorDirty := rfl
@[simp] theorem setQueue_writer_lastGroup (q : List LogRecord) (s : State) : (setQueue q s).writer.lastGroup = s.writer.lastGroup := rfl
@[simp] theorem setQueue_writer_buffer (q : List LogRecord) (s : State) : (setQueue q s).writer.buffer = s.writer.buffer := rfl
@[simp] theorem setQueue_writer_log (q : List LogRecord) (s : State) : (setQueue q s).writer.log = s.writer.log := rfl
@[simp] theorem setQueue_writer_head (q : List LogRecord) (s : State) : (setQueue q s).writer.head = s.writer.head := rfl
@[simp] theorem setQueue_writer_tail (q : List LogRecord) (s : State) : (setQueue q s).writer.tail = s.writer.tail := rfl
@[simp] theorem setQueue_writer_seq (q : List LogRecord) (s : State) : (setQueue q s).writer.seq = s.writer.seq := rfl
@[simp] theorem setQueue_writer_skips (q : List LogRecord) (s : State) : (setQueue q s).writer.skips = s.writer.skips := rfl
@[simp] theorem setQueue_writer_faults (q : List LogRecord) (s : State) : (setQueue q s).writer.faults = s.writer.faults := rfl

@[simp] theorem setChannel_pending (m : MasterNo) (qs : List Request) (s : State) : (setChannel m qs s).pending = s.pending := rfl
@[simp] theorem setChannel_time (m : MasterNo) (qs : List Request) (s : State) : (setChannel m qs s).time = s.time := rfl
@[simp] theorem setChannel_windows (m : MasterNo) (qs : List Request) (s : State) : (setChannel m qs s).windows = s.windows := rfl
@[simp] theorem setChannel_roles (m : MasterNo) (qs : List Request) (s : State) : (setChannel m qs s).roles = s.roles := rfl
@[simp] theorem setChannel_store (m : MasterNo) (qs : List Request) (s : State) : (setChannel m qs s).store = s.store := rfl
@[simp] theorem setChannel_sectors (m : MasterNo) (qs : List Request) (s : State) : (setChannel m qs s).sectors = s.sectors := rfl
@[simp] theorem setChannel_holdOff (m : MasterNo) (qs : List Request) (s : State) : (setChannel m qs s).holdOff = s.holdOff := rfl
@[simp] theorem setChannel_channel (m : MasterNo) (qs : List Request) (s : State) : (setChannel m qs s).channel = s.channel := rfl
@[simp] theorem setChannel_writer (m : MasterNo) (qs : List Request) (s : State) : (setChannel m qs s).writer = s.writer := rfl
@[simp] theorem setChannel_notices (m : MasterNo) (qs : List Request) (s : State) : (setChannel m qs s).notices = s.notices := rfl

@[simp] theorem setOwed_pending (m : MasterNo) (os : List Owed) (s : State) : (setOwed m os s).pending = s.pending := rfl
@[simp] theorem setOwed_time (m : MasterNo) (os : List Owed) (s : State) : (setOwed m os s).time = s.time := rfl
@[simp] theorem setOwed_windows (m : MasterNo) (os : List Owed) (s : State) : (setOwed m os s).windows = s.windows := rfl
@[simp] theorem setOwed_roles (m : MasterNo) (os : List Owed) (s : State) : (setOwed m os s).roles = s.roles := rfl
@[simp] theorem setOwed_store (m : MasterNo) (os : List Owed) (s : State) : (setOwed m os s).store = s.store := rfl
@[simp] theorem setOwed_sectors (m : MasterNo) (os : List Owed) (s : State) : (setOwed m os s).sectors = s.sectors := rfl
@[simp] theorem setOwed_holdOff (m : MasterNo) (os : List Owed) (s : State) : (setOwed m os s).holdOff = s.holdOff := rfl
@[simp] theorem setOwed_channel (m : MasterNo) (os : List Owed) (s : State) : (setOwed m os s).channel = s.channel := rfl
@[simp] theorem setOwed_writer (m : MasterNo) (os : List Owed) (s : State) : (setOwed m os s).writer = s.writer := rfl
@[simp] theorem setOwed_notices (m : MasterNo) (os : List Owed) (s : State) : (setOwed m os s).notices = s.notices := rfl

@[simp] theorem issueToMemory_pending (r : MemoryRequest) (s : State) : (issueToMemory r s).pending = s.pending := rfl
@[simp] theorem issueToMemory_time (r : MemoryRequest) (s : State) : (issueToMemory r s).time = s.time := rfl
@[simp] theorem issueToMemory_windows (r : MemoryRequest) (s : State) : (issueToMemory r s).windows = s.windows := rfl
@[simp] theorem issueToMemory_roles (r : MemoryRequest) (s : State) : (issueToMemory r s).roles = s.roles := rfl
@[simp] theorem issueToMemory_store (r : MemoryRequest) (s : State) : (issueToMemory r s).store = s.store := rfl
@[simp] theorem issueToMemory_sectors (r : MemoryRequest) (s : State) : (issueToMemory r s).sectors = s.sectors := rfl
@[simp] theorem issueToMemory_holdOff (r : MemoryRequest) (s : State) : (issueToMemory r s).holdOff = s.holdOff := rfl
@[simp] theorem issueToMemory_channel (r : MemoryRequest) (s : State) : (issueToMemory r s).channel = s.channel := rfl
@[simp] theorem issueToMemory_writer (r : MemoryRequest) (s : State) : (issueToMemory r s).writer = s.writer := rfl
@[simp] theorem issueToMemory_notices (r : MemoryRequest) (s : State) : (issueToMemory r s).notices = s.notices := rfl

@[simp] theorem noteGrant_pending (m : MasterNo) (s : State) : (noteGrant m s).pending = s.pending := rfl
@[simp] theorem noteGrant_time (m : MasterNo) (s : State) : (noteGrant m s).time = s.time := rfl
@[simp] theorem noteGrant_windows (m : MasterNo) (s : State) : (noteGrant m s).windows = s.windows := rfl
@[simp] theorem noteGrant_roles (m : MasterNo) (s : State) : (noteGrant m s).roles = s.roles := rfl
@[simp] theorem noteGrant_store (m : MasterNo) (s : State) : (noteGrant m s).store = s.store := rfl
@[simp] theorem noteGrant_sectors (m : MasterNo) (s : State) : (noteGrant m s).sectors = s.sectors := rfl
@[simp] theorem noteGrant_holdOff (m : MasterNo) (s : State) : (noteGrant m s).holdOff = s.holdOff := rfl
@[simp] theorem noteGrant_channel (m : MasterNo) (s : State) : (noteGrant m s).channel = s.channel := rfl
@[simp] theorem noteGrant_writer (m : MasterNo) (s : State) : (noteGrant m s).writer = s.writer := rfl
@[simp] theorem noteGrant_notices (m : MasterNo) (s : State) : (noteGrant m s).notices = s.notices := rfl

@[simp] theorem leaveChannel_pending (q : Request) (s : State) : (leaveChannel q s).pending = s.pending := rfl
@[simp] theorem leaveChannel_time (q : Request) (s : State) : (leaveChannel q s).time = s.time := rfl
@[simp] theorem leaveChannel_windows (q : Request) (s : State) : (leaveChannel q s).windows = s.windows := rfl
@[simp] theorem leaveChannel_roles (q : Request) (s : State) : (leaveChannel q s).roles = s.roles := rfl
@[simp] theorem leaveChannel_store (q : Request) (s : State) : (leaveChannel q s).store = s.store := rfl
@[simp] theorem leaveChannel_sectors (q : Request) (s : State) : (leaveChannel q s).sectors = s.sectors := rfl
@[simp] theorem leaveChannel_holdOff (q : Request) (s : State) : (leaveChannel q s).holdOff = s.holdOff := rfl
@[simp] theorem leaveChannel_channel (q : Request) (s : State) : (leaveChannel q s).channel = s.channel := rfl
@[simp] theorem leaveChannel_writer (q : Request) (s : State) : (leaveChannel q s).writer = s.writer := rfl
@[simp] theorem leaveChannel_notices (q : Request) (s : State) : (leaveChannel q s).notices = s.notices := rfl

@[simp] theorem pushWrite_pending (src : WriteSource) (a : Addr) (d : List Beat) (s : State) : (pushWrite src a d s).pending = s.pending := rfl
@[simp] theorem pushWrite_time (src : WriteSource) (a : Addr) (d : List Beat) (s : State) : (pushWrite src a d s).time = s.time := rfl
@[simp] theorem pushWrite_ports (src : WriteSource) (a : Addr) (d : List Beat) (s : State) : (pushWrite src a d s).ports = s.ports := rfl
@[simp] theorem pushWrite_windows (src : WriteSource) (a : Addr) (d : List Beat) (s : State) : (pushWrite src a d s).windows = s.windows := rfl
@[simp] theorem pushWrite_roles (src : WriteSource) (a : Addr) (d : List Beat) (s : State) : (pushWrite src a d s).roles = s.roles := rfl
@[simp] theorem pushWrite_store (src : WriteSource) (a : Addr) (d : List Beat) (s : State) : (pushWrite src a d s).store = s.store := rfl
@[simp] theorem pushWrite_sectors (src : WriteSource) (a : Addr) (d : List Beat) (s : State) : (pushWrite src a d s).sectors = s.sectors := rfl
@[simp] theorem pushWrite_holdOff (src : WriteSource) (a : Addr) (d : List Beat) (s : State) : (pushWrite src a d s).holdOff = s.holdOff := rfl
@[simp] theorem pushWrite_channel (src : WriteSource) (a : Addr) (d : List Beat) (s : State) : (pushWrite src a d s).channel = s.channel := rfl
@[simp] theorem pushWrite_notices (src : WriteSource) (a : Addr) (d : List Beat) (s : State) : (pushWrite src a d s).notices = s.notices := rfl
@[simp] theorem pushWrite_writer_pendingResult (src : WriteSource) (a : Addr) (d : List Beat) (s : State) : (pushWrite src a d s).writer.pendingResult = s.writer.pendingResult := rfl
@[simp] theorem pushWrite_writer_queue (src : WriteSource) (a : Addr) (d : List Beat) (s : State) : (pushWrite src a d s).writer.queue = s.writer.queue := rfl
@[simp] theorem pushWrite_writer_deviceDirty (src : WriteSource) (a : Addr) (d : List Beat) (s : State) : (pushWrite src a d s).writer.deviceDirty = s.writer.deviceDirty := rfl
@[simp] theorem pushWrite_writer_counterDirty (src : WriteSource) (a : Addr) (d : List Beat) (s : State) : (pushWrite src a d s).writer.counterDirty = s.writer.counterDirty := rfl
@[simp] theorem pushWrite_writer_mirrorDirty (src : WriteSource) (a : Addr) (d : List Beat) (s : State) : (pushWrite src a d s).writer.mirrorDirty = s.writer.mirrorDirty := rfl
@[simp] theorem pushWrite_writer_lastGroup (src : WriteSource) (a : Addr) (d : List Beat) (s : State) : (pushWrite src a d s).writer.lastGroup = s.writer.lastGroup := rfl
@[simp] theorem pushWrite_writer_log (src : WriteSource) (a : Addr) (d : List Beat) (s : State) : (pushWrite src a d s).writer.log = s.writer.log := rfl
@[simp] theorem pushWrite_writer_head (src : WriteSource) (a : Addr) (d : List Beat) (s : State) : (pushWrite src a d s).writer.head = s.writer.head := rfl
@[simp] theorem pushWrite_writer_tail (src : WriteSource) (a : Addr) (d : List Beat) (s : State) : (pushWrite src a d s).writer.tail = s.writer.tail := rfl
@[simp] theorem pushWrite_writer_seq (src : WriteSource) (a : Addr) (d : List Beat) (s : State) : (pushWrite src a d s).writer.seq = s.writer.seq := rfl
@[simp] theorem pushWrite_writer_skips (src : WriteSource) (a : Addr) (d : List Beat) (s : State) : (pushWrite src a d s).writer.skips = s.writer.skips := rfl
@[simp] theorem pushWrite_writer_faults (src : WriteSource) (a : Addr) (d : List Beat) (s : State) : (pushWrite src a d s).writer.faults = s.writer.faults := rfl

@[simp] theorem waitRead_pending (t : Option ReadTarget) (s : State) : (waitRead t s).pending = s.pending := rfl
@[simp] theorem waitRead_time (t : Option ReadTarget) (s : State) : (waitRead t s).time = s.time := rfl
@[simp] theorem waitRead_ports (t : Option ReadTarget) (s : State) : (waitRead t s).ports = s.ports := rfl
@[simp] theorem waitRead_windows (t : Option ReadTarget) (s : State) : (waitRead t s).windows = s.windows := rfl
@[simp] theorem waitRead_roles (t : Option ReadTarget) (s : State) : (waitRead t s).roles = s.roles := rfl
@[simp] theorem waitRead_store (t : Option ReadTarget) (s : State) : (waitRead t s).store = s.store := rfl
@[simp] theorem waitRead_sectors (t : Option ReadTarget) (s : State) : (waitRead t s).sectors = s.sectors := rfl
@[simp] theorem waitRead_holdOff (t : Option ReadTarget) (s : State) : (waitRead t s).holdOff = s.holdOff := rfl
@[simp] theorem waitRead_writer (t : Option ReadTarget) (s : State) : (waitRead t s).writer = s.writer := rfl
@[simp] theorem waitRead_notices (t : Option ReadTarget) (s : State) : (waitRead t s).notices = s.notices := rfl

@[simp] theorem dropReads_pending (s : State) : (dropReads s).pending = s.pending := rfl
@[simp] theorem dropReads_time (s : State) : (dropReads s).time = s.time := rfl
@[simp] theorem dropReads_windows (s : State) : (dropReads s).windows = s.windows := rfl
@[simp] theorem dropReads_roles (s : State) : (dropReads s).roles = s.roles := rfl
@[simp] theorem dropReads_store (s : State) : (dropReads s).store = s.store := rfl
@[simp] theorem dropReads_sectors (s : State) : (dropReads s).sectors = s.sectors := rfl
@[simp] theorem dropReads_holdOff (s : State) : (dropReads s).holdOff = s.holdOff := rfl
@[simp] theorem dropReads_writer (s : State) : (dropReads s).writer = s.writer := rfl
@[simp] theorem dropReads_notices (s : State) : (dropReads s).notices = s.notices := rfl

@[simp] theorem addMapWindow_pending (k : SectorNo) (b : Addr) (s : State) : (addMapWindow k b s).pending = s.pending := rfl
@[simp] theorem addMapWindow_time (k : SectorNo) (b : Addr) (s : State) : (addMapWindow k b s).time = s.time := rfl
@[simp] theorem addMapWindow_ports (k : SectorNo) (b : Addr) (s : State) : (addMapWindow k b s).ports = s.ports := rfl
@[simp] theorem addMapWindow_roles (k : SectorNo) (b : Addr) (s : State) : (addMapWindow k b s).roles = s.roles := rfl
@[simp] theorem addMapWindow_store (k : SectorNo) (b : Addr) (s : State) : (addMapWindow k b s).store = s.store := rfl
@[simp] theorem addMapWindow_sectors (k : SectorNo) (b : Addr) (s : State) : (addMapWindow k b s).sectors = s.sectors := rfl
@[simp] theorem addMapWindow_holdOff (k : SectorNo) (b : Addr) (s : State) : (addMapWindow k b s).holdOff = s.holdOff := rfl
@[simp] theorem addMapWindow_channel (k : SectorNo) (b : Addr) (s : State) : (addMapWindow k b s).channel = s.channel := rfl
@[simp] theorem addMapWindow_writer (k : SectorNo) (b : Addr) (s : State) : (addMapWindow k b s).writer = s.writer := rfl
@[simp] theorem addMapWindow_notices (k : SectorNo) (b : Addr) (s : State) : (addMapWindow k b s).notices = s.notices := rfl

@[simp] theorem keepNewMap_pending (k : SectorNo) (s : State) : (keepNewMap k s).pending = s.pending := rfl
@[simp] theorem keepNewMap_time (k : SectorNo) (s : State) : (keepNewMap k s).time = s.time := rfl
@[simp] theorem keepNewMap_ports (k : SectorNo) (s : State) : (keepNewMap k s).ports = s.ports := rfl
@[simp] theorem keepNewMap_roles (k : SectorNo) (s : State) : (keepNewMap k s).roles = s.roles := rfl
@[simp] theorem keepNewMap_store (k : SectorNo) (s : State) : (keepNewMap k s).store = s.store := rfl
@[simp] theorem keepNewMap_sectors (k : SectorNo) (s : State) : (keepNewMap k s).sectors = s.sectors := rfl
@[simp] theorem keepNewMap_holdOff (k : SectorNo) (s : State) : (keepNewMap k s).holdOff = s.holdOff := rfl
@[simp] theorem keepNewMap_channel (k : SectorNo) (s : State) : (keepNewMap k s).channel = s.channel := rfl
@[simp] theorem keepNewMap_writer (k : SectorNo) (s : State) : (keepNewMap k s).writer = s.writer := rfl
@[simp] theorem keepNewMap_notices (k : SectorNo) (s : State) : (keepNewMap k s).notices = s.notices := rfl

@[simp] theorem keepOldMap_pending (k : SectorNo) (s : State) : (keepOldMap k s).pending = s.pending := rfl
@[simp] theorem keepOldMap_time (k : SectorNo) (s : State) : (keepOldMap k s).time = s.time := rfl
@[simp] theorem keepOldMap_ports (k : SectorNo) (s : State) : (keepOldMap k s).ports = s.ports := rfl
@[simp] theorem keepOldMap_roles (k : SectorNo) (s : State) : (keepOldMap k s).roles = s.roles := rfl
@[simp] theorem keepOldMap_store (k : SectorNo) (s : State) : (keepOldMap k s).store = s.store := rfl
@[simp] theorem keepOldMap_sectors (k : SectorNo) (s : State) : (keepOldMap k s).sectors = s.sectors := rfl
@[simp] theorem keepOldMap_holdOff (k : SectorNo) (s : State) : (keepOldMap k s).holdOff = s.holdOff := rfl
@[simp] theorem keepOldMap_channel (k : SectorNo) (s : State) : (keepOldMap k s).channel = s.channel := rfl
@[simp] theorem keepOldMap_writer (k : SectorNo) (s : State) : (keepOldMap k s).writer = s.writer := rfl
@[simp] theorem keepOldMap_notices (k : SectorNo) (s : State) : (keepOldMap k s).notices = s.notices := rfl

@[simp] theorem moveWindow_pending (kind : WindowKind) (k : SectorNo) (b : Addr) (e : Nat) (s : State) : (moveWindow kind k b e s).pending = s.pending := rfl
@[simp] theorem moveWindow_time (kind : WindowKind) (k : SectorNo) (b : Addr) (e : Nat) (s : State) : (moveWindow kind k b e s).time = s.time := rfl
@[simp] theorem moveWindow_ports (kind : WindowKind) (k : SectorNo) (b : Addr) (e : Nat) (s : State) : (moveWindow kind k b e s).ports = s.ports := rfl
@[simp] theorem moveWindow_roles (kind : WindowKind) (k : SectorNo) (b : Addr) (e : Nat) (s : State) : (moveWindow kind k b e s).roles = s.roles := rfl
@[simp] theorem moveWindow_store (kind : WindowKind) (k : SectorNo) (b : Addr) (e : Nat) (s : State) : (moveWindow kind k b e s).store = s.store := rfl
@[simp] theorem moveWindow_sectors (kind : WindowKind) (k : SectorNo) (b : Addr) (e : Nat) (s : State) : (moveWindow kind k b e s).sectors = s.sectors := rfl
@[simp] theorem moveWindow_holdOff (kind : WindowKind) (k : SectorNo) (b : Addr) (e : Nat) (s : State) : (moveWindow kind k b e s).holdOff = s.holdOff := rfl
@[simp] theorem moveWindow_channel (kind : WindowKind) (k : SectorNo) (b : Addr) (e : Nat) (s : State) : (moveWindow kind k b e s).channel = s.channel := rfl
@[simp] theorem moveWindow_writer (kind : WindowKind) (k : SectorNo) (b : Addr) (e : Nat) (s : State) : (moveWindow kind k b e s).writer = s.writer := rfl
@[simp] theorem moveWindow_notices (kind : WindowKind) (k : SectorNo) (b : Addr) (e : Nat) (s : State) : (moveWindow kind k b e s).notices = s.notices := rfl

@[simp] theorem popOutstanding_pending (s : State) : (popOutstanding s).pending = s.pending := rfl
@[simp] theorem popOutstanding_time (s : State) : (popOutstanding s).time = s.time := rfl
@[simp] theorem popOutstanding_windows (s : State) : (popOutstanding s).windows = s.windows := rfl
@[simp] theorem popOutstanding_roles (s : State) : (popOutstanding s).roles = s.roles := rfl
@[simp] theorem popOutstanding_store (s : State) : (popOutstanding s).store = s.store := rfl
@[simp] theorem popOutstanding_sectors (s : State) : (popOutstanding s).sectors = s.sectors := rfl
@[simp] theorem popOutstanding_holdOff (s : State) : (popOutstanding s).holdOff = s.holdOff := rfl
@[simp] theorem popOutstanding_channel (s : State) : (popOutstanding s).channel = s.channel := rfl
@[simp] theorem popOutstanding_writer (s : State) : (popOutstanding s).writer = s.writer := rfl
@[simp] theorem popOutstanding_notices (s : State) : (popOutstanding s).notices = s.notices := rfl

@[simp] theorem freePlace_pending (s : State) : (freePlace s).pending = s.pending := rfl
@[simp] theorem freePlace_time (s : State) : (freePlace s).time = s.time := rfl
@[simp] theorem freePlace_ports (s : State) : (freePlace s).ports = s.ports := rfl
@[simp] theorem freePlace_windows (s : State) : (freePlace s).windows = s.windows := rfl
@[simp] theorem freePlace_roles (s : State) : (freePlace s).roles = s.roles := rfl
@[simp] theorem freePlace_store (s : State) : (freePlace s).store = s.store := rfl
@[simp] theorem freePlace_sectors (s : State) : (freePlace s).sectors = s.sectors := rfl
@[simp] theorem freePlace_holdOff (s : State) : (freePlace s).holdOff = s.holdOff := rfl
@[simp] theorem freePlace_channel (s : State) : (freePlace s).channel = s.channel := rfl
@[simp] theorem freePlace_notices (s : State) : (freePlace s).notices = s.notices := rfl
@[simp] theorem freePlace_writer_pendingResult (s : State) : (freePlace s).writer.pendingResult = s.writer.pendingResult := rfl
@[simp] theorem freePlace_writer_queue (s : State) : (freePlace s).writer.queue = s.writer.queue := rfl
@[simp] theorem freePlace_writer_deviceDirty (s : State) : (freePlace s).writer.deviceDirty = s.writer.deviceDirty := rfl
@[simp] theorem freePlace_writer_counterDirty (s : State) : (freePlace s).writer.counterDirty = s.writer.counterDirty := rfl
@[simp] theorem freePlace_writer_mirrorDirty (s : State) : (freePlace s).writer.mirrorDirty = s.writer.mirrorDirty := rfl
@[simp] theorem freePlace_writer_lastGroup (s : State) : (freePlace s).writer.lastGroup = s.writer.lastGroup := rfl
@[simp] theorem freePlace_writer_log (s : State) : (freePlace s).writer.log = s.writer.log := rfl
@[simp] theorem freePlace_writer_head (s : State) : (freePlace s).writer.head = s.writer.head := rfl
@[simp] theorem freePlace_writer_tail (s : State) : (freePlace s).writer.tail = s.writer.tail := rfl
@[simp] theorem freePlace_writer_seq (s : State) : (freePlace s).writer.seq = s.writer.seq := rfl
@[simp] theorem freePlace_writer_skips (s : State) : (freePlace s).writer.skips = s.writer.skips := rfl
@[simp] theorem freePlace_writer_faults (s : State) : (freePlace s).writer.faults = s.writer.faults := rfl

@[simp] theorem grantOutbound_pending (s : State) : (grantOutbound s).pending = s.pending := rfl
@[simp] theorem grantOutbound_time (s : State) : (grantOutbound s).time = s.time := rfl
@[simp] theorem grantOutbound_windows (s : State) : (grantOutbound s).windows = s.windows := rfl
@[simp] theorem grantOutbound_roles (s : State) : (grantOutbound s).roles = s.roles := rfl
@[simp] theorem grantOutbound_store (s : State) : (grantOutbound s).store = s.store := rfl
@[simp] theorem grantOutbound_sectors (s : State) : (grantOutbound s).sectors = s.sectors := rfl
@[simp] theorem grantOutbound_holdOff (s : State) : (grantOutbound s).holdOff = s.holdOff := rfl
@[simp] theorem grantOutbound_channel (s : State) : (grantOutbound s).channel = s.channel := rfl
@[simp] theorem grantOutbound_notices (s : State) : (grantOutbound s).notices = s.notices := rfl
@[simp] theorem grantOutbound_writer_pendingResult (s : State) : (grantOutbound s).writer.pendingResult = s.writer.pendingResult := rfl
@[simp] theorem grantOutbound_writer_queue (s : State) : (grantOutbound s).writer.queue = s.writer.queue := rfl
@[simp] theorem grantOutbound_writer_deviceDirty (s : State) : (grantOutbound s).writer.deviceDirty = s.writer.deviceDirty := rfl
@[simp] theorem grantOutbound_writer_counterDirty (s : State) : (grantOutbound s).writer.counterDirty = s.writer.counterDirty := rfl
@[simp] theorem grantOutbound_writer_mirrorDirty (s : State) : (grantOutbound s).writer.mirrorDirty = s.writer.mirrorDirty := rfl
@[simp] theorem grantOutbound_writer_lastGroup (s : State) : (grantOutbound s).writer.lastGroup = s.writer.lastGroup := rfl
@[simp] theorem grantOutbound_writer_log (s : State) : (grantOutbound s).writer.log = s.writer.log := rfl
@[simp] theorem grantOutbound_writer_head (s : State) : (grantOutbound s).writer.head = s.writer.head := rfl
@[simp] theorem grantOutbound_writer_tail (s : State) : (grantOutbound s).writer.tail = s.writer.tail := rfl
@[simp] theorem grantOutbound_writer_seq (s : State) : (grantOutbound s).writer.seq = s.writer.seq := rfl
@[simp] theorem grantOutbound_writer_skips (s : State) : (grantOutbound s).writer.skips = s.writer.skips := rfl
@[simp] theorem grantOutbound_writer_faults (s : State) : (grantOutbound s).writer.faults = s.writer.faults := rfl

/-! ### Sectors and entries -/

theorem sector_setSector (s : State) (k j : SectorNo) (x : Sector) :
    (s.setSector k x).sector j = if j = k then x else s.sector j := by
  simp only [State.sector, State.setSector, Fin.getElem_fin, Vector.getElem_set]
  by_cases h : j = k
  · simp [h]
  · have : ¬ (k.val = j.val) := fun e => h (Fin.ext e.symm)
    simp [h, this]

@[simp] theorem sector_modSector_self (k : SectorNo) (f : Sector → Sector) (s : State) :
    (modSector k f s).sector k = f (s.sector k) := by simp [modSector, sector_setSector]

theorem sector_modSector_of_ne {j k : SectorNo} (h : j ≠ k) (f : Sector → Sector) (s : State) :
    (modSector k f s).sector j = s.sector j := by simp [modSector, sector_setSector, h]

theorem entry_setEntry (x : Sector) (r q : RemoteNo) (e : Entry) :
    (x.setEntry r e).entry q = if q = r then e else x.entry q := by
  simp only [Sector.entry, Sector.setEntry, Fin.getElem_fin, Vector.getElem_set]
  by_cases h : q = r
  · simp [h]
  · have : ¬ (r.val = q.val) := fun e => h (Fin.ext e.symm)
    simp [h, this]

@[simp] theorem setEntry_nextHead (x : Sector) (r : RemoteNo) (e : Entry) : (x.setEntry r e).nextHead = x.nextHead := rfl
@[simp] theorem setEntry_nextTail (x : Sector) (r : RemoteNo) (e : Entry) : (x.setEntry r e).nextTail = x.nextTail := rfl
@[simp] theorem setEntry_roster (x : Sector) (r : RemoteNo) (e : Entry) : (x.setEntry r e).roster = x.roster := rfl
@[simp] theorem setEntry_frame (x : Sector) (r : RemoteNo) (e : Entry) : (x.setEntry r e).frame = x.frame := rfl
@[simp] theorem setEntry_resyncPending (x : Sector) (r : RemoteNo) (e : Entry) : (x.setEntry r e).resyncPending = x.resyncPending := rfl
@[simp] theorem setEntry_history (x : Sector) (r : RemoteNo) (e : Entry) : (x.setEntry r e).history = x.history := rfl
@[simp] theorem setEntry_rangingOrder (x : Sector) (r : RemoteNo) (e : Entry) : (x.setEntry r e).rangingOrder = x.rangingOrder := rfl
@[simp] theorem setEntry_waitList (x : Sector) (r : RemoteNo) (e : Entry) : (x.setEntry r e).waitList = x.waitList := rfl
@[simp] theorem setEntry_mode (x : Sector) (r : RemoteNo) (e : Entry) : (x.setEntry r e).mode = x.mode := rfl
@[simp] theorem setEntry_suspended (x : Sector) (r : RemoteNo) (e : Entry) : (x.setEntry r e).suspended = x.suspended := rfl
@[simp] theorem setEntry_pendingOp (x : Sector) (r : RemoteNo) (e : Entry) : (x.setEntry r e).pendingOp = x.pendingOp := rfl
@[simp] theorem setEntry_tunables (x : Sector) (r : RemoteNo) (e : Entry) : (x.setEntry r e).tunables = x.tunables := rfl
@[simp] theorem setEntry_staged (x : Sector) (r : RemoteNo) (e : Entry) : (x.setEntry r e).staged = x.staged := rfl
@[simp] theorem setEntry_episode (x : Sector) (r : RemoteNo) (e : Entry) : (x.setEntry r e).episode = x.episode := rfl
@[simp] theorem setEntry_pack (x : Sector) (r : RemoteNo) (e : Entry) : (x.setEntry r e).pack = x.pack := rfl
@[simp] theorem setEntry_framesSeen (x : Sector) (r : RemoteNo) (e : Entry) : (x.setEntry r e).framesSeen = x.framesSeen := rfl
@[simp] theorem setEntry_counts (x : Sector) (r : RemoteNo) (e : Entry) : (x.setEntry r e).counts = x.counts := rfl

end Sys2Proof.Machine
end

