-- ==== Sys2Proof/Laws/Remote.lean ====
section
/-! SUPPORT. Everything the steps of a sector's remotes and its episode can do, said once: the relation `Local k s t`, and for
each operation of Sections 1, 2, 3 and 6 the lemma that its result is so related to its start. -/

namespace Sys2Proof.Machine

/-! ### The relations -/

/-- A change that stays among the sectors, the record queue, its skips, the dirty sets and the pending notices, and takes no
record out of the queue. -/
structure Quiet (s t : State) : Prop where
  dev : DeviceKept s t
  ports : t.ports = s.ports
  channel : t.channel = s.channel
  result : t.writer.pendingResult = s.writer.pendingResult
  queue : s.recordQueueOk → t.recordQueueOk
  grows : s.writer.queue <+: t.writer.queue

/-- What an engine's remote steps keep of their own sector. -/
structure Stable (x y : Sector) : Prop extends SectorKept x y where
  frames : y.history.map Plan.frame = x.history.map Plan.frame

/-- A step of sector k's remotes and its episode. -/
structure Local (k : SectorNo) (s t : State) : Prop extends Quiet s t where
  others : OtherSectors k s t
  stable : Stable (s.sector k) (t.sector k)

theorem SectorKept.refl (x : Sector) : SectorKept x x := ⟨rfl, rfl, rfl, rfl, rfl, rfl, rfl, rfl, rfl, rfl⟩

theorem SectorKept.trans {x y z : Sector} (h : SectorKept x y) (g : SectorKept y z) : SectorKept x z :=
  ⟨g.mode.trans h.mode, g.suspended.trans h.suspended, g.pendingOp.trans h.pendingOp, g.tunables.trans h.tunables,
   g.staged.trans h.staged, g.frame.trans h.frame, g.resync.trans h.resync, g.pack.trans h.pack,
   g.framesSeen.trans h.framesSeen, g.counts.trans h.counts⟩

theorem Stable.refl (x : Sector) : Stable x x := ⟨.refl x, rfl⟩

theorem Stable.trans {x y z : Sector} (h : Stable x y) (g : Stable y z) : Stable x z :=
  ⟨h.toSectorKept.trans g.toSectorKept, g.frames.trans h.frames⟩

/-- Sectors that agree in those fields by definition. -/
theorem Stable.of_rfl {x y : Sector} (h : SectorKept x y) (g : y.history = x.history) : Stable x y := ⟨h, by rw [g]⟩

theorem DeviceKept.refl (s : State) : DeviceKept s s :=
  ⟨rfl, rfl, rfl, rfl, rfl, rfl, rfl, rfl, rfl, rfl, rfl, rfl, rfl, rfl⟩

theorem DeviceKept.trans {s t u : State} (h : DeviceKept s t) (g : DeviceKept t u) : DeviceKept s u :=
  ⟨g.pending.trans h.pending, g.time.trans h.time, g.windows.trans h.windows, g.roles.trans h.roles,
   g.store.trans h.store, g.classes.trans h.classes, g.floor.trans h.floor, g.log.trans h.log, g.head.trans h.head,
   g.tail.trans h.tail, g.buffer.trans h.buffer, g.lastGroup.trans h.lastGroup, g.faults.trans h.faults,
   g.base.trans h.base⟩

theorem Quiet.refl (s : State) : Quiet s s := ⟨.refl s, rfl, rfl, rfl, id, List.prefix_rfl⟩

theorem Quiet.trans {s t u : State} (h : Quiet s t) (g : Quiet t u) : Quiet s u :=
  ⟨h.dev.trans g.dev, g.ports.trans h.ports, g.channel.trans h.channel, g.result.trans h.result,
   fun q => g.queue (h.queue q), h.grows.trans g.grows⟩

theorem Local.refl (k : SectorNo) (s : State) : Local k s s := ⟨.refl s, fun _ _ => rfl, .refl _⟩

theorem Local.trans {k : SectorNo} {s t u : State} (h : Local k s t) (g : Local k t u) : Local k s u :=
  ⟨h.toQuiet.trans g.toQuiet, fun j hj => (g.others j hj).trans (h.others j hj), h.stable.trans g.stable⟩

/-- A change that leaves every sector is a step of any sector. -/
theorem Local.of_quiet {s t : State} (h : Quiet s t) (hs : t.sectors = s.sectors) (k : SectorNo) : Local k s t := by
  have e : ∀ j, t.sector j = s.sector j := fun j => by simp [State.sector, hs]
  exact ⟨h, fun j _ => e j, by rw [e k]; exact .refl _⟩

theorem Local.ite {k : SectorNo} {s t u : State} {p : Prop} [Decidable p] (h : p → Local k s t)
    (g : ¬p → Local k s u) : Local k s (if p then t else u) := by
  split
  · exact h ‹_›
  · exact g ‹_›

theorem local_foldl {α : Type} {k : SectorNo} (f : State → α → State) (h : ∀ s a, Local k s (f s a)) :
    ∀ (l : List α) (s : State), Local k s (l.foldl f s)
  | [], s => .refl k s
  | a :: l, s => (h s a).trans (local_foldl f h l (f s a))

theorem local_forRemotes {k : SectorNo} {f : RemoteNo → State → State} (h : ∀ r s, Local k s (f r s))
    (rs : List RemoteNo) (s : State) : Local k s (forRemotes rs f s) :=
  local_foldl (fun t r => f r t) (fun s r => h r s) rs s

/-! ### The record queue, the marks, the notices -/

theorem quiet_markDevice (s : State) : Quiet s (markDevice s) :=
  ⟨⟨rfl, rfl, rfl, rfl, rfl, rfl, rfl, rfl, rfl, rfl, rfl, rfl, rfl, rfl⟩, rfl, rfl, rfl, id, List.prefix_rfl⟩

theorem local_markDevice (k : SectorNo) (s : State) : Local k s (markDevice s) := .of_quiet (quiet_markDevice s) rfl k

theorem local_markCounter (k j : SectorNo) (s : State) : Local k s (markCounter j s) :=
  Local.of_quiet (s := s) (t := markCounter j s)
    ⟨⟨rfl, rfl, rfl, rfl, rfl, rfl, rfl, rfl, rfl, rfl, rfl, rfl, rfl, rfl⟩, rfl, rfl, rfl, id, List.prefix_rfl⟩ rfl k

theorem local_markMirror (k j : SectorNo) (r : RemoteNo) (s : State) : Local k s (markMirror j r s) :=
  Local.of_quiet (s := s) (t := markMirror j r s)
    ⟨⟨rfl, rfl, rfl, rfl, rfl, rfl, rfl, rfl, rfl, rfl, rfl, rfl, rfl, rfl⟩, rfl, rfl, rfl, id, List.prefix_rfl⟩ rfl k

theorem quiet_setPendingNotices (p : BitVec 8) (s : State) : Quiet s (setPendingNotices p s) := by
  unfold setPendingNotices
  split
  · exact .refl s
  · exact ⟨⟨rfl, rfl, rfl, rfl, rfl, rfl, rfl, rfl, rfl, rfl, rfl, rfl, rfl, rfl⟩, rfl, rfl, rfl, id, List.prefix_rfl⟩

theorem setPendingNotices_sectors (p : BitVec 8) (s : State) : (setPendingNotices p s).sectors = s.sectors := by
  unfold setPendingNotices; split <;> rfl

theorem local_raiseNotice (k : SectorNo) (kind : NoticeKind) (s : State) : Local k s (raiseNotice kind s) := by
  unfold raiseNotice
  try dsimp only
  exact Local.of_quiet (quiet_setPendingNotices _ s) (setPendingNotices_sectors _ s) k

/-- The hold-off state after a change of one place, where it was right before (R102). -/
theorem recordQueueOk_of_level {s t : State} (hq : t.writer.queue.length ≤ 64)
    (hh : t.holdOff = holdOffAfter t.writer.queue.length s.holdOff) (hs : s.recordQueueOk) : t.recordQueueOk := by
  obtain ⟨h1, h2, h3⟩ := hs
  refine ⟨hq, ?_, ?_⟩ <;> intro h <;> rw [hh] <;> unfold holdOffAfter Config.lowMark Config.highMark <;>
    cases hb : s.holdOff <;> simp [hb] at * <;> omega

theorem quiet_setQueue {q : List LogRecord} {s : State} (hq : q.length ≤ 64) (hp : s.writer.queue <+: q) :
    Quiet s (setQueue q s) :=
  ⟨⟨rfl, rfl, rfl, rfl, rfl, rfl, rfl, rfl, rfl, rfl, rfl, rfl, rfl, rfl⟩, rfl, rfl, rfl,
   recordQueueOk_of_level hq rfl, hp⟩

theorem quiet_pushRecord (rec : LogRecord) (s : State) : Quiet s (pushRecord rec s) := by
  unfold pushRecord Config.recordQueueSize
  split
  · exact ⟨⟨rfl, rfl, rfl, rfl, rfl, rfl, rfl, rfl, rfl, rfl, rfl, rfl, rfl, rfl⟩, rfl, rfl, rfl, id, List.prefix_rfl⟩
  · exact quiet_setQueue (by simp; omega) (List.prefix_append _ _)

theorem pushRecord_queue (rec : LogRecord) (s : State) (h : s.writer.queue.length < 64) :
    (pushRecord rec s).writer.queue = s.writer.queue ++ [rec] := by
  unfold pushRecord Config.recordQueueSize
  rw [if_neg (by omega)]; rfl

theorem pushRecord_full (rec : LogRecord) (s : State) (h : 64 ≤ s.writer.queue.length) :
    (pushRecord rec s).writer.queue = s.writer.queue ∧ (pushRecord rec s).writer.skips = s.writer.skips + 1 ∧
      (pushRecord rec s).writer.seq = s.writer.seq + 1 := by
  unfold pushRecord Config.recordQueueSize
  rw [if_pos h]; exact ⟨rfl, rfl, rfl⟩

/-- A pushed record is queued, or skipped and counted. -/
theorem pushRecord_logged (rec : LogRecord) (s : State) : Logged rec s (pushRecord rec s) :=
  ⟨pushRecord_queue rec s, pushRecord_full rec s⟩

/-- A record with or without a sector is queued, or skipped and counted. -/
theorem logFor_logged (k : Option SectorNo) (body : RecordBody) (s : State) :
    Logged { time := s.time, sector := k, frame := k.map fun k => (s.sector k).frame, body := body } s
      (logFor k body s) := by
  cases k <;> exact pushRecord_logged _ _

theorem raiseNotice_pending (kind : NoticeKind) (s : State) :
    (raiseNotice kind s).notices.pending = s.notices.pending ||| (1#8 <<< kind.bit.val) := by
  unfold raiseNotice setPendingNotices
  split
  · rename_i h; exact h.symm
  · rfl

theorem raiseNotice_logged {rec : LogRecord} {s t : State} (kind : NoticeKind) (h : Logged rec s t) :
    Logged rec s (raiseNotice kind t) := by
  unfold raiseNotice setPendingNotices
  split <;> exact h

theorem pushRecord_sectors (rec : LogRecord) (s : State) : (pushRecord rec s).sectors = s.sectors := by
  unfold pushRecord; split <;> rfl

theorem local_pushRecord (k : SectorNo) (rec : LogRecord) (s : State) : Local k s (pushRecord rec s) :=
  .of_quiet (quiet_pushRecord rec s) (pushRecord_sectors rec s) k

theorem local_logSector (k j : SectorNo) (b : RecordBody) (s : State) : Local k s (logSector j b s) := by
  unfold logSector
  try dsimp only
  exact local_pushRecord k _ s

theorem local_logFrame (k j : SectorNo) (f : Frame) (b : RecordBody) (s : State) : Local k s (logFrame j f b s) := by
  unfold logFrame
  try dsimp only
  exact local_pushRecord k _ s

theorem local_logDevice (k : SectorNo) (b : RecordBody) (s : State) : Local k s (logDevice b s) := by
  unfold logDevice
  try dsimp only
  exact local_pushRecord k _ s

theorem local_logFor (k : SectorNo) (j : Option SectorNo) (b : RecordBody) (s : State) : Local k s (logFor j b s) := by
  unfold logFor
  cases j with
  | none => exact local_logDevice k b s
  | some j => exact local_logSector k j b s

/-! ### Changes of the sector itself -/

theorem quiet_modSector (k : SectorNo) (f : Sector → Sector) (s : State) : Quiet s (modSector k f s) :=
  ⟨⟨rfl, rfl, rfl, rfl, rfl, rfl, rfl, rfl, rfl, rfl, rfl, rfl, rfl, rfl⟩, rfl, rfl, rfl, id, List.prefix_rfl⟩

theorem local_modSector (k : SectorNo) (f : Sector → Sector) (s : State) (h : Stable (s.sector k) (f (s.sector k))) :
    Local k s (modSector k f s) :=
  ⟨⟨⟨rfl, rfl, rfl, rfl, rfl, rfl, rfl, rfl, rfl, rfl, rfl, rfl, rfl, rfl⟩, rfl, rfl, rfl, id, List.prefix_rfl⟩,
   fun _ hj => sector_modSector_of_ne hj f s, by rw [sector_modSector_self]; exact h⟩

theorem stable_setEntry (x : Sector) (r : RemoteNo) (e : Entry) : Stable x (x.setEntry r e) :=
  ⟨⟨rfl, rfl, rfl, rfl, rfl, rfl, rfl, rfl, rfl, rfl⟩, rfl⟩

theorem local_modEntry (k : SectorNo) (r : RemoteNo) (f : Entry → Entry) (s : State) : Local k s (modEntry k r f s) := by
  unfold modEntry
  try dsimp only
  exact local_modSector k _ s (stable_setEntry _ _ _)

theorem local_modEpisode (k : SectorNo) (f : Episode → Episode) (s : State) : Local k s (modEpisode k f s) := by
  unfold modEpisode
  try dsimp only
  exact local_modSector k _ s ⟨⟨rfl, rfl, rfl, rfl, rfl, rfl, rfl, rfl, rfl, rfl⟩, rfl⟩

/-! ### The episode (Section 6) -/

theorem local_modRecord (k : SectorNo) (f : EpisodeRecord → EpisodeRecord) (s : State) :
    Local k s (modRecord k f s) := by
  unfold modRecord
  try dsimp only
  exact local_modEpisode k _ s

theorem local_noticeOfChange (k : SectorNo) (target : EpisodeState) (s : State) :
    Local k s (noticeOfChange target s) := by
  cases target
  · exact local_raiseNotice k _ s
  · exact local_raiseNotice k _ s
  · exact .refl k s
  · exact .refl k s

theorem local_changeEpisode (k : SectorNo) (target : EpisodeState) (cause : EpisodeCause) (f : Episode → Episode)
    (s : State) : Local k s (changeEpisode k target cause f s) := by
  unfold changeEpisode
  try dsimp only
  exact (((local_modEpisode k _ s).trans (local_logSector k k _ _)).trans (local_markCounter k k _)).trans
    (local_noticeOfChange k target _)

theorem local_openEpisode (k : SectorNo) (s : State) : Local k s (openEpisode k s) := by
  unfold openEpisode
  try dsimp only
  exact local_changeEpisode k _ _ _ s

theorem local_testThreshold (k : SectorNo) (s : State) : Local k s (testThreshold k s) := by
  unfold testThreshold
  try dsimp only
  exact Local.ite (fun _ => local_openEpisode k s) fun _ => .refl k s

theorem local_closeEpisode (k : SectorNo) (cause : EpisodeCause) (s : State) : Local k s (closeEpisode k cause s) := by
  unfold closeEpisode
  try dsimp only
  exact local_changeEpisode k _ _ _ s

theorem local_enterRecovering (k : SectorNo) (why : RecoveringCause) (cause : EpisodeCause) (s : State) :
    Local k s (enterRecovering k why cause s) := by
  unfold enterRecovering
  try dsimp only
  exact local_changeEpisode k _ _ _ s

theorem local_exclusionInput (k : SectorNo) (s : State) : Local k s (exclusionInput k s) := by
  unfold exclusionInput
  try dsimp only
  exact Local.ite (fun _ => local_modRecord k _ s) fun _ => .refl k s

theorem local_fadeInput (k : SectorNo) (s : State) : Local k s (fadeInput k s) := by
  unfold fadeInput
  try dsimp only
  exact Local.ite (fun _ => local_modRecord k _ s) fun _ => .refl k s

theorem local_scoutHeardInput (k : SectorNo) (s : State) : Local k s (scoutHeardInput k s) := by
  unfold scoutHeardInput
  try dsimp only
  exact Local.ite (fun _ => local_enterRecovering k _ _ s) fun _ => .refl k s

theorem local_shadowHeardInput (k : SectorNo) (s : State) : Local k s (shadowHeardInput k s) := by
  unfold shadowHeardInput
  try dsimp only
  exact Local.ite (fun _ => local_enterRecovering k _ _ s) fun _ => .refl k s

theorem local_changeOfN (k : SectorNo) (s : State) : Local k s (changeOfN k s) := by
  unfold changeOfN
  dsimp only
  split
  · exact local_testThreshold k s
  · exact .ite (fun _ => local_closeEpisode k _ s) fun _ => local_modRecord k _ s
  · exact .ite (fun _ => local_changeEpisode k _ _ _ s) fun _ => local_modRecord k _ s
  · exact .ite (fun _ => .refl k s) fun _ => local_changeEpisode k _ _ _ s

theorem local_handInputs (k : SectorNo) (inp : Inputs) (n : Nat) (s : State) : Local k s (handInputs k inp n s) := by
  have h1 : Local k s (if inp.exclusion then exclusionInput k s else s) :=
    Local.ite (fun _ => local_exclusionInput k s) fun _ => .refl k s
  have h2 : ∀ t, Local k t (if inp.fade then fadeInput k t else t) := fun t =>
    Local.ite (fun _ => local_fadeInput k t) fun _ => .refl k t
  have h3 : ∀ t, Local k t (if inp.shadowHeard then shadowHeardInput k t else t) := fun t =>
    Local.ite (fun _ => local_shadowHeardInput k t) fun _ => .refl k t
  have h4 : ∀ t, Local k t (if (t.sector k).n = n then t else changeOfN k t) := fun t =>
    Local.ite (fun _ => .refl k t) fun _ => local_changeOfN k t
  unfold handInputs
  dsimp only
  exact ((h1.trans (h2 _)).trans (h3 _)).trans (h4 _)

theorem local_closeForEvent (k : SectorNo) (cause : EpisodeCause) (s : State) : Local k s (closeForEvent k cause s) := by
  unfold closeForEvent
  try dsimp only
  exact Local.ite (fun _ => local_closeEpisode k _ s) fun _ => .refl k s

theorem local_holdDownExpires (k : SectorNo) (s : State) : Local k s (holdDownExpires k s) := by
  unfold holdDownExpires
  try dsimp only
  exact Local.ite (fun _ => local_enterRecovering k _ _ s) fun _ => .refl k s

theorem local_settleExpires (k : SectorNo) (s : State) : Local k s (settleExpires k s) := by
  unfold settleExpires
  try dsimp only
  exact Local.ite (fun _ => local_closeEpisode k _ s) fun _ => .refl k s

theorem local_countEpisode (k : SectorNo) (g : Nat) (s : State) : Local k s (countEpisode k g s) := by
  unfold countEpisode
  split
  · exact .refl k s
  · exact .refl k s
  · exact (local_modEpisode k _ s).trans (local_holdDownExpires k _)
  · exact (local_modEpisode k _ s).trans (local_settleExpires k _)

/-! ### One remote's step (Section 2, 2.1) -/

theorem mapWatches_frame (f : Expectation → Expectation) (p : Plan) : (p.mapWatches f).frame = p.frame := rfl

theorem stable_voidFor (r : RemoteNo) (st : RState) (x : Sector) : Stable x (voidFor r st x) :=
  ⟨⟨rfl, rfl, rfl, rfl, rfl, rfl, rfl, rfl, rfl, rfl⟩, by simp [voidFor, Function.comp_def, mapWatches_frame]⟩

theorem stable_stampsIfEmptied (x : Sector) : Stable x (stampsIfEmptied x) := by
  unfold stampsIfEmptied
  split <;> exact ⟨⟨rfl, rfl, rfl, rfl, rfl, rfl, rfl, rfl, rfl, rfl⟩, rfl⟩

theorem stable_leaveState (r : RemoteNo) (old : RState) (placed : Bool) (x : Sector) :
    Stable x (leaveState r old placed x) := by
  unfold leaveState
  split
  · split
    · exact stable_stampsIfEmptied x
    · exact (show Stable x { x with roster := x.roster.drop r } from ⟨⟨rfl, rfl, rfl, rfl, rfl, rfl, rfl, rfl, rfl, rfl⟩, rfl⟩).trans
        (stable_stampsIfEmptied _)
  · exact ⟨⟨rfl, rfl, rfl, rfl, rfl, rfl, rfl, rfl, rfl, rfl⟩, rfl⟩
  · exact .refl x

theorem stable_enterRanging (r : RemoteNo) (st : RState) (x : Sector) : Stable x (enterRanging r st x) := by
  unfold enterRanging
  split
  · exact ⟨⟨rfl, rfl, rfl, rfl, rfl, rfl, rfl, rfl, rfl, rfl⟩, rfl⟩
  · exact .refl x

theorem stable_applyStep (r : RemoteNo) (e : Entry) (placed : Bool) (x : Sector) :
    Stable x (applyStep r e placed x) := by
  unfold applyStep
  dsimp only
  split
  · exact stable_setEntry _ _ _
  · exact (((stable_setEntry x r _).trans (stable_leaveState _ _ _ _)).trans (stable_enterRanging _ _ _)).trans
      (stable_voidFor _ _ _)

theorem local_logStep (k j : SectorNo) (r : RemoteNo) (info : StepInfo) (old new : Entry) (s : State) :
    Local k s (logStep j r info old new s) := by
  unfold logStep
  try dsimp only
  exact Local.ite (fun _ => .refl k s) fun _ => local_logSector k j _ s

theorem local_markStep (k : SectorNo) (r : RemoteNo) (old new : Entry) (s : State) :
    Local k s (markStep k r old new s) := by
  have h1 : Local k s (if old.shown = new.shown then s else markMirror k r s) :=
    Local.ite (fun _ => .refl k s) fun _ => local_markMirror k k r s
  have h2 : ∀ t, Local k t (if old.state = new.state then t else markCounter k t) := fun t =>
    Local.ite (fun _ => .refl k t) fun _ => local_markCounter k k t
  unfold markStep
  dsimp only
  exact h1.trans (h2 _)

theorem local_remoteStep (k : SectorNo) (r : RemoteNo) (info : StepInfo) (e : Entry) (s : State) :
    Local k s (remoteStep k r info e s) := by
  have h : ∀ new, Local k s (markStep k r (s.entry k r) new
      (logStep k r info (s.entry k r) new (modSector k (applyStep r e info.placed) s))) := fun new =>
    ((local_modSector k (applyStep r e info.placed) s (stable_applyStep _ _ _ _)).trans
      (local_logStep k k r info _ _ _)).trans (local_markStep k r _ _ _)
  unfold remoteStep
  dsimp only
  split
  · exact (h _).trans (local_handInputs k _ _ _)
  · exact h _

theorem local_stepTo (k : SectorNo) (r : RemoteNo) (st : RState) (info : StepInfo) (f : Entry → Entry) (s : State) :
    Local k s (stepTo k r st info f s) := by
  unfold stepTo
  try dsimp only
  exact local_remoteStep k r info _ s

theorem stable_restampFrom : ∀ (rs : List RemoteNo) (n : Nat) (x : Sector), Stable x (restampFrom n rs x)
  | [], _, x => .refl x
  | r :: rs, n, x => (stable_setEntry x r _).trans (stable_restampFrom rs (n + 1) _)

theorem stable_restamp (x : Sector) : Stable x (restamp x) := by
  have h := stable_restampFrom (sortBy (fun a b => (x.entry a).order ≤ (x.entry b).order) x.queued) 16384 x
  exact ⟨⟨h.mode, h.suspended, h.pendingOp, h.tunables, h.staged, h.frame, h.resync, h.pack, h.framesSeen, h.counts⟩, h.frames⟩

theorem stable_readyTail (x : Sector) : Stable x (readyTail x) := by
  unfold readyTail
  split
  · exact stable_restamp x
  · exact .refl x

theorem stable_readyHead (x : Sector) : Stable x (readyHead x) := by
  unfold readyHead
  split
  · exact stable_restamp x
  · exact .refl x

theorem local_toQueueTail (k : SectorNo) (r : RemoteNo) (info : StepInfo) (f : Entry → Entry) (s : State) :
    Local k s (toQueueTail k r info f s) := by
  unfold toQueueTail
  try dsimp only
  exact ((local_modSector k readyTail s (stable_readyTail _)).trans
    (local_modSector k _ _ ⟨⟨rfl, rfl, rfl, rfl, rfl, rfl, rfl, rfl, rfl, rfl⟩, rfl⟩)).trans (local_stepTo k r _ info _ _)

theorem local_toQueueHead (k : SectorNo) (r : RemoteNo) (info : StepInfo) (f : Entry → Entry) (s : State) :
    Local k s (toQueueHead k r info f s) := by
  unfold toQueueHead
  try dsimp only
  exact ((local_modSector k readyHead s (stable_readyHead _)).trans
    (local_modSector k _ _ ⟨⟨rfl, rfl, rfl, rfl, rfl, rfl, rfl, rfl, rfl, rfl⟩, rfl⟩)).trans (local_stepTo k r _ info _ _)

theorem local_charge (k : SectorNo) (r : RemoteNo) (cause : StateCause) (margin : Option Int) (s : State) :
    Local k s (charge k r cause margin s) := by
  unfold charge
  try dsimp only
  exact Local.ite (fun _ => local_stepTo k r _ _ _ s) fun _ => (local_stepTo k r _ _ _ s).trans (local_raiseNotice k _ _)

theorem local_promoteOne (k : SectorNo) (p : RemoteNo) (g : Nat) (r : RemoteNo) (s : State) :
    Local k s (promoteOne k p g r s) := by
  unfold promoteOne
  try dsimp only
  exact Local.ite (fun _ => local_toQueueTail k r _ _ s) fun _ => .refl k s

theorem local_promoteGroup (k : SectorNo) (p : RemoteNo) (s : State) : Local k s (promoteGroup k p s) := by
  unfold promoteGroup
  split
  · exact local_forRemotes (fun r t => local_promoteOne k p _ r t) _ s
  · exact .refl k s

theorem local_backoffExpires (k : SectorNo) (r : RemoteNo) (s : State) : Local k s (backoffExpires k r s) := by
  unfold backoffExpires
  try dsimp only
  exact Local.ite (fun _ => local_toQueueTail k r _ _ s) fun _ => .refl k s

/-! ### Outcomes (2.2 to 2.8) -/

theorem local_fadeOut (k : SectorNo) (r : RemoteNo) (o : BurstOutcome) (s : State) : Local k s (fadeOut k r o s) := by
  unfold fadeOut
  try dsimp only
  exact local_stepTo k r _ _ _ s

theorem local_servingMiss (k : SectorNo) (r : RemoteNo) (o : BurstOutcome) (s : State) :
    Local k s (servingMiss k r o s) := by
  unfold servingMiss
  try dsimp only
  exact Local.ite (fun _ => local_fadeOut k r o s) fun _ => local_modEntry k r _ s

theorem local_takeServing (k : SectorNo) (r : RemoteNo) (o : BurstOutcome) (s : State) :
    Local k s (takeServing k r o s) := by
  unfold takeServing
  split
  · exact local_modEntry k r _ s
  all_goals exact local_servingMiss k r _ s

theorem local_takeFaded (k : SectorNo) (r : RemoteNo) (o : BurstOutcome) (s : State) :
    Local k s (takeFaded k r o s) := by
  cases o
  · exact .ite (fun _ => local_stepTo k r _ _ _ s) fun _ => .refl k s
  all_goals exact .refl k s

theorem local_probeHeard (k : SectorNo) (r : RemoteNo) (scout : Bool) (m : Int) (s : State) :
    Local k s (probeHeard k r scout m s) := by
  unfold probeHeard
  try dsimp only
  exact ((local_stepTo k r _ _ _ s).trans (local_promoteGroup k r _)).trans
    (.ite (fun _ => local_scoutHeardInput k _) fun _ => .refl k _)

theorem local_probeBack (k : SectorNo) (r : RemoteNo) (cause : StateCause) (m : Int) (s : State) :
    Local k s (probeBack k r cause m s) := by
  unfold probeBack
  try dsimp only
  exact local_stepTo k r _ _ _ s

theorem local_probeGarbled (k : SectorNo) (r : RemoteNo) (solo : Bool) (s : State) :
    Local k s (probeGarbled k r solo s) := by
  unfold probeGarbled
  try dsimp only
  exact Local.ite (fun _ => local_charge k r _ _ s) fun _ =>
    .ite (fun _ => local_toQueueHead k r _ _ s) fun _ => local_toQueueHead k r _ _ s

theorem local_takeNormalProbe (k : SectorNo) (r : RemoteNo) (solo : Bool) (o : BurstOutcome) (s : State) :
    Local k s (takeNormalProbe k r solo o s) := by
  cases o
  · exact .ite (fun _ => local_probeHeard k r _ _ s) fun _ => local_probeBack k r _ _ s
  · exact local_probeBack k r _ _ s
  · exact local_charge k r _ _ s
  · exact local_probeGarbled k r _ s
  · exact local_charge k r _ _ s

theorem local_scoutBack (k : SectorNo) (r : RemoteNo) (cause : StateCause) (m : Option Int) (s : State) :
    Local k s (scoutBack k r cause m s) := by
  unfold scoutBack
  try dsimp only
  exact local_toQueueTail k r _ _ s

theorem local_takeScoutProbe (k : SectorNo) (r : RemoteNo) (o : BurstOutcome) (s : State) :
    Local k s (takeScoutProbe k r o s) := by
  cases o
  · exact .ite (fun _ => local_probeHeard k r _ _ s) fun _ => local_scoutBack k r _ _ s
  all_goals exact local_scoutBack k r _ _ s

theorem stable_setSilent (r : RemoteNo) (b : Bool) (x : Sector) : Stable x (setSilent r b x) :=
  ⟨⟨rfl, rfl, rfl, rfl, rfl, rfl, rfl, rfl, rfl, rfl⟩, rfl⟩

theorem local_failedExchange (k : SectorNo) (r : RemoteNo) (o : BurstOutcome) (s : State) :
    Local k s (failedExchange k r o s) := by
  unfold failedExchange
  try dsimp only
  exact ((local_modEntry k r _ s).trans (local_modSector k _ _ (stable_setSilent _ _ _))).trans
    (.ite (fun _ => local_charge k r _ _ _) fun _ => .ite (fun _ => local_charge k r _ _ _) fun _ => .refl k _)

theorem local_rangeDone (k : SectorNo) (r : RemoteNo) (m : Int) (s : State) : Local k s (rangeDone k r m s) := by
  unfold rangeDone
  try dsimp only
  exact local_stepTo k r _ _ _ s

theorem local_takeRange (k : SectorNo) (r : RemoteNo) (o : BurstOutcome) (s : State) :
    Local k s (takeRange k r o s) := by
  unfold takeRange
  split
  · exact Local.ite (fun _ => local_rangeDone k r _ s) fun _ => local_failedExchange k r _ s
  all_goals exact local_failedExchange k r _ s

theorem local_climbMiss (k : SectorNo) (r : RemoteNo) (o : BurstOutcome) (s : State) : Local k s (climbMiss k r o s) := by
  unfold climbMiss
  try dsimp only
  exact Local.ite (fun _ => local_fadeOut k r o s) fun _ => local_modEntry k r _ s

theorem local_climbGood (k : SectorNo) (r : RemoteNo) (m : Int) (s : State) : Local k s (climbGood k r m s) := by
  unfold climbGood
  try dsimp only
  exact Local.ite (fun _ => .ite (fun _ => local_stepTo k r _ _ _ s) fun _ => local_remoteStep k r _ _ s) fun _ =>
    local_modEntry k r _ s

theorem local_climbLow (k : SectorNo) (r : RemoteNo) (o : BurstOutcome) (m : Int) (s : State) :
    Local k s (climbLow k r o m s) := by
  unfold climbLow
  try dsimp only
  exact Local.ite (fun _ => local_climbMiss k r o s) fun _ => local_remoteStep k r _ _ s

theorem local_takeClimb (k : SectorNo) (r : RemoteNo) (o : BurstOutcome) (s : State) :
    Local k s (takeClimb k r o s) := by
  cases o
  · exact .ite (fun _ => local_climbGood k r _ s) fun _ =>
      .ite (fun _ => local_climbLow k r _ _ s) fun _ => local_modEntry k r _ s
  all_goals exact local_climbMiss k r _ s

theorem local_takeOutcome (k : SectorNo) (r : RemoteNo) (kind : WatchKind) (o : BurstOutcome) (s : State) :
    Local k s (takeOutcome k r kind o s) := by
  unfold takeOutcome
  split
  · exact local_takeServing k r o s
  · exact local_takeFaded k r o s
  · exact local_takeClimb k r o s
  · exact local_takeNormalProbe k r _ o s
  · exact local_takeScoutProbe k r o s
  · exact local_takeRange k r o s
  · exact .refl k s

theorem local_noteMargin (k : SectorNo) (r : RemoteNo) (o : BurstOutcome) (s : State) :
    Local k s (noteMargin k r o s) := by
  unfold noteMargin
  split
  · exact local_modEntry k r _ s
  all_goals exact .refl k s

/-! ### Descriptor changes (1.4) -/

theorem local_refuseLane (k : SectorNo) (r : RemoteNo) (cause : DescriptorCause) (b : Byte) (s : State) :
    Local k s (refuseLane k r cause b s) := by
  unfold refuseLane
  try dsimp only
  exact local_logSector k k _ s

theorem local_changeCeiling (k : SectorNo) (r : RemoteNo) (b : Byte) (s : State) : Local k s (changeCeiling k r b s) := by
  unfold changeCeiling
  try dsimp only
  exact Local.ite (fun _ => local_refuseLane k r _ b s) fun _ =>
    .ite (fun _ => .refl k s) fun _ => local_remoteStep k r _ _ s

theorem local_changeClass (k : SectorNo) (r : RemoteNo) (b : Byte) (s : State) : Local k s (changeClass k r b s) := by
  unfold changeClass
  try dsimp only
  exact Local.ite (fun _ => local_refuseLane k r _ b s) fun _ =>
    .ite (fun _ => .refl k s) fun _ => (local_modEntry k r _ s).trans (local_markMirror k k r _)

theorem local_changeGroup (k : SectorNo) (r : RemoteNo) (b : Byte) (s : State) : Local k s (changeGroup k r b s) := by
  unfold changeGroup
  try dsimp only
  exact Local.ite (fun _ => local_refuseLane k r _ b s) fun _ => local_modEntry k r _ s

theorem local_adminOff (info : StateCause → StepInfo) (k : SectorNo) (r : RemoteNo) (s : State) :
    Local k s (adminOff info k r s) := by
  unfold adminOff
  try dsimp only
  exact local_stepTo k r _ _ _ s

theorem local_adminOn (info : StateCause → StepInfo) (k : SectorNo) (r : RemoteNo) (s : State) :
    Local k s (adminOn info k r s) := by
  unfold adminOn
  split
  · exact local_toQueueTail k r _ _ s
  · exact local_stepTo k r _ _ _ s
  · exact local_stepTo k r _ _ _ s

theorem local_takeAdmin (info : StateCause → StepInfo) (k : SectorNo) (r : RemoteNo) (v : Bool) (s : State) :
    Local k s (takeAdmin info k r v s) := by
  unfold takeAdmin
  try dsimp only
  exact Local.ite (fun _ => .refl k s) fun _ => .ite (fun _ => local_adminOn info k r s) fun _ => local_adminOff info k r s

theorem local_setDeferred (k : SectorNo) (r : RemoteNo) (d : Option Bool) (s : State) :
    Local k s (setDeferred k r d s) := by
  unfold setDeferred
  try dsimp only
  exact (local_modEntry k r _ s).trans (.ite (fun _ => .refl k _) fun _ => local_markMirror k k r _)

theorem local_changeAdmin (k : SectorNo) (r : RemoteNo) (b : Byte) (s : State) : Local k s (changeAdmin k r b s) := by
  unfold changeAdmin
  try dsimp only
  exact Local.ite (fun _ => local_setDeferred k r _ s) fun _ => local_takeAdmin _ k r _ s

theorem local_changeDescriptor (k : SectorNo) (r : RemoteNo) (lanes : Lanes) (b : Beat) (s : State) :
    Local k s (changeDescriptor k r lanes b s) := by
  have h : ∀ (p : Bool) (f : State → State), (∀ t, Local k t (f t)) → ∀ t, Local k t (if p then f t else t) :=
    fun _ _ hf t => Local.ite (fun _ => hf t) fun _ => .refl k t
  unfold changeDescriptor
  dsimp only
  exact (((h _ _ (local_changeCeiling k r _) s).trans (h _ _ (local_changeClass k r _) _)).trans
    (h _ _ (local_changeGroup k r _) _)).trans (h _ _ (local_changeAdmin k r _) _)

theorem local_takeDeferred (info : StateCause → StepInfo) (k : SectorNo) (r : RemoteNo) (s : State) :
    Local k s (takeDeferred info k r s) := by
  unfold takeDeferred
  split
  · exact (local_takeAdmin info k r _ s).trans (local_setDeferred k r _ _)
  · exact .refl k s

theorem local_takeAllDeferred (info : StateCause → StepInfo) (k : SectorNo) (s : State) :
    Local k s (takeAllDeferred info k s) := by
  unfold takeAllDeferred
  try dsimp only
  exact local_forRemotes (fun r t => local_takeDeferred info k r t) _ s

/-! ### The remotes of a discard (R48) -/

theorem stable_clearSilent (x : Sector) : Stable x (clearSilent x) := ⟨⟨rfl, rfl, rfl, rfl, rfl, rfl, rfl, rfl, rfl, rfl⟩, rfl⟩

theorem local_requeueProbing (cause : StateCause) (k : SectorNo) (r : RemoteNo) (s : State) :
    Local k s (requeueProbing cause k r s) := by
  unfold requeueProbing
  try dsimp only
  exact Local.ite (fun _ => local_toQueueHead k r _ _ s) fun _ => .refl k s

theorem local_requeueForDiscard (cause : StateCause) (k : SectorNo) (s : State) :
    Local k s (requeueForDiscard cause k s) := by
  unfold requeueForDiscard
  try dsimp only
  split
  · exact (local_forRemotes (fun r t => local_requeueProbing cause k r t) _ s).trans
      (local_modSector k clearSilent _ (stable_clearSilent _))
  · exact .refl k s

end Sys2Proof.Machine
end

