-- ==== Sys2Proof/Laws/Engine.lean ====
section
/-! SUPPORT. Everything one claim of a sector's engine can do short of an epoch or a command, said once: the relation
`Engine k s t`, and for each operation of reports and record reads the lemma that its result is so related to its
start. -/

namespace Sys2Proof.Machine

/-- What reports and record reads keep of their own sector. -/
structure Steady (x y : Sector) : Prop where
  mode : y.mode = x.mode
  suspended : y.suspended = x.suspended
  pendingOp : y.pendingOp = x.pendingOp
  tunables : y.tunables = x.tunables
  staged : y.staged = x.staged
  frame : y.frame = x.frame
  resync : y.resyncPending = x.resyncPending
  framesSeen : y.framesSeen = x.framesSeen
  frames : y.history.map Plan.frame = x.history.map Plan.frame

/-- A claim of sector k's engine that leaves mode, flag, pending operation, tunables and frame state. -/
structure Engine (k : SectorNo) (s t : State) : Prop extends Quiet s t where
  others : OtherSectors k s t
  steady : Steady (s.sector k) (t.sector k)

theorem Stable.steady {x y : Sector} (h : Stable x y) : Steady x y :=
  ⟨h.mode, h.suspended, h.pendingOp, h.tunables, h.staged, h.frame, h.resync, h.framesSeen, h.frames⟩

theorem Steady.trans {x y z : Sector} (h : Steady x y) (g : Steady y z) : Steady x z :=
  ⟨g.mode.trans h.mode, g.suspended.trans h.suspended, g.pendingOp.trans h.pendingOp, g.tunables.trans h.tunables,
   g.staged.trans h.staged, g.frame.trans h.frame, g.resync.trans h.resync, g.framesSeen.trans h.framesSeen,
   g.frames.trans h.frames⟩

theorem Local.engine {k : SectorNo} {s t : State} (h : Local k s t) : Engine k s t :=
  ⟨h.toQuiet, h.others, h.stable.steady⟩

theorem Engine.refl (k : SectorNo) (s : State) : Engine k s s := (Local.refl k s).engine

theorem Engine.trans {k : SectorNo} {s t u : State} (h : Engine k s t) (g : Engine k t u) : Engine k s u :=
  ⟨h.toQuiet.trans g.toQuiet, fun j hj => (g.others j hj).trans (h.others j hj), h.steady.trans g.steady⟩

theorem Engine.ite {k : SectorNo} {s t u : State} {p : Prop} [Decidable p] (h : p → Engine k s t)
    (g : ¬p → Engine k s u) : Engine k s (if p then t else u) := by
  split
  · exact h ‹_›
  · exact g ‹_›

theorem engine_foldl {α : Type} {k : SectorNo} (f : State → α → State) (h : ∀ s a, Engine k s (f s a)) :
    ∀ (l : List α) (s : State), Engine k s (l.foldl f s)
  | [], s => .refl k s
  | a :: l, s => (h s a).trans (engine_foldl f h l (f s a))

theorem engine_modSector (k : SectorNo) (f : Sector → Sector) (s : State) (h : Steady (s.sector k) (f (s.sector k))) :
    Engine k s (modSector k f s) :=
  ⟨(quiet_modSector k f s), fun _ hj => sector_modSector_of_ne hj f s, by rw [sector_modSector_self]; exact h⟩

theorem engine_takeOutcome (k : SectorNo) (r : RemoteNo) (kind : WatchKind) (o : BurstOutcome) (s : State) :
    Engine k s (takeOutcome k r kind o s) := (local_takeOutcome k r kind o s).engine

theorem engine_noteMargin (k : SectorNo) (r : RemoteNo) (o : BurstOutcome) (s : State) :
    Engine k s (noteMargin k r o s) := (local_noteMargin k r o s).engine

theorem engine_stepTo (k : SectorNo) (r : RemoteNo) (st : RState) (info : StepInfo) (f : Entry → Entry) (s : State) :
    Engine k s (stepTo k r st info f s) := (local_stepTo k r st info f s).engine

theorem engine_raiseNotice (k : SectorNo) (kind : NoticeKind) (s : State) : Engine k s (raiseNotice kind s) :=
  (local_raiseNotice k kind s).engine

theorem engine_logFrame (k j : SectorNo) (f : Frame) (b : RecordBody) (s : State) : Engine k s (logFrame j f b s) :=
  (local_logFrame k j f b s).engine

theorem engine_markCounter (k j : SectorNo) (s : State) : Engine k s (markCounter j s) :=
  (local_markCounter k j s).engine

theorem engine_bumpCounts (k : SectorNo) (f : ReportCounts → ReportCounts) (s : State) :
    Engine k s (bumpCounts k f s) := by
  unfold bumpCounts
  try dsimp only
  exact (engine_modSector k _ s ⟨rfl, rfl, rfl, rfl, rfl, rfl, rfl, rfl, rfl⟩).trans (engine_markCounter k k _)

/-! ### Plans and reports (Sections 4 and 5) -/

theorem steady_modPlan (f : Frame) (g : Plan → Plan) (hg : ∀ p, (g p).frame = p.frame) (x : Sector) :
    Steady x (modPlan f g x) := by
  refine ⟨rfl, rfl, rfl, rfl, rfl, rfl, rfl, rfl, ?_⟩
  simp only [modPlan, List.map_map]
  apply List.map_congr_left
  intro p _
  simp only [Function.comp_apply]
  split
  · exact hg p
  · rfl

theorem engine_resolve (k : SectorNo) (f : Frame) (slot minislot : Nat) (c : Condition) (s : State) :
    Engine k s (modSector k (modPlan f (Plan.setCondition slot minislot c)) s) :=
  engine_modSector k _ s (steady_modPlan f _ (by intro p; rfl) _)

theorem engine_timeoutOne (k : SectorNo) (f : Frame) (slot minislot : Nat) (s : State) :
    Engine k s (timeoutOne k f slot minislot s) := by
  unfold timeoutOne
  split
  · split
    · exact (engine_resolve k f slot minislot _ s).trans (engine_takeOutcome k _ _ _ _)
    · exact .refl k s
    · exact .refl k s
  · exact .refl k s

theorem engine_timeoutPlan (k : SectorNo) (f : Frame) (count : Nat) (s : State) : Engine k s (timeoutPlan k f count s) := by
  unfold timeoutPlan
  try dsimp only
  exact engine_foldl _ (fun t slot => engine_foldl _ (fun u m => engine_timeoutOne k f slot m u) _ t) _ s

theorem engine_reportFault (k : SectorNo) (f : Frame) (cause : ReportFault) (r : Option RemoteNo) (d : Nat) (s : State) :
    Engine k s (reportFault k f cause r d s) := by
  unfold reportFault
  try dsimp only
  exact (engine_logFrame k k f _ s).trans (engine_raiseNotice k _ _)

theorem engine_bumpTorn (k : SectorNo) (s : State) : Engine k s (bumpTorn k s) := by
  unfold bumpTorn
  try dsimp only
  exact engine_bumpCounts k _ s

theorem engine_tear (k : SectorNo) (a b : Addr) (s : State) : Engine k s (tear k a b s) := by
  unfold tear
  try dsimp only
  exact (engine_reportFault k _ _ _ _ s).trans (engine_bumpTorn k _)

theorem engine_takeStray (k : SectorNo) (p : Report) (s : State) : Engine k s (takeStray k p s) := by
  unfold takeStray
  try dsimp only
  exact (engine_reportFault k _ _ _ _ s).trans (engine_bumpCounts k _ _)

theorem engine_takeMismatch (k : SectorNo) (plan : Plan) (w : Expectation) (p : Report) (s : State) :
    Engine k s (takeMismatch k plan w p s) := by
  unfold takeMismatch
  try dsimp only
  exact (((engine_reportFault k _ _ _ _ s).trans (engine_bumpCounts k _ _)).trans (engine_resolve k _ _ _ _ _)).trans
    (engine_takeOutcome k _ _ _ _)

theorem engine_takeMatched (k : SectorNo) (plan : Plan) (w : Expectation) (p : Report) (s : State) :
    Engine k s (takeMatched k plan w p s) := by
  unfold takeMatched
  try dsimp only
  exact (((engine_resolve k _ _ _ _ s).trans (engine_bumpCounts k _ _)).trans (engine_noteMargin k _ _ _)).trans
    (engine_takeOutcome k _ _ _ _)

theorem engine_takeAtSlot (k : SectorNo) (plan : Plan) (p : Report) (s : State) : Engine k s (takeAtSlot k plan p s) := by
  unfold takeAtSlot
  split
  · exact engine_bumpCounts k _ s
  · split
    · exact engine_bumpCounts k _ s
    · exact (engine_reportFault k _ _ _ _ s).trans (engine_bumpCounts k _ _)
    · exact .ite (fun _ => engine_takeMismatch k plan _ p s) fun _ => engine_takeMatched k plan _ p s

theorem engine_matchReport (k : SectorNo) (p : Report) (s : State) : Engine k s (matchReport k p s) := by
  unfold matchReport
  split
  · exact engine_takeStray k p s
  · exact .ite (fun _ => engine_takeStray k p s) fun _ =>
      .ite (fun _ => engine_takeStray k p s) fun _ => engine_takeAtSlot k _ p s

theorem engine_takeReport (k : SectorNo) (p : Report) (s : State) : Engine k s (takeReport k p s) := by
  unfold takeReport
  try dsimp only
  exact Engine.ite (fun _ => engine_bumpCounts k _ s) fun _ =>
    .ite (fun _ => engine_bumpCounts k _ s) fun _ => engine_matchReport k p s

theorem engine_completeRecord (k : SectorNo) (a b : Addr) (r : Beat) (s : State) :
    Engine k s (completeRecord k a b r s) := by
  unfold completeRecord
  try dsimp only
  exact Engine.ite (fun _ => .refl k s) fun _ =>
    .ite (fun _ => (engine_reportFault k _ _ _ _ s).trans (engine_bumpTorn k _)) fun _ => engine_takeReport k _ s

theorem engine_setPack (k : SectorNo) (p : Option Pack) (s : State) : Engine k s (setPack k p s) := by
  unfold setPack
  try dsimp only
  exact engine_modSector k _ s ⟨rfl, rfl, rfl, rfl, rfl, rfl, rfl, rfl, rfl⟩

theorem engine_startQuarter (k : SectorNo) (a b : Addr) (q : Fin 4) (v : BitVec 16) (s : State) :
    Engine k s (startQuarter k a b q v s) := by
  unfold startQuarter
  try dsimp only
  exact Engine.ite (fun _ => engine_setPack k _ s) fun _ => engine_tear k a b s

theorem engine_takeQuarter (k : SectorNo) (a b : Addr) (q : Fin 4) (v : BitVec 16) (s : State) :
    Engine k s (takeQuarter k a b q v s) := by
  unfold takeQuarter
  split
  · exact engine_startQuarter k a b q v s
  · exact .ite (fun _ => .ite (fun _ => (engine_setPack k _ s).trans (engine_completeRecord k _ _ _ _)) fun _ =>
        engine_setPack k _ s)
      fun _ => ((engine_tear k _ _ s).trans (engine_setPack k _ _)).trans (engine_startQuarter k a b q v _)

theorem engine_takeFullRecord (k : SectorNo) (a b : Addr) (r : Beat) (s : State) :
    Engine k s (takeFullRecord k a b r s) := by
  unfold takeFullRecord
  split
  · exact engine_completeRecord k _ _ _ s
  · exact ((engine_tear k _ _ s).trans (engine_setPack k _ _)).trans (engine_completeRecord k _ _ _ _)

theorem engine_takeReportBeat (k : SectorNo) (b a : Addr) (lanes : Lanes) (r : Beat) (s : State) :
    Engine k s (takeReportBeat k b a lanes r s) := by
  unfold takeReportBeat
  split
  · exact engine_takeFullRecord k _ _ _ s
  · split
    · exact engine_takeQuarter k _ _ _ _ s
    · exact (engine_reportFault k _ _ _ _ s).trans (engine_bumpTorn k _)

theorem engine_takeReportBeats (k : SectorNo) (b : Addr) (lanes : Lanes) : ∀ (data : List Beat) (a : Addr) (s : State),
    Engine k s (takeReportBeats k b lanes a data s)
  | [], _, s => .refl k s
  | r :: data, a, s => (engine_takeReportBeat k b a lanes r s).trans (engine_takeReportBeats k b lanes data (a + 8) _)

/-! ### Record reads (4.6) -/

theorem engine_storeDecision (k : SectorNo) (f : Frame) (slot : Nat) (d : Decision) (r : Option Beat) (s : State) :
    Engine k s (storeDecision k f slot d r s) := by
  unfold storeDecision
  try dsimp only
  exact engine_modSector k _ s (steady_modPlan f _ (by intro p; rfl) _)

theorem engine_decideRange (k : SectorNo) (f : Frame) (slot : Nat) (r : RemoteNo) (s : State) :
    Engine k s (decideRange k f slot r s).state := by
  unfold decideRange
  try dsimp only
  exact (engine_modSector k (fun x => { x with waitList := x.waitList.filter (· ≠ r) }) s
    ⟨rfl, rfl, rfl, rfl, rfl, rfl, rfl, rfl, rfl⟩).trans (engine_storeDecision k f slot _ _ _)

theorem engine_decideProbe (k : SectorNo) (f : Frame) (slot : Nat) (s : State) :
    Engine k s (decideProbe k f slot s).state := by
  unfold decideProbe
  try dsimp only
  exact ((engine_modSector k (fun x => { x with roster := x.roster.take (s.sector k).roster.supply }) s
    ⟨rfl, rfl, rfl, rfl, rfl, rfl, rfl, rfl, rfl⟩).trans
      (engine_foldl (placeOne k) (fun t _ => engine_stepTo k _ _ _ _ t) _ _)).trans (engine_storeDecision k f slot _ _ _)

theorem engine_decideIdle (k : SectorNo) (f : Frame) (slot : Nat) (s : State) :
    Engine k s (decideIdle k f slot s).state := by
  unfold decideIdle
  try dsimp only
  exact engine_storeDecision k f slot _ _ s

theorem engine_decideRestore (k : SectorNo) (p : Plan) (slot : Nat) (s : State) :
    Engine k s (decideRestore k p slot s).state := by
  unfold decideRestore
  split
  · exact engine_decideRange k _ _ _ s
  · split
    · exact engine_decideProbe k _ _ s
    · exact engine_decideIdle k _ _ s

theorem engine_decideDataUp (k : SectorNo) (p : Plan) (slot : Nat) (b : Beat) (raw : RawRecord) (s : State) :
    Engine k s (decideDataUp k p slot b raw s).state := by
  unfold decideDataUp
  dsimp only
  split
  · exact engine_storeDecision k _ _ _ _ s
  · exact engine_storeDecision k _ _ _ _ s
  · exact engine_storeDecision k _ _ _ _ s
  · split
    · exact engine_decideRange k _ _ _ s
    · exact engine_decideIdle k _ _ s
  · split
    · exact engine_decideProbe k _ _ s
    · exact engine_decideIdle k _ _ s
  · split
    · exact engine_decideProbe k _ _ s
    · exact engine_decideIdle k _ _ s
  all_goals exact engine_decideIdle k _ _ s

theorem engine_decideDataDown (k : SectorNo) (p : Plan) (slot : Nat) (b : Beat) (raw : RawRecord) (s : State) :
    Engine k s (decideDataDown k p slot b raw s).state := by
  unfold decideDataDown
  dsimp only
  split
  all_goals exact engine_storeDecision k _ _ _ _ s

theorem engine_decideActive (k : SectorNo) (p : Plan) (slot : Nat) (b : Beat) (s : State) :
    Engine k s (decideActive k p slot b s).state := by
  unfold decideActive
  dsimp only
  split
  · exact engine_storeDecision k _ _ _ _ s
  · exact engine_storeDecision k _ _ _ _ s
  · exact engine_decideDataUp k _ _ _ _ s
  · exact engine_decideDataDown k _ _ _ _ s
  · exact engine_decideRestore k _ _ s

theorem engine_takeRecordIn (k : SectorNo) (p : Plan) (slot : Nat) (b : Beat) (s : State) :
    Engine k s (takeRecordIn k p slot b s).state := by
  unfold takeRecordIn
  split
  · exact .refl k s
  · split
    · exact engine_storeDecision k _ _ _ _ s
    · exact .refl k s
  · split
    · exact engine_decideActive k _ _ _ s
    · exact .refl k s
    · exact .refl k s

theorem engine_takeRecord (k : SectorNo) (buffer slot : Nat) (b : Beat) (s : State) :
    Engine k s (takeRecord k buffer slot b s).state := by
  unfold takeRecord
  split
  · exact .refl k s
  · split
    · exact engine_takeRecordIn k _ _ _ s
    · exact .refl k s

end Sys2Proof.Machine
end

