-- ==== Sys2Proof/Laws/Acts.lean ====
section
/-! SUPPORT. Everything one claim of any block can do to what the invariants speak of, said once: the relation `Act s t`, and for
each operation of the engines' modes and epochs and of the Command Channel the lemma that its result is so related to
its start. POWER_ON_RESET, the application of a load, and the Outbound Writer's own moments stand apart. -/

namespace Sys2Proof.Machine

/-! ### The relations -/

/-- The bound of the window table and the place of its ANCHOR window (R133, R134). -/
def State.tableOk (s : State) : Prop := s.windows.length ≤ 16 ∧ s.anchored

/-- A change of a sector that keeps the form of its mode and, under report latency D, of its plan history. -/
structure SecOk (D : Nat) (x y : Sector) : Prop where
  modes : x.modeOk → y.modeOk
  plans : x.plansOk D → y.plansOk D

/-- A claim of one block. -/
structure Act (s t : State) : Prop where
  dev : DeviceKept s { t with windows := s.windows }
  queue : s.recordQueueOk → t.recordQueueOk
  table : s.tableOk → t.tableOk
  sectors : ∀ j, SecOk (s.params j).latency (s.sector j) (t.sector j)
  staged : s.stagedLatencyOk → t.stagedLatencyOk

theorem SecOk.refl (D : Nat) (x : Sector) : SecOk D x x := ⟨id, id⟩

theorem SecOk.trans {D : Nat} {x y z : Sector} (h : SecOk D x y) (g : SecOk D y z) : SecOk D x z :=
  ⟨fun a => g.modes (h.modes a), fun a => g.plans (h.plans a)⟩

theorem Act.refl (s : State) : Act s s := ⟨.refl s, id, id, fun _ => .refl _ _, id⟩

/-- A claim leaves the parameters. -/
theorem Act.params {s t : State} (h : Act s t) (j : SectorNo) : t.params j = s.params j := by
  unfold State.params State.sectorConfig; rw [show t.store = s.store from h.dev.store]

theorem Act.trans {s t u : State} (h : Act s t) (g : Act t u) : Act s u :=
  ⟨⟨g.dev.pending.trans h.dev.pending, g.dev.time.trans h.dev.time, rfl, g.dev.roles.trans h.dev.roles,
    g.dev.store.trans h.dev.store, g.dev.classes.trans h.dev.classes, g.dev.floor.trans h.dev.floor,
    g.dev.log.trans h.dev.log, g.dev.head.trans h.dev.head, g.dev.tail.trans h.dev.tail,
    g.dev.buffer.trans h.dev.buffer, g.dev.lastGroup.trans h.dev.lastGroup, g.dev.faults.trans h.dev.faults,
    g.dev.base.trans h.dev.base⟩,
   fun a => g.queue (h.queue a), fun a => g.table (h.table a), fun j => (h.sectors j).trans (h.params j ▸ g.sectors j),
   fun a => g.staged (h.staged a)⟩

theorem Act.ite {s t u : State} {p : Prop} [Decidable p] (h : p → Act s t) (g : ¬p → Act s u) :
    Act s (if p then t else u) := by
  split
  · exact h ‹_›
  · exact g ‹_›

theorem act_foldl {α : Type} (f : State → α → State) (h : ∀ s a, Act s (f s a)) :
    ∀ (l : List α) (s : State), Act s (l.foldl f s)
  | [], s => .refl s
  | a :: l, s => (h s a).trans (act_foldl f h l (f s a))

theorem act_forRemotes {f : RemoteNo → State → State} (h : ∀ r s, Act s (f r s)) (rs : List RemoteNo) (s : State) :
    Act s (forRemotes rs f s) := act_foldl (fun t r => f r t) (fun s r => h r s) rs s

/-- Agreement in the fields that modeOk and plansOk read. -/
theorem SecOk.of_eq {D : Nat} {x y : Sector} (hm : y.mode = x.mode) (hs : y.suspended = x.suspended)
    (hp : y.pendingOp = x.pendingOp) (hf : y.frame = x.frame) (hh : y.history.map Plan.frame = x.history.map Plan.frame) :
    SecOk D x y := by
  constructor
  · unfold Sector.modeOk; rw [hm, hs, hp]; exact id
  · intro h
    obtain ⟨a, b, c⟩ := h
    refine ⟨by rw [hh]; exact a, ?_, ?_⟩
    · intro p hp'
      have : p.frame ∈ x.history.map Plan.frame := hh ▸ List.mem_map_of_mem hp'
      obtain ⟨q, hq, e⟩ := List.mem_map.1 this
      rw [hf, ← e]; exact b q hq
    · intro p hp'
      have e : (x.history.getLast?).map Plan.frame = some p.frame := by
        rw [← List.getLast?_map, ← hh, List.getLast?_map, hp']; rfl
      obtain ⟨q, hq, e'⟩ := Option.map_eq_some_iff.1 e
      rw [hf, ← e']; exact c q hq

/-- A sector with no plan history keeps the form of one. -/
theorem plansOk_of_nil {x : Sector} (h : x.history = []) (D : Nat) : x.plansOk D := by
  refine ⟨by simp [h], ?_, ?_⟩ <;> simp [h]

theorem Engine.act {k : SectorNo} {s t : State} (h : Engine k s t) : Act s t := by
  refine ⟨⟨h.dev.pending, h.dev.time, rfl, h.dev.roles, h.dev.store, h.dev.classes, h.dev.floor, h.dev.log, h.dev.head,
    h.dev.tail, h.dev.buffer, h.dev.lastGroup, h.dev.faults, h.dev.base⟩, h.queue, ?_, ?_, ?_⟩
  · unfold State.tableOk State.anchored; rw [h.dev.windows, h.channel]; exact id
  · intro j
    by_cases hj : j = k
    · subst hj
      exact .of_eq h.steady.mode h.steady.suspended h.steady.pendingOp h.steady.frame h.steady.frames
    · rw [h.others j hj]; exact .refl _ _
  · unfold State.stagedLatencyOk; rw [h.channel]; exact id

theorem Local.act {k : SectorNo} {s t : State} (h : Local k s t) : Act s t := h.engine.act

/-- A change of no sector, window or channel. -/
theorem Quiet.act {s t : State} (h : Quiet s t) (hs : t.sectors = s.sectors) : Act s t := (Local.of_quiet h hs 0).act

/-- A change of one sector that keeps its form. -/
theorem act_modSector (k : SectorNo) (f : Sector → Sector) (s : State) (h : SecOk (s.params k).latency (s.sector k) (f (s.sector k))) :
    Act s (modSector k f s) := by
  refine ⟨⟨rfl, rfl, rfl, rfl, rfl, rfl, rfl, rfl, rfl, rfl, rfl, rfl, rfl, rfl⟩, id, id, ?_, id⟩
  intro j
  by_cases hj : j = k
  · subst hj; rw [sector_modSector_self]; exact h
  · rw [sector_modSector_of_ne hj]; exact .refl _ _

/-! ### The Command Channel's results and reads (R160, R161) -/

theorem act_markDevice (s : State) : Act s (markDevice s) := (quiet_markDevice s).act rfl

theorem act_markCounter (k : SectorNo) (s : State) : Act s (markCounter k s) := (local_markCounter k k s).act

theorem act_raiseNotice (kind : NoticeKind) (s : State) : Act s (raiseNotice kind s) := (local_raiseNotice 0 kind s).act

theorem act_logFor (k : Option SectorNo) (b : RecordBody) (s : State) : Act s (logFor k b s) := (local_logFor 0 k b s).act

theorem act_setPendingNotices (p : BitVec 8) (s : State) : Act s (setPendingNotices p s) :=
  (quiet_setPendingNotices p s).act (setPendingNotices_sectors p s)

/-- The result word's and the held results' own fields are none that an invariant speaks of. -/
theorem act_enterPending (r : Result) (s : State) : Act s (enterPending r s) := by
  unfold enterPending
  refine Act.trans ?_ (act_logFor _ _ _)
  exact ⟨⟨rfl, rfl, rfl, rfl, rfl, rfl, rfl, rfl, rfl, rfl, rfl, rfl, rfl, rfl⟩, id, id, fun _ => .refl _ _, id⟩

theorem act_deliver (r : Result) (s : State) : Act s (deliver r s) := by
  unfold deliver
  refine Act.ite (fun _ => act_enterPending r s) fun _ => ?_
  exact ⟨⟨rfl, rfl, rfl, rfl, rfl, rfl, rfl, rfl, rfl, rfl, rfl, rfl, rfl, rfl⟩, id, id, fun _ => .refl _ _, id⟩

theorem act_answer (c : Command) (code : ResultCode) (d : Half) (s : State) : Act s (answer c code d s) :=
  act_deliver _ s

/-- A phase that carries a validated configuration carries latencies in range. -/
def Phase.latencyOk (p : Phase) : Prop :=
  ∀ setup staged k r late, p = .readingDescriptors setup staged k r late →
    ∀ (j : SectorNo) (x : SectorSetup), setup.sectors[j] = some x → x.params.latency ≤ 4

/-- A change of the command in flight alone. -/
theorem act_inFlight (g : Option InFlight) (s : State)
    (h : s.stagedLatencyOk → ∀ f, g = some f → f.phase.latencyOk) :
    Act s { s with channel := { s.channel with inFlight := g } } := by
  refine ⟨⟨rfl, rfl, rfl, rfl, rfl, rfl, rfl, rfl, rfl, rfl, rfl, rfl, rfl, rfl⟩, id, id, fun _ => .refl _ _, ?_⟩
  intro a f setup staged k r late hf hp
  exact h a f hf setup staged k r late hp

theorem act_setPhase (p : Phase) (s : State) (h : s.stagedLatencyOk → p.latencyOk) : Act s (setPhase p s) := by
  unfold setPhase
  split
  · refine act_inFlight _ s ?_
    intro a f hf
    obtain rfl := Option.some.inj hf
    exact h a
  · exact .refl s

theorem act_finish (code : ResultCode) (d : Half) (s : State) : Act s (finish code d s) := by
  unfold finish
  split
  · refine (act_setPhase .decided s ?_).trans (act_deliver _ _)
    intro _ _ _ _ _ _ e; cases e
  · exact .refl s

theorem act_beginCommand (c : Command) (s : State) : Act s (beginCommand c s) := by
  unfold beginCommand
  refine (act_inFlight (some { cmd := c, phase := .decided }) s ?_).trans (act_markDevice _)
  intro _ f hf; obtain rfl := Option.some.inj hf; intro _ _ _ _ _ e; cases e

theorem act_read (t : Option ReadTarget) (s : State) : Act s { s with channel := { s.channel with read := t } } :=
  ⟨⟨rfl, rfl, rfl, rfl, rfl, rfl, rfl, rfl, rfl, rfl, rfl, rfl, rfl, rfl⟩, id, id, fun _ => .refl _ _, id⟩

theorem act_waitRead (t : Option ReadTarget) (s : State) : Act s (waitRead t s) := act_read t s

/-- A change of the ports alone. -/
theorem act_ports (p : Ports) (s : State) : Act s { s with ports := p } :=
  ⟨⟨rfl, rfl, rfl, rfl, rfl, rfl, rfl, rfl, rfl, rfl, rfl, rfl, rfl, rfl⟩, id, id, fun _ => .refl _ _, id⟩

theorem act_dropReads (s : State) : Act s (dropReads s) :=
  ⟨⟨rfl, rfl, rfl, rfl, rfl, rfl, rfl, rfl, rfl, rfl, rfl, rfl, rfl, rfl⟩, id, id, fun _ => .refl _ _, id⟩

/-! ### Changes of the window table (R135) -/

/-- A change of the table that keeps its bound and its first window. -/
theorem act_windows (ws : List Window) (s : State)
    (h : s.tableOk → ws.length ≤ 16 ∧ ws.head? = s.windows.head?) : Act s { s with windows := ws } := by
  refine ⟨⟨rfl, rfl, rfl, rfl, rfl, rfl, rfl, rfl, rfl, rfl, rfl, rfl, rfl, rfl⟩, id, ?_, fun _ => .refl _ _, id⟩
  intro a
  obtain ⟨h1, h2⟩ := h a
  exact ⟨h1, by rw [show ({ s with windows := ws } : State).windows = ws from rfl, h2]; exact a.2.1, a.2.2⟩

/-- A map over the table that keeps the ANCHOR window keeps the first one. -/
theorem head_map_of_anchor {ws : List Window} {b : Addr} {f : Window → Window}
    (h : ws.head? = some (Window.anchorAt b)) (hf : ∀ w, w.kind = .anchor → f w = w) :
    (ws.map f).head? = ws.head? := by
  cases ws with
  | nil => rfl
  | cons w ws => simp at h; simp [h, hf (Window.anchorAt b) rfl]

theorem head_filter_of_anchor {ws : List Window} {b : Addr} {p : Window → Bool}
    (h : ws.head? = some (Window.anchorAt b)) (hp : ∀ w, w.kind = .anchor → p w = true) :
    (ws.filter p).head? = ws.head? := by
  cases ws with
  | nil => rfl
  | cons w ws => simp at h; simp [h, hp (Window.anchorAt b) rfl]

theorem act_moveWindow (kind : WindowKind) (k : SectorNo) (b : Addr) (e : Nat) (s : State) (h : kind ≠ .anchor) :
    Act s (moveWindow kind k b e s) := by
  refine act_windows _ s fun a => ⟨by simpa using a.1, head_map_of_anchor a.2.1 ?_⟩
  intro w hw
  rw [if_neg]
  rintro ⟨e, -⟩
  exact h (e ▸ hw)

theorem act_addMapWindow (k : SectorNo) (b : Addr) (s : State) (h : s.windows.length < 16) :
    Act s (addMapWindow k b s) := by
  refine act_windows _ s fun a => ⟨by simp; omega, ?_⟩
  rw [List.head?_append, head_map_of_anchor a.2.1]
  · rw [a.2.1]; rfl
  · intro w hw; rw [if_neg]; simp [hw]

theorem act_keepMap (k : SectorNo) (m : RelocMark) (s : State) (ws : List Window)
    (h : ws = (s.windows.filter fun w => !(w.kind = .map && w.sector = some k && w.mark = m)).map
      fun w => if w.kind = .map ∧ w.sector = some k then { w with mark := .none } else w) :
    Act s { s with windows := ws } := by
  subst h
  refine act_windows _ s fun a => ?_
  have hd := head_filter_of_anchor (p := fun w => !(w.kind = .map && w.sector = some k && w.mark = m)) a.2.1
    (by intro w hw; simp [hw])
  constructor
  · rw [List.length_map]; exact (List.length_filter_le _ _).trans a.1
  · rw [head_map_of_anchor (hd.trans a.2.1), hd]
    intro w hw; rw [if_neg]; simp [hw]

theorem act_keepNewMap (k : SectorNo) (s : State) : Act s (keepNewMap k s) := act_keepMap k .old s _ rfl

theorem act_keepOldMap (k : SectorNo) (s : State) : Act s (keepOldMap k s) := act_keepMap k .new s _ rfl

/-! ### Modes, suspension, reset (R147 to R152) -/

theorem act_stepTo (k : SectorNo) (r : RemoteNo) (st : RState) (info : StepInfo) (f : Entry → Entry) (s : State) :
    Act s (stepTo k r st info f s) := (local_stepTo k r st info f s).act

theorem act_toQueueTail (k : SectorNo) (r : RemoteNo) (info : StepInfo) (f : Entry → Entry) (s : State) :
    Act s (toQueueTail k r info f s) := (local_toQueueTail k r info f s).act

theorem act_setPendingOp (k : SectorNo) (p : Option PendingOp) (s : State) (h : p ≠ some (.modeChange .pass)) :
    Act s (setPendingOp k p s) :=
  act_modSector k _ s ⟨fun a => ⟨a.1, h⟩, id⟩

/-- A change to SHADOW or ACTIVE. -/
theorem act_setModeTo (k : SectorNo) (m : Mode) (s : State) (h : m = .pass → (s.sector k).suspended = false) :
    Act s (setModeTo k m s) :=
  (act_modSector k (fun x => { x with mode := m }) s ⟨fun a => ⟨h, a.2⟩, id⟩).trans (act_markCounter k _)

theorem act_setSuspended (k : SectorNo) (b : Bool) (s : State) (h : (s.sector k).mode = .pass → b = false) :
    Act s (setSuspended k b s) :=
  (act_modSector k (fun x => { x with suspended := b }) s ⟨fun a => ⟨h, a.2⟩, id⟩).trans (act_markCounter k _)

theorem secOk_discard {D : Nat} {x y : Sector} (hm : y.mode = x.mode) (hs : y.suspended = x.suspended)
    (hp : y.pendingOp = x.pendingOp) (hh : y.history = []) : SecOk D x y :=
  ⟨by unfold Sector.modeOk; rw [hm, hs, hp]; exact id, fun _ => plansOk_of_nil hh D⟩

theorem act_toService (cause : StateCause) (k : SectorNo) (r : RemoteNo) (s : State) : Act s (toService cause k r s) := by
  unfold toService
  dsimp only
  exact Act.ite (fun _ => .refl s) fun _ => act_stepTo k r _ _ _ s

theorem local_toService (cause : StateCause) (k : SectorNo) (r : RemoteNo) (s : State) :
    Local k s (toService cause k r s) := by
  unfold toService
  dsimp only
  exact Local.ite (fun _ => .refl k s) fun _ => local_stepTo k r _ _ _ s

theorem act_changeToPass (k : SectorNo) (s : State) : Act s (changeToPass k s) := by
  unfold changeToPass
  dsimp only
  refine Act.trans (t := if (s.sector k).suspended then takeAllDeferred StepInfo.silent k (setSuspended k false s) else s) ?_ ?_
  · exact Act.ite (fun _ => (act_setSuspended k false s fun _ => rfl).trans (local_takeAllDeferred _ k _).act) fun _ => .refl s
  have hs : ((if (s.sector k).suspended then takeAllDeferred StepInfo.silent k (setSuspended k false s) else s).sector k).suspended
      = false := by
    split
    · rw [(local_takeAllDeferred _ k _).stable.suspended]; simp [setSuspended, markCounter, State.sector, modSector, State.setSector]
    · rename_i hb; simpa using hb
  generalize (if (s.sector k).suspended then takeAllDeferred StepInfo.silent k (setSuspended k false s) else s) = u at hs
  have h1 := act_modSector k (fun x => { discardForEvent x with rangingOrder := [] }) u (secOk_discard rfl rfl rfl rfl)
  have h2 := local_forRemotes (f := toService .mode k) (local_toService .mode k) remotes
    (modSector k (fun x => { discardForEvent x with rangingOrder := [] }) u)
  have h3 := local_closeForEvent k .mode (forRemotes remotes (toService .mode k)
    (modSector k (fun x => { discardForEvent x with rangingOrder := [] }) u))
  refine (h1.trans (h2.act.trans h3.act)).trans (act_setModeTo k .pass _ fun _ => ?_)
  rw [(h2.trans h3).stable.suspended, sector_modSector_self]
  exact hs

theorem local_moveForMode (k : SectorNo) (a b : Mode) (s : State) : Local k s (moveForMode k a b s) := by
  unfold moveForMode
  split
  · refine local_forRemotes (fun r s => ?_) _ s
    unfold fadedToQueued
    exact Local.ite (fun _ => local_toQueueTail k r _ _ s) fun _ => .refl k s
  · refine local_forRemotes (fun r s => ?_) _ s
    unfold restoringToFaded
    exact Local.ite (fun _ => local_stepTo k r _ _ _ s) fun _ => .refl k s
  · exact .refl k s

theorem act_completeMode (k : SectorNo) (m : Mode) (s : State) (h : m ≠ .pass) : Act s (completeMode k m s) := by
  unfold completeMode
  dsimp only
  exact (((local_moveForMode k _ _ s).act.trans (act_setModeTo k m _ fun e => absurd e h)).trans
    (act_setPendingOp k none _ (by simp))).trans (act_finish _ _ _)

theorem act_discard (k : SectorNo) (s : State) : Act s (modSector k discardForEvent s) :=
  act_modSector k discardForEvent s (secOk_discard rfl rfl rfl rfl)

theorem act_discardRanging (k : SectorNo) (s : State) :
    Act s (modSector k (fun x => { discardForEvent x with rangingOrder := [] }) s) :=
  act_modSector k _ s (secOk_discard rfl rfl rfl rfl)

theorem act_resetStamps (k : SectorNo) (s : State) : Act s (modSector k resetStamps s) :=
  act_modSector k resetStamps s (.of_eq rfl rfl rfl rfl rfl)

theorem act_resetCounts (k : SectorNo) (s : State) :
    Act s (modSector k (fun x => { x with pack := none, framesSeen := 0, counts := ReportCounts.zero }) s) :=
  act_modSector k _ s (.of_eq rfl rfl rfl rfl rfl)

theorem act_resumeSector (k : SectorNo) (s : State) : Act s (resumeSector k s) :=
  (((act_setSuspended k false s fun _ => rfl).trans (local_takeAllDeferred _ k _).act).trans (act_discard k _)).trans
    (local_requeueForDiscard _ k _).act

theorem local_resetRemote (k : SectorNo) (r : RemoteNo) (s : State) : Local k s (resetRemote k r s) :=
  local_remoteStep k r _ _ s

theorem act_markAll (k : SectorNo) (s : State) : Act s (forRemotes remotes (markMirror k) s) :=
  act_forRemotes (fun r s => (local_markMirror k k r s).act) _ _

theorem act_resetSectorOp (k : SectorNo) (s : State) : Act s (resetSectorOp k s) :=
  ((((((act_discardRanging k s).trans (act_forRemotes (fun r s => (local_resetRemote k r s).act) _ _)).trans
    (act_resetStamps k _)).trans (local_closeForEvent k .reset _).act).trans (act_resetCounts k _)).trans
    (act_markAll k _)).trans (act_markCounter k _)

/-! ### Relocation (R153 to R156) -/

theorem act_startRelocation (k : SectorNo) (kind : RelocKind) (b : Beat) (s : State)
    (h : kind = .map → s.windows.length < 16) : Act s (startRelocation k kind b s) := by
  unfold startRelocation
  dsimp only
  have h1 := act_setPendingOp k (some (.relocation kind (stagingBase b) (relocSizeExp kind b) false)) s (by simp)
  have h2 : ∀ (d : Word) (u : State), Act u (setPhase (.relocationPending d false) u) := fun d u =>
    act_setPhase _ u (by intro _ _ _ _ _ _ e; cases e)
  cases kind
  · exact (h1.trans (act_addMapWindow k _ _ (h rfl))).trans (h2 _ _)
  · exact h1.trans (h2 _ _)
  · exact h1.trans (h2 _ _)

theorem act_completePending (k : SectorNo) (base : Addr) (s : State)
    (h : (s.sector k).pendingOp ≠ some (.modeChange .pass)) : Act s (completePending k base s) := by
  unfold completePending
  split
  · exact .refl s
  · rename_i target e
    refine act_completeMode k target s ?_
    rintro rfl
    exact h e
  · exact Act.ite (fun _ => ((act_keepNewMap k s).trans (act_setPendingOp k none _ (by simp))).trans (act_finish _ _ _))
      fun _ => .refl s
  · unfold completeReportRelocation
    dsimp only
    refine Act.trans ?_ (((act_moveWindow .report k _ _ _ (by decide)).trans (act_setPendingOp k none _ (by simp))).trans
      (act_finish _ _ _))
    split
    · exact ((engine_tear k _ _ s).trans (engine_setPack k _ _)).act
    · exact .refl s
  · refine Act.ite (fun _ => .refl s) fun _ => ?_
    unfold switchDescriptorWindow
    dsimp only
    refine ((((act_moveWindow .descriptor k _ _ s (by decide)).trans (act_setPendingOp k _ _ (by simp))).trans
      (act_setPhase _ _ ?_))).trans (act_read _ _)
    intro _ _ _ _ _ _ e; cases e

theorem act_abandonPending (k : SectorNo) (code : ResultCode) (s : State) : Act s (abandonPending k code s) := by
  unfold abandonPending
  split
  · exact .refl s
  · exact (act_setPendingOp k none _ (by simp)).trans (act_finish _ _ _)
  · exact ((act_keepOldMap k s).trans (act_setPendingOp k none _ (by simp))).trans (act_finish _ _ _)
  · exact (act_setPendingOp k none _ (by simp)).trans (act_finish _ _ _)
  · exact (act_setPendingOp k none _ (by simp)).trans (act_finish _ _ _)

end Sys2Proof.Machine
end

