-- ==== Sys2Proof/Laws/Bytes.lean ====
section
/-! SUPPORT. Bytes of the beats the part writes (Section 11): byte i of a list of bytes laid out as beats is item i of the list,
and a number laid out least significant byte first is put together again from its bytes. -/

namespace Sys2Proof.Machine

theorem ofLeBytes_lt : ∀ bs : List Byte, ofLeBytes bs < 256 ^ bs.length
  | [] => by simp [ofLeBytes]
  | b :: bs => by
    have := ofLeBytes_lt bs
    have := b.isLt
    simp only [ofLeBytes, List.length_cons, Nat.pow_succ]
    omega

theorem ofLeBytes_byte : ∀ (bs : List Byte) (i : Nat), ofLeBytes bs / 256 ^ i % 256 = (bs.getD i 0).toNat
  | [], i => by simp [ofLeBytes]
  | b :: bs, 0 => by
    have := b.isLt
    simp only [ofLeBytes, Nat.pow_zero, Nat.div_one, List.getD_cons_zero]
    omega
  | b :: bs, i + 1 => by
    have := b.isLt
    rw [List.getD_cons_succ, ← ofLeBytes_byte bs i, ofLeBytes, Nat.pow_succ, Nat.mul_comm (256 ^ i),
      ← Nat.div_div_eq_div_mul, show (b.toNat + 256 * ofLeBytes bs) / 256 = ofLeBytes bs by omega]

theorem beatByte_beatOfBytes (bs : List Byte) (i : Nat) (h : i < 8) : beatByte (beatOfBytes bs) i = bs.getD i 0 := by
  apply BitVec.eq_of_toNat_eq
  unfold beatByte beatOfBytes
  have l : (bs.take 8).length ≤ 8 := List.length_take_le 8 bs
  have lt : ofLeBytes (bs.take 8) < 2 ^ 64 :=
    Nat.lt_of_lt_of_le (ofLeBytes_lt (bs.take 8)) (Nat.pow_le_pow_right (n := 256) (by omega) l)
  rw [BitVec.extractLsb'_toNat, BitVec.toNat_ofNat, Nat.shiftRight_eq_div_pow, Nat.mod_eq_of_lt lt,
    show (2 : Nat) ^ (8 * i) = 256 ^ i from Nat.pow_mul 2 8 i, show (2 : Nat) ^ 8 = 256 from rfl, ofLeBytes_byte]
  congr 1
  simp only [List.getD_eq_getElem?_getD]
  rw [List.getElem?_take_of_lt h]

/-- Byte i of a block. -/
theorem byte_beatsOfBytes : ∀ (n : Nat) (bs : List Byte) (i : Nat), i < 8 * n →
    beatByte ((beatsOfBytes n bs).getD (i / 8) 0) (i % 8) = bs.getD i 0
  | 0, _, _, h => by omega
  | n + 1, bs, i, h => by
    by_cases hi : i < 8
    · rw [show i / 8 = 0 by omega, show i % 8 = i by omega]
      exact beatByte_beatOfBytes bs i hi
    · rw [show i / 8 = (i - 8) / 8 + 1 by omega, show i % 8 = (i - 8) % 8 by omega]
      refine (byte_beatsOfBytes n (bs.drop 8) (i - 8) (by omega)).trans ?_
      simp only [List.getD_eq_getElem?_getD, List.getElem?_drop]
      rw [show 8 + (i - 8) = i by omega]

/-- Two beats with the same bytes are equal. -/
theorem beat_ext (a b : Beat) (h : ∀ i, i < 8 → beatByte a i = beatByte b i) : a = b := by
  apply BitVec.eq_of_getLsbD_eq
  intro i hi
  have g := congrArg (fun v => v.getLsbD (i % 8)) (h (i / 8) (by omega))
  simp only [beatByte, BitVec.getLsbD_extractLsb'] at g
  rw [show 8 * (i / 8) + i % 8 = i by omega] at g
  simpa [show i % 8 < 8 by omega] using g

theorem ofNat_byte {w : Nat} (v : BitVec w) (lo : Nat) : BitVec.ofNat 8 (v.toNat / 2 ^ lo) = v.extractLsb' lo 8 := by
  apply BitVec.eq_of_toNat_eq
  rw [BitVec.extractLsb'_toNat, BitVec.toNat_ofNat, Nat.shiftRight_eq_div_pow]

theorem leBytes_half (v : BitVec 16) : leBytes 2 v.toNat = [v.extractLsb' 0 8, v.extractLsb' 8 8] := by
  rw [← ofNat_byte v 0, ← ofNat_byte v 8]
  simp [leBytes]

theorem leBytes_word (v : Word) :
    leBytes 4 v.toNat = [v.extractLsb' 0 8, v.extractLsb' 8 8, v.extractLsb' 16 8, v.extractLsb' 24 8] := by
  rw [← ofNat_byte v 0, ← ofNat_byte v 8, ← ofNat_byte v 16, ← ofNat_byte v 24]
  simp [leBytes, Nat.div_div_eq_div_mul]

theorem half_of_bytes (v : BitVec 16) : v.extractLsb' 8 8 ++ v.extractLsb' 0 8 = v := by
  apply BitVec.eq_of_getLsbD_eq
  intro i hi
  simp only [BitVec.getLsbD_append, BitVec.getLsbD_extractLsb']
  by_cases h : i < 8
  · simp [h]
  · simp [h, show i - 8 < 8 by omega, show 8 + (i - 8) = i by omega]

theorem word_of_bytes (v : Word) :
    v.extractLsb' 24 8 ++ v.extractLsb' 16 8 ++ v.extractLsb' 8 8 ++ v.extractLsb' 0 8 = v := by
  apply BitVec.eq_of_getLsbD_eq
  intro i hi
  simp only [BitVec.getLsbD_append, BitVec.getLsbD_extractLsb']
  by_cases h1 : i < 8
  · simp [h1]
  · by_cases h2 : i < 16
    · simp [h1, show i - 8 < 8 by omega, show 8 + (i - 8) = i by omega]
    · by_cases h3 : i < 24
      · simp [h1, show ¬ (i - 8 < 8) by omega, show i - 8 - 8 < 8 by omega, show 16 + (i - 8 - 8) = i by omega]
      · simp [h1, show ¬ (i - 8 < 8) by omega, show ¬ (i - 8 - 8 < 8) by omega, show i - 8 - 8 - 8 < 8 by omega,
          show 24 + (i - 8 - 8 - 8) = i by omega]

theorem half_ofNat (n : Nat) : BitVec.ofNat 8 (n / 256) ++ BitVec.ofNat 8 n = BitVec.ofNat 16 n := by
  apply BitVec.eq_of_toNat_eq
  rw [BitVec.toNat_append, BitVec.toNat_ofNat, BitVec.toNat_ofNat, BitVec.toNat_ofNat,
    ← Nat.shiftLeft_add_eq_or_of_lt (by omega), Nat.shiftLeft_eq]
  omega

theorem leBytes_frame (v : BitVec 24) :
    leBytes 3 v.toNat = [v.extractLsb' 0 8, v.extractLsb' 8 8, v.extractLsb' 16 8] := by
  rw [← ofNat_byte v 0, ← ofNat_byte v 8, ← ofNat_byte v 16]
  simp [leBytes, Nat.div_div_eq_div_mul]

theorem frame_of_bytes (v : BitVec 24) : v.extractLsb' 16 8 ++ v.extractLsb' 8 8 ++ v.extractLsb' 0 8 = v := by
  apply BitVec.eq_of_getLsbD_eq
  intro i hi
  simp only [BitVec.getLsbD_append, BitVec.getLsbD_extractLsb']
  by_cases h1 : i < 8
  · simp [h1]
  · by_cases h2 : i < 16
    · simp [h1, show i - 8 < 8 by omega, show 8 + (i - 8) = i by omega]
    · simp [h1, show ¬ (i - 8 < 8) by omega, show i - 8 - 8 < 8 by omega, show 16 + (i - 8 - 8) = i by omega]

/-- The 40-bit base in the low bytes of a beat. -/
theorem base_of_bytes (b : Beat) :
    beatByte b 4 ++ beatByte b 3 ++ beatByte b 2 ++ beatByte b 1 ++ beatByte b 0 = b.extractLsb' 0 40 := by
  apply BitVec.eq_of_getLsbD_eq
  intro i hi
  simp only [beatByte, BitVec.getLsbD_append, BitVec.getLsbD_extractLsb']
  by_cases h1 : i < 8
  · simp [h1, hi]
  by_cases h2 : i < 16
  · simp [h1, hi, show i - 8 < 8 by omega, show 8 + (i - 8) = i by omega]
  by_cases h3 : i < 24
  · simp [h1, hi, show ¬ i - 8 < 8 by omega, show i - 8 - 8 < 8 by omega, show 16 + (i - 8 - 8) = i by omega]
  by_cases h4 : i < 32
  · simp [h1, hi, show ¬ i - 8 < 8 by omega, show ¬ i - 8 - 8 < 8 by omega, show i - 8 - 8 - 8 < 8 by omega,
      show 24 + (i - 8 - 8 - 8) = i by omega]
  · simp [h1, hi, show ¬ i - 8 < 8 by omega, show ¬ i - 8 - 8 < 8 by omega, show ¬ i - 8 - 8 - 8 < 8 by omega,
      show i - 8 - 8 - 8 - 8 < 8 by omega, show 32 + (i - 8 - 8 - 8 - 8) = i by omega]

/-! ### Fields of a beat as numbers -/

theorem field_eq (b : Beat) (lo len : Nat) : field b lo len = b.toNat / 2 ^ lo % 2 ^ len := by
  unfold field
  rw [BitVec.extractLsb'_toNat, Nat.shiftRight_eq_div_pow]

theorem flag_iff (b : Beat) (n : Nat) : flag b n = true ↔ b.toNat / 2 ^ n % 2 = 1 := by
  unfold flag BitVec.getLsbD Nat.testBit
  rw [Nat.shiftRight_eq_div_pow, bne_iff_ne, Nat.one_and_eq_mod_two]
  omega

theorem signedField_eq (b : Beat) (lo len : Nat) (h : 0 < len) :
    signedField b lo len =
      if b.toNat / 2 ^ lo % 2 ^ len < 2 ^ (len - 1) then ((b.toNat / 2 ^ lo % 2 ^ len : Nat) : Int)
      else (b.toNat / 2 ^ lo % 2 ^ len : Nat) - (2 : Int) ^ len := by
  unfold signedField
  rw [BitVec.toInt_eq_toNat_cond, BitVec.extractLsb'_toNat, Nat.shiftRight_eq_div_pow]
  obtain ⟨m, rfl⟩ : ∃ m, len = m + 1 := ⟨len - 1, by omega⟩
  rw [show m + 1 - 1 = m from rfl]
  have : 2 ^ (m + 1) = 2 * 2 ^ m := by rw [Nat.pow_succ]; omega
  by_cases h : b.toNat / 2 ^ lo % 2 ^ (m + 1) < 2 ^ m
  · rw [if_pos h, if_pos (by omega)]
  · rw [if_neg h, if_neg (by omega)]; push_cast; rfl

end Sys2Proof.Machine
end

