-- ==== Sys2Proof/Laws/Entries.lean ====
section
/-! SUPPORT. What one step of one remote does to the entries of its sector: the entry it writes, the others it leaves, and the
parts of the sector that only its queue, roster, ranging order and history bookkeeping touch. -/

namespace Sys2Proof.Machine

/-! ### Steps that change nothing of a sector but its episode -/

/-- Sector k differs in its episode alone. -/
def EpisodeOnly (k : SectorNo) (s t : State) : Prop := ∃ e, t.sector k = { s.sector k with episode := e }

theorem EpisodeOnly.of_sectors {s t : State} (h : t.sectors = s.sectors) (k : SectorNo) : EpisodeOnly k s t :=
  ⟨(s.sector k).episode, by simp [State.sector, h]⟩

theorem EpisodeOnly.refl (k : SectorNo) (s : State) : EpisodeOnly k s s := .of_sectors rfl k

theorem EpisodeOnly.trans {k : SectorNo} {s t u : State} (h : EpisodeOnly k s t) (g : EpisodeOnly k t u) :
    EpisodeOnly k s u := by
  obtain ⟨e, he⟩ := h
  obtain ⟨f, hf⟩ := g
  exact ⟨f, by rw [hf, he]⟩

theorem EpisodeOnly.ite {k : SectorNo} {s t u : State} {p : Prop} [Decidable p] (h : EpisodeOnly k s t)
    (g : EpisodeOnly k s u) : EpisodeOnly k s (if p then t else u) := by
  split
  · exact h
  · exact g

theorem logSector_sectors (k : SectorNo) (b : RecordBody) (s : State) : (logSector k b s).sectors = s.sectors :=
  pushRecord_sectors _ s

theorem raiseNotice_sectors (kind : NoticeKind) (s : State) : (raiseNotice kind s).sectors = s.sectors :=
  setPendingNotices_sectors _ s

theorem noticeOfChange_sectors (target : EpisodeState) (s : State) : (noticeOfChange target s).sectors = s.sectors := by
  unfold noticeOfChange
  split
  · exact raiseNotice_sectors _ s
  · exact raiseNotice_sectors _ s
  · rfl
  · rfl

theorem episodeOnly_modEpisode (k : SectorNo) (f : Episode → Episode) (s : State) : EpisodeOnly k s (modEpisode k f s) :=
  ⟨f (s.sector k).episode, by unfold modEpisode; simp⟩

theorem episodeOnly_changeEpisode (k : SectorNo) (target : EpisodeState) (cause : EpisodeCause) (f : Episode → Episode)
    (s : State) : EpisodeOnly k s (changeEpisode k target cause f s) := by
  unfold changeEpisode
  dsimp only
  refine (episodeOnly_modEpisode k (fun e => { f e with state := target }) s).trans (.of_sectors ?_ k)
  rw [noticeOfChange_sectors, markCounter_sectors, logSector_sectors]

theorem episodeOnly_testThreshold (k : SectorNo) (s : State) : EpisodeOnly k s (testThreshold k s) := by
  unfold testThreshold openEpisode
  exact .ite (episodeOnly_changeEpisode ..) (.refl k s)

theorem episodeOnly_changeOfN (k : SectorNo) (s : State) : EpisodeOnly k s (changeOfN k s) := by
  unfold changeOfN
  dsimp only
  split
  · exact episodeOnly_testThreshold k s
  · exact .ite (episodeOnly_changeEpisode ..) (episodeOnly_modEpisode ..)
  · exact .ite (episodeOnly_changeEpisode ..) (episodeOnly_modEpisode ..)
  · exact .ite (.refl k s) (episodeOnly_changeEpisode ..)

theorem episodeOnly_handInputs (k : SectorNo) (inp : Inputs) (n : Nat) (s : State) :
    EpisodeOnly k s (handInputs k inp n s) := by
  have one : ∀ (b : Bool) (f : State → State) (u : State), EpisodeOnly k u (f u) →
      EpisodeOnly k u (if b = true then f u else u) := fun b f u h => .ite h (.refl k u)
  unfold handInputs
  dsimp only
  refine (one _ _ _ ?_).trans ((one _ _ _ ?_).trans ((one _ _ _ ?_).trans (.ite (.refl k _) (episodeOnly_changeOfN k _))))
  · unfold exclusionInput modRecord
    exact .ite (episodeOnly_modEpisode ..) (.refl ..)
  · unfold fadeInput modRecord
    exact .ite (episodeOnly_modEpisode ..) (.refl ..)
  · unfold shadowHeardInput enterRecovering
    exact .ite (episodeOnly_changeEpisode ..) (.refl ..)

/-! ### One step of one remote -/

theorem logStep_sectors (k : SectorNo) (r : RemoteNo) (info : StepInfo) (old new : Entry) (s : State) :
    (logStep k r info old new s).sectors = s.sectors := by
  unfold logStep
  split
  · rfl
  · exact logSector_sectors _ _ s

theorem markStep_sectors (k : SectorNo) (r : RemoteNo) (old new : Entry) (s : State) :
    (markStep k r old new s).sectors = s.sectors := by
  unfold markStep
  dsimp only
  split <;> split <;> rfl

/-- The sector after a step: the step inside the engine, and the episode as it takes the inputs. -/
theorem remoteStep_sector (k : SectorNo) (r : RemoteNo) (info : StepInfo) (e : Entry) (s : State) :
    ∃ ep, (remoteStep k r info e s).sector k = { applyStep r e info.placed (s.sector k) with episode := ep } := by
  have base : ∀ u : State, u.sectors = (modSector k (applyStep r e info.placed) s).sectors →
      u.sector k = applyStep r e info.placed (s.sector k) := by
    intro u h
    have : u.sector k = (modSector k (applyStep r e info.placed) s).sector k := by simp [State.sector, h]
    rw [this, sector_modSector_self]
  unfold remoteStep
  dsimp only
  split
  · obtain ⟨ep, h⟩ := episodeOnly_handInputs k _ (s.sector k).n
      (markStep k r (s.entry k r) ((modSector k (applyStep r e info.placed) s).entry k r)
        (logStep k r info (s.entry k r) ((modSector k (applyStep r e info.placed) s).entry k r)
          (modSector k (applyStep r e info.placed) s)))
    exact ⟨ep, by rw [h, base _ (by rw [markStep_sectors, logStep_sectors])]⟩
  · exact ⟨_, base _ (by rw [markStep_sectors, logStep_sectors])⟩

theorem leaveState_entries (r : RemoteNo) (old : RState) (placed : Bool) (x : Sector) :
    (leaveState r old placed x).entries = x.entries := by
  unfold leaveState
  split
  · unfold stampsIfEmptied
    split <;> (split <;> rfl)
  · rfl
  · rfl

theorem enterRanging_entries (r : RemoteNo) (st : RState) (x : Sector) : (enterRanging r st x).entries = x.entries := by
  unfold enterRanging
  split <;> rfl

theorem applyStep_entries (r : RemoteNo) (e : Entry) (placed : Bool) (x : Sector) :
    (applyStep r e placed x).entries =
      (x.setEntry r { e with fadedAt := fadedAtAfter x.frame (x.entry r).state e.state (x.entry r).fadedAt }).entries := by
  unfold applyStep
  dsimp only
  split
  · rfl
  · exact (enterRanging_entries _ _ _).trans (leaveState_entries _ _ _ _)

/-- The entries after a step: the one the step writes, with faded at by R5, and the others unchanged. -/
theorem remoteStep_entry (k : SectorNo) (r q : RemoteNo) (info : StepInfo) (e : Entry) (s : State) :
    (remoteStep k r info e s).entry k q =
      if q = r then
        { e with fadedAt := fadedAtAfter (s.sector k).frame (s.entry k r).state e.state (s.entry k r).fadedAt }
      else s.entry k q := by
  obtain ⟨ep, h⟩ := remoteStep_sector k r info e s
  have : (remoteStep k r info e s).entry k q = ((s.sector k).setEntry r
      { e with fadedAt := fadedAtAfter (s.sector k).frame (s.entry k r).state e.state (s.entry k r).fadedAt }).entry q := by
    show ((remoteStep k r info e s).sector k).entries[q] = _
    rw [h]
    show (applyStep r e info.placed (s.sector k)).entries[q] = _
    simp only [applyStep_entries]
    rfl
  rw [this, entry_setEntry]
  rfl

/-- The entries after a step into a state. -/
theorem stepTo_entry (k : SectorNo) (r q : RemoteNo) (st : RState) (info : StepInfo) (f : Entry → Entry) (s : State) :
    (stepTo k r st info f s).entry k q =
      if q = r then
        let e := (f (s.entry k r)).enter st (s.params k).restart (s.params k).attemptsLimit
        { e with fadedAt := fadedAtAfter (s.sector k).frame (s.entry k r).state e.state (s.entry k r).fadedAt }
      else s.entry k q := remoteStep_entry k r q info _ s

theorem enter_state (e : Entry) (st : RState) (restart limit : Nat) : (e.enter st restart limit).state = st := by
  unfold Entry.enter
  cases st <;> rfl

/-! ### Entry to the queue -/

theorem restampFrom_frame : ∀ (rs : List RemoteNo) (n : Nat) (x : Sector), (restampFrom n rs x).frame = x.frame
  | [], _, _ => rfl
  | r :: rs, n, x => restampFrom_frame rs (n + 1) (x.setEntry r { x.entry r with order := n })

theorem readyTail_frame (x : Sector) : (readyTail x).frame = x.frame := by
  unfold readyTail restamp
  split
  · exact restampFrom_frame _ _ x
  · rfl

/-- A restamp changes the entry order and nothing else of an entry. -/
theorem restampFrom_entry : ∀ (rs : List RemoteNo) (n : Nat) (x : Sector) (q : RemoteNo),
    ∃ o, (restampFrom n rs x).entry q = { x.entry q with order := o }
  | [], _, x, q => ⟨(x.entry q).order, rfl⟩
  | r :: rs, n, x, q => by
    obtain ⟨o, h⟩ := restampFrom_entry rs (n + 1) (x.setEntry r { x.entry r with order := n }) q
    refine ⟨o, h.trans ?_⟩
    rw [entry_setEntry]
    split
    · rename_i e; rw [e]
    · rfl

theorem readyTail_entry (x : Sector) (q : RemoteNo) : ∃ o, (readyTail x).entry q = { x.entry q with order := o } := by
  unfold readyTail restamp
  split
  · exact restampFrom_entry _ _ x q
  · exact ⟨(x.entry q).order, rfl⟩

/-- The entries after a step into QUEUED at the tail: `x` is the sector ready to give a tail stamp. -/
theorem toQueueTail_entry (k : SectorNo) (r q : RemoteNo) (info : StepInfo) (f : Entry → Entry) (s : State)
    (x : Sector) (hx : x = readyTail (s.sector k)) :
    (toQueueTail k r info f s).entry k q =
      if q = r then
        let e := Entry.enter { f (x.entry r) with order := x.nextTail } .queued (s.params k).restart
          (s.params k).attemptsLimit
        { e with fadedAt := fadedAtAfter x.frame (x.entry r).state .queued (x.entry r).fadedAt }
      else x.entry q := by
  subst hx
  unfold toQueueTail
  dsimp only
  rw [stepTo_entry]
  simp only [State.entry, sector_modSector_self]
  rfl

end Sys2Proof.Machine
end

