-- ==== Sys2Proof/Laws/Epochs.lean ====
section
/-! SUPPORT. What an epoch does to its sector's frame number and plan history, to the other sectors, and to what the invariants
speak of; and the same for the beats of a map read. -/

namespace Sys2Proof.Machine

/-! ### The relations -/

/-- What `Act` says but for the sectors. -/
structure Base (s t : State) : Prop where
  dev : DeviceKept s { t with windows := s.windows }
  queue : s.recordQueueOk → t.recordQueueOk
  table : s.tableOk → t.tableOk
  staged : s.stagedLatencyOk → t.stagedLatencyOk

/-- What `Act` says but for the plan histories. -/
structure Act0 (s t : State) : Prop extends Base s t where
  modes : ∀ j, (s.sector j).modeOk → (t.sector j).modeOk

theorem Base.trans {s t u : State} (h : Base s t) (g : Base t u) : Base s u :=
  ⟨⟨g.dev.pending.trans h.dev.pending, g.dev.time.trans h.dev.time, rfl, g.dev.roles.trans h.dev.roles,
    g.dev.store.trans h.dev.store, g.dev.classes.trans h.dev.classes, g.dev.floor.trans h.dev.floor,
    g.dev.log.trans h.dev.log, g.dev.head.trans h.dev.head, g.dev.tail.trans h.dev.tail,
    g.dev.buffer.trans h.dev.buffer, g.dev.lastGroup.trans h.dev.lastGroup, g.dev.faults.trans h.dev.faults,
    g.dev.base.trans h.dev.base⟩,
   fun a => g.queue (h.queue a), fun a => g.table (h.table a), fun a => g.staged (h.staged a)⟩

theorem Act.base {s t : State} (h : Act s t) : Base s t := ⟨h.dev, h.queue, h.table, h.staged⟩

theorem Act.weak {s t : State} (h : Act s t) : Act0 s t := ⟨h.base, fun j => (h.sectors j).modes⟩

theorem Act0.trans {s t u : State} (h : Act0 s t) (g : Act0 t u) : Act0 s u :=
  ⟨h.toBase.trans g.toBase, fun j a => g.modes j (h.modes j a)⟩

/-- A change of one sector alone. -/
theorem base_modSector (k : SectorNo) (f : Sector → Sector) (s : State) : Base s (modSector k f s) :=
  ⟨⟨rfl, rfl, rfl, rfl, rfl, rfl, rfl, rfl, rfl, rfl, rfl, rfl, rfl, rfl⟩, id, id, id⟩

theorem Act0.act {s t : State} (h : Act0 s t)
    (p : ∀ j, (s.sector j).plansOk (s.params j).latency → (t.sector j).plansOk (s.params j).latency) : Act s t :=
  ⟨h.dev, h.queue, h.table, fun j => ⟨h.modes j, p j⟩, h.staged⟩

/-- A claim of sector k that keeps its frame number, its plans' frame numbers, and the ports. -/
structure Within (k : SectorNo) (s t : State) : Prop where
  others : OtherSectors k s t
  frame : (t.sector k).frame = (s.sector k).frame
  frames : (t.sector k).history.map Plan.frame = (s.sector k).history.map Plan.frame
  ports : t.ports = s.ports

theorem Within.refl (k : SectorNo) (s : State) : Within k s s := ⟨fun _ _ => rfl, rfl, rfl, rfl⟩

theorem Within.trans {k : SectorNo} {s t u : State} (h : Within k s t) (g : Within k t u) : Within k s u :=
  ⟨fun j hj => (g.others j hj).trans (h.others j hj), g.frame.trans h.frame, g.frames.trans h.frames,
   g.ports.trans h.ports⟩

theorem Within.ite {k : SectorNo} {s t u : State} {p : Prop} [Decidable p] (h : p → Within k s t)
    (g : ¬p → Within k s u) : Within k s (if p then t else u) := by
  split
  · exact h ‹_›
  · exact g ‹_›

theorem Engine.within {k : SectorNo} {s t : State} (h : Engine k s t) : Within k s t :=
  ⟨h.others, h.steady.frame, h.steady.frames, h.ports⟩

theorem Local.within {k : SectorNo} {s t : State} (h : Local k s t) : Within k s t := h.engine.within

theorem within_modSector (k : SectorNo) (f : Sector → Sector) (s : State) (h : (f (s.sector k)).frame = (s.sector k).frame)
    (g : (f (s.sector k)).history.map Plan.frame = (s.sector k).history.map Plan.frame) :
    Within k s (modSector k f s) :=
  ⟨fun _ hj => sector_modSector_of_ne hj f s, by rw [sector_modSector_self]; exact h,
   by rw [sector_modSector_self]; exact g, rfl⟩

/-- A change that leaves every sector and the ports. -/
theorem Within.of_sectors {s t : State} (h : t.sectors = s.sectors) (p : t.ports = s.ports) (k : SectorNo) :
    Within k s t := by
  have e : ∀ j, t.sector j = s.sector j := fun j => by simp [State.sector, h]
  exact ⟨fun j _ => e j, by rw [e], by rw [e], p⟩

/-! ### The Command Channel leaves the sectors -/

theorem logFor_sectors (k : Option SectorNo) (b : RecordBody) (s : State) : (logFor k b s).sectors = s.sectors := by
  cases k <;> exact pushRecord_sectors _ s

theorem logFor_ports (k : Option SectorNo) (b : RecordBody) (s : State) : (logFor k b s).ports = s.ports :=
  (local_logFor 0 k b s).ports

theorem deliver_sectors (r : Result) (s : State) : (deliver r s).sectors = s.sectors := by
  unfold deliver; split
  · unfold enterPending; exact logFor_sectors _ _ _
  · rfl

theorem deliver_ports (r : Result) (s : State) : (deliver r s).ports = s.ports := by
  unfold deliver; split
  · unfold enterPending; exact logFor_ports _ _ _
  · rfl

theorem setPhase_sectors (p : Phase) (s : State) : (setPhase p s).sectors = s.sectors := by
  unfold setPhase; split <;> rfl

theorem setPhase_ports (p : Phase) (s : State) : (setPhase p s).ports = s.ports := by unfold setPhase; split <;> rfl

theorem finish_sectors (c : ResultCode) (d : Half) (s : State) : (finish c d s).sectors = s.sectors := by
  unfold finish; split
  · rw [deliver_sectors, setPhase_sectors]
  · rfl

theorem finish_ports (c : ResultCode) (d : Half) (s : State) : (finish c d s).ports = s.ports := by
  unfold finish; split
  · rw [deliver_ports, setPhase_ports]
  · rfl

theorem deliver_windows (r : Result) (s : State) : (deliver r s).windows = s.windows := by
  unfold deliver; split
  · unfold enterPending; exact (local_logFor 0 _ _ _).dev.windows
  · rfl

theorem setPhase_windows (p : Phase) (s : State) : (setPhase p s).windows = s.windows := by
  unfold setPhase; split <;> rfl

theorem finish_windows (c : ResultCode) (d : Half) (s : State) : (finish c d s).windows = s.windows := by
  unfold finish; split
  · rw [deliver_windows, setPhase_windows]
  · rfl

theorem within_finish (k : SectorNo) (c : ResultCode) (d : Half) (s : State) : Within k s (finish c d s) :=
  .of_sectors (finish_sectors c d s) (finish_ports c d s) k

theorem within_setPhase (k : SectorNo) (p : Phase) (s : State) : Within k s (setPhase p s) :=
  .of_sectors (setPhase_sectors p s) (setPhase_ports p s) k

theorem within_setPendingOp (k : SectorNo) (p : Option PendingOp) (s : State) : Within k s (setPendingOp k p s) :=
  within_modSector k _ s rfl rfl

theorem within_setModeTo (k : SectorNo) (m : Mode) (s : State) : Within k s (setModeTo k m s) :=
  (within_modSector k (fun x => { x with mode := m }) s rfl rfl).trans (local_markCounter k k _).within

theorem within_keepNewMap (k : SectorNo) (s : State) : Within k s (keepNewMap k s) :=
  ⟨fun _ _ => rfl, rfl, rfl, rfl⟩

theorem within_moveWindow (kind : WindowKind) (k : SectorNo) (b : Addr) (e : Nat) (s : State) :
    Within k s (moveWindow kind k b e s) := ⟨fun _ _ => rfl, rfl, rfl, rfl⟩

theorem within_read (k : SectorNo) (t : Option ReadTarget) (s : State) :
    Within k s { s with channel := { s.channel with read := t } } := ⟨fun _ _ => rfl, rfl, rfl, rfl⟩

/-! ### Item 1 (R79, R80) -/

/-- What retiring plans leaves of the frame numbers: a sublist, with none of the retired ones. -/
structure Retired (k : SectorNo) (fs : List Frame) (s t : State) : Prop where
  others : OtherSectors k s t
  frame : (t.sector k).frame = (s.sector k).frame
  ports : t.ports = s.ports
  sub : ((t.sector k).history.map Plan.frame).Sublist ((s.sector k).history.map Plan.frame)
  gone : ∀ f ∈ fs, f ∉ (t.sector k).history.map Plan.frame

theorem removePlan_frames (f : Frame) (x : Sector) :
    (removePlan f x).history.map Plan.frame = (x.history.map Plan.frame).filter (· ≠ f) := by
  simp only [removePlan, List.filter_map]; rfl

theorem act0_removePlan (k : SectorNo) (f : Frame) (s : State) : Act0 s (modSector k (removePlan f) s) := by
  refine ⟨base_modSector k _ s, ?_⟩
  intro j
  by_cases hj : j = k
  · subst hj; rw [sector_modSector_self]; exact id
  · rw [sector_modSector_of_ne hj]; exact id

theorem retirePlan_spec (k : SectorNo) (p : Plan) (s : State) :
    Retired k [p.frame] s (retirePlan k p s) ∧ Act0 s (retirePlan k p s) := by
  unfold retirePlan
  dsimp only
  have h1 : Engine k s (if (s.sector k).mode ≠ .pass ∧ (s.sector k).suspended = false then
      timeoutPlan k p.frame p.count s else s) := Engine.ite (fun _ => engine_timeoutPlan k _ _ s) fun _ => .refl k s
  revert h1
  generalize (if (s.sector k).mode ≠ .pass ∧ (s.sector k).suspended = false then
      timeoutPlan k p.frame p.count s else s) = u
  intro h1
  refine ⟨⟨fun j hj => ?_, ?_, h1.ports, ?_, ?_⟩, h1.act.weak.trans (act0_removePlan k p.frame u)⟩
  · rw [sector_modSector_of_ne hj]; exact h1.others j hj
  · rw [sector_modSector_self]; exact h1.steady.frame
  · rw [sector_modSector_self, removePlan_frames, ← h1.steady.frames]; exact List.filter_sublist
  · rw [sector_modSector_self, removePlan_frames]; simp

theorem retireAll_spec (k : SectorNo) : ∀ (ps : List Plan) (s : State),
    Retired k (ps.map Plan.frame) s (ps.foldl (fun t p => retirePlan k p t) s) ∧
      Act0 s (ps.foldl (fun t p => retirePlan k p t) s)
  | [], s => ⟨⟨fun _ _ => rfl, rfl, rfl, .refl _, by simp⟩, (Act.refl s).weak⟩
  | p :: ps, s => by
    obtain ⟨h, h'⟩ := retirePlan_spec k p s
    obtain ⟨g, g'⟩ := retireAll_spec k ps (retirePlan k p s)
    refine ⟨⟨fun j hj => (g.others j hj).trans (h.others j hj), g.frame.trans h.frame, g.ports.trans h.ports,
      g.sub.trans h.sub, ?_⟩, h'.trans g'⟩
    intro f hf
    rcases List.mem_cons.1 hf with rfl | hf
    · exact fun a => h.gone _ (by simp) (g.sub.subset a)
    · exact g.gone f hf

theorem local_requeueForDiscard' (cause : StateCause) (k : SectorNo) (s : State) :
    Local k s (requeueForDiscard cause k s) := local_requeueForDiscard cause k s

/-- Item 1 leaves a sublist of the frame numbers, each within the report latency behind the current one. -/
theorem epochItem1_spec (k : SectorNo) (resync : Bool) (s : State) :
    OtherSectors k s (epochItem1 k resync s) ∧ ((epochItem1 k resync s).sector k).frame = (s.sector k).frame ∧
    (epochItem1 k resync s).ports = s.ports ∧
    (((epochItem1 k resync s).sector k).history.map Plan.frame).Sublist ((s.sector k).history.map Plan.frame) ∧
    (∀ f ∈ ((epochItem1 k resync s).sector k).history.map Plan.frame,
      ((s.sector k).frame - f).toNat ≤ (s.params k).latency) ∧ Act0 s (epochItem1 k resync s) ∧
    (resync = true → ((epochItem1 k resync s).sector k).history = []) := by
  unfold epochItem1
  cases resync with
  | true =>
    rw [if_pos rfl]
    have h := local_requeueForDiscard .resync k (modSector k discardHistory s)
    have e : ((requeueForDiscard .resync k (modSector k discardHistory s)).sector k).history = [] := by
      have := h.stable.frames
      rw [sector_modSector_self] at this
      simpa [discardHistory] using this
    have hd : Act s (modSector k discardHistory s) := act_modSector k _ s (secOk_discard rfl rfl rfl rfl)
    refine ⟨fun j hj => ?_, ?_, h.ports, by rw [e]; simp, by rw [e]; simp, hd.weak.trans h.act.weak, fun _ => e⟩
    · rw [h.others j hj, sector_modSector_of_ne hj]
    · rw [h.stable.frame, sector_modSector_self]; rfl
  | false =>
    rw [if_neg (by simp)]
    unfold retirePlans
    obtain ⟨h, h'⟩ := retireAll_spec k ((s.sector k).history.filter
      fun p => (s.params k).latency < ((s.sector k).frame - p.frame).toNat) s
    refine ⟨h.others, h.frame, h.ports, h.sub, ?_, h', by simp⟩
    intro f hf
    by_contra hc
    obtain ⟨p, hp, rfl⟩ := List.mem_map.1 (h.sub.subset hf)
    exact h.gone p.frame (List.mem_map_of_mem (List.mem_filter.2 ⟨hp, by simpa using hc⟩)) hf

/-! ### Items 2 to 5 (R81, R82) -/

theorem stable_mapEntries (f : Entry → Entry) (x : Sector) : Stable x (mapEntries f x) := by
  unfold mapEntries
  generalize remotes = rs
  induction rs generalizing x with
  | nil => exact .refl x
  | cons r rs ih => exact (stable_setEntry x r _).trans (ih _)

theorem local_epochItem2 (k : SectorNo) (g : Nat) (s : State) : Local k s (epochItem2 k g s) := by
  unfold epochItem2
  dsimp only
  refine Local.ite (fun _ => .refl k s) fun _ => ?_
  refine Local.trans ?_ (local_countEpisode k g _)
  refine Local.ite (fun _ => ?_) fun _ => .refl k s
  exact (local_modSector k (reduceBackoffs g) s (stable_mapEntries _ _)).trans
    (local_forRemotes (fun r s => local_backoffExpires k r s) _ _)

theorem act_applyStaged (k : SectorNo) (s : State) : Act s (modSector k applyStaged s) :=
  act_modSector k _ s (.of_eq rfl rfl rfl rfl rfl)

theorem act_epochItem3 (k : SectorNo) (s : State) : Act s (epochItem3 k s) :=
  (act_applyStaged k s).trans (local_testThreshold k _).act

theorem within_epochItem3 (k : SectorNo) (s : State) : Within k s (epochItem3 k s) :=
  (within_modSector k applyStaged s rfl rfl).trans (local_testThreshold k _).within

theorem within_completePending (k : SectorNo) (b : Addr) (s : State) : Within k s (completePending k b s) := by
  unfold completePending
  split
  · exact .refl k s
  · exact (((local_moveForMode k _ _ s).within.trans (within_setModeTo k _ _)).trans (within_setPendingOp k none _)).trans
      (within_finish k _ _ _)
  · refine Within.ite (fun _ => ?_) fun _ => .refl k s
    exact ((within_keepNewMap k s).trans (within_setPendingOp k none _)).trans (within_finish k .done 0 _)
  · unfold completeReportRelocation
    dsimp only
    have h1 : ∀ (b : Addr) (e : Nat) (u : State), Within k u (finish .done 0 (setPendingOp k none (moveWindow .report k b e u))) :=
      fun b e u => ((within_moveWindow .report k b e u).trans (within_setPendingOp k none _)).trans
        (within_finish k .done 0 _)
    split
    · exact ((engine_tear k _ _ s).trans (engine_setPack k _ _)).within.trans (h1 _ _ _)
    · exact h1 _ _ _
  · refine Within.ite (fun _ => .refl k s) fun _ => ?_
    unfold switchDescriptorWindow
    dsimp only
    exact (((within_moveWindow .descriptor k _ _ s).trans (within_setPendingOp k _ _)).trans (within_setPhase k _ _)).trans
      (within_read k _ _)

theorem base_completePending (k : SectorNo) (b : Addr) (s : State) : Base s (completePending k b s) := by
  by_cases h : (s.sector k).pendingOp = some (.modeChange .pass)
  · unfold completePending
    rw [h]
    exact ((((local_moveForMode k _ _ s).act.base.trans (base_modSector k _ _)).trans
      (act_markCounter k _).base).trans (base_modSector k _ _)).trans (act_finish _ _ _).base
  · exact (act_completePending k b s h).base

theorem stable_drawRoster (x : Sector) : Stable x (drawRoster x) := by
  unfold drawRoster
  split <;> exact ⟨⟨rfl, rfl, rfl, rfl, rfl, rfl, rfl, rfl, rfl, rfl⟩, rfl⟩

theorem local_drawRoster (k : SectorNo) (s : State) : Local k s (modSector k drawRoster s) :=
  local_modSector k drawRoster s (stable_drawRoster _)

theorem local_logGap (k : SectorNo) (f : Frame) (g : Nat) (silent : Bool) (s : State) :
    Local k s (logGap k f g silent s) := by
  unfold logGap faultHeader logHeader
  refine Local.ite (fun _ => .refl k s) fun _ => Local.ite (fun _ => ?_) fun _ => Local.ite (fun _ => ?_) fun _ => .refl k s
  · exact (local_logFrame k k _ _ s).trans (local_raiseNotice k _ _)
  · exact local_logFrame k k _ _ s

theorem local_faultHeader (k : SectorNo) (f : Frame) (c : FrameCause) (d : Nat) (s : State) :
    Local k s (faultHeader k f c d s) := by
  unfold faultHeader logHeader
  exact (local_logFrame k k _ _ s).trans (local_raiseNotice k _ _)

/-! ### The epoch -/

/-- The state of an epoch before item 6. -/
theorem epochBefore_spec (k : SectorNo) (f : Frame) (b : Addr) (s : State) (resync silent : Bool) (g g' : Nat) :
    let s1 := modSector k (fun x => { x with frame := f }) s
    let s2 := epochItem1 k resync (logGap k f g silent s1)
    let s5 := modSector k drawRoster (completePending k b (epochItem3 k (epochItem2 k g' s2)))
    OtherSectors k s s5 ∧ (s5.sector k).frame = f ∧ s5.ports = s.ports ∧ Base s s5 ∧
      ((s.sector k).modeOk → Act0 s s5) ∧
      ((s5.sector k).history.map Plan.frame).Sublist ((s.sector k).history.map Plan.frame) ∧
      (∀ q ∈ (s5.sector k).history.map Plan.frame, (f - q).toNat ≤ (s.params k).latency) ∧
      (resync = true → (s5.sector k).history.map Plan.frame = []) := by
  dsimp only
  have h0 : Act0 s (modSector k (fun x => { x with frame := f }) s) := by
    refine ⟨base_modSector k _ s, ?_⟩
    intro j
    by_cases hj : j = k
    · subst hj; rw [sector_modSector_self]; exact id
    · rw [sector_modSector_of_ne hj]; exact id
  have h1 := local_logGap k f g silent (modSector k (fun x => { x with frame := f }) s)
  obtain ⟨o, fr, po, sub, lat, ac, re⟩ := epochItem1_spec k resync
    (logGap k f g silent (modSector k (fun x => { x with frame := f }) s))
  revert o fr po sub lat ac re
  generalize epochItem1 k resync (logGap k f g silent (modSector k (fun x => { x with frame := f }) s)) = s2
  intro o fr po sub lat ac re
  have hA := (h0.trans h1.act.weak).trans ac
  have h3 := local_epochItem2 k g' s2
  have a3 := act_epochItem3 k (epochItem2 k g' s2)
  have w3 := within_epochItem3 k (epochItem2 k g' s2)
  have hB := (hA.trans h3.act.weak).trans a3.weak
  have b4 := base_completePending k b (epochItem3 k (epochItem2 k g' s2))
  have w4 := within_completePending k b (epochItem3 k (epochItem2 k g' s2))
  have h5 := local_drawRoster k (completePending k b (epochItem3 k (epochItem2 k g' s2)))
  have W := ((h3.within.trans w3).trans w4).trans h5.within
  have e1 : ((logGap k f g silent (modSector k (fun x => { x with frame := f }) s)).sector k).history.map Plan.frame
      = (s.sector k).history.map Plan.frame := by
    rw [h1.stable.frames, sector_modSector_self]
  have e2 : ((logGap k f g silent (modSector k (fun x => { x with frame := f }) s)).sector k).frame = f := by
    rw [h1.stable.frame, sector_modSector_self]
  refine ⟨fun j hj => ?_, ?_, ?_, (hB.toBase.trans b4).trans h5.act.base, fun hm => ?_, ?_, ?_, ?_⟩
  · rw [W.others j hj, o j hj, h1.others j hj, sector_modSector_of_ne hj]
  · rw [W.frame, fr, e2]
  · rw [W.ports, po, h1.ports]; rfl
  · exact (hB.trans (act_completePending k b _ (hB.modes k hm).2).weak).trans h5.act.weak
  · rw [W.frames, ← e1]; exact sub
  · rw [W.frames]
    intro q hq
    have := lat q hq
    rw [e2] at this
    rwa [h1.act.params, show (modSector k (fun x => { x with frame := f }) s).params k = s.params k from rfl] at this
  · rw [W.frames]; intro h; rw [re h]; rfl

/-- Item 6 on its sector (R83, R92). -/
theorem sector_epochItem6 (k : SectorNo) (f : Frame) (count : Nat) (s : State) :
    (epochItem6 k f count s).sector k = { s.sector k with
      history := (s.sector k).history ++ [newPlan f count], resyncPending := false,
      waitList := (s.sector k).rangingOrder.map Ranger.remote, framesSeen := (s.sector k).framesSeen + 1 } := by
  unfold epochItem6
  rw [show ∀ u, (markCounter k u).sector k = u.sector k from fun _ => rfl, sector_modSector_self]

theorem sector_epochItem6_of_ne (k : SectorNo) (f : Frame) (count : Nat) (s : State) {j : SectorNo} (hj : j ≠ k) :
    (epochItem6 k f count s).sector j = s.sector j := by
  unfold epochItem6
  rw [(local_markCounter k k _).others j hj, sector_modSector_of_ne hj]

theorem act0_epochItem6 (k : SectorNo) (f : Frame) (count : Nat) (s : State) : Act0 s (epochItem6 k f count s) := by
  refine ⟨(base_modSector k _ s).trans (act_markCounter k _).base, ?_⟩
  intro j
  by_cases hj : j = k
  · subst hj; rw [sector_epochItem6]; exact id
  · rw [sector_epochItem6_of_ne k f count s hj]; exact id

/-- The whole epoch: the other sectors and the ports are left, and the plan histories keep their form where the header's
frame number is none of theirs. -/
theorem epoch_spec (k : SectorNo) (f : Frame) (count : Nat) (b : Addr) (s : State) :
    OtherSectors k s (epoch k f count b s) ∧ (epoch k f count b s).ports = s.ports ∧ Base s (epoch k f count b s) ∧
      ((s.sector k).modeOk → Act0 s (epoch k f count b s) ∧
        (f ∉ (s.sector k).history.map Plan.frame → Act s (epoch k f count b s))) := by
  unfold epoch
  dsimp only
  obtain ⟨o, fr, po, b0, a0, sub, lat, -⟩ := epochBefore_spec k f b s
    (silentResync (s.sector k) || decide (Config.maxGap < (f - (s.sector k).frame).toNat)) (silentResync (s.sector k))
    (f - (s.sector k).frame).toNat
    (if (silentResync (s.sector k) || decide (Config.maxGap < (f - (s.sector k).frame).toNat)) then 0
      else (f - (s.sector k).frame).toNat)
  revert o fr po b0 a0 sub lat
  generalize modSector k drawRoster _ = s5
  intro o fr po b0 a0 sub lat
  have e6 : ∀ j, j ≠ k → (epochItem6 k f count s5).sector j = s5.sector j := fun j hj =>
    sector_epochItem6_of_ne k f count s5 hj
  have ek := sector_epochItem6 k f count s5
  have h6 := act0_epochItem6 k f count s5
  refine ⟨fun j hj => (e6 j hj).trans (o j hj), po, b0.trans h6.toBase, fun hm => ⟨(a0 hm).trans h6, fun hf =>
    ((a0 hm).trans h6).act ?_⟩⟩
  intro j hj
  by_cases hjk : j = k
  · subst hjk
    rw [ek]
    have hn : ((s5.sector j).history.map Plan.frame ++ [f]).Nodup := by
      rw [List.nodup_append]
      refine ⟨sub.nodup hj.1, by simp, ?_⟩
      intro a ha c hc
      obtain rfl := List.mem_singleton.1 hc
      rintro rfl
      exact hf (sub.subset ha)
    refine ⟨by simpa [newPlan] using hn, ?_, ?_⟩
    · intro p hp
      dsimp only at hp ⊢
      rw [fr]
      rcases List.mem_append.1 hp with hp | hp
      · exact lat p.frame (List.mem_map_of_mem hp)
      · obtain rfl := List.mem_singleton.1 hp
        simp [newPlan]
    · intro p hp
      dsimp only at hp ⊢
      rw [List.getLast?_concat] at hp
      obtain rfl := Option.some.inj hp
      rw [fr]; rfl
  · rw [e6 j hjk, o j hjk]; exact hj

/-- A header that passes every test of R75 has a frame number that no plan of the history has. -/
theorem not_mem_of_checkHeader {x : Sector} {buffer D : Nat} {h : Header} (hp : x.plansOk D)
    (hc : checkHeader x buffer h = .epoch) : h.frame ∉ x.history.map Plan.frame := by
  unfold checkHeader at hc
  iterate 5 (split at hc <;> try cases hc)
  rename_i h4 h5
  intro hm
  obtain ⟨p, hp', e⟩ := List.mem_map.1 hm
  have hne : x.history ≠ [] := List.ne_nil_of_mem hp'
  have hl := hp.2.2 (x.history.getLast hne) (List.getLast?_eq_some_getLast hne)
  rw [← List.dropLast_append_getLast hne] at hp'
  rcases List.mem_append.1 hp' with hd | hd
  · exact h5 (List.any_eq_true.2 ⟨p, hd, by simpa using e⟩)
  · obtain rfl := List.mem_singleton.1 hd
    exact h4 ⟨hne, e.symm.trans hl⟩

/-- A beat of a map read. -/
theorem takeMapBeat_spec (k : SectorNo) (b a : Addr) (d : Beat) (s : State) :
    OtherSectors k s (takeMapBeat k b a d s).state ∧ (takeMapBeat k b a d s).state.ports = s.ports ∧
      Base s (takeMapBeat k b a d s).state ∧
      ((s.sector k).modeOk → Act0 s (takeMapBeat k b a d s).state ∧
        ((s.sector k).plansOk (s.params k).latency → Act s (takeMapBeat k b a d s).state)) := by
  have hl : ∀ {t}, Engine k s t → OtherSectors k s t ∧ t.ports = s.ports ∧ Base s t ∧
      ((s.sector k).modeOk → Act0 s t ∧ ((s.sector k).plansOk (s.params k).latency → Act s t)) :=
    fun h => ⟨h.others, h.ports, h.act.base, fun _ => ⟨h.act.weak, fun _ => h.act⟩⟩
  unfold takeMapBeat
  dsimp only
  split
  · unfold takeHeader
    dsimp only
    split
    · exact hl (.refl k s)
    · exact hl (local_faultHeader k _ _ _ s).engine
    · exact hl (local_faultHeader k _ _ _ s).engine
    · exact hl (.refl k s)
    · exact hl (local_faultHeader k _ _ _ s).engine
    · rename_i hc
      obtain ⟨o, p, b0, ha⟩ := epoch_spec k (headerOf d).frame (headerOf d).count b s
      exact ⟨o, p, b0, fun hm => ⟨(ha hm).1, fun hp => (ha hm).2 (not_mem_of_checkHeader hp hc)⟩⟩
  · split
    · exact hl (engine_takeRecord k _ _ d s)
    · exact hl (.refl k s)

/-- The beats of a map read. -/
theorem takeMapBeats_spec (k : SectorNo) (b : Addr) : ∀ (data : List Beat) (a : Addr) (s : State),
    OtherSectors k s (takeMapBeats k b a data s).2 ∧ (takeMapBeats k b a data s).2.ports = s.ports ∧
      Base s (takeMapBeats k b a data s).2 ∧
      ((s.sector k).modeOk → Act0 s (takeMapBeats k b a data s).2 ∧
        ((s.sector k).plansOk (s.params k).latency → Act s (takeMapBeats k b a data s).2))
  | [], _, s => ⟨fun _ _ => rfl, rfl, (Act.refl s).base, fun _ => ⟨(Act.refl s).weak, fun _ => .refl s⟩⟩
  | d :: data, a, s => by
    obtain ⟨o, p, b0, h⟩ := takeMapBeat_spec k b a d s
    obtain ⟨o', p', b0', h'⟩ := takeMapBeats_spec k b data (a + 8) (takeMapBeat k b a d s).state
    refine ⟨fun j hj => (o' j hj).trans (o j hj), p'.trans p, b0.trans b0', fun hm => ?_⟩
    have g := h' ((h hm).1.modes k hm)
    refine ⟨(h hm).1.trans g.1, fun hp => ((h hm).2 hp).trans (g.2 ?_)⟩
    rw [((h hm).2 hp).params]
    exact (((h hm).2 hp).sectors k).plans hp

end Sys2Proof.Machine
end

