-- ==== Sys2Proof/Laws/Requests.lean ====
section
/-! SUPPORT. For every command, for every copy of a request, for acceptance and for the command timeout: the lemma that it is one
claim in the sense of `Act`. -/

namespace Sys2Proof.Machine

/-! ### Commands (Section 9) -/

theorem act_remoteCommand (k : SectorNo) (r : RemoteNo) (accepts : RState → Bool) (act : State → State) (s : State)
    (h : Act s (act s)) : Act s (remoteCommand k r accepts act s) := by
  unfold remoteCommand
  dsimp only
  exact Act.ite (fun _ => h.trans (act_finish _ _ _)) fun _ => act_finish _ _ s

theorem act_cmdSetMode (k : SectorNo) (arg : Half) (s : State) : Act s (cmdSetMode k arg s) := by
  unfold cmdSetMode
  dsimp only
  refine Act.ite (fun _ => act_finish _ _ s) fun _ => ?_
  split
  · exact act_finish _ _ s
  · refine Act.ite (fun _ => act_finish _ _ s) fun _ => Act.ite (fun _ => ?_) fun hp => Act.ite (fun _ => act_finish _ _ s) fun _ => ?_
    · exact (act_changeToPass k s).trans (act_finish _ _ _)
    · refine (act_setPendingOp k _ s (by simpa using hp)).trans (act_setPhase _ _ ?_)
      intro _ _ _ _ _ _ e; cases e

theorem act_cmdSetTune (k : SectorNo) (p : Byte) (arg : Half) (s : State) : Act s (cmdSetTune k p arg s) := by
  unfold cmdSetTune
  refine Act.ite (fun _ => act_finish _ _ s) fun _ => Act.ite (fun _ => act_finish _ _ s) fun _ => ?_
  split
  · exact (act_modSector k _ s (.of_eq rfl rfl rfl rfl rfl)).trans (act_finish _ _ _)
  · exact act_finish _ _ s

theorem act_cmdLoadConfig (s : State) : Act s (cmdLoadConfig s) := by
  unfold cmdLoadConfig
  refine Act.ite (fun _ => ?_) fun _ => act_finish _ _ s
  refine (act_setPhase _ s ?_).trans (act_read _ _)
  intro _ _ _ _ _ _ e; cases e

theorem act_cmdAckNotice (arg : Half) (s : State) : Act s (cmdAckNotice arg s) := by
  unfold cmdAckNotice
  dsimp only
  exact Act.ite (fun _ => act_finish _ _ s) fun _ => (act_setPendingNotices _ s).trans (act_finish _ _ _)

/-- A suspended flag is set only where the mode is not PASS. -/
theorem act_cmdSuspend (k : SectorNo) (s : State) : Act s (cmdSuspend k s) := by
  unfold cmdSuspend
  dsimp only
  refine Act.ite (fun _ => act_finish _ _ s) fun h => ?_
  refine (act_setSuspended k true s fun e => ?_).trans (act_finish _ _ _)
  exact absurd (Or.inr (Or.inl e)) h

theorem act_cmdResume (k : SectorNo) (s : State) : Act s (cmdResume k s) := by
  unfold cmdResume
  exact Act.ite (fun _ => act_finish _ _ s) fun _ => (act_resumeSector k s).trans (act_finish _ _ _)

theorem act_cmdResetSector (k : SectorNo) (s : State) : Act s (cmdResetSector k s) := by
  unfold cmdResetSector
  exact Act.ite (fun _ => act_finish _ _ s) fun _ => (act_resetSectorOp k s).trans (act_finish _ _ _)

theorem act_cmdRelocate (k : SectorNo) (arg : Half) (s : State) : Act s (cmdRelocate k arg s) := by
  unfold cmdRelocate
  refine Act.ite (fun _ => act_finish _ _ s) fun _ => ?_
  split
  · exact act_finish _ _ s
  · refine (act_setPhase _ s ?_).trans (act_read _ _)
    intro _ _ _ _ _ _ e; cases e

theorem act_runCommand (c : Command) (s : State) : Act s (runCommand c s) := by
  unfold runCommand
  dsimp only
  exact Act.ite (fun _ => act_cmdLoadConfig s) fun _ => Act.ite (fun _ => act_cmdSetMode _ _ s) fun _ =>
    Act.ite (fun _ => act_cmdSetTune _ _ _ s) fun _ =>
    Act.ite (fun _ => act_remoteCommand _ _ _ _ s (act_stepTo _ _ _ _ _ s)) fun _ =>
    Act.ite (fun _ => act_remoteCommand _ _ _ _ s (act_toQueueTail _ _ _ _ s)) fun _ =>
    Act.ite (fun _ => act_remoteCommand _ _ _ _ s (act_toQueueTail _ _ _ _ s)) fun _ =>
    Act.ite (fun _ => act_remoteCommand _ _ _ _ s (act_stepTo _ _ _ _ _ s)) fun _ =>
    Act.ite (fun _ => act_cmdSuspend _ s) fun _ => Act.ite (fun _ => act_cmdResume _ s) fun _ =>
    Act.ite (fun _ => act_cmdResetSector _ s) fun _ => Act.ite (fun _ => act_cmdRelocate _ _ s) fun _ =>
    act_cmdAckNotice _ s

theorem act_cmdCancel (c : Command) (s : State) : Act s (cmdCancel c s) := by
  have hd : Act s (answer c .done 0 (finish .cancelled 0 (dropReads s))) :=
    ((act_dropReads s).trans (act_finish _ _ _)).trans (act_answer _ _ _ _)
  unfold cmdCancel
  dsimp only
  split
  · exact (act_beginCommand c s).trans (act_finish _ _ _)
  · split
    · exact act_answer _ _ _ s
    · exact hd
    · exact hd
    · exact hd
    · exact (act_abandonPending _ _ s).trans (act_answer _ _ _ _)
    · exact (act_abandonPending _ _ s).trans (act_answer _ _ _ _)
    · exact act_setPhase _ s (by intro _ _ _ _ _ _ e; cases e)
    · exact act_answer _ _ _ s

theorem act_takeCommand (c : Command) (s : State) : Act s (takeCommand c s) := by
  unfold takeCommand
  split
  · exact act_answer _ _ _ s
  · exact Act.ite (fun _ => act_cmdCancel c s) fun _ => (act_beginCommand c s).trans (act_runCommand c _)

theorem act_takeCommandWord (lanes : Lanes) (b : Beat) (s : State) : Act s (takeCommandWord lanes b s) := by
  unfold takeCommandWord
  exact Act.ite (fun _ => act_deliver _ s) fun _ => Act.ite (fun _ => act_answer _ _ _ s) fun _ => act_takeCommand _ s

/-- The timeout's expiry (R163). -/
theorem act_expireTimeout (s : State) : Act s (expireTimeout s) := by
  unfold expireTimeout
  split
  · exact act_abandonPending _ _ s
  · exact act_abandonPending _ _ s
  · exact .refl s

/-! ### The copies of a request (R8, R17, R18, R96, R164, R165) -/

theorem act_changeDescriptor (k : SectorNo) (r : RemoteNo) (lanes : Lanes) (b : Beat) (s : State) :
    Act s (changeDescriptor k r lanes b s) := (local_changeDescriptor k r lanes b s).act

theorem act_copyToStaged (setup : Setup) (staged : Vector (Vector StagedEntry 128) 4) (k' : SectorNo) (r' : RemoteNo)
    (late : List LateWrite) (k : SectorNo) (r : RemoteNo) (lanes : Lanes) (b : Beat) (s : State)
    (h : s.stagedLatencyOk → ∀ (j : SectorNo) (x : SectorSetup), setup.sectors[j] = some x → x.params.latency ≤ 4) :
    Act s (copyToStaged setup staged k' r' late k r lanes b s) := by
  unfold copyToStaged
  split
  · exact .refl s
  · refine act_setPhase _ s fun a _ _ _ _ _ e => ?_
    cases e; exact h a
  · refine act_setPhase _ s fun a _ _ _ _ _ e => ?_
    cases e; exact h a

theorem act_copyInReadPhase (r' : RemoteNo) (n : Nat) (failed : Option RemoteNo) (late : List LateWrite)
    (cancel : Option Command) (k : SectorNo) (r : RemoteNo) (lanes : Lanes) (b : Beat) (s : State) :
    Act s (copyInReadPhase r' n failed late cancel k r lanes b s) := by
  unfold copyInReadPhase
  split
  · exact .refl s
  · exact act_setPhase _ s (by intro _ _ _ _ _ _ e; cases e)
  · exact act_changeDescriptor k r lanes b s

theorem act_copyDescriptor (k : SectorNo) (r : RemoteNo) (lanes : Lanes) (b : Beat) (s : State) :
    Act s (copyDescriptor k r lanes b s) := by
  unfold copyDescriptor
  split
  · exact Act.ite (fun _ => act_copyInReadPhase _ _ _ _ _ k r lanes b s) fun _ => act_changeDescriptor k r lanes b s
  · rename_i setup staged k' r' late e
    exact act_copyToStaged _ _ _ _ _ k r lanes b s fun a => a _ setup staged k' r' late e rfl
  · exact act_changeDescriptor k r lanes b s

theorem act_copyBeats (take : RemoteNo → Lanes → Beat → State → State) (h : ∀ r l b s, Act s (take r l b s)) (w : Window)
    (lanes : Lanes) : ∀ (data : List Beat) (a : Addr) (s : State), Act s (copyBeats take w lanes a data s)
  | [], _, s => .refl s
  | _ :: data, a, s => (h _ _ _ s).trans (act_copyBeats take h w lanes data (a + 8) _)

theorem act_copyInForce (q : Request) (s : State) : Act s (copyInForce q s) := by
  unfold copyInForce
  split
  · exact act_copyBeats _ (act_changeDescriptor _) _ _ _ _ s
  · exact .refl s

/-- The log tail word moves the tail index and is otherwise such a claim. -/
theorem act_takeTailWord (lanes : Lanes) (b : Beat) (s : State) :
    ∃ i, Act { s with writer := { s.writer with tail := i } } (takeTailWord lanes b s) := by
  unfold takeTailWord
  split
  · exact ⟨s.writer.tail, (local_logDevice 0 _ s).act⟩
  · exact ⟨_, .refl _⟩

theorem act_takeMarkerWord (lanes : Lanes) (b : Beat) (s : State) : Act s (takeMarkerWord lanes b s) :=
  (local_logDevice 0 _ s).act

/-! ### Acceptance (Section 7) -/

theorem act_issueToMemory (r : MemoryRequest) (s : State) : Act s (issueToMemory r s) := act_ports _ s

theorem act_oweAwaited (q : Request) (p : Option Patch) (s : State) : Act s (oweAwaited q p s) := act_ports _ s

theorem act_returnReady (m : MasterNo) (s : State) : Act s (returnReady m s) := act_ports _ s

theorem act_oweFormed (m : MasterNo) (r : Response) (s : State) : Act s (oweFormed m r s) := act_ports _ s

theorem act_leaveChannel (q : Request) (s : State) : Act s (leaveChannel q s) := act_ports _ s

theorem act_noteGrant (m : MasterNo) (s : State) : Act s (noteGrant m s) := act_ports _ s

theorem act_joinChannel (q : Request) (s : State) : Act s (joinChannel q s) := act_ports _ s

theorem act_popOutstanding (s : State) : Act s (popOutstanding s) := act_ports _ s

theorem act_answerOldest (m : MasterNo) (r : Response) (rest : List Owed) (s : State) :
    Act s (answerOldest m r rest s) := act_ports _ s

theorem act_logRefusal (c : AccessCause) (q : Request) (s : State) : Act s (logRefusal c q s) := by
  unfold logRefusal
  dsimp only
  exact (act_logFor _ _ s).trans (act_raiseNotice _ _)

theorem act_acceptCommandWord (q : Request) (s : State) : Act s (acceptCommandWord q s) := by
  unfold acceptCommandWord
  dsimp only
  exact (Act.ite (fun _ => act_oweFormed _ _ s) fun _ => act_oweAwaited _ _ s).trans (act_takeCommandWord _ _ _)

/-- A request taken, but for the tail index a log tail word moves. -/
theorem act_acceptAs (q : Request) (c : AccessClass) (s : State) :
    ∃ i, Act { s with writer := { s.writer with tail := i } } (acceptAs q c s) := by
  unfold acceptAs
  split
  · exact ⟨s.writer.tail, (act_oweAwaited q none s).trans (act_copyInForce q _)⟩
  · exact ⟨s.writer.tail, ((act_oweAwaited q none s).trans (act_copyBeats _ (act_copyDescriptor _) _ _ _ _ _)).trans
      (act_copyInForce q _)⟩
  · exact ⟨s.writer.tail, (act_oweAwaited q none s).trans (engine_takeReportBeats _ _ _ _ _ _).act⟩
  · exact ⟨s.writer.tail, act_oweAwaited _ _ s⟩
  · exact ⟨s.writer.tail, act_acceptCommandWord q s⟩
  · obtain ⟨i, h⟩ := act_takeTailWord q.lanes (q.data.getD 0 0) (oweAwaited q none s)
    exact ⟨i, (act_oweAwaited q none { s with writer := { s.writer with tail := i } }).trans h⟩
  · exact ⟨s.writer.tail, (act_oweAwaited q none s).trans (act_takeMarkerWord _ _ _)⟩
  · exact ⟨s.writer.tail, (act_oweFormed _ _ s).trans (act_copyInForce q _)⟩
  · exact ⟨s.writer.tail, ((act_logRefusal _ q s).trans (act_oweFormed _ _ _)).trans (act_copyInForce q _)⟩

theorem act_accept (q : Request) (s : State) : ∃ i, Act { s with writer := { s.writer with tail := i } } (accept q s) := by
  unfold accept
  dsimp only
  obtain ⟨i, h⟩ := act_acceptAs q (classify s q)
    (leaveChannel q (if (classify s q).needsPort then noteGrant q.master s else s))
  refine ⟨i, Act.trans ?_ h⟩
  split
  · exact act_ports _ { s with writer := { s.writer with tail := i } }
  · exact act_ports _ { s with writer := { s.writer with tail := i } }

/-- The tail index takes no part in what a claim keeps. -/
theorem Act.setTail {s t : State} (h : Act s t) (i : Nat) :
    Act { s with writer := { s.writer with tail := i } } { t with writer := { t.writer with tail := i } } :=
  ⟨{ h.dev with tail := rfl }, h.queue, h.table, h.sectors, h.staged⟩

/-- Two claims in a row, each but for the tail index. -/
theorem act_tail_trans {s t u : State} (h : ∃ i, Act { s with writer := { s.writer with tail := i } } t)
    (g : ∃ i, Act { t with writer := { t.writer with tail := i } } u) :
    ∃ i, Act { s with writer := { s.writer with tail := i } } u :=
  h.elim fun _ h => g.elim fun j g => ⟨j, (h.setTail j).trans g⟩

theorem act_acceptFree (m : MasterNo) :
    ∀ (n : Nat) (s : State), ∃ i, Act { s with writer := { s.writer with tail := i } } (acceptFree m n s)
  | 0, s => ⟨s.writer.tail, .refl s⟩
  | n + 1, s => by
    unfold acceptFree
    split
    · exact ⟨s.writer.tail, .refl s⟩
    · split
      · exact ⟨s.writer.tail, .refl s⟩
      · exact act_tail_trans (act_accept _ s) (act_acceptFree m n _)

theorem act_acceptHead (m : MasterNo) (q : Request) (behind : List Request) (s : State) :
    ∃ i, Act { s with writer := { s.writer with tail := i } } (acceptHead m q behind s) :=
  act_tail_trans (act_accept q s) (act_acceptFree m _ _)

theorem act_consider (m : MasterNo) (s : State) :
    ∃ i, Act { s with writer := { s.writer with tail := i } } (consider m s) := by
  unfold consider
  split
  · exact ⟨s.writer.tail, .refl s⟩
  · split
    · split
      · exact act_acceptHead m _ _ s
      · exact ⟨s.writer.tail, .refl s⟩
    · exact act_acceptHead m _ _ s

theorem act_considerStalled (m : MasterNo) (s : State) :
    ∃ i, Act { s with writer := { s.writer with tail := i } } (considerStalled m s) := by
  unfold considerStalled
  split
  · exact ⟨s.writer.tail, .refl s⟩
  · split
    · exact ⟨s.writer.tail, .refl s⟩
    · exact act_acceptHead m _ _ s

theorem act_issue (q : Request) (s : State) :
    ∃ i, Act { s with writer := { s.writer with tail := i } } (issue q s) := by
  obtain ⟨i, h⟩ := act_consider q.master (joinChannel q s)
  exact ⟨i, (act_joinChannel q { s with writer := { s.writer with tail := i } }).trans h⟩

theorem act_issueStalled (q : Request) (s : State) :
    ∃ i, Act { s with writer := { s.writer with tail := i } } (issueStalled q s) := by
  obtain ⟨i, h⟩ := act_considerStalled q.master (joinChannel q s)
  exact ⟨i, (act_joinChannel q { s with writer := { s.writer with tail := i } }).trans h⟩

/-- Every fabric row that answers a next state, but for the tail index. -/
theorem act_takeIssue {α : Type} (request : α → Request) (a : Issue α) (s t : State)
    (h : takeIssue request a s = .next t) : ∃ i, Act { s with writer := { s.writer with tail := i } } t := by
  cases a with
  | new a =>
    simp only [takeIssue, takeRequest] at h
    split at h
    · injection h with h; subst h; exact act_issue _ s
    · cases h
  | stalled a =>
    simp only [takeIssue, takeRequest] at h
    split at h
    · injection h with h; subst h; exact act_issueStalled _ s
    · cases h
  | waiting m =>
    injection h with h; subst h; exact act_consider m s

end Sys2Proof.Machine
end

