-- ==== Sys2Proof/Laws/Loads.lean ====
section
/-! SUPPORT. What the Command Channel's reads do: a validated configuration's latencies, the one step that applies a load, and
every other response as one claim in the sense of `Act`. -/

namespace Sys2Proof.Machine

/-! ### Validation (R167) -/

theorem firstFailure_eq_none {l : List (Bool × Nat)} (h : firstFailure l = none) : ∀ p ∈ l, p.1 = true := by
  induction l with
  | nil => simp
  | cons p l ih =>
    unfold firstFailure at h
    split at h
    · rename_i e
      intro q hq
      rcases List.mem_cons.1 hq with rfl | hq
      · exact e
      · exact ih h q hq
    · cases h

theorem perSector_getElem {α : Type} (f : SectorNo → α) (k : SectorNo) : (perSector f)[k] = f k := by
  fin_cases k <;> rfl

theorem mem_sectorNos (k : SectorNo) : k ∈ sectorNos := List.mem_finRange k

/-- A validated configuration's report latencies are in range (Table 9.4). -/
theorem validate_latency {area : List Beat} {anchor : Addr} (h : validate area anchor = none) (j : SectorNo)
    (x : SectorSetup) (hx : (setupOf area).sectors[j] = some x) : x.params.latency ≤ 4 := by
  have e : (setupOf area).sectors[j] = if areaConfigured area j then some (sectorSetupOf area j) else none :=
    perSector_getElem (fun k => if areaConfigured area k then some (sectorSetupOf area k) else none) j
  rw [e] at hx
  split at hx
  · rename_i hc
    obtain rfl := Option.some.inj hx
    have := firstFailure_eq_none h (within 1 4 (sectorSetupOf area j).params.latency, 0x100 * (j.val + 1) + 0x05) (by
      unfold allTests
      refine List.mem_append_left _ (List.mem_append_left _ (List.mem_append_right _ ?_))
      refine List.mem_flatMap.2 ⟨j, mem_sectorNos j, ?_⟩
      rw [if_pos hc]
      simp [sectorTests])
    unfold within at this
    simp at this
    exact this.2
  · cases hx

theorem apart_of_overlaps {v w : Window} (h : v.overlaps w = false) : Window.apart v w := by
  unfold Window.overlaps Window.size at h
  simp only [Bool.and_eq_false_iff, decide_eq_false_iff_not] at h
  unfold Window.apart
  omega

/-- The overlap tests keep every window apart from every other (R134, R167). -/
theorem apart_of_tests : ∀ (l : List (Window × Nat)) (before : List Window),
    (∀ x ∈ overlapTests before l, x.1 = true) →
    (∀ v ∈ before, ∀ p ∈ l, Window.apart v p.1) ∧ List.Pairwise Window.apart (l.map Prod.fst)
  | [], _, _ => ⟨fun _ _ _ h => by simp at h, List.Pairwise.nil⟩
  | (w, c) :: l, before, h => by
    have first := h (_, _) List.mem_cons_self
    have ih := apart_of_tests l (before ++ [w]) (fun x hx => h x (List.mem_cons_of_mem _ hx))
    have hw : ∀ v ∈ before, Window.apart v w := by
      intro v hv
      simp only [Bool.not_eq_true'] at first
      exact apart_of_overlaps (by simpa using List.any_eq_false.mp first v hv)
    refine ⟨fun v hv p hp => ?_, List.Pairwise.cons (fun p hp => ?_) ih.2⟩
    · rcases List.mem_cons.mp hp with rfl | hp
      · exact hw v hv
      · exact ih.1 v (List.mem_append_left _ hv) p hp
    · obtain ⟨a, ha, rfl⟩ := List.mem_map.mp hp
      exact ih.1 w (by simp) a ha

theorem plainWindow_length (kind : WindowKind) (o : Option (Nat × Addr)) (c : Nat) :
    (plainWindow kind o).length ≤ (if o.isSome = true then [c] else []).length := by
  cases o <;> simp [plainWindow]

theorem sum_map_le {α : Type} (f g : α → Nat) (h : ∀ a, f a ≤ g a) : ∀ l : List α, (l.map f).sum ≤ (l.map g).sum
  | [] => Nat.le_refl _
  | a :: l => by
    simp only [List.map_cons, List.sum_cons]
    exact Nat.add_le_add (h a) (sum_map_le f g h l)

/-- Every window of a configuration is tested for overlap. -/
theorem windowCodes_fst (c : Setup) (a : Addr) : (windowCodes c a).map Prod.fst = c.windows a := by
  unfold windowCodes
  rw [List.map_fst_zip]
  unfold Setup.windows
  simp only [List.length_append, List.length_flatMap]
  refine Nat.add_le_add (Nat.add_le_add (Nat.add_le_add (Nat.add_le_add (Nat.le_refl _) ?_) ?_) ?_) ?_
  · simpa using plainWindow_length .log (c.log.map fun p => (p.1 + 5, p.2)) 5
  · exact plainWindow_length _ _ _
  · exact plainWindow_length _ _ _
  · refine sum_map_le _ _ (fun k => ?_) _
    cases h : c.sectors[k] <;> simp [sectorWindows]

/-- A configuration gives at most 16 windows, the ANCHOR window first. -/
theorem setup_windows (c : Setup) (a : Addr) :
    (c.windows a).length ≤ 16 ∧ (c.windows a).head? = some (Window.anchorAt a) := by
  have hp : ∀ (kind : WindowKind) (p : Option (Nat × Addr)), (plainWindow kind p).length ≤ 1 := by
    intro kind p; rcases p with _ | p <;> simp [plainWindow]
  have hs : ∀ k : SectorNo, (sectorWindows k c.sectors[k]).length ≤ 3 := by
    intro k; cases c.sectors[k] <;> simp [sectorWindows]
  have e : sectorNos = [0, 1, 2, 3] := rfl
  constructor
  · unfold Setup.windows
    rw [e]
    simp only [List.length_append, List.flatMap_cons, List.flatMap_nil, List.length_nil, List.length_cons]
    have a1 := hp .log (c.log.map fun p => (p.1 + 5, p.2))
    have a2 := hp .guard c.guard0
    have a3 := hp .guard c.guard1
    have b0 := hs 0
    have b1 := hs 1
    have b2 := hs 2
    have b3 := hs 3
    omega
  · unfold Setup.windows; rfl

/-! ### Applying a load (R16, R168) -/

theorem local_installEntry (staged : Vector (Vector StagedEntry 128) 4) (k : SectorNo) (r : RemoteNo) (s : State) :
    Local k s (installEntry staged k r s) := by
  have hl : ∀ (c : DescriptorCause) (b : Option Byte) (u : State), Local k u (logRefused k r c b u) := by
    intro c b u
    unfold logRefused
    split
    · exact local_refuseLane k r c _ u
    · exact .refl k u
  unfold installEntry
  dsimp only
  exact ((((local_modEntry k r _ s).trans (hl _ _ _)).trans (hl _ _ _)).trans (hl _ _ _)).trans
    (local_logStep k k r _ _ _ _)

theorem local_installEntries (staged : Vector (Vector StagedEntry 128) 4) (k : SectorNo) (s : State) :
    Local k s (forRemotes remotes (installEntry staged k) s) := local_forRemotes (local_installEntry staged k) _ s

theorem local_markAll (k : SectorNo) (s : State) : Local k s (markCounter k (forRemotes remotes (markMirror k) s)) :=
  (local_forRemotes (fun r s => local_markMirror k k r s) _ s).trans (local_markCounter k k _)

/-- One sector of a load: its history is gone, its mode and flag are kept, nothing outside the sector but records and
marks changes. -/
theorem installOne_spec (setup : Setup) (staged : Vector (Vector StagedEntry 128) 4) (k : SectorNo) (s : State) :
    Quiet s (installOne setup staged k s) ∧ OtherSectors k s (installOne setup staged k s) ∧
      ((installOne setup staged k s).sector k).mode = (s.sector k).mode ∧
      ((installOne setup staged k s).sector k).suspended = (s.sector k).suspended ∧
      ((installOne setup staged k s).sector k).pendingOp = (s.sector k).pendingOp ∧
      ((installOne setup staged k s).sector k).history = [] := by
  unfold installOne
  dsimp only
  have h1 := local_installEntries staged k s
  revert h1
  generalize forRemotes remotes (installEntry staged k) s = u
  intro h1
  have h2 := quiet_modSector k (installSector setup.sectors[k]) u
  have h3 := local_markAll k (modSector k (installSector setup.sectors[k]) u)
  have e : ∀ x : Sector, (installSector setup.sectors[k] x).mode = x.mode ∧
      (installSector setup.sectors[k] x).suspended = x.suspended ∧
      (installSector setup.sectors[k] x).pendingOp = x.pendingOp ∧ (installSector setup.sectors[k] x).history = [] := by
    intro x; unfold installSector; split <;> exact ⟨rfl, rfl, rfl, rfl⟩
  refine ⟨(h1.toQuiet.trans h2).trans h3.toQuiet, fun j hj => ?_, ?_, ?_, ?_, ?_⟩
  · rw [h3.others j hj, sector_modSector_of_ne hj, h1.others j hj]
  · rw [h3.stable.mode, sector_modSector_self, (e _).1, h1.stable.mode]
  · rw [h3.stable.suspended, sector_modSector_self, (e _).2.1, h1.stable.suspended]
  · rw [h3.stable.pendingOp, sector_modSector_self, (e _).2.2.1, h1.stable.pendingOp]
  · have := h3.stable.frames
    rw [sector_modSector_self, (e _).2.2.2] at this
    simpa using this

/-- What the part of a load that goes sector by sector leaves. -/
structure Installed (ks : List SectorNo) (s t : State) : Prop extends Quiet s t where
  kept : ∀ j, (t.sector j).mode = (s.sector j).mode ∧ (t.sector j).suspended = (s.sector j).suspended ∧
    (t.sector j).pendingOp = (s.sector j).pendingOp
  gone : ∀ j ∈ ks, (t.sector j).history = []

theorem installAll_spec (setup : Setup) (staged : Vector (Vector StagedEntry 128) 4) :
    ∀ (ks done : List SectorNo) (s0 s : State), Installed done s0 s →
      Installed (done ++ ks) s0 (ks.foldl (fun t k => installOne setup staged k t) s)
  | [], done, s0, s, h => by simpa using h
  | k :: ks, done, s0, s, h => by
    obtain ⟨q, o, m1, m2, m3, hh⟩ := installOne_spec setup staged k s
    have step : Installed (done ++ [k]) s0 (installOne setup staged k s) := by
      refine ⟨h.toQuiet.trans q, fun j => ?_, fun j hj => ?_⟩
      · by_cases e : j = k
        · subst e
          exact ⟨m1.trans (h.kept j).1, m2.trans (h.kept j).2.1, m3.trans (h.kept j).2.2⟩
        · rw [o j e]; exact h.kept j
      · by_cases e : j = k
        · subst e; exact hh
        · rw [o j e]
          rcases List.mem_append.1 hj with hj | hj
          · exact h.gone j hj
          · exact absurd (List.mem_singleton.1 hj) e
    have := installAll_spec setup staged ks (done ++ [k]) s0 _ step
    simpa using this

/-- The device items of a load and its result. -/
theorem installDevice_spec (setup : Setup) (d : Half) (u : State) :
    Act (markDevice (installDevice setup u)) (finish .done d (markDevice (installDevice setup u))) ∧
      (finish .done d (markDevice (installDevice setup u))).windows = setup.windows u.channel.anchorBase ∧
      (finish .done d (markDevice (installDevice setup u))).ports = u.ports ∧
      ∀ j, (finish .done d (markDevice (installDevice setup u))).sector j = u.sector j := by
  refine ⟨act_finish _ _ _, by rw [finish_windows]; rfl, by rw [finish_ports]; rfl, fun j => ?_⟩
  unfold State.sector
  rw [finish_sectors]; rfl

theorem installDevice_params (setup : Setup) (u : State) (j : SectorNo) :
    (markDevice (installDevice setup u)).params j = (installParams setup.sectors[j] u.store.sectors[j]).params := by
  have e : (markDevice (installDevice setup u)).params j =
      ((perSector fun k => installParams setup.sectors[k] u.store.sectors[k])[j]).params := rfl
  rw [e, perSector_getElem]

/-- What the one step of a load leaves, fills and clears. -/
structure Loaded (setup : Setup) (s t : State) : Prop where
  queue : s.recordQueueOk → t.recordQueueOk
  time : t.time = s.time
  ports : t.ports = s.ports
  pending : t.pending = s.pending
  buffer : t.writer.buffer = s.writer.buffer
  base : t.channel.anchorBase = s.channel.anchorBase
  windows : t.windows = setup.windows s.channel.anchorBase
  staged : s.stagedLatencyOk → t.stagedLatencyOk
  kept : ∀ j, (t.sector j).mode = (s.sector j).mode ∧ (t.sector j).suspended = (s.sector j).suspended ∧
    (t.sector j).pendingOp = (s.sector j).pendingOp
  gone : ∀ j, (t.sector j).history = []
  params : ∀ j, t.params j = (installParams setup.sectors[j] s.store.sectors[j]).params

theorem Installed.loaded {setup : Setup} {s u : State} (d : Half) (h : Installed sectorNos s u) :
    Loaded setup s (finish .done d (markDevice (installDevice setup u))) := by
  obtain ⟨hf, hw, hp, hs⟩ := installDevice_spec setup d u
  have hq := installDevice_params setup u
  revert hf hw hp hs
  generalize finish .done d (markDevice (installDevice setup u)) = v
  intro hf hw hp hs
  have hc : (markDevice (installDevice setup u)).channel = s.channel := h.channel
  refine ⟨fun a => hf.queue (h.queue a), hf.dev.time.trans h.dev.time, hp.trans h.ports,
    hf.dev.pending.trans h.dev.pending, hf.dev.buffer.trans h.dev.buffer, hf.dev.base.trans h.dev.base, ?_, ?_,
    fun j => ?_, fun j => ?_, fun j => ?_⟩
  · rw [hw, h.channel]
  · intro a
    refine hf.staged ?_
    unfold State.stagedLatencyOk
    rw [hc]; exact a
  · rw [hs]; exact h.kept j
  · rw [hs]; exact h.gone j (mem_sectorNos j)
  · rw [hf.params, hq, h.dev.store]

/-- The one step of a load. -/
theorem applyLoad_spec (setup : Setup) (staged : Vector (Vector StagedEntry 128) 4) (s : State) :
    Loaded setup s (applyLoad setup staged s) := by
  have h := installAll_spec setup staged sectorNos [] s s ⟨.refl s, fun _ => ⟨rfl, rfl, rfl⟩, by simp⟩
  rw [List.nil_append] at h
  unfold applyLoad
  exact h.loaded _

/-! ### The other responses (R153, R166; R18) -/

theorem act_takeStagingReply (k : SectorNo) (kind : RelocKind) (reply : Reply) (s : State) :
    Act s (takeStagingReply k kind reply s) := by
  unfold takeStagingReply
  dsimp only
  refine Act.ite (fun _ => act_finish _ _ s) fun _ => ?_
  split
  · exact act_finish _ _ s
  · rename_i e
    refine act_startRelocation k kind _ s fun hk => ?_
    subst hk
    unfold relocationFault Config.windowPlaces at e
    dsimp only at e
    by_contra hc
    repeat (split at e <;> first | cases e | skip)
    all_goals simp_all

theorem act_endRelocation (k : SectorNo) (n : Nat) (failed : Option RemoteNo) (cancel : Option Command) (s : State) :
    Act s (endRelocation k n failed cancel s) := by
  have hp := act_setPendingOp k none s (by simp)
  unfold endRelocation
  dsimp only
  split
  · exact (hp.trans (act_finish _ _ _)).trans (act_answer _ _ _ _)
  · exact (hp.trans (act_finish _ _ _)).trans (act_answer _ _ _ _)
  · exact hp.trans (act_finish _ _ _)
  · exact hp.trans (act_finish _ _ _)

theorem act_takeRelocDescriptorReply (k : SectorNo) (r : RemoteNo) (reply : Reply) (s : State) :
    Act s (takeRelocDescriptorReply k r reply s) := by
  unfold takeRelocDescriptorReply
  split
  · rename_i late cancel _
    dsimp only
    have h1 : Act s (if reply.error then s else takeDifferences k r (reply.data.getD 0 0) s) :=
      Act.ite (fun _ => .refl s) fun _ => act_changeDescriptor k r _ _ s
    have h2 := fun u => act_foldl (fun t (w : LateWrite) => changeDescriptor k r w.lanes w.beat t)
      (fun t w => act_changeDescriptor k r w.lanes w.beat t) late u
    split
    · refine ((h1.trans (h2 _)).trans (act_setPhase _ _ ?_)).trans (act_waitRead _ _)
      intro _ _ _ _ _ _ e; cases e
    · exact (h1.trans (h2 _)).trans (act_endRelocation _ _ _ _ _)
  · exact .refl s

/-- A response that does not apply a load is one claim; one that does applies the configuration that was validated. -/
def ActOrLoad (s t : State) : Prop :=
  Act s t ∨ ∃ setup staged, t = applyLoad setup staged s ∧
    (s.stagedLatencyOk → ∀ (j : SectorNo) (x : SectorSetup), setup.sectors[j] = some x → x.params.latency ≤ 4)

theorem continueLoad_spec (setup : Setup) (staged : Vector (Vector StagedEntry 128) 4)
    (next : Option (SectorNo × RemoteNo)) (s : State)
    (h : s.stagedLatencyOk → ∀ (j : SectorNo) (x : SectorSetup), setup.sectors[j] = some x → x.params.latency ≤ 4) :
    ActOrLoad s (continueLoad setup staged next s) := by
  unfold continueLoad
  split
  · refine .inl ((act_setPhase _ s ?_).trans (act_waitRead _ _))
    intro a _ _ _ _ _ e; cases e; exact h a
  · exact .inr ⟨setup, staged, rfl, h⟩

theorem takeConfigReply_spec (i : Nat) (reply : Reply) (s : State) : ActOrLoad s (takeConfigReply i reply s) := by
  unfold takeConfigReply
  split
  · split
    · exact .inl (act_finish _ _ s)
    · dsimp only
      split
      · refine .inl ((act_setPhase _ s ?_).trans (act_waitRead _ _))
        intro _ _ _ _ _ _ e; cases e
      · unfold validateLoad
        split
        · exact .inl (act_finish _ _ s)
        · rename_i e
          exact continueLoad_spec _ _ _ s fun _ j x hx => validate_latency e j x hx
  · exact .inl (.refl s)

theorem takeLoadDescriptorReply_spec (k : SectorNo) (r : RemoteNo) (reply : Reply) (s : State) :
    ActOrLoad s (takeLoadDescriptorReply k r reply s) := by
  unfold takeLoadDescriptorReply
  split
  · rename_i c setup staged k' r' late e
    split
    · exact .inl (act_finish _ _ s)
    · exact continueLoad_spec _ _ _ s fun a => a _ setup staged k' r' late e rfl
  · exact .inl (.refl s)

theorem takePartReply_spec (t : ReadTarget) (reply : Reply) (s : State) : ActOrLoad s (takePartReply t reply s) := by
  cases t with
  | config i => exact takeConfigReply_spec i reply s
  | loadDescriptor k r => exact takeLoadDescriptorReply_spec k r reply s
  | staging k kind => exact .inl (act_takeStagingReply k kind reply s)
  | relocDescriptor k r => exact .inl (act_takeRelocDescriptorReply k r reply s)

/-! ### The area, item by item -/

/-- A base item of the area, from its bytes. -/
theorem areaBase_of_bytes (area : List Beat) (off : Nat) (h : off % 8 = 0) (low : 0x100 ≤ off) :
    areaByte area (off + 4) ++ areaByte area (off + 3) ++ areaByte area (off + 2) ++ areaByte area (off + 1) ++
      areaByte area off = areaBase area off := by
  unfold areaByte areaBase
  rw [show (off + 4 - 0x100) / 8 = (off - 0x100) / 8 by omega, show (off + 3 - 0x100) / 8 = (off - 0x100) / 8 by omega,
    show (off + 2 - 0x100) / 8 = (off - 0x100) / 8 by omega, show (off + 1 - 0x100) / 8 = (off - 0x100) / 8 by omega,
    show (off + 4 - 0x100) % 8 = 4 by omega, show (off + 3 - 0x100) % 8 = 3 by omega,
    show (off + 2 - 0x100) % 8 = 2 by omega, show (off + 1 - 0x100) % 8 = 1 by omega, show (off - 0x100) % 8 = 0 by omega]
  exact base_of_bytes _

end Sys2Proof.Machine
end

