-- ==== Sys2Proof/Laws/Outbound.lean ====
section
/-! SUPPORT. What the Outbound Writer's own moments leave and change: the relation `Writes s t`, and the lemma for forming a
write, for handing a result and for a completion. -/

namespace Sys2Proof.Machine

/-- A moment of the Outbound Writer: sectors, ports, windows, roles, store, time and the queue of commands are left; the
buffer keeps its bound, the record queue its form, the command in flight its phase or its place. -/
structure Writes (s t : State) : Prop where
  pending : t.pending = s.pending
  time : t.time = s.time
  ports : t.ports = s.ports
  windows : t.windows = s.windows
  roles : t.roles = s.roles
  store : t.store = s.store
  sectors : t.sectors = s.sectors
  base : t.channel.anchorBase = s.channel.anchorBase
  inFlight : t.channel.inFlight = s.channel.inFlight ∨ t.channel.inFlight = none
  queue : s.recordQueueOk → t.recordQueueOk
  bound : s.writer.buffer.length ≤ 6 → t.writer.buffer.length ≤ 6

theorem Writes.refl (s : State) : Writes s s := ⟨rfl, rfl, rfl, rfl, rfl, rfl, rfl, rfl, .inl rfl, id, id⟩

theorem Writes.trans {s t u : State} (h : Writes s t) (g : Writes t u) : Writes s u :=
  ⟨g.pending.trans h.pending, g.time.trans h.time, g.ports.trans h.ports, g.windows.trans h.windows,
   g.roles.trans h.roles, g.store.trans h.store, g.sectors.trans h.sectors, g.base.trans h.base,
   by rcases g.inFlight with e | e
      · rw [e]; exact h.inFlight
      · exact .inr e,
   fun a => g.queue (h.queue a), fun a => g.bound (h.bound a)⟩

/-- A change that stays among the Writer's and the Notice Unit's own fields. -/
theorem Quiet.writes {s t : State} (h : Quiet s t) (hs : t.sectors = s.sectors) : Writes s t :=
  ⟨h.dev.pending, h.dev.time, h.ports, h.dev.windows, h.dev.roles, h.dev.store, hs, h.dev.base, .inl (by rw [h.channel]),
   h.queue, by rw [h.dev.buffer]; exact id⟩

theorem writes_markDevice (s : State) : Writes s (markDevice s) := (quiet_markDevice s).writes rfl

theorem writes_raiseNotice (kind : NoticeKind) (s : State) : Writes s (raiseNotice kind s) :=
  (quiet_setPendingNotices _ s).writes (setPendingNotices_sectors _ s)

theorem writes_logFor (k : Option SectorNo) (b : RecordBody) (s : State) : Writes s (logFor k b s) :=
  (local_logFor 0 k b s).toQuiet.writes (logFor_sectors k b s)

theorem writes_setQueue {q : List LogRecord} {s : State} (h : s.recordQueueOk → q.length ≤ 64) : Writes s (setQueue q s) :=
  ⟨rfl, rfl, rfl, rfl, rfl, rfl, rfl, rfl, .inl rfl, fun a => recordQueueOk_of_level (h a) rfl a, id⟩

/-- A formed write enters a free place. -/
theorem writes_pushWrite (source : WriteSource) (a : Addr) (d : List Beat) (s : State) (h : s.writer.buffer.length < 6) :
    Writes s (pushWrite source a d s) :=
  ⟨rfl, rfl, rfl, rfl, rfl, rfl, rfl, rfl, .inl rfl, id, fun _ => by simp [pushWrite]; omega⟩

/-- A change of the Writer's fields beside its buffer and its record queue. -/
theorem writes_writer (w : Writer) (s : State) (hb : w.buffer = s.writer.buffer) (hq : w.queue = s.writer.queue) :
    Writes s { s with writer := w } := by
  refine ⟨rfl, rfl, rfl, rfl, rfl, rfl, rfl, rfl, .inl rfl, ?_, ?_⟩
  · unfold State.recordQueueOk; dsimp only; rw [hq]; exact id
  · dsimp only; rw [hb]; exact id

/-! ### The log source (R176) -/

theorem writes_writeRecord (g : LogGeometry) (rec : LogRecord) (s : State) (h : s.writer.buffer.length < 6) :
    Writes s (writeRecord g rec s) := by
  unfold writeRecord
  exact ((writes_pushWrite .log _ _ s h).trans (writes_writer _ _ (by rfl) (by rfl))).trans (writes_markDevice _)

theorem writes_writeOverflow (g : LogGeometry) (s : State) (h : s.writer.buffer.length < 6) :
    Writes s (writeOverflow g s) := by
  unfold writeOverflow
  exact ((writes_writeRecord g _ s h).trans (writes_writer _ _ (by rfl) (by rfl))).trans (writes_raiseNotice _ _)

theorem writes_discardRecord (rest : List LogRecord) (s : State) (h : s.recordQueueOk → rest.length ≤ 64) :
    Writes s (discardRecord rest s) := by
  unfold discardRecord
  exact ((writes_setQueue h).trans (writes_writer _ _ (by rfl) (by rfl))).trans (writes_markDevice _)

theorem discardRecord_buffer (rest : List LogRecord) (s : State) :
    (discardRecord rest s).writer.buffer = s.writer.buffer := rfl

theorem writes_discardAll : ∀ (q : List LogRecord) (s : State), (s.recordQueueOk → q.length ≤ 64) →
    Writes s (discardAll q s) ∧ (discardAll q s).writer.buffer = s.writer.buffer
  | [], s, _ => ⟨.refl s, rfl⟩
  | _ :: q, s, h => by
    have hq : s.recordQueueOk → q.length ≤ 64 := fun a => by have := h a; simp at this; omega
    have h1 := writes_discardRecord q s hq
    have h2 := writes_discardAll q (discardRecord q s) (fun a => by
      have : (discardRecord q s).writer.queue = q := rfl
      exact this ▸ a.1)
    exact ⟨h1.trans h2.1, h2.2.trans rfl⟩

/-- The log source: where it leaves the place free, the buffer is as it was. -/
theorem formLog_spec (s : State) (h : s.writer.buffer.length < 6) :
    Writes s (formLog s).2 ∧ ((formLog s).1 = false → (formLog s).2.writer.buffer = s.writer.buffer) := by
  unfold formLog
  split
  · split
    · exact ⟨writes_writeOverflow _ s h, by simp⟩
    · split
      · rename_i rec rest e
        refine ⟨(writes_setQueue fun a => ?_).trans (writes_writeRecord _ _ _ h), by simp⟩
        have := a.1
        rw [e] at this
        simp at this; omega
      · exact ⟨.refl s, fun _ => rfl⟩
  · have := writes_discardAll s.writer.queue s fun a => a.1
    exact ⟨this.1, fun _ => this.2⟩

/-! ### The other sources (R174) -/

theorem writes_formResult (r : Result) (s : State) (h : s.writer.buffer.length < 6) : Writes s (formResult r s) := by
  have h2 : Writes s (pushAnchorWrite .result [resultBeat r] { s with writer := { s.writer with pendingResult := none } }) :=
    (writes_writer _ s (by rfl) (by rfl)).trans (writes_pushWrite .result _ _ _ h)
  have h3 : ∀ u : State, Writes u { u with channel := { u.channel with inFlight := none } } := fun u =>
    ⟨rfl, rfl, rfl, rfl, rfl, rfl, rfl, rfl, .inr rfl, id, id⟩
  unfold formResult
  dsimp only
  split
  · exact (h2.trans (h3 _)).trans (writes_markDevice _)
  · exact h2

theorem writes_formDirty (s : State) (h : s.writer.buffer.length < 6) : Writes s (formDirty s) := by
  have hw : ∀ (w : Writer) (src : WriteSource) (d : List Beat), w.buffer = s.writer.buffer →
      w.queue = s.writer.queue → Writes s (pushAnchorWrite src d { s with writer := w }) := by
    intro w src d hb hq
    refine (writes_writer w s hb hq).trans (writes_pushWrite src _ d _ ?_)
    dsimp only; rw [hb]; exact h
  unfold formDirty
  split
  · exact hw _ _ _ rfl rfl
  · split
    · exact hw _ _ _ rfl rfl
    · split
      · exact hw _ _ _ rfl rfl
      · exact .refl s

/-- OUTBOUND_WRITE_FORMED (R174). -/
theorem writes_formWrite (s : State) : Writes s (formWrite s) := by
  unfold formWrite Config.outboundPlaces
  split
  · exact .refl s
  · rename_i hl
    have h : s.writer.buffer.length < 6 := Nat.lt_of_not_le hl
    split
    · exact writes_formResult _ s h
    · dsimp only
      obtain ⟨h1, h2⟩ := formLog_spec s h
      split
      · exact h1
      · rename_i hb
        exact h1.trans (writes_formDirty _ (by rw [h2 (by simpa using hb)]; exact h))

/-! ### Handing, granting and completing (R161, R174, R175, R179) -/

theorem act_handHeld (s : State) : Act s (handHeld s) := by
  unfold handHeld
  split
  · rename_i r rest _ _
    refine Act.trans ?_ (act_enterPending r _)
    exact ⟨⟨rfl, rfl, rfl, rfl, rfl, rfl, rfl, rfl, rfl, rfl, rfl, rfl, rfl, rfl⟩, id, id, fun _ => .refl _ _, id⟩
  · exact .refl s

theorem writes_dropWrite (src : WriteSource) (s : State) : Writes s (dropWrite src s) := by
  unfold dropWrite
  dsimp only
  have h2 := ((writes_writer { s.writer with faults := s.writer.faults + 1 } s rfl rfl).trans (writes_markDevice _)).trans
    (writes_raiseNotice .memoryFault _)
  split
  · exact h2.trans (writes_logFor _ _ _)
  · exact h2

theorem writes_completeWrite (src : WriteSource) (s : State) : Writes s (completeWrite src s) := by
  cases src
  · exact writes_raiseNotice _ s
  all_goals exact .refl s

theorem length_removeIssued : ∀ l : List OutWrite, (removeIssued l).length ≤ l.length
  | [] => by simp [removeIssued]
  | w :: l => by
    unfold removeIssued
    split
    · simp
    · simpa using length_removeIssued l

theorem length_issueOldest : ∀ l : List OutWrite, (issueOldest l).length = l.length
  | [] => rfl
  | w :: l => by
    unfold issueOldest
    split
    · simpa using length_issueOldest l
    · rfl

/-! ### The sources one by one (R174, R176) -/

/-- The first item of a list that passes a test is the one found. -/
theorem find_first {α : Type} (p : α → Bool) : ∀ (l : List α) (i : Nat) (a : α), l[i]? = some a → p a = true →
    (∀ j, j < i → ∀ b, l[j]? = some b → p b = false) → l.find? p = some a
  | [], i, a, h, _, _ => by simp at h
  | x :: l, 0, a, h, hp, _ => by simp at h; subst h; simp [hp]
  | x :: l, i + 1, a, h, hp, hj => by
    rw [List.find?_cons, hj 0 (by omega) x rfl]
    exact find_first p l i a (by simpa using h) hp (fun j hl b hb => hj (j + 1) (by omega) b (by simpa using hb))

/-- With no result and nothing for the log to write, the dirty sets are next. -/
theorem formWrite_blocks (s : State) (hb : s.writer.buffer.length < 6) (h1 : s.writer.pendingResult = none)
    (h2 : s.writer.queue = []) (h3 : ∀ g, s.writer.log = some g →
      (s.writer.head + 2 ^ g.k - s.writer.tail) % 2 ^ g.k + 1 < 2 ^ g.k → s.writer.skips = 0) :
    formWrite s = formDirty s := by
  have hl : formLog s = (false, s) := by
    unfold formLog Writer.roomy
    cases hl : s.writer.log with
    | none => simp only [h2]; rfl
    | some g =>
      dsimp only
      by_cases hr : s.writer.owed g.capacity + 1 < g.capacity
      · rw [if_pos hr]
        dsimp only
        rw [if_neg (by simpa using h3 g hl hr), h2]
      · rw [if_neg hr]
        simp only [h2]
        rfl
  unfold formWrite
  rw [if_neg (by simp [Config.outboundPlaces]; omega), h1]
  dsimp only
  rw [hl]
  rfl

/-- A discarded queue is as many skips and sequence numbers as it had records (R176). -/
theorem discardAll_spec : ∀ (q : List LogRecord) (s : State), q ≠ [] → ∃ h,
    discardAll q s = { s with
      holdOff := h
      writer := { s.writer with
        queue := [], skips := s.writer.skips + BitVec.ofNat 32 q.length
        seq := s.writer.seq + BitVec.ofNat 32 q.length, deviceDirty := true } }
  | [], _, h => absurd rfl h
  | [r], s, _ => ⟨_, rfl⟩
  | r :: r' :: q, s, _ => by
    have add : ∀ v : Word, v + 1 + BitVec.ofNat 32 (r' :: q).length = v + BitVec.ofNat 32 (r :: r' :: q).length := by
      intro v
      rw [BitVec.add_assoc, List.length_cons (a := r), BitVec.ofNat_add, BitVec.add_comm 1]
      rfl
    obtain ⟨h, e⟩ := discardAll_spec (r' :: q) (discardRecord (r' :: q) s) (by simp)
    refine ⟨h, e.trans ?_⟩
    rw [← add, ← add]
    rfl

/-- The oldest ready write, where the writes before it are issued, and the buffer after its grant (R131, R174). -/
theorem oldestReady_of {w : Writer} {a b : List OutWrite} {o : OutWrite} (h : w.buffer = a ++ o :: b)
    (ha : ∀ x ∈ a, x.issued = true) (ho : o.issued = false) :
    w.oldestReady = some o ∧ w.hasReady = true ∧ issueOldest w.buffer = a ++ { o with issued := true } :: b := by
  unfold Writer.oldestReady Writer.hasReady
  rw [h]
  refine ⟨?_, by simp [ho], ?_⟩
  · rw [List.find?_append, List.find?_eq_none.2 (by intro x hx; simp [ha x hx])]
    simp [ho]
  · clear h
    induction a with
    | nil => simp [issueOldest, ho]
    | cons x a ih =>
      rw [List.cons_append, issueOldest, if_pos (ha x (by simp)), ih fun y hy => ha y (by simp [hy])]
      rfl

end Sys2Proof.Machine
end

