-- ==== Sys2Proof/Laws/Invariants.lean ====
section
/-! SUPPORT. The invariants of Safety across each kind of change that Laws describes: an act, a formed or completed write, an
applied load, a fabric row, a response of memory. -/

namespace Sys2Proof.Machine

/-- An act of the part keeps the invariant. -/
theorem inv_of_act {s t : State} (h : Act0 s t) (hi : s.Inv) : t.Inv := by
  obtain ⟨a, b⟩ := h.table ⟨hi.places, hi.anchor⟩
  exact ⟨h.queue hi.queue, by rw [show t.writer.buffer = s.writer.buffer from h.dev.buffer]; exact hi.buffer, a, b,
    fun k => h.modes k (hi.modes k)⟩

theorem inv_of_tail {s : State} (i : Nat) (hi : s.Inv) : State.Inv { s with writer := { s.writer with tail := i } } :=
  ⟨hi.queue, hi.buffer, hi.places, hi.anchor, hi.modes⟩

theorem inv_of_pending {s : State} (p) (hi : s.Inv) : State.Inv { s with pending := p } :=
  ⟨hi.queue, hi.buffer, hi.places, hi.anchor, hi.modes⟩

/-- Forming and completing outbound writes keeps the invariant. -/
theorem inv_of_writes {s t : State} (h : Writes s t) (hi : s.Inv) : t.Inv := by
  refine ⟨h.queue hi.queue, h.bound hi.buffer, by rw [h.windows]; exact hi.places, ?_, fun k => ?_⟩
  · unfold State.anchored; rw [h.windows, h.base]; exact hi.anchor
  · have : t.sector k = s.sector k := by simp [State.sector, h.sectors]
    rw [this]; exact hi.modes k

/-- A load that is applied keeps the invariant. -/
theorem inv_of_loaded {setup} {s t : State} (h : Loaded setup s t) (hi : s.Inv) : t.Inv := by
  have := setup_windows setup s.channel.anchorBase
  refine ⟨h.queue hi.queue, by rw [h.buffer]; exact hi.buffer, by rw [h.windows]; exact this.1, ?_, fun k => ?_⟩
  · unfold State.anchored; rw [h.windows, h.base]; exact ⟨this.2, hi.anchor.2⟩
  · unfold Sector.modeOk; rw [(h.kept k).1, (h.kept k).2.1, (h.kept k).2.2]; exact hi.modes k

/-- Every fabric row keeps the invariant. -/
theorem inv_of_issue {α} (req : α → Request) (i : Issue α) {s t : State} (h : takeIssue req i s = .next t) (hi : s.Inv) : t.Inv := by
  obtain ⟨j, a⟩ := act_takeIssue req i s t h
  exact inv_of_act a.weak (inv_of_tail j hi)

/-- Memory's response to a master's request keeps the invariant. -/
theorem inv_of_reply {s t : State} {m reply} (h : memoryReply m reply s = .next t) (hi : s.Inv) : t.Inv := by
  unfold memoryReply at h
  split at h
  · rename_i n patch rest _
    split at h
    · dsimp only at h
      injection h with h; subst h
      refine inv_of_act (act_answerOldest _ _ _ _).weak ?_
      unfold takeReply
      split
      · rename_i p _
        unfold takeMapReply
        split
        · exact hi
        · obtain ⟨-, -, -, h⟩ := takeMapBeats_spec p.sector p.winBase reply.data p.addr s
          exact inv_of_act (h (hi.modes _)).1 hi
      · exact hi
    · cases h
  · cases h

/-- Memory's response to one of the part's own reads keeps the invariant. -/
theorem inv_of_part {s t : State} {reply} (h : partReadReply reply s = .next t) (hi : s.Inv) : t.Inv := by
  unfold partReadReply at h
  split at h
  · split at h
    · injection h with h; subst h
      have h0 := inv_of_act (act_popOutstanding s).weak hi
      split
      · exact h0
      · rename_i tg _ _ _ _ _
        rcases takePartReply_spec tg reply (popOutstanding s) with h | ⟨setup, staged, e, -⟩
        · exact inv_of_act h.weak h0
        · rw [e]; exact inv_of_loaded (applyLoad_spec setup staged _) h0
    · cases h
  · cases h
  · cases h

/-- An act of the part keeps the form of the plan histories. -/
theorem plans_of_act {s t : State} (h : Act s t) (hi : s.PlansInv) : t.PlansInv :=
  ⟨fun k => by rw [h.params]; exact (h.sectors k).plans (hi.plans k), fun k => by rw [h.params]; exact hi.latency k, h.staged hi.staged⟩

theorem plans_of_tail {s : State} (i : Nat) (hi : s.PlansInv) : State.PlansInv { s with writer := { s.writer with tail := i } } :=
  ⟨hi.plans, hi.latency, hi.staged⟩

theorem plans_of_writes {s t : State} (h : Writes s t) (hi : s.PlansInv) : t.PlansInv := by
  have e : ∀ k, t.sector k = s.sector k := fun k => by simp [State.sector, h.sectors]
  have p : ∀ k, t.params k = s.params k := fun k => by simp [State.params, State.sectorConfig, h.store]
  refine ⟨fun k => by rw [p, e]; exact hi.plans k, fun k => by rw [p]; exact hi.latency k, ?_⟩
  unfold State.stagedLatencyOk
  rcases h.inFlight with e | e
  · rw [e]; exact hi.staged
  · rw [e]; intro f _ _ _ _ _ h; cases h

theorem plans_of_loaded {setup} {s t : State} (h : Loaded setup s t) (hi : s.PlansInv)
   (hs : ∀ (j : SectorNo) (x : SectorSetup), setup.sectors[j] = some x → x.params.latency ≤ 4) : t.PlansInv := by
  refine ⟨fun k => plansOk_of_nil (h.gone k) _, fun k => ?_, h.staged hi.staged⟩
  rw [h.params]
  unfold installParams
  split
  · exact hs k _ (by assumption)
  · exact hi.latency k

theorem plans_of_issue {α} (req : α → Request) (i : Issue α) {s t : State} (h : takeIssue req i s = .next t) (hi : s.PlansInv) : t.PlansInv := by
  obtain ⟨j, a⟩ := act_takeIssue req i s t h
  exact plans_of_act a (plans_of_tail j hi)

theorem plans_of_reply {s t : State} {m reply} (h : memoryReply m reply s = .next t) (hv : s.Inv) (hi : s.PlansInv) : t.PlansInv := by
  unfold memoryReply at h
  split at h
  · rename_i n patch rest _
    split at h
    · dsimp only at h
      injection h with h; subst h
      refine plans_of_act (act_answerOldest _ _ _ _) ?_
      unfold takeReply
      split
      · rename_i p _
        unfold takeMapReply
        split
        · exact hi
        · obtain ⟨-, -, -, h⟩ := takeMapBeats_spec p.sector p.winBase reply.data p.addr s
          exact plans_of_act ((h (hv.modes _)).2 (hi.plans _)) hi
      · exact hi
    · cases h
  · cases h

theorem plans_of_part {s t : State} {reply} (h : partReadReply reply s = .next t) (hi : s.PlansInv) : t.PlansInv := by
  unfold partReadReply at h
  split at h
  · split at h
    · injection h with h; subst h
      have h0 := plans_of_act (act_popOutstanding s) hi
      split
      · exact h0
      · rename_i tg _ _ _ _ _
        rcases takePartReply_spec tg reply (popOutstanding s) with h | ⟨setup, staged, e, hs⟩
        · exact plans_of_act h h0
        · rw [e]; exact plans_of_loaded (applyLoad_spec setup staged _) h0 (hs h0.staged)
    · cases h
  · cases h
  · cases h

end Sys2Proof.Machine
end

