-- ==== Sys2Proof/Laws/Outcomes.lean ====
section
/-! SUPPORT. What one step of one remote leaves in the record queue, in the queue and in the ranging order, and what the outcome
of each kind of expectation does (Sections 2.2 to 2.8), said once for each outcome. -/

namespace Sys2Proof.Machine

/-! ### The STATE record of a step (R21) -/

theorem markStep_queue (k : SectorNo) (r : RemoteNo) (old new : Entry) (s : State) :
    (markStep k r old new s).writer.queue = s.writer.queue := by
  unfold markStep
  dsimp only
  split <;> split <;> rfl

theorem remoteStep_entry_self (k : SectorNo) (r : RemoteNo) (info : StepInfo) (e : Entry) (s : State) :
    (remoteStep k r info e s).entry k r =
      { e with fadedAt := fadedAtAfter (s.sector k).frame (s.entry k r).state e.state (s.entry k r).fadedAt } := by
  rw [remoteStep_entry, if_pos rfl]

theorem applyStep_frame (r : RemoteNo) (e : Entry) (placed : Bool) (x : Sector) : (applyStep r e placed x).frame = x.frame :=
  (stable_applyStep r e placed x).frame

/-- A step that changes state or profile queues its STATE record first (R21). -/
theorem remoteStep_logged (k : SectorNo) (r : RemoteNo) (info : StepInfo) (e : Entry) (s : State)
    (h : (s.entry k r).state ≠ e.state ∨ (s.entry k r).profile ≠ e.profile) :
    StateLogged k r info.cause s (remoteStep k r info e s) := by
  intro hq
  have he := remoteStep_entry_self k r info e s
  have hn : ((modSector k (applyStep r e info.placed) s).entry k r) =
      { e with fadedAt := fadedAtAfter (s.sector k).frame (s.entry k r).state e.state (s.entry k r).fadedAt } := by
    show ((modSector k (applyStep r e info.placed) s).sector k).entries[r] = _
    rw [sector_modSector_self]
    simp only [applyStep_entries]
    exact (entry_setEntry _ r r _).trans (if_pos rfl)
  generalize hx : ((modSector k (applyStep r e info.placed) s).entry k r) = new at hn
  refine ⟨stepDetail (s.sector k).frame (s.entry k r) new info.margin, ?_⟩
  have hl : (markStep k r (s.entry k r) new
      (logStep k r info (s.entry k r) new (modSector k (applyStep r e info.placed) s))).writer.queue =
      s.writer.queue ++ [{
        time := s.time, sector := some k, frame := some (s.sector k).frame,
        body := .state info.cause r (s.entry k r).state new.state new.profile new.attempts
          (stepDetail (s.sector k).frame (s.entry k r) new info.margin) }] := by
    rw [markStep_queue]
    unfold logStep
    rw [if_neg (by rw [hn]; exact fun c => h.elim (· c.1) (· c.2))]
    unfold logSector
    rw [pushRecord_queue _ _ (show (modSector k (applyStep r e info.placed) s).writer.queue.length < 64 from hq),
      sector_modSector_self, applyStep_frame]
    rfl
  rw [he]
  rw [show e.state = new.state by rw [hn], show e.profile = new.profile by rw [hn],
    show e.attempts = new.attempts by rw [hn]]
  unfold remoteStep
  dsimp only
  rw [hx]
  split
  · exact hl ▸ (local_handInputs k _ _ _).grows
  · exact hl ▸ List.prefix_rfl

/-- What later steps leave of the STATE record: it stands where it was queued. -/
theorem StateLogged.later {k : SectorNo} {r : RemoteNo} {c : StateCause} {s t u : State} (h : StateLogged k r c s t)
    (g : t.writer.queue <+: u.writer.queue) (he : u.entry k r = t.entry k r) : StateLogged k r c s u := by
  intro hq
  obtain ⟨d, hd⟩ := h hq
  exact ⟨d, he ▸ hd.trans g⟩

theorem stepTo_logged (k : SectorNo) (r : RemoteNo) (st : RState) (info : StepInfo) (f : Entry → Entry) (s : State)
    (h : (s.entry k r).state ≠ st) : StateLogged k r info.cause s (stepTo k r st info f s) :=
  remoteStep_logged k r info _ s (.inl (by rw [enter_state]; exact h))

/-- The sector ready to give a stamp differs from the one before in stamps alone. -/
theorem readyHead_frame (x : Sector) : (readyHead x).frame = x.frame := by
  unfold readyHead restamp
  split
  · exact restampFrom_frame _ _ x
  · rfl

theorem readyHead_entry (x : Sector) (q : RemoteNo) : ∃ o, (readyHead x).entry q = { x.entry q with order := o } := by
  unfold readyHead restamp
  split
  · exact restampFrom_entry _ _ x q
  · exact ⟨(x.entry q).order, rfl⟩

/-! ### What follows a change of state beside the entry (R19, R20, R34, R54, R69) -/

theorem keepsOpen_iff (st : RState) (kind : WatchKind) : keepsOpen st kind = true ↔ kind.keptIn st := by
  cases kind <;> simp [keepsOpen, WatchKind.keptIn]

theorem voidFor_voided (r : RemoteNo) (st : RState) (x : Sector) : VoidedFor r st x.history (voidFor r st x).history := by
  refine ⟨voidOne r st, rfl, fun w => ?_⟩
  have h : keepsOpen st w.kind = false ↔ ¬ w.kind.keptIn st := by
    rw [← keepsOpen_iff, Bool.not_eq_true]
  exact ⟨fun c => if_pos ⟨c.2.1, c.1, h.mpr c.2.2⟩, fun c => if_neg fun d => c ⟨d.2.1, d.1, h.mp d.2.2⟩⟩

theorem mapWatches_mapWatches (f g : Expectation → Expectation) (p : Plan) :
    (p.mapWatches f).mapWatches g = p.mapWatches (g ∘ f) := by
  have hd : ∀ d : Decision, (d.mapWatches f).mapWatches g = d.mapWatches (g ∘ f) := fun d => by
    cases d <;> simp [Decision.mapWatches, Function.comp_def]
  unfold Plan.mapWatches
  simp only [List.map_map, Plan.mk.injEq, true_and]
  refine List.map_congr_left fun d _ => ?_
  cases d <;> simp [hd]

theorem mapWatches_id (p : Plan) : p.mapWatches (fun w => w) = p := by
  have hd : ∀ d : Decision, d.mapWatches (fun w => w) = d := fun d => by cases d <;> simp [Decision.mapWatches]
  unfold Plan.mapWatches
  conv_rhs => rw [show p = { p with slots := p.slots.map id } by simp]
  simp only [Plan.mk.injEq, true_and]
  refine List.map_congr_left fun d _ => ?_
  cases d <;> simp [hd]

theorem VoidedWhere.refl (before : List Plan) : VoidedWhere (fun _ => False) before before :=
  ⟨fun w => w, by simp [mapWatches_id], fun w => ⟨fun h => h.elim, fun _ => rfl⟩⟩

theorem VoidedWhere.congr {p q : Expectation → Prop} {a b : List Plan} (h : VoidedWhere p a b) (e : ∀ w, p w ↔ q w) :
    VoidedWhere q a b := by
  obtain ⟨f, hf, g⟩ := h
  exact ⟨f, hf, fun w => ⟨fun c => (g w).1 ((e w).mpr c), fun c => (g w).2 fun d => c ((e w).mp d)⟩⟩

/-- One voiding after another, of open expectations. -/
theorem VoidedWhere.trans {p q : Expectation → Prop} {a b c : List Plan} (h : VoidedWhere p a b) (g : VoidedWhere q b c)
    (hq : ∀ w, q w → w.condition = .open) : VoidedWhere (fun w => p w ∨ q w) a c := by
  obtain ⟨f, rfl, hf⟩ := h
  obtain ⟨f', rfl, hf'⟩ := g
  refine ⟨f' ∘ f, by simp only [List.map_map]; exact List.map_congr_left fun x _ => mapWatches_mapWatches f f' x, fun w => ?_⟩
  by_cases hp : p w
  · have : (f' ∘ f) w = { w with condition := .void } := by
      show f' (f w) = _
      rw [(hf w).1 hp]
      exact (hf' _).2 fun c => Condition.noConfusion (hq _ c)
    exact ⟨fun _ => this, fun c => absurd (.inl hp) c⟩
  · have e : (f' ∘ f) w = f' w := by show f' (f w) = _; rw [(hf w).2 hp]
    rw [e]
    exact ⟨fun c => (hf' w).1 (c.resolve_left hp), fun c => (hf' w).2 fun d => c (.inr d)⟩

/-- The queue of a sector with no QUEUED remote is empty. -/
theorem queued_isEmpty (x : Sector) (h : ∀ q, (x.entry q).state ≠ .queued) : x.queued.isEmpty = true := by
  unfold Sector.queued
  rw [List.isEmpty_iff, List.filter_eq_nil_iff]
  intro q _
  simpa using h q

/-- What leaving a state and entering RANGING do to the lists of the sector. -/
theorem leaveState_lists (r : RemoteNo) (old new : RState) (x : Sector) (h : old ≠ new) :
    let y := enterRanging r new (leaveState r old false x)
    y.history = x.history ∧
    y.rangingOrder = (if new = .ranging then x.rangingOrder ++ [{ remote := r, silent := false }]
      else if old = .ranging then x.rangingOrder.filter fun m => m.remote ≠ r else x.rangingOrder) ∧
    y.waitList = (if new = .ranging then x.waitList ++ [r]
      else if old = .ranging then x.waitList.filter fun q => q ≠ r else x.waitList) ∧
    y.roster = (if old = .queued then
      { x.roster with members := x.roster.members.filter fun m => m.remote ≠ r } else x.roster) ∧
    (old = .queued → (∀ q, (x.entry q).state ≠ .queued) → y.nextHead = 32767 ∧ y.nextTail = 32768) := by
  have q : ∀ z : Sector, z.entries = x.entries → (∀ q, (x.entry q).state ≠ .queued) → z.queued.isEmpty = true :=
    fun z hz g => queued_isEmpty z fun q => by unfold Sector.entry; rw [hz]; exact g q
  unfold enterRanging leaveState
  dsimp only
  cases old <;> (try (split <;> (refine ⟨rfl, ?_, ?_, ?_, ?_⟩ <;> first | rfl | simp [*] at *)))
  · unfold stampsIfEmptied
    simp only [Bool.false_eq_true, if_false]
    split <;> split <;> refine ⟨rfl, rfl, rfl, rfl, fun _ g => ?_⟩
    · exact ⟨rfl, rfl⟩
    · exact absurd (q _ rfl g) (by assumption)
    · exact ⟨rfl, rfl⟩
    · exact absurd (q _ rfl g) (by assumption)

/-- The step inside the engine, but for a placement. -/
theorem applyStep_followed (r : RemoteNo) (e : Entry) (x : Sector) :
    Followed r (x.entry r).state e.state x (applyStep r e false x) := by
  generalize hx : x.setEntry r { e with fadedAt := fadedAtAfter x.frame (x.entry r).state e.state (x.entry r).fadedAt } = z
  have hz : z.history = x.history ∧ z.rangingOrder = x.rangingOrder ∧ z.waitList = x.waitList ∧ z.roster = x.roster := by
    subst hx; exact ⟨rfl, rfl, rfl, rfl⟩
  have hs : applyStep r e false x = if (x.entry r).state = e.state then z
      else voidFor r e.state (enterRanging r e.state (leaveState r (x.entry r).state false z)) := by
    subst hx; rfl
  by_cases h : (x.entry r).state = e.state
  · rw [hs, if_pos h]
    refine ⟨fun _ => hz, fun c => absurd h c, fun c => absurd h c, fun c => absurd h c, fun hq c => ?_⟩
    have := c r
    subst hx
    rw [entry_setEntry, if_pos rfl] at this
    exact absurd (h ▸ hq) this
  · obtain ⟨l1, l2, l3, l4, l5⟩ := leaveState_lists r (x.entry r).state e.state z h
    have he : ∀ q, (applyStep r e false x).entry q = z.entry q := fun q => by
      unfold Sector.entry; rw [applyStep_entries, hx]
    rw [hs, if_neg h] at he ⊢
    refine ⟨fun c => absurd c h, fun _ => ?_, fun _ => ⟨?_, ?_⟩, fun _ => ?_, fun hq c => ?_⟩
    · have := voidFor_voided r e.state (enterRanging r e.state (leaveState r (x.entry r).state false z))
      rwa [l1, hz.1] at this
    · exact l2.trans (by rw [hz.2.1])
    · exact l3.trans (by rw [hz.2.2.1])
    · exact l4.trans (by rw [hz.2.2.2])
    · exact l5 hq fun q => by rw [← he q]; exact c q

/-- What follows is the same from a sector that differs in other parts, and to one that does. -/
theorem Followed.congr {r : RemoteNo} {old new : RState} {x x' y y' : Sector} (h : Followed r old new x y)
    (hx : x.history = x'.history ∧ x.rangingOrder = x'.rangingOrder ∧ x.waitList = x'.waitList ∧ x.roster = x'.roster)
    (hy : y'.history = y.history ∧ y'.rangingOrder = y.rangingOrder ∧ y'.waitList = y.waitList ∧ y'.roster = y.roster)
    (he : y'.entries = y.entries) (hs : y'.nextHead = y.nextHead ∧ y'.nextTail = y.nextTail) :
    Followed r old new x' y' := by
  obtain ⟨a, b, c, d⟩ := hx
  obtain ⟨a', b', c', d'⟩ := hy
  refine ⟨fun g => ?_, fun g => ?_, fun g => ?_, fun g => ?_, fun g i => ?_⟩
  · obtain ⟨e1, e2, e3, e4⟩ := h.kept g
    exact ⟨by rw [a', e1, a], by rw [b', e2, b], by rw [c', e3, c], by rw [d', e4, d]⟩
  · rw [a', ← a]; exact h.plans g
  · rw [b', c', ← b, ← c]; exact h.ranging g
  · rw [d', ← d]; exact h.roster g
  · rw [hs.1, hs.2]
    exact h.stamps g fun q => by have := i q; unfold Sector.entry at this ⊢; rwa [he] at this

/-- One whole step of a remote that is no placement. -/
theorem remoteStep_followed (k : SectorNo) (r : RemoteNo) (info : StepInfo) (e : Entry) (s : State)
    (hp : info.placed = false) :
    Followed r (s.entry k r).state e.state (s.sector k) ((remoteStep k r info e s).sector k) := by
  obtain ⟨ep, h⟩ := remoteStep_sector k r info e s
  rw [h, hp]
  exact (applyStep_followed r e (s.sector k)).congr ⟨rfl, rfl, rfl, rfl⟩ ⟨rfl, rfl, rfl, rfl⟩ rfl ⟨rfl, rfl⟩

theorem stepTo_followed (k : SectorNo) (r : RemoteNo) (st : RState) (info : StepInfo) (f : Entry → Entry) (s : State)
    (hp : info.placed = false) :
    Followed r (s.entry k r).state st (s.sector k) ((stepTo k r st info f s).sector k) := by
  have h := remoteStep_followed k r info ((f (s.entry k r)).enter st (s.params k).restart (s.params k).attemptsLimit) s hp
  rwa [enter_state] at h

theorem restampFrom_lists : ∀ (rs : List RemoteNo) (n : Nat) (x : Sector),
    x.history = (restampFrom n rs x).history ∧ x.rangingOrder = (restampFrom n rs x).rangingOrder ∧
      x.waitList = (restampFrom n rs x).waitList ∧ x.roster = (restampFrom n rs x).roster
  | [], _, _ => ⟨rfl, rfl, rfl, rfl⟩
  | r :: rs, n, x => restampFrom_lists rs (n + 1) (x.setEntry r { x.entry r with order := n })

theorem readyTail_lists (x : Sector) : x.history = (readyTail x).history ∧
    x.rangingOrder = (readyTail x).rangingOrder ∧ x.waitList = (readyTail x).waitList ∧
    x.roster = (readyTail x).roster := by
  unfold readyTail restamp
  split
  · exact restampFrom_lists _ _ x
  · exact ⟨rfl, rfl, rfl, rfl⟩

theorem readyHead_lists (x : Sector) : x.history = (readyHead x).history ∧
    x.rangingOrder = (readyHead x).rangingOrder ∧ x.waitList = (readyHead x).waitList ∧
    x.roster = (readyHead x).roster := by
  unfold readyHead restamp
  split
  · exact restampFrom_lists _ _ x
  · exact ⟨rfl, rfl, rfl, rfl⟩

theorem toQueueTail_followed (k : SectorNo) (r : RemoteNo) (info : StepInfo) (f : Entry → Entry) (s : State)
    (hp : info.placed = false) :
    Followed r (s.entry k r).state .queued (s.sector k) ((toQueueTail k r info f s).sector k) := by
  obtain ⟨o, ho⟩ := readyTail_entry (s.sector k) r
  have hs : (s.entry k r).state = ((readyTail (s.sector k)).entry r).state := by rw [ho]; rfl
  obtain ⟨a, b, c, d⟩ := readyTail_lists (s.sector k)
  unfold toQueueTail
  dsimp only
  have g := stepTo_followed k r .queued info
    (fun e => { f e with order := ((modSector k readyTail s).sector k).nextTail })
    (modSector k (fun x => { x with nextTail := ((modSector k readyTail s).sector k).nextTail + 1 })
      (modSector k readyTail s)) hp
  simp only [State.entry, sector_modSector_self] at g ⊢
  rw [show ((s.sector k).entry r).state = ((readyTail (s.sector k)).entry r).state from hs]
  exact g.congr ⟨a.symm, b.symm, c.symm, d.symm⟩ ⟨rfl, rfl, rfl, rfl⟩ rfl ⟨rfl, rfl⟩

theorem toQueueHead_followed (k : SectorNo) (r : RemoteNo) (info : StepInfo) (f : Entry → Entry) (s : State)
    (hp : info.placed = false) :
    Followed r (s.entry k r).state .queued (s.sector k) ((toQueueHead k r info f s).sector k) := by
  obtain ⟨o, ho⟩ := readyHead_entry (s.sector k) r
  have hs : (s.entry k r).state = ((readyHead (s.sector k)).entry r).state := by rw [ho]; rfl
  obtain ⟨a, b, c, d⟩ := readyHead_lists (s.sector k)
  unfold toQueueHead
  dsimp only
  have g := stepTo_followed k r .queued info
    (fun e => { f e with order := ((modSector k readyHead s).sector k).nextHead })
    (modSector k (fun x => { x with nextHead := ((modSector k readyHead s).sector k).nextHead - 1 })
      (modSector k readyHead s)) hp
  simp only [State.entry, sector_modSector_self] at g ⊢
  rw [show ((s.sector k).entry r).state = ((readyHead (s.sector k)).entry r).state from hs]
  exact g.congr ⟨a.symm, b.symm, c.symm, d.symm⟩ ⟨rfl, rfl, rfl, rfl⟩ rfl ⟨rfl, rfl⟩

/-! ### A step of one remote, and an entry changed without a step -/

/-- The parts of `Moved` that every operation of a sector's remotes has. -/
theorem Local.moved {k : SectorNo} {r : RemoteNo} {c : StateCause} {x : Sector} {e : Entry} {s t : State} (h : Local k s t)
    (he : t.entry k r = e) (ho : ∀ q, q ≠ r → t.entry k q = x.entry q) (hl : StateLogged k r c s t)
    (hf : Followed r (s.entry k r).state e.state (s.sector k) (t.sector k)) : Moved k r c x e s t :=
  ⟨he, ⟨h.others, ho⟩, hl, hf, h.stable.toSectorKept, h.dev, h.ports, h.channel⟩

theorem stepTo_moved (k : SectorNo) (r : RemoteNo) (st : RState) (info : StepInfo) (f : Entry → Entry) (s : State)
    (e : Entry) (c : StateCause) (hc : info.cause = c) (h : (s.entry k r).state ≠ st)
    (he : e = { (f (s.entry k r)).enter st (s.params k).restart (s.params k).attemptsLimit with
      fadedAt := fadedAtAfter (s.sector k).frame (s.entry k r).state st (s.entry k r).fadedAt })
    (hp : info.placed = false := by rfl) :
    Moved k r c (s.sector k) e s (stepTo k r st info f s) := by
  subst hc
  refine (local_stepTo k r st info f s).moved ?_ (fun q hq => ?_) (stepTo_logged k r st info f s h)
    (by rw [show e.state = st by rw [he]; exact enter_state ..]; exact stepTo_followed k r st info f s hp)
  · subst he
    rw [stepTo_entry, if_pos rfl]
    simp only [enter_state]
  · rw [stepTo_entry, if_neg hq]
    rfl

/-- A step within CLIMBING that moves the profile. -/
theorem remoteStep_moved (k : SectorNo) (r : RemoteNo) (info : StepInfo) (e e' : Entry) (s : State)
    (c : StateCause) (hc : info.cause = c) (h : (s.entry k r).state ≠ e.state ∨ (s.entry k r).profile ≠ e.profile)
    (he : e' = { e with fadedAt := fadedAtAfter (s.sector k).frame (s.entry k r).state e.state (s.entry k r).fadedAt })
    (hp : info.placed = false := by rfl) : Moved k r c (s.sector k) e' s (remoteStep k r info e s) :=
  hc ▸ (local_remoteStep k r info e s).moved (e := e') (by rw [remoteStep_entry_self, he])
    (fun q hq => by rw [remoteStep_entry, if_neg hq]; rfl) (remoteStep_logged k r info e s h)
    (by rw [show e'.state = e.state by rw [he]]; exact remoteStep_followed k r info e s hp)

theorem toQueueHead_entry (k : SectorNo) (r q : RemoteNo) (info : StepInfo) (f : Entry → Entry) (s : State)
    (x : Sector) (hx : x = readyHead (s.sector k)) :
    (toQueueHead k r info f s).entry k q =
      if q = r then
        let e := Entry.enter { f (x.entry r) with order := x.nextHead } .queued (s.params k).restart
          (s.params k).attemptsLimit
        { e with fadedAt := fadedAtAfter x.frame (x.entry r).state .queued (x.entry r).fadedAt }
      else x.entry q := by
  subst hx
  unfold toQueueHead
  dsimp only
  rw [stepTo_entry]
  simp only [State.entry, sector_modSector_self]
  rfl

/-- A STATE record queued from a state that differs in the sector's stamps alone. -/
theorem StateLogged.from {k : SectorNo} {r : RemoteNo} {c : StateCause} {s s' t : State} (h : StateLogged k r c s' t)
    (hq : s'.writer.queue = s.writer.queue) (ht : s'.time = s.time) (hf : (s'.sector k).frame = (s.sector k).frame)
    (hs : (s'.entry k r).state = (s.entry k r).state) : StateLogged k r c s t := by
  unfold StateLogged at h ⊢
  rw [hq, ht, hf, hs] at h
  exact h

theorem toQueueTail_logged (k : SectorNo) (r : RemoteNo) (info : StepInfo) (f : Entry → Entry) (s : State)
    (h : (s.entry k r).state ≠ .queued) : StateLogged k r info.cause s (toQueueTail k r info f s) := by
  obtain ⟨o, ho⟩ := readyTail_entry (s.sector k) r
  have hs : ((readyTail (s.sector k)).entry r).state = (s.entry k r).state := by rw [ho]; rfl
  unfold toQueueTail
  dsimp only
  refine (stepTo_logged k r .queued info _ _ ?_).from rfl rfl ?_ ?_
  · simp only [State.entry, sector_modSector_self]
    exact hs ▸ h
  · simp only [sector_modSector_self]
    exact readyTail_frame _
  · simp only [State.entry, sector_modSector_self]
    exact hs

theorem toQueueHead_logged (k : SectorNo) (r : RemoteNo) (info : StepInfo) (f : Entry → Entry) (s : State)
    (h : (s.entry k r).state ≠ .queued) : StateLogged k r info.cause s (toQueueHead k r info f s) := by
  obtain ⟨o, ho⟩ := readyHead_entry (s.sector k) r
  have hs : ((readyHead (s.sector k)).entry r).state = (s.entry k r).state := by rw [ho]; rfl
  unfold toQueueHead
  dsimp only
  refine (stepTo_logged k r .queued info _ _ ?_).from rfl rfl ?_ ?_
  · simp only [State.entry, sector_modSector_self]
    exact hs ▸ h
  · simp only [sector_modSector_self]
    exact readyHead_frame _
  · simp only [State.entry, sector_modSector_self]
    exact hs

/-- A step into the queue from a state out of service. -/
theorem toQueueTail_moved (k : SectorNo) (r : RemoteNo) (info : StepInfo) (f : Entry → Entry) (s : State) (x : Sector)
    (e : Entry) (c : StateCause) (hc : info.cause = c) (hx : x = readyTail (s.sector k)) (h : (s.entry k r).state ≠ .queued)
    (hv : (s.entry k r).state.inService = false)
    (he : ∀ o, e = (f { s.entry k r with order := o }).queuedAs (s.params k).restart x.nextTail)
    (hf : ∀ e, (f e).fadedAt = e.fadedAt) (hp : info.placed = false := by rfl) :
    Moved k r c x e s (toQueueTail k r info f s) := by
  subst hc
  obtain ⟨o, ho⟩ := readyTail_entry (s.sector k) r
  have hs : (x.entry r).state = (s.entry k r).state := by rw [hx, ho]; rfl
  have hfa : fadedAtAfter x.frame (x.entry r).state .queued (x.entry r).fadedAt = (f (x.entry r)).fadedAt := by
    rw [hf]; unfold fadedAtAfter; rw [hs, hv]; rfl
  refine (local_toQueueTail k r info f s).moved ?_ (fun q hq => ?_) (toQueueTail_logged k r info f s h)
    (by rw [show e.state = .queued by rw [he 0]; rfl]; exact toQueueTail_followed k r info f s hp)
  · rw [toQueueTail_entry k r r info f s x hx, if_pos rfl, he o]
    dsimp only
    rw [hfa, show x.entry r = { s.entry k r with order := o } by rw [hx, ho]; rfl]
    rfl
  · rw [toQueueTail_entry k r q info f s x hx, if_neg hq]

theorem toQueueHead_moved (k : SectorNo) (r : RemoteNo) (info : StepInfo) (f : Entry → Entry) (s : State) (x : Sector)
    (e : Entry) (c : StateCause) (hc : info.cause = c) (hx : x = readyHead (s.sector k)) (h : (s.entry k r).state ≠ .queued)
    (hv : (s.entry k r).state.inService = false)
    (he : ∀ o, e = (f { s.entry k r with order := o }).queuedAs (s.params k).restart x.nextHead)
    (hf : ∀ e, (f e).fadedAt = e.fadedAt) (hp : info.placed = false := by rfl) :
    Moved k r c x e s (toQueueHead k r info f s) := by
  subst hc
  obtain ⟨o, ho⟩ := readyHead_entry (s.sector k) r
  have hs : (x.entry r).state = (s.entry k r).state := by rw [hx, ho]; rfl
  have hfa : fadedAtAfter x.frame (x.entry r).state .queued (x.entry r).fadedAt = (f (x.entry r)).fadedAt := by
    rw [hf]; unfold fadedAtAfter; rw [hs, hv]; rfl
  refine (local_toQueueHead k r info f s).moved ?_ (fun q hq => ?_) (toQueueHead_logged k r info f s h)
    (by rw [show e.state = .queued by rw [he 0]; rfl]; exact toQueueHead_followed k r info f s hp)
  · rw [toQueueHead_entry k r r info f s x hx, if_pos rfl, he o]
    dsimp only
    rw [hfa, show x.entry r = { s.entry k r with order := o } by rw [hx, ho]; rfl]
    rfl
  · rw [toQueueHead_entry k r q info f s x hx, if_neg hq]

/-- A change of an entry without a step changes that entry alone. -/
theorem modEntry_eq (k : SectorNo) (r : RemoteNo) (f : Entry → Entry) (s : State) :
    modEntry k r f s = s.setSector k ((s.sector k).setEntry r (f (s.entry k r))) := rfl

theorem modEntry_sector (k : SectorNo) (r : RemoteNo) (f : Entry → Entry) (s : State) :
    (modEntry k r f s).sector k = (s.sector k).setEntry r (f (s.entry k r)) := sector_modSector_self _ _ _

/-! ### Fades and charges (R22, R24, R39) -/

theorem fadeOut_moved (k : SectorNo) (r : RemoteNo) (o : BurstOutcome) (s : State)
    (h : (s.entry k r).state = .serving ∨ (s.entry k r).state = .climbing) :
    Moved k r .fade (s.sector k)
      { (s.entry k r).fadedAs (s.params k).restart (s.params k).backoffBase with
        fadedAt := if (s.entry k r).state = .serving then some (s.sector k).frame else (s.entry k r).fadedAt } s
      (fadeOut k r o s) := by
  unfold fadeOut
  refine stepTo_moved k r .faded _ _ s _ _ rfl (by rcases h with h | h <;> rw [h] <;> decide) ?_
  rcases h with h | h <;> simp only [h] <;> rfl

/-- A charge of a remote out of service that is neither FADED nor EXCLUDED yet (R24). -/
theorem charge_moved (k : SectorNo) (r : RemoteNo) (c : StateCause) (m : Option Int) (s : State)
    (h : (s.entry k r).state = .probing ∨ (s.entry k r).state = .ranging) :
    Moved k r c (s.sector k) ((s.entry k r).chargedAs (s.params k)) s (charge k r c m s) := by
  have hs : (s.entry k r).state ≠ .faded ∧ (s.entry k r).state ≠ .excluded ∧ (s.entry k r).state.inService = false := by
    rcases h with h | h <;> rw [h] <;> decide
  have hf : ∀ st, RState.inService st = false → fadedAtAfter (s.sector k).frame (s.entry k r).state st
      (s.entry k r).fadedAt = (s.entry k r).fadedAt := fun st h => by unfold fadedAtAfter; rw [h, hs.2.2]; rfl
  unfold charge Entry.chargedAs
  dsimp only
  split
  · refine stepTo_moved k r .faded _ _ s _ _ rfl hs.1 ?_
    rw [hf _ rfl]
    rfl
  · have g := stepTo_moved k r .excluded
      { StepInfo.heard c m with inputs := some { Inputs.none with exclusion := true } } id s _ _ rfl hs.2.1 rfl
    have hn := (local_raiseNotice k .excluded (stepTo k r .excluded
      { StepInfo.heard c m with inputs := some { Inputs.none with exclusion := true } } id s))
    have he : ∀ q, (raiseNotice .excluded (stepTo k r .excluded
        { StepInfo.heard c m with inputs := some { Inputs.none with exclusion := true } } id s)).entry k q =
        (stepTo k r .excluded
        { StepInfo.heard c m with inputs := some { Inputs.none with exclusion := true } } id s).entry k q := fun q => by
      simp only [State.entry, State.sector, raiseNotice_sectors]
    refine ((local_stepTo k r .excluded _ id s).trans hn).moved ?_ (fun q hq => ?_) ?_
      (by simpa only [State.sector, raiseNotice_sectors, id, enter_state] using g.followed)
    · rw [he, g.entry, hf _ rfl]
      rfl
    · rw [he, g.others.2 q hq]
    · exact g.logged.later hn.grows (he r)

/-! ### Ranging (R35, R36) -/

theorem rangeDone_moved (k : SectorNo) (r : RemoteNo) (m : Int) (s : State) (h : (s.entry k r).state = .ranging) :
    (min (s.params k).restart (s.entry k r).ceiling < (s.entry k r).ceiling →
      Moved k r .rangeDone (s.sector k) { s.entry k r with
        state := .climbing, profile := min (s.params k).restart (s.entry k r).ceiling, misses := 0, good := 0,
        exchanges := 0, backoff := 0, garbles := 0, solo := false } s (rangeDone k r m s)) ∧
    ((s.entry k r).ceiling ≤ min (s.params k).restart (s.entry k r).ceiling →
      Moved k r .rangeDone (s.sector k) ((s.entry k r).serviceAs .serving) s (rangeDone k r m s)) := by
  have hr : (s.entry k r).restartProfile (s.params k).restart = min (s.params k).restart (s.entry k r).ceiling := rfl
  constructor <;> intro hc <;> unfold rangeDone <;> dsimp only
  · rw [if_pos (by rw [hr]; exact hc)]
    refine stepTo_moved k r .climbing _ _ s _ _ rfl (by rw [h]; decide) ?_
    simp only [h]
    rfl
  · rw [if_neg (by rw [hr]; omega)]
    refine stepTo_moved k r .serving _ _ s _ _ rfl (by rw [h]; decide) ?_
    simp only [h]
    rfl

theorem silentMark_iff (x : Sector) (r : RemoteNo) :
    x.silentMark r = true ↔ ({ remote := r, silent := true } : Ranger) ∈ x.rangingOrder := by
  unfold Sector.silentMark
  simp only [List.any_eq_true, Bool.and_eq_true, decide_eq_true_eq]
  constructor
  · rintro ⟨⟨m, b⟩, hm, h1, h2⟩
    dsimp only at h1 h2
    exact h1 ▸ h2 ▸ hm
  · exact fun h => ⟨_, h, rfl, rfl⟩

/-- The state in which a failed exchange is charged, where it is: exchanges one more and the silent mark as the outcome
gives it (R36). -/
def exchanged (k : SectorNo) (r : RemoteNo) (o : BurstOutcome) (s : State) : State :=
  s.setSector k { (s.sector k).setEntry r { s.entry k r with exchanges := (s.entry k r).exchanges + 1 } with
    rangingOrder := (s.sector k).rangingOrder.map fun m => if m.remote = r then { m with silent := o.isSilent } else m }

theorem exchanged_entry (k : SectorNo) (r : RemoteNo) (o : BurstOutcome) (s : State) (q : RemoteNo) :
    (exchanged k r o s).entry k q =
      if q = r then { s.entry k r with exchanges := (s.entry k r).exchanges + 1 } else s.entry k q := by
  unfold exchanged State.entry
  rw [sector_setSector, if_pos rfl]
  exact entry_setEntry _ _ _ _

theorem failedExchange_eq (k : SectorNo) (r : RemoteNo) (o : BurstOutcome) (s : State) :
    failedExchange k r o s =
      if o.isSilent && (s.sector k).silentMark r then charge k r .rangeSilent o.margin (exchanged k r o s)
      else if (s.params k).rangingLimit ≤ (s.entry k r).exchanges + 1 then
        charge k r .rangeLimit o.margin (exchanged k r o s)
      else exchanged k r o s := by
  have e : modSector k (setSilent r o.isSilent)
      (modEntry k r (fun e => { e with exchanges := e.exchanges + 1 }) s) = exchanged k r o s := by
    show State.setSector (s.setSector k _) k _ = _
    rw [modEntry_sector]
    unfold State.setSector exchanged
    simp only [Vector.set_set]
    rfl
  unfold failedExchange
  dsimp only
  rw [e, show (exchanged k r o s).entry k r = { s.entry k r with exchanges := (s.entry k r).exchanges + 1 } by
    rw [exchanged_entry, if_pos rfl]]
  rfl

/-- A charge of a failed exchange, seen from before the exchange. -/
theorem charge_exchanged_moved (k : SectorNo) (r : RemoteNo) (o : BurstOutcome) (c : StateCause) (s : State)
    (h : (s.entry k r).state = .ranging) :
    Moved k r c (s.sector k) ((s.entry k r).chargedAs (s.params k)) s (charge k r c o.margin (exchanged k r o s)) := by
  have he := exchanged_entry k r o s r
  rw [if_pos rfl] at he
  have g := charge_moved k r c o.margin (exchanged k r o s) (.inr (by rw [he]; exact h))
  have hx : (exchanged k r o s).sector k = { (s.sector k).setEntry r { s.entry k r with exchanges := (s.entry k r).exchanges + 1 } with
    rangingOrder := (s.sector k).rangingOrder.map fun m => if m.remote = r then { m with silent := o.isSilent } else m } := by
    unfold exchanged; rw [sector_setSector, if_pos rfl]
  refine ⟨?_, ⟨fun j hj => ?_, fun q hq => ?_⟩, g.logged.from rfl rfl (by rw [hx]; rfl) (by rw [he]), ?_, ?_,
    ?_, g.ports, g.channel⟩
  · rw [g.entry, he]
    show Entry.chargedAs _ (s.params k) = _
    unfold Entry.chargedAs
    split <;> rfl
  · rw [g.others.1 j hj]
    unfold exchanged
    rw [sector_setSector, if_neg hj]
  · rw [g.others.2 q hq, hx]
    exact (entry_setEntry _ _ _ _).trans (if_neg hq)
  · have hc : ((s.entry k r).chargedAs (s.params k)).state ≠ .ranging := by unfold Entry.chargedAs; split <;> exact RState.noConfusion
    have hg := g.followed
    rw [show (Entry.chargedAs ((exchanged k r o s).entry k r) ((exchanged k r o s).params k)).state =
      ((s.entry k r).chargedAs (s.params k)).state by
        rw [he]; show (Entry.chargedAs _ (s.params k)).state = _; unfold Entry.chargedAs; split <;> rfl,
      show ((exchanged k r o s).entry k r).state = (s.entry k r).state by rw [he], h, hx] at hg
    rw [h]
    refine ⟨fun e => absurd e.symm hc, fun e => hg.plans e, fun e => ?_, fun e => hg.roster e, fun e => absurd e (by decide)⟩
    have := hg.ranging e
    rw [if_neg hc, if_pos rfl, if_neg hc, if_pos rfl] at this ⊢
    refine ⟨this.1.trans ?_, this.2⟩
    show List.filter _ (List.map _ (s.sector k).rangingOrder) = _
    induction (s.sector k).rangingOrder with
    | nil => rfl
    | cons m ms ih =>
      rw [List.map_cons, List.filter_cons, List.filter_cons, ih]
      by_cases hm : m.remote = r
      · rw [if_pos hm]; simp [hm]
      · rw [if_neg hm]
  · exact (hx ▸ ⟨rfl, rfl, rfl, rfl, rfl, rfl, rfl, rfl, rfl, rfl⟩ : SectorKept (s.sector k) ((exchanged k r o s).sector k)).trans
      g.sector
  · exact (⟨rfl, rfl, rfl, rfl, rfl, rfl, rfl, rfl, rfl, rfl, rfl, rfl, rfl, rfl⟩ :
      DeviceKept s (exchanged k r o s)).trans g.device

/-! ### Probes (R29 to R33) and their promotion (R27, R59) -/

theorem probeBack_moved (k : SectorNo) (r : RemoteNo) (c : StateCause) (m : Int) (s : State)
    (h : (s.entry k r).state = .probing) :
    Moved k r c (s.sector k) ((s.entry k r).fadedAs (s.params k).restart (s.params k).backoffBase) s
      (probeBack k r c m s) := by
  unfold probeBack
  refine stepTo_moved k r .faded _ _ s _ _ rfl (by rw [h]; decide) ?_
  simp only [h]
  rfl

theorem scoutBack_moved (k : SectorNo) (r : RemoteNo) (c : StateCause) (m : Option Int) (s : State)
    (h : (s.entry k r).state = .probing) :
    Moved k r c (readyTail (s.sector k))
      ((s.entry k r).queuedAs (s.params k).restart (readyTail (s.sector k)).nextTail) s (scoutBack k r c m s) :=
  toQueueTail_moved k r _ id s _ _ c rfl rfl (by rw [h]; decide) (by rw [h]; rfl) (fun _ => rfl) (fun _ => rfl)

theorem probeGarbled_moved (k : SectorNo) (r : RemoteNo) (s : State) (h : (s.entry k r).state = .probing) :
    Moved k r .probeGarbled (readyHead (s.sector k))
      (if (s.entry k r).garbles < 2 then
        { (s.entry k r).queuedAs (s.params k).restart (readyHead (s.sector k)).nextHead with
          garbles := (s.entry k r).garbles + 1 }
      else { (s.entry k r).queuedAs (s.params k).restart (readyHead (s.sector k)).nextHead with solo := true }) s
      (probeGarbled k r false s) := by
  unfold probeGarbled
  rw [if_neg Bool.false_ne_true]
  by_cases hg : (s.entry k r).garbles < 2
  · rw [if_pos hg, if_pos hg]
    exact toQueueHead_moved k r _ _ s _ { (s.entry k r).queuedAs (s.params k).restart (readyHead (s.sector k)).nextHead with
      garbles := (s.entry k r).garbles + 1 } _ rfl rfl (by rw [h]; decide) (by rw [h]; rfl) (fun _ => rfl) (fun _ => rfl)
  · rw [if_neg hg, if_neg hg]
    exact toQueueHead_moved k r _ _ s _ { (s.entry k r).queuedAs (s.params k).restart (readyHead (s.sector k)).nextHead with
      solo := true } _ rfl rfl (by rw [h]; decide) (by rw [h]; rfl) (fun _ => rfl) (fun _ => rfl)

/-- The ranging order and the wait list after a step of a remote that is not RANGING into a state that is not. -/
theorem stepTo_ranging (k : SectorNo) (r : RemoteNo) (st : RState) (info : StepInfo) (f : Entry → Entry) (s : State)
    (h : (s.entry k r).state ≠ .ranging) (h' : st ≠ .ranging) :
    ((stepTo k r st info f s).sector k).rangingOrder = (s.sector k).rangingOrder ∧
      ((stepTo k r st info f s).sector k).waitList = (s.sector k).waitList := by
  have hl : ∀ x : Sector, (x.entry r).state ≠ .ranging → ∀ e : Entry, e.state = st →
      (applyStep r e info.placed x).rangingOrder = x.rangingOrder ∧
        (applyStep r e info.placed x).waitList = x.waitList := by
    intro x hx e he
    unfold applyStep
    dsimp only
    split
    · exact ⟨rfl, rfl⟩
    · unfold voidFor enterRanging
      rw [if_neg (he ▸ h')]
      unfold leaveState
      split
      · unfold stampsIfEmptied
        split <;> split <;> exact ⟨rfl, rfl⟩
      · exact absurd (by assumption) hx
      · exact ⟨rfl, rfl⟩
  unfold stepTo
  dsimp only
  obtain ⟨ep, hp⟩ := remoteStep_sector k r info
    ((f (s.entry k r)).enter st (s.params k).restart (s.params k).attemptsLimit) s
  rw [hp]
  exact hl (s.sector k) h _ (enter_state ..)

theorem restampFrom_ranging : ∀ (rs : List RemoteNo) (n : Nat) (x : Sector),
    (restampFrom n rs x).rangingOrder = x.rangingOrder ∧ (restampFrom n rs x).waitList = x.waitList
  | [], _, _ => ⟨rfl, rfl⟩
  | r :: rs, n, x => restampFrom_ranging rs (n + 1) (x.setEntry r { x.entry r with order := n })

theorem readyTail_ranging (x : Sector) :
    (readyTail x).rangingOrder = x.rangingOrder ∧ (readyTail x).waitList = x.waitList := by
  unfold readyTail restamp
  split
  · exact restampFrom_ranging _ _ x
  · exact ⟨rfl, rfl⟩

theorem toQueueTail_ranging (k : SectorNo) (r : RemoteNo) (info : StepInfo) (f : Entry → Entry) (s : State)
    (h : (s.entry k r).state ≠ .ranging) :
    ((toQueueTail k r info f s).sector k).rangingOrder = (s.sector k).rangingOrder ∧
      ((toQueueTail k r info f s).sector k).waitList = (s.sector k).waitList := by
  obtain ⟨o, ho⟩ := readyTail_entry (s.sector k) r
  have hs : ((readyTail (s.sector k)).entry r).state = (s.entry k r).state := by rw [ho]; rfl
  unfold toQueueTail
  dsimp only
  have g := stepTo_ranging k r .queued info
    (fun e => { f e with order := ((modSector k readyTail s).sector k).nextTail })
    (modSector k (fun x => { x with nextTail := ((modSector k readyTail s).sector k).nextTail + 1 })
      (modSector k readyTail s))
    (by simp only [State.entry, sector_modSector_self]; exact hs ▸ h) (by decide)
  simp only [sector_modSector_self] at g ⊢
  exact ⟨g.1.trans (readyTail_ranging _).1, g.2.trans (readyTail_ranging _).2⟩

theorem mem_insertBy (before : RemoteNo → RemoteNo → Bool) (r q : RemoteNo) :
    ∀ rs : List RemoteNo, q ∈ insertBy before r rs ↔ q = r ∨ q ∈ rs
  | [] => by simp [insertBy]
  | p :: ps => by
    unfold insertBy
    split
    · simp
    · simp only [List.mem_cons, mem_insertBy before r q ps]
      exact ⟨fun h => by rcases h with h | h | h <;> simp [h], fun h => by rcases h with h | h | h <;> simp [h]⟩

/-- Sorting neither adds nor drops a remote. -/
theorem mem_sortBy (before : RemoteNo → RemoteNo → Bool) (q : RemoteNo) : ∀ rs : List RemoteNo, q ∈ sortBy before rs ↔ q ∈ rs
  | [] => Iff.rfl
  | r :: rs => by
    rw [show sortBy before (r :: rs) = insertBy before r (sortBy before rs) from rfl, mem_insertBy, mem_sortBy before q rs,
      List.mem_cons]

theorem restampFrom_other (q : RemoteNo) : ∀ (rs : List RemoteNo) (n : Nat) (x : Sector), q ∉ rs →
    (restampFrom n rs x).entry q = x.entry q
  | [], _, _, _ => rfl
  | r :: rs, n, x, h => by
    refine (restampFrom_other q rs (n + 1) _ (fun c => h (List.mem_cons_of_mem _ c))).trans ?_
    rw [entry_setEntry, if_neg (fun c : q = r => h (c ▸ List.mem_cons_self))]

/-- A restamp leaves every remote that is not QUEUED (R54). -/
theorem readyTail_other (x : Sector) (q : RemoteNo) (h : (x.entry q).state ≠ .queued) :
    (readyTail x).entry q = x.entry q := by
  unfold readyTail restamp
  split
  · refine restampFrom_other q _ _ x fun c => h ?_
    have := (mem_sortBy _ q _).mp c
    unfold Sector.queued at this
    exact of_decide_eq_true (List.mem_filter.mp this).2
  · rfl

/-- A companion of a promotion: another FADED remote of the group (R27, R59). -/
def companion (k : SectorNo) (p : RemoteNo) (g : Nat) (s : State) (q : RemoteNo) : Prop :=
  q ≠ p ∧ (s.entry k q).state = .faded ∧ (s.entry k q).group = some g

/-- What promotions do to one entry: a companion stands QUEUED under some stamp, any other entry
differs at most in its stamp, and only while it is QUEUED. -/
def promotedEntry (restart : Nat) (e e' : Entry) (moved : Prop) : Prop :=
  (moved → ∃ o, e' = e.queuedAs restart o) ∧
    (¬ moved → ∃ o, e' = { e with order := o } ∧ (e.state ≠ .queued → o = e.order))

theorem promoteOne_entry (k : SectorNo) (p : RemoteNo) (g : Nat) (r q : RemoteNo) (s : State) :
    promotedEntry (s.params k).restart (s.entry k q) ((promoteOne k p g r s).entry k q) (q = r ∧ companion k p g s q) := by
  unfold promoteOne
  dsimp only
  split
  · rename_i h
    have hc : companion k p g s r := h
    have m := toQueueTail_moved k r (StepInfo.plain .promoted) id s _
      ((s.entry k r).queuedAs (s.params k).restart (readyTail (s.sector k)).nextTail) _ rfl rfl (by rw [h.2.1]; decide)
      (by rw [h.2.1]; rfl) (fun _ => rfl) (fun _ => rfl)
    refine ⟨fun hq => ⟨_, by rw [hq.1]; exact m.entry⟩, fun hq => ?_⟩
    by_cases e : q = r
    · exact absurd ⟨e, e ▸ hc⟩ hq
    · rw [m.others.2 q e]
      by_cases hn : (s.entry k q).state = .queued
      · obtain ⟨o, ho⟩ := readyTail_entry (s.sector k) q
        exact ⟨o, ho, fun c => absurd hn c⟩
      · exact ⟨(s.entry k q).order, readyTail_other (s.sector k) q hn, fun _ => rfl⟩
  · rename_i h
    exact ⟨fun hq => absurd (hq.1 ▸ hq.2) h, fun _ => ⟨(s.entry k q).order, rfl, fun _ => rfl⟩⟩

theorem promoteOne_ranging (k : SectorNo) (p : RemoteNo) (g : Nat) (r : RemoteNo) (s : State) :
    ((promoteOne k p g r s).sector k).rangingOrder = (s.sector k).rangingOrder ∧
      ((promoteOne k p g r s).sector k).waitList = (s.sector k).waitList := by
  unfold promoteOne
  dsimp only
  split
  · rename_i h
    exact toQueueTail_ranging k r _ id s (by rw [h.2.1]; decide)
  · exact ⟨rfl, rfl⟩

theorem forRemotes_cons (r : RemoteNo) (rs : List RemoteNo) (f : RemoteNo → State → State) (s : State) :
    forRemotes (r :: rs) f s = forRemotes rs f (f r s) := rfl

theorem promotions_entry (k : SectorNo) (p : RemoteNo) (g : Nat) (q : RemoteNo) :
    ∀ (rs : List RemoteNo) (s : State), rs.Nodup →
      promotedEntry (s.params k).restart (s.entry k q) ((forRemotes rs (promoteOne k p g) s).entry k q)
        (q ∈ rs ∧ companion k p g s q) ∧
      ((forRemotes rs (promoteOne k p g) s).sector k).rangingOrder = (s.sector k).rangingOrder ∧
      ((forRemotes rs (promoteOne k p g) s).sector k).waitList = (s.sector k).waitList
  | [], s, _ => ⟨⟨fun h => absurd h.1 List.not_mem_nil, fun _ => ⟨(s.entry k q).order, rfl, fun _ => rfl⟩⟩, rfl, rfl⟩
  | r :: rs, s, h => by
    have hd := List.nodup_cons.mp h
    have one := promoteOne_entry k p g r q s
    have ih := promotions_entry k p g q rs (promoteOne k p g r s) hd.2
    have hp : (promoteOne k p g r s).params k = s.params k := by
      unfold State.params State.sectorConfig; rw [(local_promoteOne k p g r s).dev.store]
    rw [hp] at ih
    rw [forRemotes_cons]
    refine ⟨⟨fun hq => ?_, fun hq => ?_⟩, ih.2.1.trans (promoteOne_ranging ..).1, ih.2.2.trans (promoteOne_ranging ..).2⟩
    · by_cases e : q = r
      · obtain ⟨o, ho⟩ := one.1 ⟨e, hq.2⟩
        obtain ⟨o', ho', _⟩ := ih.1.2 (fun c => hd.1 (e ▸ c.1))
        exact ⟨o', by rw [ho', ho]; rfl⟩
      · obtain ⟨o, ho, _⟩ := one.2 (fun c => e c.1)
        obtain ⟨o', ho'⟩ := ih.1.1 ⟨(List.mem_cons.mp hq.1).resolve_left e, by
          refine ⟨hq.2.1, ?_, ?_⟩ <;> rw [ho]
          · exact hq.2.2.1
          · exact hq.2.2.2⟩
        exact ⟨o', by rw [ho', ho]; rfl⟩
    · have n1 : ¬ (q = r ∧ companion k p g s q) := fun c => hq ⟨c.1 ▸ List.mem_cons_self, c.2⟩
      obtain ⟨o, ho, hs⟩ := one.2 n1
      obtain ⟨o', ho', hs'⟩ := ih.1.2 (fun c => hq ⟨List.mem_cons_of_mem _ c.1, c.2.1, by
        have := c.2.2; rw [ho] at this; exact this⟩)
      exact ⟨o', by rw [ho', ho], fun c => by rw [hs' (by rw [ho]; exact c), ho]; exact hs c⟩

theorem promoteOne_history (k : SectorNo) (p : RemoteNo) (g : Nat) (r : RemoteNo) (s : State) :
    VoidedWhere (fun w => w.condition = .open ∧ w.remote = r ∧ companion k p g s r) (s.sector k).history
      ((promoteOne k p g r s).sector k).history := by
  unfold promoteOne
  dsimp only
  split
  · rename_i h
    have c : companion k p g s r := h
    have f := toQueueTail_followed k r (StepInfo.plain .promoted) id s rfl
    refine (f.plans (by rw [c.2.1]; decide)).congr fun w => ?_
    refine ⟨fun d => ⟨d.1, d.2.1, c⟩, fun d => ⟨d.1, d.2.1, ?_⟩⟩
    cases w.kind <;> simp [WatchKind.keptIn]
  · rename_i h
    exact (VoidedWhere.refl _).congr fun w => ⟨fun d => d.elim, fun d => h d.2.2⟩

theorem promotions_history (k : SectorNo) (p : RemoteNo) (g : Nat) :
    ∀ (rs : List RemoteNo) (s : State), rs.Nodup →
      VoidedWhere (fun w => w.condition = .open ∧ w.remote ∈ rs ∧ companion k p g s w.remote) (s.sector k).history
        ((forRemotes rs (promoteOne k p g) s).sector k).history
  | [], s, _ => (VoidedWhere.refl _).congr fun w => ⟨fun d => d.elim, fun d => absurd d.2.1 List.not_mem_nil⟩
  | r :: rs, s, h => by
    have hd := List.nodup_cons.mp h
    have ih := promotions_history k p g rs (promoteOne k p g r s) hd.2
    have same : ∀ q ∈ rs, companion k p g (promoteOne k p g r s) q ↔ companion k p g s q := fun q hq => by
      obtain ⟨o, ho, -⟩ := (promoteOne_entry k p g r q s).2 fun c => hd.1 (c.1 ▸ hq)
      unfold companion
      rw [ho]
    rw [forRemotes_cons]
    refine ((promoteOne_history k p g r s).trans ih fun w d => d.1).congr fun w => ?_
    constructor
    · rintro (d | d)
      · exact ⟨d.1, d.2.1 ▸ List.mem_cons_self, d.2.1 ▸ d.2.2⟩
      · exact ⟨d.1, List.mem_cons_of_mem _ d.2.1, (same _ d.2.1).mp d.2.2⟩
    · intro d
      rcases List.mem_cons.mp d.2.1 with e | e
      · exact .inl ⟨d.1, e, e ▸ d.2.2⟩
      · exact .inr ⟨d.1, e, (same _ e).mpr d.2.2⟩

/-- A promotion voids the open expectations of the companions (R20). -/
theorem promoteGroup_history (k : SectorNo) (p : RemoteNo) (s : State) :
    VoidedWhere (fun w => w.condition = .open ∧ ∃ g, (s.entry k p).group = some g ∧ companion k p g s w.remote)
      (s.sector k).history ((promoteGroup k p s).sector k).history := by
  unfold promoteGroup
  split
  · rename_i g hg
    refine (promotions_history k p g remotes s (List.nodup_finRange 128)).congr fun w => ?_
    refine ⟨fun d => ⟨d.1, g, hg, d.2.2⟩, fun d => ⟨d.1, List.mem_finRange _, ?_⟩⟩
    obtain ⟨_, g', hg', c⟩ := d
    cases hg.symm.trans hg'
    exact c
  · rename_i hg
    refine (VoidedWhere.refl _).congr fun w => ⟨fun d => d.elim, fun d => ?_⟩
    obtain ⟨_, g', hg', c⟩ := d
    cases hg.symm.trans hg'

/-- A promotion moves exactly the promoter's companions; the ranging order and the wait list stay. -/
theorem promoteGroup_entry (k : SectorNo) (p q : RemoteNo) (s : State) :
    promotedEntry (s.params k).restart (s.entry k q) ((promoteGroup k p s).entry k q)
      (∃ g, (s.entry k p).group = some g ∧ companion k p g s q) ∧
    ((promoteGroup k p s).sector k).rangingOrder = (s.sector k).rangingOrder ∧
    ((promoteGroup k p s).sector k).waitList = (s.sector k).waitList := by
  unfold promoteGroup
  split
  · rename_i g hg
    have h := promotions_entry k p g q remotes s (List.nodup_finRange 128)
    refine ⟨⟨fun c => h.1.1 ⟨List.mem_finRange q, ?_⟩, fun c => h.1.2 (fun c' => c ⟨g, hg, c'.2⟩)⟩, h.2⟩
    obtain ⟨g', hg', c⟩ := c
    cases hg.symm.trans hg'
    exact c
  · rename_i hg
    exact ⟨⟨fun ⟨g, h, _⟩ => absurd (hg.symm.trans h) (by simp), fun _ => ⟨(s.entry k q).order, rfl, fun _ => rfl⟩⟩, rfl, rfl⟩

theorem stepTo_intoRanging (k : SectorNo) (r : RemoteNo) (info : StepInfo) (f : Entry → Entry) (s : State)
    (h : (s.entry k r).state = .probing) :
    ((stepTo k r .ranging info f s).sector k).rangingOrder =
        (s.sector k).rangingOrder ++ [{ remote := r, silent := false }] ∧
      ((stepTo k r .ranging info f s).sector k).waitList = (s.sector k).waitList ++ [r] := by
  unfold stepTo
  dsimp only
  obtain ⟨ep, hp⟩ := remoteStep_sector k r info
    ((f (s.entry k r)).enter .ranging (s.params k).restart (s.params k).attemptsLimit) s
  rw [hp]
  have h' : ((s.sector k).entry r).state = .probing := h
  unfold applyStep
  dsimp only
  rw [enter_state, h', if_neg (by decide)]
  exact ⟨rfl, rfl⟩

/-- A probe heard at or above the accept margin, seen from before it (R29, R59): the remote RANGING at the end of the ranging
order, its companions QUEUED. -/
structure HeardAt (k : SectorNo) (r : RemoteNo) (s t : State) : Prop where
  entry : t.entry k r = (s.entry k r).rangingAs
  logged : StateLogged k r .probeHeard s t
  order : (t.sector k).rangingOrder = (s.sector k).rangingOrder ++ [{ remote := r, silent := false }]
  wait : (t.sector k).waitList = (s.sector k).waitList ++ [r]
  others : ∀ q, q ≠ r → promotedEntry (s.params k).restart (s.entry k q) (t.entry k q)
    ((s.entry k q).state = .faded ∧ (s.entry k r).group ≠ none ∧ (s.entry k q).group = (s.entry k r).group)
  plans : VoidedWhere (fun w => w.condition = .open ∧ ((w.remote = r ∧ w.kind ≠ .range) ∨
    (w.remote ≠ r ∧ (s.entry k w.remote).state = .faded ∧ (s.entry k r).group ≠ none ∧
      (s.entry k w.remote).group = (s.entry k r).group))) (s.sector k).history (t.sector k).history

theorem promoteGroup_heardAt (k : SectorNo) (r : RemoteNo) (s s1 : State)
    (m : Moved k r .probeHeard (s.sector k) (s.entry k r).rangingAs s s1)
    (h : (s1.sector k).rangingOrder = (s.sector k).rangingOrder ++ [{ remote := r, silent := false }] ∧
      (s1.sector k).waitList = (s.sector k).waitList ++ [r]) (hs : (s.entry k r).state = .probing) :
    HeardAt k r s (promoteGroup k r s1) := by
  have hg : (s1.entry k r).group = (s.entry k r).group := by rw [m.entry]; rfl
  have hp : s1.params k = s.params k := by unfold State.params State.sectorConfig; rw [m.device.store]
  have hr : (promoteGroup k r s1).entry k r = s1.entry k r := by
    obtain ⟨o, ho, hs⟩ := (promoteGroup_entry k r r s1).1.2 (fun ⟨_, _, c⟩ => c.1 rfl)
    rw [ho, hs (by rw [m.entry]; exact RState.noConfusion)]
  refine ⟨hr.trans m.entry, m.logged.later (local_promoteGroup k r s1).grows hr,
    (promoteGroup_entry k r r s1).2.1.trans h.1, (promoteGroup_entry k r r s1).2.2.trans h.2, fun q n => ?_, ?_⟩
  rotate_left
  · have m1 := m.followed.plans (by rw [hs]; exact RState.noConfusion)
    refine (m1.trans (promoteGroup_history k r s1) fun w d => d.1).congr fun w => ?_
    have hk : ¬ w.kind.keptIn ((s.entry k r).rangingAs).state ↔ w.kind ≠ .range := by
      cases w.kind <;> simp [WatchKind.keptIn, Entry.rangingAs]
    rw [hk, hg]
    constructor
    · rintro (d | ⟨d, i, hi, n, a, b⟩)
      · exact ⟨d.1, .inl ⟨d.2.1, d.2.2⟩⟩
      · rw [show s1.entry k w.remote = s.entry k w.remote from m.others.2 _ n] at a b
        exact ⟨d, .inr ⟨n, a, by rw [hi]; simp, b.trans hi.symm⟩⟩
    · rintro ⟨d, d' | ⟨n, a, b, c⟩⟩
      · exact .inl ⟨d, d'.1, d'.2⟩
      · obtain ⟨i, hi⟩ := Option.ne_none_iff_exists'.mp b
        have e : s1.entry k w.remote = s.entry k w.remote := m.others.2 _ n
        exact .inr ⟨d, i, hi, n, by rw [e]; exact a, by rw [e]; exact c.trans hi⟩
  have hq : s1.entry k q = s.entry k q := m.others.2 q n
  have g := (promoteGroup_entry k r q s1).1
  rw [hq, hp, hg] at g
  refine ⟨fun c => ?_, fun c => g.2 fun ⟨i, hi, d⟩ => c ?_⟩
  · obtain ⟨i, hi⟩ := Option.ne_none_iff_exists'.mp c.2.1
    exact g.1 ⟨i, hi, n, by rw [hq]; exact c.1, by rw [hq]; exact c.2.2.trans hi⟩
  · exact ⟨by rw [← hq]; exact d.2.1, by rw [hi]; simp, by rw [hi, ← hq]; exact d.2.2⟩

theorem HeardAt.later {k : SectorNo} {r : RemoteNo} {s t u : State} (h : HeardAt k r s t) (he : EpisodeOnly k t u)
    (hq : t.writer.queue <+: u.writer.queue) : HeardAt k r s u := by
  obtain ⟨ep, he⟩ := he
  have e : ∀ q, u.entry k q = t.entry k q := fun q => by unfold State.entry; rw [he]; rfl
  exact ⟨(e r).trans h.entry, h.logged.later hq (e r), by rw [he]; exact h.order, by rw [he]; exact h.wait,
    fun q n => (e q).symm ▸ h.others q n, by rw [he]; exact h.plans⟩

theorem probeHeard_heardAt (k : SectorNo) (r : RemoteNo) (scout : Bool) (m : Int) (s : State)
    (h : (s.entry k r).state = .probing) : HeardAt k r s (probeHeard k r scout m s) := by
  have g := promoteGroup_heardAt k r s _
    (stepTo_moved k r .ranging (StepInfo.heard .probeHeard (some m)) id s (s.entry k r).rangingAs .probeHeard rfl
      (by rw [h]; decide) (by simp only [h]; rfl))
    (stepTo_intoRanging k r _ id s h) h
  unfold probeHeard
  dsimp only
  split
  · refine g.later ?_ (local_scoutHeardInput k _).grows
    unfold scoutHeardInput enterRecovering
    exact .ite (episodeOnly_changeEpisode ..) (.refl ..)
  · exact g

/-! ### Steps that keep the state (R10) -/

theorem setEntry_self (x : Sector) (r : RemoteNo) : x.setEntry r (x.entry r) = x := by
  unfold Sector.setEntry Sector.entry
  cases x
  simp

theorem countP_replaced {α : Type} (p : α → Bool) : ∀ (l : List α) (i : Nat) (a : α) (h : i < l.length), p a = p l[i] →
    (l.set i a).countP p = l.countP p
  | x :: l, 0, a, _, h => by simp at h; simp [List.countP_cons, h]
  | x :: l, i + 1, a, hl, h => by
    simp only [List.set_cons_succ, List.countP_cons]
    rw [countP_replaced p l i a (by simpa using hl) (by simpa using h)]

/-- An entry of the same state leaves n as it is (R6). -/
theorem n_setEntry (x : Sector) (r : RemoteNo) (e : Entry) (h : e.state = (x.entry r).state) :
    (x.setEntry r e).n = x.n := by
  unfold Sector.n Sector.setEntry
  rw [Vector.toList_set]
  exact countP_replaced _ _ _ _ (by simp) (by simp only [Vector.getElem_toList]; rw [h]; rfl)

/-- A step whose old and new state are the same changes the one entry of the sector, and queues nothing where the profile is
the same too (R6, R21). -/
theorem remoteStep_same (k : SectorNo) (r : RemoteNo) (c : StateCause) (e e' : Entry) (s : State)
    (h : (s.entry k r).state = e.state)
    (he : e' = { e with fadedAt := fadedAtAfter (s.sector k).frame (s.entry k r).state e.state (s.entry k r).fadedAt }) :
    (remoteStep k r (StepInfo.plain c) e s).sector k = (s.sector k).setEntry r e' ∧
    ((s.entry k r).profile = e.profile → (remoteStep k r (StepInfo.plain c) e s).writer.queue = s.writer.queue) := by
  have ha : applyStep r e false (s.sector k) = (s.sector k).setEntry r e' := by
    unfold applyStep
    dsimp only
    rw [if_pos (show ((s.sector k).entry r).state = e.state from h), he]
    rfl
  have hu : ∀ u : State, u.sectors = (modSector k (applyStep r e false) s).sectors →
      u.sector k = (s.sector k).setEntry r e' := by
    intro u hu
    rw [← ha, ← sector_modSector_self k (applyStep r e false) s]
    unfold State.sector
    rw [hu]
  have hn : ∀ u : State, u.sectors = (modSector k (applyStep r e false) s).sectors →
      handInputs k Inputs.none (s.sector k).n u = u := by
    intro u g
    unfold handInputs Inputs.none
    simp only [Bool.false_eq_true, if_false]
    rw [if_pos]
    rw [hu u g, n_setEntry]
    rw [he]
    exact h.symm
  unfold remoteStep StepInfo.plain
  dsimp only
  rw [hn _ (by rw [markStep_sectors, logStep_sectors])]
  refine ⟨hu _ (by rw [markStep_sectors, logStep_sectors]), fun hp => ?_⟩
  have hnew : (modSector k (applyStep r e false) s).entry k r = e' := by
    unfold State.entry
    rw [sector_modSector_self, ha]
    exact (entry_setEntry _ _ _ _).trans (if_pos rfl)
  rw [markStep_queue]
  unfold logStep
  rw [if_pos ⟨by rw [hnew, he]; exact h, by rw [hnew, he]; exact hp⟩]
  rfl

end Sys2Proof.Machine
end

