-- ==== Sys2Proof/Laws/Ports.lean ====
section
/-! SUPPORT. What a request comes to on the fabric port: issued with the port free, refused, absorbed or held; and where a word
of the anchor block is classified. -/

namespace Sys2Proof.Machine

/-! ### Vectors of a fixed length -/

theorem vector_getElem_set_self {α : Type} {n : Nat} (v : Vector α n) (i : Fin n) (a : α) :
    (v.set i.val a i.isLt)[i] = a := by simp [Fin.getElem_fin]

theorem vector_getElem_set_of_ne {α : Type} {n : Nat} (v : Vector α n) {i j : Fin n} (h : j ≠ i) (a : α) :
    (v.set i.val a i.isLt)[j] = v[j] := by
  have : i.val ≠ j.val := fun e => h (Fin.ext e.symm)
  simp [Fin.getElem_fin, this]

theorem vector_set_getElem {α : Type} {n : Nat} (v : Vector α n) (i : Fin n) (a : α) (h : v[i] = a) :
    v.set i.val a i.isLt = v := by
  subst h; simp [Fin.getElem_fin]

/-! ### Joining and leaving a channel -/

theorem waitingAt_joinChannel (q : Request) (s : State) :
    (joinChannel q s).waitingAt q.master = s.waitingAt q.master ++ [q] := vector_getElem_set_self _ _ _

theorem waitingAt_joinChannel_of_ne (q : Request) (s : State) {m : MasterNo} (h : m ≠ q.master) :
    (joinChannel q s).waitingAt m = s.waitingAt m := vector_getElem_set_of_ne _ h _

/-- A request that joins an empty channel and leaves it again leaves the channels as they were. -/
theorem channels_join_leave (q : Request) (s : State) (h : s.waitingAt q.master = []) :
    (setChannel q.master ((joinChannel q s).waitingAt q.master).tail (joinChannel q s)) = s := by
  have e : ((s.ports.channels.set q.master.val (s.waitingAt q.master ++ [q]) q.master.isLt).set q.master.val [] q.master.isLt)
      = s.ports.channels := by
    rw [Vector.set_set]; exact vector_set_getElem _ _ _ h
  rw [waitingAt_joinChannel, h, List.nil_append, List.tail_cons]
  unfold setChannel joinChannel setChannel
  dsimp only
  rw [e]

theorem classify_joinChannel (q q' : Request) (s : State) : classify (joinChannel q s) q' = classify s q' := rfl

/-! ### The arbiter with one eligible master (R131) -/

theorem find_unique {α : Type} {p : α → Bool} {l : List α} {a : α} (ha : a ∈ l) (hp : p a = true)
    (h : ∀ x ∈ l, p x = true → x = a) : l.find? p = some a := by
  cases e : l.find? p with
  | none => exact absurd hp (by simpa using List.find?_eq_none.1 e a ha)
  | some x => rw [h x (List.mem_of_find?_eq_some e) (List.find?_some e)]

theorem mem_masterOrder (last m : MasterNo) : m ∈ masterOrder last := by
  unfold masterOrder
  refine List.mem_map.2 ⟨m - (last + 1), List.mem_finRange _, ?_⟩
  revert last m; decide

theorem eligible_of_empty {s : State} {m : MasterNo} (h : s.waitingAt m = []) : eligible s m = false := by
  unfold eligible; rw [h]

/-- A request that joins an empty channel with the port free is granted it if its class is eligible. -/
theorem arbiter_joined (q : Request) (s : State) (hf : s.portFree)
    (he : eligibleClass s q (classify s q) = true) : arbiter (joinChannel q s) = .passThrough q.master := by
  obtain ⟨hw, hl, ho⟩ := hf
  have hel : eligible (joinChannel q s) q.master = true := by
    unfold eligible
    rw [waitingAt_joinChannel, hw, List.nil_append]
    exact he
  have hfind : ((masterOrder (joinChannel q s).ports.lastMaster).find? fun m => eligible (joinChannel q s) m)
      = some q.master := by
    refine find_unique (mem_masterOrder _ _) hel fun m _ hm => ?_
    by_contra hne
    rw [eligible_of_empty (by rw [waitingAt_joinChannel_of_ne q s hne, hw])] at hm
    cases hm
  unfold arbiter
  rw [show (joinChannel q s).ports.locks = [] from hl]
  dsimp only
  rw [show outboundFirst (joinChannel q s) = false from ho, if_neg (by decide), hfind]

/-- A request is not granted the port where its class is not eligible. -/
theorem arbiter_not_granted (q : Request) (s : State) (hw : s.waitingAt q.master = [])
    (he : eligibleClass s q (classify s q) = false) : arbiter (joinChannel q s) ≠ .passThrough q.master := by
  have hel : eligible (joinChannel q s) q.master = false := by
    unfold eligible
    rw [waitingAt_joinChannel, hw, List.nil_append]
    exact he
  unfold arbiter
  split
  · split
    · rename_i h
      intro e
      injection e with e
      rw [e, hel] at h; cases h
    · intro e; cases e
  · split
    · intro e; cases e
    · split
      · rename_i h
        intro e
        injection e with e
        have := List.find?_some h
        rw [e, hel] at this; cases this
      · split
        · intro e; cases e
        · split <;> (intro e; cases e)

/-! ### Issuing a request -/

/-- The port's bookkeeping of a grant, before the class's own effect. -/
def granted (q : Request) (s : State) : State :=
  { s with ports := { s.ports with
      locks := if q.lock then [q.master] else []
      lastMaster := q.master
      lastOutbound := false } }

/-- A head with nothing behind it is accepted alone. -/
theorem acceptHead_alone (m : MasterNo) (q : Request) (s : State) : acceptHead m q [] s = accept q s := rfl

theorem locksAfter_nil (q : Request) : locksAfter q [] = if q.lock then [q.master] else [] := by
  unfold locksAfter; split <;> simp

/-- A request of a class that needs the port, issued with the port free and its class eligible, is taken at once. -/
theorem issue_portFree (q : Request) (s : State) (hf : s.portFree) (hn : (classify s q).needsPort = true)
    (he : eligibleClass s q (classify s q) = true) : issue q s = acceptAs q (classify s q) (granted q s) := by
  have hw := hf.1 q.master
  have hg : leaveChannel q (noteGrant q.master (joinChannel q s)) = granted q s := by
    have e := channels_join_leave q s hw
    have hl := hf.2.1
    unfold leaveChannel noteGrant
    dsimp only
    have e' := congrArg (fun t : State => t.ports.channels) e
    unfold granted
    unfold setChannel at e' ⊢
    dsimp only at e' ⊢
    rw [show ((State.waitingAt { (joinChannel q s) with ports := { (joinChannel q s).ports with
      lastMaster := q.master, lastOutbound := false } } q.master)) = (joinChannel q s).waitingAt q.master from rfl, e']
    rw [show (joinChannel q s).ports.locks = s.ports.locks from rfl, hl, locksAfter_nil]
    rfl
  unfold issue consider
  rw [waitingAt_joinChannel, hw, List.nil_append]
  dsimp only
  rw [classify_joinChannel, if_pos hn, arbiter_joined q s hf he, if_pos rfl]
  rw [acceptHead_alone]
  unfold accept
  dsimp only
  rw [classify_joinChannel, if_pos hn, hg]

theorem oweAwaited_granted (q : Request) (p : Option Patch) (s : State) :
    oweAwaited q p (granted q s) = forwarded p q s := by
  unfold oweAwaited forwarded
  cases h : q.dir <;> rfl

/-- A request of a class that needs the port and is not eligible waits. -/
theorem issue_held (q : Request) (s : State) (hw : s.waitingAt q.master = []) (hn : (classify s q).needsPort = true)
    (he : eligibleClass s q (classify s q) = false) : issue q s = joinChannel q s := by
  unfold issue consider
  rw [waitingAt_joinChannel, hw, List.nil_append]
  dsimp only
  rw [classify_joinChannel, if_pos hn, if_neg (arbiter_not_granted q s hw he)]

/-- A request that needs the port waits while memory takes none (R129). -/
theorem issueStalled_held (q : Request) (s : State) (hw : s.waitingAt q.master = [])
    (hn : (classify s q).needsPort = true) : issueStalled q s = joinChannel q s := by
  unfold issueStalled considerStalled
  rw [waitingAt_joinChannel, hw, List.nil_append]
  dsimp only
  rw [classify_joinChannel, if_pos hn]

/-- What is left of a state once a request has joined its empty channel: it waits there, and nothing else moves. -/
theorem joinChannel_spec (q : Request) (s : State) (hw : s.waitingAt q.master = []) :
    SameButPorts s (joinChannel q s) ∧ (joinChannel q s).waitingAt q.master = [q] ∧
      { (joinChannel q s).ports with channels := s.ports.channels } = s.ports :=
  ⟨rfl, by rw [waitingAt_joinChannel, hw, List.nil_append], rfl⟩

/-- A request of a class that needs no port, issued on an empty channel, is taken at once. -/
theorem issue_noPort (q : Request) (s : State) (hw : s.waitingAt q.master = [])
    (hn : (classify s q).needsPort = false) :
    issue q s = acceptAs q (classify s q) { s with ports := { s.ports with locks := locksAfter q s.ports.locks } } := by
  have e := congrArg (fun t : State => t.ports.channels) (channels_join_leave q s hw)
  unfold setChannel at e
  dsimp only at e
  have hg : leaveChannel q (joinChannel q s) = { s with ports := { s.ports with locks := locksAfter q s.ports.locks } } := by
    unfold leaveChannel setChannel
    dsimp only
    rw [e]
    rfl
  unfold issue consider
  rw [waitingAt_joinChannel, hw, List.nil_append]
  dsimp only
  rw [classify_joinChannel, if_neg (by rw [hn]; decide)]
  rw [acceptHead_alone]
  unfold accept
  dsimp only
  rw [classify_joinChannel, if_neg (by rw [hn]; decide), hg]

/-- A response the part forms for a master that is owed none is returned at once (R128). -/
theorem oweFormed_empty (m : MasterNo) (r : Response) (s : State) (h : s.owedTo m = []) :
    oweFormed m r s = { s with ports := { s.ports with returned := s.ports.returned ++ [(m, r)] } } := by
  have e : (s.ports.owed.set m.val (s.owedTo m ++ [.formed r]) m.isLt).set m.val [] m.isLt = s.ports.owed := by
    rw [Vector.set_set]; exact vector_set_getElem _ _ _ h
  have e1 : (setOwed m (s.owedTo m ++ [.formed r]) s).owedTo m = [.formed r] := by
    rw [h]; exact vector_getElem_set_self _ _ _
  unfold oweFormed returnReady
  dsimp only
  rw [e1]
  unfold setOwed
  simp only [behindFormed, formedFront, List.map_cons, List.map_nil]
  rw [e]

/-- Memory's reply to a master's only awaited request is returned at once. -/
theorem answerOldest_only (m : MasterNo) (r : Response) (s : State) :
    answerOldest m r [] s = { s with ports := { s.ports with
      owed := s.ports.owed.set m.val [] m.isLt, returned := s.ports.returned ++ [(m, r)] } } := by
  have e1 : (setOwed m [.formed r] s).owedTo m = [.formed r] := vector_getElem_set_self _ _ _
  unfold answerOldest returnReady
  dsimp only
  rw [e1]
  unfold setOwed
  simp only [behindFormed, formedFront, List.map_cons, List.map_nil]
  rw [Vector.set_set]

/-! ### Words of the anchor block (R141) -/

/-- The offsets of the command, log tail and marker words. -/
def wordOffset (off : Addr) : Prop := off = 0 ∨ off = 0x10 ∨ off = 0x18

theorem alignBeat_word0 : ∀ (straps : Byte) (low : BitVec 3),
    alignBeat (anchorBaseOf straps + low.setWidth 40) = anchorBaseOf straps := by decide +kernel

theorem alignBeat_word10 : ∀ (straps : Byte) (low : BitVec 3),
    alignBeat (anchorBaseOf straps + 0x10 + low.setWidth 40) = anchorBaseOf straps + 0x10 := by decide +kernel

theorem alignBeat_word18 : ∀ (straps : Byte) (low : BitVec 3),
    alignBeat (anchorBaseOf straps + 0x18 + low.setWidth 40) = anchorBaseOf straps + 0x18 := by decide +kernel

theorem anchor_covers : ∀ straps : Byte,
    ((Window.anchorAt (anchorBaseOf straps)).covers (anchorBaseOf straps) = true ∧
      (Window.anchorAt (anchorBaseOf straps)).covers (anchorBaseOf straps + 0x10) = true ∧
      (Window.anchorAt (anchorBaseOf straps)).covers (anchorBaseOf straps + 0x18) = true) ∧
    (anchorBaseOf straps + 0x18).toNat + 8 ≤ 2 ^ 40 ∧ (anchorBaseOf straps + 0x10).toNat + 8 ≤ 2 ^ 40 ∧
      (anchorBaseOf straps).toNat + 8 ≤ 2 ^ 40 := by decide +kernel

/-- The table in force begins with the ANCHOR window, a staged one included (R135, R143). -/
theorem activeTable_head (s : State) (h : s.anchored) :
    s.activeTable.head? = some (Window.anchorAt s.channel.anchorBase) := by
  unfold State.activeTable
  split
  · exact (setup_windows _ _).2
  · exact h.1

/-- A single beat that the ANCHOR window covers is placed in it. -/
theorem placement_anchor {ws : List Window} {w : Window} {q : Request} (hw : ws.head? = some w) (hb : q.beats = 1)
    (ht : (alignBeat q.addr).toNat + 8 ≤ 2 ^ 40) (hc : w.covers (alignBeat q.addr) = true) :
    placementIn ws q = .inside w := by
  cases ws with
  | nil => cases hw
  | cons v ws =>
    obtain rfl := Option.some.inj hw
    have e : beatAddrs q = [alignBeat q.addr] := by
      unfold beatAddrs; rw [hb]; simp
    unfold placementIn
    rw [if_neg]
    · rw [e]
      simp [windowAt, List.find?, hc]
    · unfold passesTop
      rw [hb]
      simp only [decide_eq_true_eq]
      omega

/-- A CONTROLLER's single-beat write of a word of the anchor block goes by its area. -/
theorem classify_anchor (s : State) (m : MasterNo) (lock : Bool) (addr off : Addr) (lanes : Lanes) (b : Beat)
    (h : s.anchored) (hr : s.role m = .controller) (ha : alignBeat addr = s.channel.anchorBase + off)
    (ho : wordOffset off) :
    placementIn s.activeTable (wordRequest m lock addr lanes b) = .inside (Window.anchorAt s.channel.anchorBase) ∧
      classifyIn (Window.anchorAt s.channel.anchorBase) (s.role m) (wordRequest m lock addr lanes b) =
        if off = 0 then .takeCommand else if off = 0x10 then .takeTail else .takeMarker := by
  obtain ⟨straps, hs⟩ := h.2
  obtain ⟨⟨c0, c1, c2⟩, t2, t1, t0⟩ := anchor_covers straps
  constructor
  · refine placement_anchor (activeTable_head s h) rfl ?_ ?_
    · show (alignBeat addr).toNat + 8 ≤ 2 ^ 40
      rw [ha, hs]
      rcases ho with rfl | rfl | rfl
      · simpa using t0
      · exact t1
      · exact t2
    · show (Window.anchorAt s.channel.anchorBase).covers (alignBeat addr) = true
      rw [ha, hs]
      rcases ho with rfl | rfl | rfl
      · simpa using c0
      · exact c1
      · exact c2
  · rw [hr]
    have e : alignBeat addr - (Window.anchorAt s.channel.anchorBase).base = off := by
      rw [ha]; show s.channel.anchorBase + off - s.channel.anchorBase = off
      rw [BitVec.add_comm, BitVec.add_sub_cancel]
    show classifyAnchorWrite (Window.anchorAt s.channel.anchorBase) (wordRequest m lock addr lanes b) = _
    unfold classifyAnchorWrite
    rw [if_pos (show (wordRequest m lock addr lanes b).beats = 1 from rfl)]
    show (match anchorArea (alignBeat addr - (Window.anchorAt s.channel.anchorBase).base).toNat with
      | .command => AccessClass.takeCommand
      | .result => .absorb
      | .tail => .takeTail
      | .marker => .takeMarker
      | .status => .absorb
      | .ordinary => .pass) = _
    rw [e]
    rcases ho with rfl | rfl | rfl <;> rfl

/-- The class of a command word write outside an open locked sequence, or with no result waiting. -/
theorem classify_command (s : State) (code : Byte) (w : CommandWrite) (h : s.anchored)
    (hr : s.role w.master = .controller) (hl : s.resultWaits = false ∨ w.master ∉ s.ports.locks) :
    classify s (commandRequest s code w) = .takeCommand := by
  obtain ⟨straps, hs⟩ := h.2
  obtain ⟨e1, e2⟩ := classify_anchor s w.master w.lock (s.channel.anchorBase + w.low.setWidth 40) 0 w.lanes
    (commandBeat code w.sector w.remote w.tag w.arg w.spare) h hr
    (by rw [hs, alignBeat_word0]; simp) (.inl rfl)
  unfold classify commandRequest
  rw [e1]
  dsimp only
  rw [show (wordRequest w.master w.lock (s.channel.anchorBase + w.low.setWidth 40) w.lanes
    (commandBeat code w.sector w.remote w.tag w.arg w.spare)).master = w.master from rfl, e2, if_pos rfl]
  dsimp only
  rw [if_neg]
  rcases hl with hl | hl
  · simp [hl]
  · simp [hl]

theorem classify_tail (s : State) (w : WordWrite) (h : s.anchored) (hr : s.role w.master = .controller) :
    classify s (tailRequest s w) = .takeTail := by
  obtain ⟨straps, hs⟩ := h.2
  obtain ⟨e1, e2⟩ := classify_anchor s w.master w.lock (s.channel.anchorBase + 0x10 + w.low.setWidth 40) 0x10 w.lanes w.word
    h hr (by rw [hs, alignBeat_word10]) (.inr (.inl rfl))
  unfold classify tailRequest
  rw [e1]
  dsimp only
  rw [show (wordRequest w.master w.lock (s.channel.anchorBase + 0x10 + w.low.setWidth 40) w.lanes w.word).master
    = w.master from rfl, e2, if_neg (by decide), if_pos rfl]

theorem classify_marker (s : State) (w : WordWrite) (h : s.anchored) (hr : s.role w.master = .controller) :
    classify s (markerRequest s w) = .takeMarker := by
  obtain ⟨straps, hs⟩ := h.2
  obtain ⟨e1, e2⟩ := classify_anchor s w.master w.lock (s.channel.anchorBase + 0x18 + w.low.setWidth 40) 0x18 w.lanes w.word
    h hr (by rw [hs, alignBeat_word18]) (.inr (.inr rfl))
  unfold classify markerRequest
  rw [e1]
  dsimp only
  rw [show (wordRequest w.master w.lock (s.channel.anchorBase + 0x18 + w.low.setWidth 40) w.lanes w.word).master
    = w.master from rfl, e2, if_neg (by decide), if_neg (by decide)]

/-! ### Command words (R159, R160) -/

theorem commandBeat_getLsbD (code sector remote tag : Byte) (arg spare : Half) (i : Nat) :
    (commandBeat code sector remote tag arg spare).getLsbD i =
      if i < 8 then code.getLsbD i else if i < 16 then sector.getLsbD (i - 8) else if i < 24 then remote.getLsbD (i - 16)
      else if i < 32 then tag.getLsbD (i - 24) else if i < 48 then arg.getLsbD (i - 32) else spare.getLsbD (i - 48) := by
  change BitVec.getLsbD (w := 16 + 16 + 8 + 8 + 8 + 8) (spare ++ arg ++ tag ++ remote ++ sector ++ code) i = _
  simp only [BitVec.getLsbD_append]
  repeat' split
  all_goals first | omega | rfl

/-- The command a command word spells (Table 11.6). -/
theorem commandOf_commandBeat (code sector remote tag : Byte) (arg spare : Half) :
    commandOf (commandBeat code sector remote tag arg spare) =
      { code := code, sector := sector, remote := remote, tag := tag, arg := arg } := by
  unfold commandOf beatByte
  congr 1 <;> (apply BitVec.eq_of_getLsbD_eq; intro i hi; simp only [BitVec.getLsbD_extractLsb', commandBeat_getLsbD, hi];
               repeat' split) <;> first | omega | simp

end Sys2Proof.Machine
end

