-- ==== Sys2Proof/Laws/Results.lean ====
section
/-! SUPPORT. What answering a command comes to: the result in the pending result word, its COMMAND record, and everything else as
it was. -/

namespace Sys2Proof.Machine

/-- A result has entered the free pending result word; nothing changed beside it, its COMMAND record and the command in
flight. -/
structure Answers (r : Result) (s t : State) : Prop where
  result : t.writer.pendingResult = some r
  held : t.channel.held = s.channel.held
  read : t.channel.read = s.channel.read
  sectors : t.sectors = s.sectors
  ports : t.ports = s.ports
  notices : t.notices = s.notices
  dev : DeviceKept s t
  counters : t.writer.counterDirty = s.writer.counterDirty
  mirrors : t.writer.mirrorDirty = s.writer.mirrorDirty
  record : s.writer.queue.length < 64 → ∃ rec, t.writer.queue = s.writer.queue ++ [rec] ∧ rec.time = s.time ∧
    rec.sector = r.sector ∧ rec.body = commandRecord r

theorem pushRecord_notices (rec : LogRecord) (s : State) : (pushRecord rec s).notices = s.notices := by
  unfold pushRecord; split <;> rfl

theorem pushRecord_counterDirty (rec : LogRecord) (s : State) :
    (pushRecord rec s).writer.counterDirty = s.writer.counterDirty := by
  unfold pushRecord; split <;> rfl

theorem pushRecord_mirrorDirty (rec : LogRecord) (s : State) :
    (pushRecord rec s).writer.mirrorDirty = s.writer.mirrorDirty := by
  unfold pushRecord; split <;> rfl

theorem pushRecord_pendingResult (rec : LogRecord) (s : State) :
    (pushRecord rec s).writer.pendingResult = s.writer.pendingResult := (quiet_pushRecord rec s).result

theorem logFor_record (k : Option SectorNo) (b : RecordBody) (s : State) (h : s.writer.queue.length < 64) :
    ∃ rec, (logFor k b s).writer.queue = s.writer.queue ++ [rec] ∧ rec.time = s.time ∧ rec.sector = k ∧ rec.body = b := by
  cases k with
  | none => exact ⟨_, pushRecord_queue _ s h, rfl, rfl, rfl⟩
  | some k => exact ⟨_, pushRecord_queue _ s h, rfl, rfl, rfl⟩

theorem logFor_notices (k : Option SectorNo) (b : RecordBody) (s : State) : (logFor k b s).notices = s.notices := by
  cases k <;> exact pushRecord_notices _ s

theorem logFor_counterDirty (k : Option SectorNo) (b : RecordBody) (s : State) :
    (logFor k b s).writer.counterDirty = s.writer.counterDirty := by
  cases k <;> exact pushRecord_counterDirty _ s

theorem logFor_mirrorDirty (k : Option SectorNo) (b : RecordBody) (s : State) :
    (logFor k b s).writer.mirrorDirty = s.writer.mirrorDirty := by
  cases k <;> exact pushRecord_mirrorDirty _ s

theorem enterPending_spec (r : Result) (s : State) :
    Answers r s (enterPending r s) ∧ (enterPending r s).channel = s.channel := by
  unfold enterPending
  have h := local_logFor 0 r.sector (commandRecord r) { s with writer := { s.writer with pendingResult := some r } }
  have hd := h.dev
  have hc := h.channel
  exact ⟨⟨h.result, by rw [hc], by rw [hc], logFor_sectors _ _ _, h.ports, logFor_notices _ _ _,
    ⟨hd.pending, hd.time, hd.windows, hd.roles, hd.store, hd.classes, hd.floor, hd.log, hd.head, hd.tail, hd.buffer,
      hd.lastGroup, hd.faults, hd.base⟩,
    logFor_counterDirty _ _ _, logFor_mirrorDirty _ _ _,
    fun hq => logFor_record r.sector (commandRecord r) { s with writer := { s.writer with pendingResult := some r } } hq⟩, hc⟩

theorem resultWaits_eq_false {s : State} : s.resultWaits = false ↔ s.writer.pendingResult = none ∧ s.channel.held = [] := by
  unfold State.resultWaits
  cases s.writer.pendingResult <;> cases s.channel.held <;> simp

/-- A result delivered with no result waiting enters the pending result word at once. -/
theorem deliver_spec (r : Result) (s : State) (h : s.resultWaits = false) :
    Answers r s (deliver r s) ∧ (deliver r s).channel = s.channel := by
  obtain ⟨h1, h2⟩ := resultWaits_eq_false.1 h
  unfold deliver
  rw [h1, h2]
  exact enterPending_spec r s

theorem answer_spec (c : Command) (code : ResultCode) (d : Half) (s : State) (h : s.resultWaits = false) :
    Answers (resultOf c code d false) s (answer c code d s) ∧ (answer c code d s).channel = s.channel :=
  deliver_spec _ s h

/-- A result delivered while the pending result word is occupied is held behind the others. -/
theorem deliver_occupied (r p : Result) (s : State) (h : s.writer.pendingResult = some p) :
    deliver r s = { s with channel := { s.channel with held := s.channel.held ++ [r] } } := by
  unfold deliver; rw [h]; rfl

/-- The command in flight ends with no result waiting: its result is in the pending result word, and it stays in flight
until that is formed. -/
theorem finish_spec (code : ResultCode) (d : Half) (s : State) (f : InFlight) (hf : s.channel.inFlight = some f)
    (h : s.resultWaits = false) :
    Answers (resultOf f.cmd code d true) s (finish code d s) ∧
      (finish code d s).channel = { s.channel with inFlight := some { f with phase := .decided } } := by
  have e : setPhase .decided s =
      { s with channel := { s.channel with inFlight := some { f with phase := .decided } } } := by
    unfold setPhase; rw [hf]
  obtain ⟨a, hc⟩ := deliver_spec (resultOf f.cmd code d true) (setPhase .decided s) (by rw [e]; exact h)
  unfold finish
  rw [hf]
  dsimp only
  rw [e] at a hc ⊢
  exact ⟨⟨a.result, a.held, a.read, a.sectors, a.ports, a.notices,
    ⟨a.dev.pending, a.dev.time, a.dev.windows, a.dev.roles, a.dev.store, a.dev.classes, a.dev.floor, a.dev.log,
      a.dev.head, a.dev.tail, a.dev.buffer, a.dev.lastGroup, a.dev.faults, a.dev.base⟩,
    a.counters, a.mirrors, a.record⟩, hc⟩

/-- A sector read after an answer. -/
theorem Answers.sector {r : Result} {s t : State} (h : Answers r s t) (k : SectorNo) : t.sector k = s.sector k := by
  unfold State.sector; rw [h.sectors]

theorem Answers.entry {r : Result} {s t : State} (h : Answers r s t) (k : SectorNo) (q : RemoteNo) :
    t.entry k q = s.entry k q := by
  unfold State.entry; rw [h.sector]

/-! ### A command taken (R159, R160) -/

/-- A command that passes the checks of R160 and is no CANCEL is put in flight and passed to its owner. -/
theorem takeCommand_run (c : Command) (s : State) (h : commandFault c = none) (hc : c.code ≠ codeCancel) :
    takeCommand c s = runCommand c (beginCommand c s) := by
  unfold takeCommand; rw [h]; exact if_neg hc

theorem beginCommand_kept (c : Command) (s : State) : DeviceKept s (beginCommand c s) :=
  ⟨rfl, rfl, rfl, rfl, rfl, rfl, rfl, rfl, rfl, rfl, rfl, rfl, rfl, rfl⟩

end Sys2Proof.Machine
end

