-- ==== Sys2Proof/Laws/Rows.lean ====
section
/-! SUPPORT. The rows that write the command word as one, and the state in which a command's owner takes it. -/

namespace Sys2Proof.Machine

/-- Every row of Table 11.1 is the issue of its command word. -/
theorem row_exec {row code} (h : (row, code) ∈ commandRows) (i : Issue CommandWrite) (s : State) :
    exec (row i) s = takeIssue (commandRequest s code) i s := by
  generalize hp : (row, code) = p at h
  rw [show row = p.1 from congrArg Prod.fst hp, show code = p.2 from congrArg Prod.snd hp]
  fin_cases h <;> rfl

theorem commandRequest_ok (s : State) (code : Byte) (w : CommandWrite) (h : w.lanes ≠ 0) :
    (commandRequest s code w).ok = true := by
  simpa [commandRequest, wordRequest, Request.ok] using h

/-- The state in which the owner of a command takes it: the word forwarded and the command in flight. -/
def started (code : Byte) (w : CommandWrite) (s : State) : State :=
  beginCommand (w.command code) (forwarded none (commandRequest s code w) s)

theorem started_kept (code : Byte) (w : CommandWrite) (s : State) : DeviceKept s (started code w s) :=
  ⟨rfl, rfl, rfl, rfl, rfl, rfl, rfl, rfl, rfl, rfl, rfl, rfl, rfl, rfl⟩

theorem started_inFlight (code : Byte) (w : CommandWrite) (s : State) :
    (started code w s).channel.inFlight = some { cmd := w.command code, phase := .decided } := rfl

theorem started_sectors (code : Byte) (w : CommandWrite) (s : State) : (started code w s).sectors = s.sectors := rfl

theorem started_resultWaits {code : Byte} {w : CommandWrite} {s : State} (h : s.ready w) :
    (started code w s).resultWaits = false := h.free

theorem started_held {code : Byte} {w : CommandWrite} {s : State} (h : s.ready w) :
    (started code w s).channel.held = [] := (resultWaits_eq_false.1 h.free).2

/-- An answer with the command's tag, code and detail. -/
theorem answered_of {r : Result} {w : CommandWrite} {u t : State} {c : ResultCode} {d : Half} (h : Answers r u t)
    (hh : u.channel.held = []) (ht : r.tag = w.tag) (hc : r.result = c) (hd : r.detail = d) : t.answered w c d :=
  ⟨h.held.trans hh, r, h.result, ht, hc, hd⟩

/-! ### The copy of a descriptor write while no load reads -/

theorem copyInForce_notLoading (q : Request) (s : State) (h : s.notLoading) : copyInForce q s = s := by
  unfold copyInForce inForceDescriptor
  split
  · rename_i h'
    split at h'
    · rename_i e; exact absurd rfl (h _ _ _ _ _ _ e)
    · cases h'
  · rfl

theorem copyBeats_idle (k : SectorNo) (w : Window) (lanes : Lanes) : ∀ (data : List Beat) (a : Addr) (s : State),
    s.channel.inFlight = none →
    copyBeats (copyDescriptor k) w lanes a data s = copyBeats (changeDescriptor k) w lanes a data s
  | [], _, _, _ => rfl
  | b :: data, a, s, h => by
    unfold copyBeats
    have e : copyDescriptor k (remoteAt w a) lanes b s = changeDescriptor k (remoteAt w a) lanes b s := by
      unfold copyDescriptor; split
      · rename_i e; rw [h] at e; cases e
      · rename_i e; rw [h] at e; cases e
      · rfl
    rw [e]
    exact copyBeats_idle k w lanes data (a + 8) _ (by rw [(local_changeDescriptor k (remoteAt w a) lanes b s).channel]; exact h)

theorem copyBeats_channel (k : SectorNo) (w : Window) (lanes : Lanes) : ∀ (data : List Beat) (a : Addr) (s : State),
    (copyBeats (changeDescriptor k) w lanes a data s).channel = s.channel
  | [], _, _ => rfl
  | b :: data, a, s => by
    unfold copyBeats
    rw [copyBeats_channel k w lanes data (a + 8), (local_changeDescriptor k (remoteAt w a) lanes b s).channel]

end Sys2Proof.Machine
end

