-- ==== Sys2Proof/Laws/Placement.lean ====
section
/-! SUPPORT. Where a request lies in a window table, beat by beat (R137), the class of a request inside one window (R140), and the
DESCRIPTOR window of the table in force that a write lies in during a load (R17, R143), and where a copy of a descriptor goes
(R17, R18). -/

namespace Sys2Proof.Machine

/-- The first byte of the aligned beat that holds an address. -/
theorem alignBeat_toNat (a : Addr) : (alignBeat a).toNat = a.toNat / 8 * 8 := by
  have h : alignBeat a = (a >>> 3) <<< 3 := by
    unfold alignBeat
    apply BitVec.eq_of_getLsbD_eq
    intro i hi
    simp only [BitVec.getLsbD_and, BitVec.getLsbD_not, BitVec.getLsbD_shiftLeft, BitVec.getLsbD_ushiftRight, hi]
    have : (7 : Addr).getLsbD i = decide (i < 3) := by
      rw [show (7 : Addr) = BitVec.ofNat 40 (2 ^ 3 - 1) from rfl, BitVec.getLsbD_ofNat, Nat.testBit_two_pow_sub_one]
      simp [hi]
    rw [this]
    by_cases h3 : i < 3
    · simp [h3]
    · simp [h3, show 3 + (i - 3) = i by omega]
  have := a.isLt
  rw [h, BitVec.toNat_shiftLeft, BitVec.toNat_ushiftRight, Nat.shiftRight_eq_div_pow, Nat.shiftLeft_eq]
  omega

/-- The window of beat j of a request (R137). -/
theorem windowAt_beat (ws : List Window) (q : Request) (j : Nat) (h : q.addr.toNat / 8 * 8 + 8 * q.beats ≤ 2 ^ 40)
    (hj : j < q.beats) :
    windowAt ws (alignBeat q.addr + BitVec.ofNat 40 (8 * j)) = ws.find? fun w =>
      decide (w.base.toNat ≤ q.addr.toNat / 8 * 8 + 8 * j ∧ q.addr.toNat / 8 * 8 + 8 * j < w.base.toNat + 2 ^ w.sizeExp) := by
  unfold windowAt
  congr 1
  funext w
  unfold Window.covers Window.size
  rw [BitVec.toNat_add, alignBeat_toNat, BitVec.toNat_ofNat, Nat.mod_eq_of_lt (a := 8 * j) (by omega),
    Nat.mod_eq_of_lt (by omega), Bool.decide_and]

/-- The windows of the beats of a request, in order. -/
theorem beat_windows (ws : List Window) (q : Request) (h : q.addr.toNat / 8 * 8 + 8 * q.beats ≤ 2 ^ 40) :
    (beatAddrs q).map (windowAt ws) = (List.range q.beats).map fun j => ws.find? fun w =>
      decide (w.base.toNat ≤ q.addr.toNat / 8 * 8 + 8 * j ∧ q.addr.toNat / 8 * 8 + 8 * j < w.base.toNat + 2 ^ w.sizeExp) := by
  unfold beatAddrs
  rw [List.map_map]
  apply List.map_congr_left
  intro j hj
  exact windowAt_beat ws q j h (List.mem_range.1 hj)

/-- Where a request lies, beat by beat (R137). -/
theorem placementIn_spec (ws : List Window) (q : Request) :
    let first := q.addr.toNat / 8 * 8
    let windowOfBeat := fun j : Nat => ws.find? fun w =>
      decide (w.base.toNat ≤ first + 8 * j ∧ first + 8 * j < w.base.toNat + 2 ^ w.sizeExp)
    (2 ^ 40 < first + 8 * q.beats → placementIn ws q = .split) ∧
    (first + 8 * q.beats ≤ 2 ^ 40 →
      ((∀ j, j < q.beats → windowOfBeat j = none) → placementIn ws q = .outside) ∧
      (∀ w, q.beats ≠ 0 → (∀ j, j < q.beats → windowOfBeat j = some w) → placementIn ws q = .inside w) ∧
      (∀ i j, i < q.beats → j < q.beats → windowOfBeat i ≠ windowOfBeat j → placementIn ws q = .split)) := by
  intro first windowOfBeat
  have top : passesTop q = decide (2 ^ 40 < first + 8 * q.beats) := by unfold passesTop; rw [alignBeat_toNat]
  refine ⟨fun h => ?_, fun h => ?_⟩
  · unfold placementIn; rw [top, if_pos (by simpa using h)]
  · have e : placementIn ws q = match (List.range q.beats).map windowOfBeat with
        | [] => .outside
        | none :: rest => if rest.all fun w => w.isNone then .outside else .split
        | some w :: rest => if rest.all fun v => v = some w then .inside w else .split := by
      unfold placementIn
      rw [top, if_neg (by simpa using h)]
      dsimp only
      rw [beat_windows ws q h]
      all_goals rfl
    rw [e]
    clear e top
    revert windowOfBeat
    intro f
    cases hn : q.beats with
    | zero => exact ⟨fun _ => rfl, fun _ h => absurd rfl h, fun i _ hi => absurd hi (by omega)⟩
    | succ n =>
      rw [List.range_succ_eq_map, List.map_cons, List.map_map]
      refine ⟨fun ha => ?_, fun w _ ha => ?_, fun i j hi hj hne => ?_⟩
      · rw [ha 0 (by omega)]
        dsimp only
        rw [if_pos]
        simp only [List.all_map, List.all_eq_true, List.mem_range]
        intro x hx
        simp [ha (x + 1) (by omega)]
      · rw [ha 0 (by omega)]
        dsimp only
        rw [if_pos]
        simp only [List.all_map, List.all_eq_true, List.mem_range]
        intro x hx
        simp [ha (x + 1) (by omega)]
      · have key : ∃ x, x < n ∧ f (x + 1) ≠ f 0 := by
          by_contra hc
          push Not at hc
          have all : ∀ x, x < n + 1 → f x = f 0 := by
            intro x hx
            cases x with
            | zero => rfl
            | succ x => exact hc x (by omega)
          exact hne ((all i hi).trans (all j hj).symm)
        obtain ⟨x, hx, hxe⟩ := key
        cases h0 : f 0 with
        | none =>
          dsimp only
          rw [if_neg]
          simp only [List.all_map, List.all_eq_true, List.mem_range]
          intro hall
          exact hxe (by rw [h0]; simpa using hall x hx)
        | some w =>
          dsimp only
          rw [if_neg]
          simp only [List.all_map, List.all_eq_true, List.mem_range]
          intro hall
          exact hxe (by rw [h0]; simpa using hall x hx)

/-- The class of a request that lies in one window (R137, R140, R159). -/
theorem classify_inside (s : State) (q : Request) (w : Window) (h : placementIn s.activeTable q = .inside w) :
    (classifyIn w (s.role q.master) q ≠ .takeCommand → classify s q = classifyIn w (s.role q.master) q) ∧
    (classifyIn w (s.role q.master) q = .takeCommand →
      classify s q = if s.resultWaits && s.ports.locks.contains q.master then .refuse .lock else .takeCommand) := by
  unfold classify
  rw [h]
  dsimp only
  generalize classifyIn w (s.role q.master) q = c
  constructor
  · intro hc
    cases c <;> first | rfl | exact absurd rfl hc
  · rintro rfl
    rfl

/-! ### The copy to the table in force (R17, R143) -/

/-- A load reads descriptors, or it does not. -/
theorem loading_or (s : State) : s.notLoading ∨ ∃ c setup staged k r late,
    s.channel.inFlight = some { cmd := c, phase := .readingDescriptors setup staged k r late } := by
  by_cases h : s.notLoading
  · exact .inl h
  · right
    unfold State.notLoading at h
    push Not at h
    obtain ⟨f, setup, staged, k, r, late, e, p⟩ := h
    exact ⟨f.cmd, setup, staged, k, r, late, by rw [e, ← p]⟩

theorem loading_of {s : State} {c setup staged k r late}
    (h : s.channel.inFlight = some { cmd := c, phase := .readingDescriptors setup staged k r late }) : ¬ s.notLoading :=
  fun g => g _ _ _ _ _ _ h rfl

theorem notLoading_of_reading {s : State} {c r n failed late x}
    (h : s.channel.inFlight = some { cmd := c, phase := .relocationReading r n failed late x }) : s.notLoading := by
  intro f setup staged k q ls e p
  rw [h] at e
  cases e
  cases p

theorem inForce_notLoading (s : State) (q : Request) (h : s.notLoading) : inForceDescriptor s q = none := by
  unfold inForceDescriptor
  split
  · rename_i e; exact absurd rfl (h _ _ _ _ _ _ e)
  · rfl

theorem inForce_loading (s : State) (q : Request) (h : ¬ s.notLoading) : inForceDescriptor s q =
    if q.dir = .write ∧ s.role q.master = .controller then
      match placementIn s.windows q with
      | .inside w => if w.kind = .descriptor then w.sector.map fun k => (w, k) else none
      | .outside => none
      | .split => none
    else none := by
  obtain ⟨c, setup, staged, k, r, late, e⟩ := (loading_or s).resolve_left h
  unfold inForceDescriptor
  rw [e]
  all_goals rfl

/-- It depends on whether a load reads descriptors, the table in force and the role map. -/
theorem inForce_congr {s t : State} (q : Request) (h : t.notLoading ↔ s.notLoading) (hw : t.windows = s.windows)
    (hr : t.roles = s.roles) : inForceDescriptor t q = inForceDescriptor s q := by
  by_cases g : s.notLoading
  · rw [inForce_notLoading s q g, inForce_notLoading t q (h.2 g)]
  · rw [inForce_loading s q g, inForce_loading t q (fun x => g (h.1 x)), hw,
      show t.role q.master = s.role q.master by unfold State.role; rw [hr]]

theorem copyInForce_none {q : Request} {s : State} (h : inForceDescriptor s q = none) : copyInForce q s = s := by
  unfold copyInForce; rw [h]

theorem copyInForce_some {q : Request} {s : State} {w : Window} {k : SectorNo} (h : inForceDescriptor s q = some (w, k)) :
    copyInForce q s = copyBeats (changeDescriptor k) w q.lanes (alignBeat q.addr) q.data s := by
  unfold copyInForce; rw [h]

theorem notLoading_of_inFlight {s t : State} (h : t.channel.inFlight = s.channel.inFlight) :
    t.notLoading ↔ s.notLoading := by unfold State.notLoading; rw [h]

theorem setPhase_of {s : State} {f : InFlight} (p : Phase) (h : s.channel.inFlight = some f) :
    setPhase p s = { s with channel := { s.channel with inFlight := some { f with phase := p } } } := by
  unfold setPhase; rw [h]

/-- A descriptor copy goes to the entry, the staged entry or the writes kept for later: whether a load reads descriptors, the
table and the role map are kept. -/
theorem copyDescriptor_kept (k : SectorNo) (r : RemoteNo) (lanes : Lanes) (b : Beat) (s : State) :
    ((copyDescriptor k r lanes b s).notLoading ↔ s.notLoading) ∧ (copyDescriptor k r lanes b s).windows = s.windows ∧
      (copyDescriptor k r lanes b s).roles = s.roles := by
  have change : ((changeDescriptor k r lanes b s).notLoading ↔ s.notLoading) ∧
      (changeDescriptor k r lanes b s).windows = s.windows ∧ (changeDescriptor k r lanes b s).roles = s.roles :=
    have l := local_changeDescriptor k r lanes b s
    ⟨notLoading_of_inFlight (by rw [l.channel]), l.dev.windows, l.dev.roles⟩
  have same : (s.notLoading ↔ s.notLoading) ∧ s.windows = s.windows ∧ s.roles = s.roles := ⟨.rfl, rfl, rfl⟩
  unfold copyDescriptor
  split
  · rename_i c q n failed late cancel h
    split
    · unfold copyInReadPhase
      split
      · exact same
      · rw [setPhase_of _ h]
        exact ⟨iff_of_true (notLoading_of_reading rfl) (notLoading_of_reading h), rfl, rfl⟩
      · exact change
    · exact change
  · rename_i setup staged j q late c h
    unfold copyToStaged
    split
    · exact same
    · rw [setPhase_of _ h]
      exact ⟨iff_of_false (loading_of rfl) (loading_of h), rfl, rfl⟩
    · rw [setPhase_of _ h]
      exact ⟨iff_of_false (loading_of rfl) (loading_of h), rfl, rfl⟩
  · exact change

theorem copyBeats_kept (k : SectorNo) (w : Window) (lanes : Lanes) : ∀ (data : List Beat) (a : Addr) (s : State),
    let t := copyBeats (copyDescriptor k) w lanes a data s
    (t.notLoading ↔ s.notLoading) ∧ t.windows = s.windows ∧ t.roles = s.roles
  | [], _, _ => ⟨.rfl, rfl, rfl⟩
  | b :: data, a, s => by
    have one := copyDescriptor_kept k (remoteAt w a) lanes b s
    have ih := copyBeats_kept k w lanes data (a + 8) (copyDescriptor k (remoteAt w a) lanes b s)
    exact ⟨ih.1.trans one.1, ih.2.1.trans one.2.1, ih.2.2.trans one.2.2⟩

/-- The staged entries after one is changed. -/
theorem modStaged_get (staged : Vector (Vector StagedEntry 128) 4) (k j : SectorNo) (r q : RemoteNo)
    (f : StagedEntry → StagedEntry) :
    ((modStaged k r f staged)[j])[q] = if (j, q) = (k, r) then f (staged[k])[r] else (staged[j])[q] := by
  unfold modStaged
  by_cases hj : j = k
  · subst hj
    rw [vector_getElem_set_self]
    by_cases hq : q = r
    · subst hq; rw [vector_getElem_set_self, if_pos rfl]
    · rw [vector_getElem_set_of_ne _ hq, if_neg (by simp [hq])]
  · rw [vector_getElem_set_of_ne _ hj, if_neg (by simp [hj])]

end Sys2Proof.Machine
end

