-- ==== Sys2Proof/Laws/Reads.lean ====
section
/-! SUPPORT. What the first read of a map record comes to (R84, R86 to R91): where it is decided, and what filling a slot from
the roster does to the entries. -/

namespace Sys2Proof.Machine

/-- A first read in an ACTIVE sector that is not suspended is decided by the raw record. -/
theorem takeRecord_undecided (k : SectorNo) (p : Plan) (slot : Nat) (b : Beat) (s : State)
    (hm : (s.sector k).mode = .active) (hs : (s.sector k).suspended = false)
    (hp : (s.sector k).history.getLast? = some p) (hd : p.slots[slot]? = some none) :
    takeRecord k p.buffer slot b s = decideActive k p slot b s := by
  unfold takeRecord Sector.newest
  rw [hp]
  dsimp only
  rw [if_pos ⟨hs, rfl, by unfold Plan.count; exact (List.getElem?_eq_some_iff.mp hd).1⟩]
  unfold takeRecordIn
  rw [hm]
  dsimp only
  rw [hd]

/-- Placing the occupants of a slot leaves each of them PROBING and every other entry as it was (R28). -/
theorem placeAll_entry (k : SectorNo) (q : RemoteNo) : ∀ (os : List Occupant) (s : State),
    ((∃ o ∈ os, o.member.remote = q) → ((os.foldl (placeOne k) s).entry k q).state = .probing) ∧
    ((∀ o ∈ os, o.member.remote ≠ q) → (os.foldl (placeOne k) s).entry k q = s.entry k q)
  | [], s => ⟨fun ⟨_, h, _⟩ => by simp at h, fun _ => rfl⟩
  | o :: os, s => by
    have ih := placeAll_entry k q os (placeOne k s o)
    have one : (placeOne k s o).entry k q = _ := stepTo_entry k o.member.remote q .probing _ id s
    rw [List.foldl_cons]
    refine ⟨fun ⟨p, hp, e⟩ => ?_, fun h => ?_⟩
    · by_cases h : ∃ p' ∈ os, p'.member.remote = q
      · exact ih.1 h
      · rw [ih.2 (fun a b c => h ⟨a, b, c⟩), one]
        rcases List.mem_cons.mp hp with rfl | hp
        · rw [if_pos e.symm]
          rfl
        · exact absurd ⟨p, hp, e⟩ h
    · rw [ih.2 (fun a b => h a (List.mem_cons_of_mem _ b)), one, if_neg (fun e => h o List.mem_cons_self e.symm)]

/-- The entries after a slot is filled. -/
theorem decideProbe_entry (k : SectorNo) (f : Frame) (slot : Nat) (s : State) (q : RemoteNo) :
    ((∃ o ∈ (s.sector k).roster.supply, o.member.remote = q) →
      ((decideProbe k f slot s).state.entry k q).state = .probing) ∧
    ((∀ o ∈ (s.sector k).roster.supply, o.member.remote ≠ q) →
      (decideProbe k f slot s).state.entry k q = s.entry k q) := by
  have h := placeAll_entry k q (s.sector k).roster.supply
    (modSector k (fun x => { x with roster := x.roster.take (s.sector k).roster.supply }) s)
  unfold decideProbe decideSlot storeDecision
  simp only [State.entry, sector_modSector_self] at h ⊢
  exact h

/-- The newest plan is of frame f and its record of a slot is not decided. -/
def Undecided (slot : Nat) (f : Frame) (x : Sector) : Prop :=
  ∃ p, x.history.getLast? = some p ∧ p.frame = f ∧ p.slots[slot]? = some none

theorem leaveState_history (r : RemoteNo) (old : RState) (placed : Bool) (x : Sector) :
    (leaveState r old placed x).history = x.history := by
  unfold leaveState
  split
  · unfold stampsIfEmptied
    split <;> (split <;> rfl)
  · rfl
  · rfl

theorem leaveState_placed_roster (r : RemoteNo) (old : RState) (x : Sector) :
    (leaveState r old true x).roster = x.roster := by
  unfold leaveState
  split
  · rw [if_pos rfl]
    unfold stampsIfEmptied
    split <;> rfl
  · rfl
  · rfl

/-- Placing an occupant leaves the roster, and an undecided record undecided. -/
theorem placeOne_kept (k : SectorNo) (s : State) (o : Occupant) (slot : Nat) (f : Frame) :
    ((placeOne k s o).sector k).roster = (s.sector k).roster ∧
      (Undecided slot f (s.sector k) → Undecided slot f ((placeOne k s o).sector k)) := by
  unfold placeOne stepTo
  obtain ⟨ep, h⟩ := remoteStep_sector k o.member.remote { StepInfo.plain .placed with placed := true }
    ((id (s.entry k o.member.remote)).enter .probing (s.params k).restart (s.params k).attemptsLimit) s
  dsimp only
  rw [h]
  unfold applyStep
  dsimp only
  split
  · exact ⟨rfl, id⟩
  · unfold Undecided voidFor enterRanging
    dsimp only
    rw [if_neg (by rw [enter_state]; decide), leaveState_placed_roster, leaveState_history]
    refine ⟨rfl, fun ⟨p, a, b, c⟩ => ⟨p.mapWatches _, by rw [List.getLast?_map]; exact congrArg _ a, b, ?_⟩⟩
    unfold Plan.mapWatches
    simp [c]

theorem placeAll_kept (k : SectorNo) (slot : Nat) (f : Frame) : ∀ (os : List Occupant) (s : State),
    ((os.foldl (placeOne k) s).sector k).roster = (s.sector k).roster ∧
      (Undecided slot f (s.sector k) → Undecided slot f ((os.foldl (placeOne k) s).sector k))
  | [], _ => ⟨rfl, id⟩
  | o :: os, s =>
    have one := placeOne_kept k s o slot f
    have rest := placeAll_kept k slot f os (placeOne k s o)
    ⟨rest.1.trans one.1, fun h => rest.2 (one.2 h)⟩

end Sys2Proof.Machine
end

