-- ==== Sys2Proof/Laws/Service.lean ====
section
/-! SUPPORT. The entries of a sector after a pass over its remotes: the deferred admin values taken (R15), and every remote
brought to service (R147). -/

namespace Sys2Proof.Machine

/-! ### A pass over the remotes -/

/-- A pass whose step for a remote relates its entry by `G` and every other entry by `K` relates each entry of the remotes
passed by `G`, and every other by `K`. -/
theorem forRemotes_entries {k : SectorNo} {f : RemoteNo → State → State} {K G : Entry → Entry → Prop}
    (refl : ∀ e, K e e) (KK : ∀ a b c, K a b → K b c → K a c) (KG : ∀ a b c, K a b → G b c → G a c)
    (GK : ∀ a b c, G a b → K b c → G a c)
    (other : ∀ r s q, q ≠ r → K (s.entry k q) ((f r s).entry k q)) (own : ∀ r s, G (s.entry k r) ((f r s).entry k r)) :
    ∀ (rs : List RemoteNo), rs.Nodup → ∀ (s : State) (q : RemoteNo),
      (q ∈ rs → G (s.entry k q) ((forRemotes rs f s).entry k q)) ∧
      (q ∉ rs → K (s.entry k q) ((forRemotes rs f s).entry k q))
  | [], _, _, _ => ⟨fun h => absurd h (by simp), fun _ => refl _⟩
  | r :: rs, nd, s, q => by
    obtain ⟨a, b⟩ := forRemotes_entries refl KK KG GK other own rs nd.of_cons (f r s) q
    refine ⟨fun h => ?_, fun h => ?_⟩
    · by_cases e : q = r
      · subst e
        exact GK _ _ _ (own q s) (b (List.nodup_cons.mp nd).1)
      · exact KG _ _ _ (other r s q e) (a ((List.mem_cons.mp h).resolve_left e))
    · rw [List.mem_cons, not_or] at h
      exact KK _ _ _ (other r s q h.1) (b h.2)

theorem remotes_nodup : remotes.Nodup := List.nodup_finRange _

theorem mem_remotes (r : RemoteNo) : r ∈ remotes := List.mem_finRange r

theorem entry_of_entries {k : SectorNo} {s t : State} (q : RemoteNo) (h : (t.sector k).entries = (s.sector k).entries) :
    t.entry k q = s.entry k q := by
  unfold State.entry Sector.entry
  rw [h]

theorem modEntry_entry (k : SectorNo) (r q : RemoteNo) (f : Entry → Entry) (s : State) :
    (modEntry k r f s).entry k q = if q = r then f (s.entry k r) else s.entry k q := by
  unfold modEntry State.entry
  rw [sector_modSector_self, entry_setEntry]

theorem setDeferred_entry (k : SectorNo) (r q : RemoteNo) (d : Option Bool) (s : State) :
    (setDeferred k r d s).entry k q = if q = r then { s.entry k r with deferred := d } else s.entry k q := by
  unfold setDeferred
  dsimp only
  split <;> exact modEntry_entry k r q (fun e => { e with deferred := d }) s

/-! ### Every remote to service -/

/-- An entry brought to service by its admin, or as it was where it stood so. -/
def Entry.served (e : Entry) : Entry :=
  if e.state = serviceState e ∧ e.profile = e.ceiling then e else e.serviceAs (serviceState e)

theorem toService_entry (cause : StateCause) (k : SectorNo) (r q : RemoteNo) (s : State) :
    (toService cause k r s).entry k q = if q = r then (s.entry k r).served else s.entry k q := by
  unfold toService Entry.served
  dsimp only
  split
  · split
    · rename_i h; rw [h]
    · rfl
  · rw [stepTo_entry]
    split
    · unfold serviceState
      split <;> simp [Entry.enter, Entry.serviceAs, fadedAtAfter, RState.inService]
    · rfl

/-- The entries after every remote is brought to service. -/
theorem allToService_entry (cause : StateCause) (k : SectorNo) (s : State) (q : RemoteNo) :
    (forRemotes remotes (toService cause k) s).entry k q = (s.entry k q).served := by
  refine (forRemotes_entries (k := k) (K := fun a b => b = a) (G := fun a b => b = a.served) (fun _ => rfl) ?_ ?_ ?_
    (fun r s q h => by rw [toService_entry, if_neg h]) (fun r s => by rw [toService_entry, if_pos rfl]) remotes remotes_nodup
    s q).1 (mem_remotes q)
  · rintro a b c rfl rfl; rfl
  · rintro a b c rfl rfl; rfl
  · rintro a b c rfl rfl; rfl

/-! ### The deferred admin values -/

/-- An entry after its deferred value is taken: none is left; where it changes admin the entry is that of a remote stepped by
an admin change, which agrees with the old one in all that a step to service keeps. The stamp may be another. -/
def Deferral (e e1 : Entry) : Prop := ∃ o,
  (e.deferred = none → e1 = { e with order := o }) ∧
  ∀ v, e.deferred = some v →
    (v = e.admin → e1 = { e with deferred := none, order := o }) ∧
    (v ≠ e.admin → e1.admin = v ∧
      (∀ st, e1.serviceAs st = { e with admin := v, deferred := none, order := o }.serviceAs st) ∧
      (e1.state = serviceState e1 → e1 = e1.serviceAs (serviceState e1)))

theorem takeAdmin_other (info : StateCause → StepInfo) (k : SectorNo) (r q : RemoteNo) (v : Bool) (s : State)
    (h : q ≠ r) : ∃ o, (takeAdmin info k r v s).entry k q = { s.entry k q with order := o } := by
  unfold takeAdmin adminOn adminOff
  split
  · exact ⟨_, rfl⟩
  split
  · split
    · rw [toQueueTail_entry _ _ _ _ _ _ _ rfl, if_neg h]
      exact readyTail_entry _ _
    all_goals
      rw [stepTo_entry, if_neg h]
      exact ⟨_, rfl⟩
  · rw [stepTo_entry, if_neg h]
    exact ⟨_, rfl⟩

theorem takeAdmin_own (info : StateCause → StepInfo) (k : SectorNo) (r : RemoteNo) (v : Bool) (s : State)
    (h : v ≠ (s.entry k r).admin) :
    let e := (takeAdmin info k r v s).entry k r
    ∃ o, e.admin = v ∧ (∀ st, e.serviceAs st = { s.entry k r with admin := v, order := o }.serviceAs st) ∧
      (e.state = serviceState e → e = e.serviceAs (serviceState e)) := by
  unfold takeAdmin adminOn adminOff
  rw [if_neg h]
  cases v
  · simp only [Bool.false_eq_true, if_false, stepTo_entry, if_true]
    exact ⟨(s.entry k r).order, rfl, fun _ => rfl, fun _ => rfl⟩
  · simp only [if_true]
    cases (s.sector k).mode
    · simp only [stepTo_entry, if_true]
      exact ⟨(s.entry k r).order, rfl, fun _ => rfl, fun _ => rfl⟩
    · simp only [stepTo_entry, if_true]
      exact ⟨(s.entry k r).order, rfl, fun _ => rfl, fun _ => rfl⟩
    · simp only
      rw [toQueueTail_entry _ _ _ _ _ _ _ rfl, if_pos rfl]
      obtain ⟨o, ho⟩ := readyTail_entry (s.sector k) r
      rw [ho]
      exact ⟨(readyTail (s.sector k)).nextTail, rfl, fun _ => rfl,
        fun g => by simp [Entry.enter, serviceState] at g⟩

theorem takeDeferred_other (info : StateCause → StepInfo) (k : SectorNo) (r : RemoteNo) (s : State) (q : RemoteNo)
    (h : q ≠ r) : ∃ o, (takeDeferred info k r s).entry k q = { s.entry k q with order := o } := by
  unfold takeDeferred
  split
  · rw [setDeferred_entry, if_neg h]; exact takeAdmin_other _ _ _ _ _ _ h
  · exact ⟨_, rfl⟩

theorem takeDeferred_own (info : StateCause → StepInfo) (k : SectorNo) (r : RemoteNo) (s : State) :
    Deferral (s.entry k r) ((takeDeferred info k r s).entry k r) := by
  unfold takeDeferred Deferral
  cases hd : (s.entry k r).deferred with
  | none =>
    refine ⟨(s.entry k r).order, fun _ => ?_, fun v h => absurd h (by simp)⟩
    dsimp only
    rw [← hd]
  | some v =>
    dsimp only
    rw [setDeferred_entry, if_pos rfl]
    by_cases e : v = (s.entry k r).admin
    · have : takeAdmin info k r v s = s := by unfold takeAdmin; rw [if_pos e]
      rw [this]
      refine ⟨(s.entry k r).order, fun h => absurd h (by simp), fun w h => ?_⟩
      cases h
      exact ⟨fun _ => rfl, fun g => absurd e g⟩
    · obtain ⟨o, a, b, c⟩ := takeAdmin_own info k r v s e
      refine ⟨o, fun h => absurd h (by simp), fun w h => ?_⟩
      cases h
      exact ⟨fun g => absurd g e, fun _ => ⟨a, fun st => congrArg (fun x : Entry => { x with deferred := none }) (b st),
        fun g => congrArg (fun x : Entry => { x with deferred := none }) (c g)⟩⟩

/-- The entries after every deferred value is taken. -/
theorem takeAllDeferred_entry (info : StateCause → StepInfo) (k : SectorNo) (s : State) (q : RemoteNo) :
    Deferral (s.entry k q) ((takeAllDeferred info k s).entry k q) := by
  refine (forRemotes_entries (k := k) (K := fun a b => ∃ o, b = { a with order := o }) (G := Deferral) (fun _ => ⟨_, rfl⟩)
    ?_ ?_ ?_ (takeDeferred_other info k) (takeDeferred_own info k) remotes remotes_nodup s q).1 (mem_remotes q)
  · rintro a b c ⟨o, rfl⟩ ⟨p, rfl⟩; exact ⟨p, rfl⟩
  · rintro a b c ⟨o, rfl⟩ ⟨p, h⟩; exact ⟨p, h⟩
  · rintro a b c ⟨p, h, g⟩ ⟨o, rfl⟩
    refine ⟨o, fun n => by rw [h n], fun v hv => ⟨fun e => by rw [(g v hv).1 e], fun e => ?_⟩⟩
    obtain ⟨g1, g2, g3⟩ := (g v hv).2 e
    exact ⟨g1, fun st => congrArg (fun x : Entry => { x with order := o }) (g2 st),
      fun q => congrArg (fun x : Entry => { x with order := o }) (g3 q)⟩

end Sys2Proof.Machine
end

