-- ==== Sys2Proof/Tests/Slice0.lean ====
section
/-! SUPPORT. The model's own tests: the checks of WellFormed on ill-formed commands, one or two small steps of each command
on states built here, worked examples of the manual, and for each statement that has hypotheses a state that meets them. -/

namespace Sys2Proof.Machine.Tests

set_option Elab.async false

/-! ### Small states -/

/-- The state after a command, or the state before it where the command stops. -/
def after (c : Instr) (s : State) : State :=
  match exec c s with
  | .next t => t
  | .fault _ => s
  | .refused _ => s

/-- Whether a command answers a next state. -/
def runs (c : Instr) (s : State) : Bool :=
  match exec c s with
  | .next _ => true
  | .fault _ => false
  | .refused _ => false

/-- The fault of a command. -/
def faultOf (c : Instr) (s : State) : Option Fault :=
  match exec c s with
  | .next _ => none
  | .fault f => some f
  | .refused _ => none

/-- A part whose sector k is configured and stands as given. -/
def part (k : SectorNo) (x : Sector) : State :=
  { State.reset with
    store := { State.reset.store with
      profiles := (List.range 12).map fun (p : Nat) => { enter := 4 * (p : Int) + 4, exit := 4 * (p : Int) }
      sectors := State.reset.store.sectors.set k.val { configured := true, params := Params.default } k.isLt }
    sectors := State.reset.sectors.set k.val x k.isLt }

/-- A sector in a mode with one remote's entry given. -/
def sectorWith (m : Mode) (r : RemoteNo) (e : Entry) : Sector := { Sector.reset with mode := m }.setEntry r e

/-- An entry of a remote that is ON with ceiling 7, in a state and at a profile. -/
def entryIn (st : RState) (profile : Nat) : Entry :=
  { Entry.reset with admin := true, ceiling := 7, cls := 2, state := st, profile := profile }

/-- A full-width command word write by master 0. -/
def word (sector remote tag : Byte) (arg : Half) : CommandWrite :=
  { master := 0, lock := false, low := 0, lanes := 0xFF, sector := sector, remote := remote, tag := tag, arg := arg,
    spare := 0 }

/-- The result the pending result word holds: its tag, code and detail. -/
def resultIs (t : State) (tag : Byte) (code : ResultCode) (detail : Half) : Bool :=
  match t.writer.pendingResult with
  | some r => r.tag == tag && r.result == code && r.detail == detail
  | none => false

/-- The states of the STATE records queued, with cause. -/
def stepsOf (t : State) : List (StateCause × RemoteNo × RState) :=
  t.writer.queue.filterMap fun rec =>
    match rec.body with
    | .state c r _ st _ _ _ => some (c, r, st)
    | _ => none


/-! ### WellFormed refuses ill-formed commands -/

/-- A single-beat request by master m. -/
def request (m : MasterNo) (dir : Dir) (addr : Addr) : Request :=
  { master := m, dir := dir, addr := addr, beats := 1, lanes := 0xFF, lock := false,
    data := match dir with
      | .read => []
      | .write => [0] }

theorem test_wellformed_no_beats :
    (Instr.passThroughRequest (.new { request 0 .read 0 with beats := 0 })).wellFormed = false := by decide
theorem test_wellformed_nine_beats :
    (Instr.mapRead (.new { request 0 .read 0 with beats := 9 })).wellFormed = false := by decide
theorem test_wellformed_no_lane :
    (Instr.passThroughRequest (.new { request 0 .read 0 with lanes := 0 })).wellFormed = false := by decide
theorem test_wellformed_part_lanes_of_two_beats :
    (Instr.passThroughRequest (.new { request 0 .read 0 with beats := 2, lanes := 0x0F })).wellFormed = false := by
  decide
theorem test_wellformed_write_without_data :
    (Instr.descriptorWrite (.stalled { request 0 .write 0 with data := [] })).wellFormed = false := by decide
theorem test_wellformed_read_with_data :
    (Instr.passThroughRequest (.new { request 0 .read 0 with data := [0] })).wellFormed = false := by decide
theorem test_wellformed_command_word_no_lane :
    (Instr.hold (.new { word 0 0 0 0 with lanes := 0 })).wellFormed = false := by decide
theorem test_wellformed_marker_no_lane :
    (Instr.markerWord (.new { master := 0, lock := false, low := 0, lanes := 0, word := 0 })).wellFormed = false := by
  decide
theorem test_wellformed_reply_too_long :
    (Instr.memoryResponse 0 { error := false, data := List.replicate 9 0 }).wellFormed = false := by decide
theorem test_wellformed_code_that_names_a_command :
    (Instr.codeNamingNoCommand 0x04 (.new (word 0 0 0 0))).wellFormed = false := by decide
theorem test_wellformed_accepts :
    (Instr.passThroughRequest (.new (request 0 .read 0))).wellFormed = true ∧
    (Instr.codeNamingNoCommand 0x0E (.new (word 0 0 0 0))).wellFormed = true ∧
    (Instr.absorbedWrite (.waiting 3)).wellFormed = true := by decide

/-! ### Reset, time, timeout -/

theorem test_power_on_reset_samples_straps :
    (after (.powerOnReset 0xFF) (part 2 (sectorWith .active 5 (entryIn .serving 7)))).channel.anchorBase.toNat =
      16711680 := by decide +kernel

theorem test_time_base_wraps : (after .timeBaseAdvance { State.reset with time := 0xFFFFFFFF }).time = 0 := by
  decide +kernel

/-- A command in flight, in a phase. -/
def flying (code tag sector : Byte) (p : Phase) (s : State) : State :=
  { s with channel := { s.channel with
      inFlight := some { cmd := { code := code, sector := sector, remote := 0, tag := tag, arg := 0 }, phase := p } } }

/-- An ACTIVE sector 0 with a change to SHADOW pending, tag 21h, due at 7020 (9.9). -/
def pendingShadow : State :=
  flying 2 0x21 0 (.modePending 7020 false)
    { part 0 { Sector.reset with mode := .active, pendingOp := some (.modeChange .shadow) } with time := 7019 }

theorem test_timeout_not_due : after .commandTimeout pendingShadow = pendingShadow := by decide +kernel

theorem test_timeout_due :
    let t := after .commandTimeout (after .timeBaseAdvance pendingShadow)
    resultIs t 0x21 .timeout 2 ∧ (t.sector 0).pendingOp = none ∧ (t.sector 0).mode = .active := by decide +kernel

/-! ### The command word -/

theorem test_load_config_reads_the_area :
    (after (.loadConfig (.new (word 0 0 1 0))) State.reset).channel.read = some (.config 0) := by decide +kernel

theorem test_load_config_outside_pass :
    resultIs (after (.loadConfig (.new (word 0 0 1 0))) (part 3 { Sector.reset with mode := .shadow })) 1 .state 0 := by
  decide +kernel

theorem test_set_mode_pending :
    let t := after (.setMode (.new (word 0 0 1 2))) (part 0 Sector.reset)
    (t.sector 0).pendingOp = some (.modeChange .active) ∧ t.writer.pendingResult = none := by decide +kernel

theorem test_set_mode_pass :
    let t := after (.setMode (.new (word 0 0 1 0))) (part 0 (sectorWith .active 9 (entryIn .climbing 2)))
    resultIs t 1 .done 0 ∧ (t.entry 0 9).state = .serving ∧ (t.entry 0 9).profile = 7 := by decide +kernel

theorem test_set_tune_stages :
    let t := after (.setTune (.new (word 0 0x12 1 63))) (part 0 Sector.reset)
    resultIs t 1 .done 63 ∧ (t.sector 0).staged.mask = some 0x3F ∧ (t.sector 0).tunables = Tunables.default := by
  decide +kernel

theorem test_set_tune_out_of_range :
    resultIs (after (.setTune (.new (word 0 0x14 1 65))) (part 0 Sector.reset)) 1 .invalid 2 ∧
    resultIs (after (.setTune (.new (word 0 0x0E 1 1))) (part 0 Sector.reset)) 1 .invalid 1 := by decide +kernel

theorem test_hold_serving :
    let t := after (.hold (.new (word 0 5 9 0))) (part 0 (sectorWith .active 5 (entryIn .serving 7)))
    resultIs t 9 .done 7 ∧ (t.entry 0 5).state = .held ∧ (t.entry 0 5).fadedAt = some 0 ∧
      stepsOf t = [(.hold, 5, .held)] := by decide +kernel

theorem test_hold_in_shadow :
    resultIs (after (.hold (.new (word 0 5 9 0))) (part 0 (sectorWith .shadow 5 (entryIn .serving 7)))) 9 .state 1 := by
  decide +kernel

theorem test_release_to_tail :
    let t := after (.release (.new (word 0 5 9 0)))
      (part 0 (sectorWith .active 5 { entryIn .held 7 with attempts := 3, fadedAt := some 1 }))
    resultIs t 9 .done 3 ∧ (t.sector 0).queue = [5] ∧ (t.entry 0 5).order = 32768 ∧ (t.entry 0 5).attempts = 0 ∧
      (t.sector 0).nextTail = 32769 := by decide +kernel

theorem test_rearm_to_tail :
    let t := after (.rearm (.new (word 0 5 9 0)))
      (part 0 (sectorWith .active 5 { entryIn .excluded 7 with attempts := 6 }))
    resultIs t 9 .done 3 ∧ (t.sector 0).queue = [5] ∧ (t.sector 0).n = 1 := by decide +kernel

theorem test_force_fade :
    let t := after (.forceFade (.new (word 0 5 9 0))) (part 0 (sectorWith .active 5 (entryIn .serving 7)))
    resultIs t 9 .done 2 ∧ (t.entry 0 5).backoff = 4 ∧ (t.entry 0 5).attempts = 0 ∧ (t.sector 0).n = 1 := by
  decide +kernel

theorem test_suspend :
    let t := after (.suspend (.new (word 0 0 9 0))) (part 0 { Sector.reset with mode := .shadow })
    resultIs t 9 .done 0 ∧ (t.sector 0).suspended = true := by decide +kernel

theorem test_suspend_in_pass :
    resultIs (after (.suspend (.new (word 0 0 9 0))) (part 0 Sector.reset)) 9 .state 0 := by decide +kernel

theorem test_resume_takes_deferred :
    let x := { sectorWith .active 37 { entryIn .serving 7 with deferred := some false } with suspended := true }
    let t := after (.resume (.new (word 0 0 9 0))) (part 0 x)
    resultIs t 9 .done 0 ∧ (t.entry 0 37).state = .idle ∧ (t.sector 0).resyncPending = true ∧
      stepsOf t = [(.adminOff, 37, .idle)] := by decide +kernel

theorem test_reset_sector :
    let x := { sectorWith .active 9 { entryIn .probing 0 with attempts := 2 } with framesSeen := 7 }
    let t := after (.resetSector (.new (word 0 0 9 0))) (part 0 x)
    resultIs t 9 .done 0 ∧ (t.entry 0 9).state = .serving ∧ (t.entry 0 9).attempts = 0 ∧
      (t.sector 0).framesSeen = 0 ∧ (t.sector 0).mode = .active := by decide +kernel

theorem test_relocate_reads_staging :
    (after (.relocate (.new (word 0 0 9 1))) (part 0 Sector.reset)).channel.read = some (.staging 0 .report) ∧
    resultIs (after (.relocate (.new (word 0 0 9 3))) (part 0 Sector.reset)) 9 .invalid 1 := by decide +kernel

theorem test_ack_notice :
    let s := { State.reset with notices := { State.reset.notices with pending := 0x48 } }
    let t := after (.ackNotice (.new (word 0 0 9 0x41))) s
    resultIs t 9 .done 0x40 ∧ t.notices.pending = 0x08 ∧ t.notice = true := by decide +kernel

theorem test_ack_notice_high_bits :
    resultIs (after (.ackNotice (.new (word 0 0 9 0x100))) State.reset) 9 .invalid 1 := by decide +kernel

theorem test_cancel_nothing :
    resultIs (after (.cancel (.new (word 0 0 9 0))) State.reset) 9 .nothing 0 := by decide +kernel

/-- The CANCEL of 9.9: CANCELLED for tag 21h, then DONE for tag 23h. -/
theorem test_cancel_pending_mode :
    let t := after (.cancel (.new (word 0 0 0x23 0))) pendingShadow
    let u := after .resultHandoff (after .outboundWriteFormed t)
    resultIs t 0x21 .cancelled 2 ∧ (t.sector 0).pendingOp = none ∧ resultIs u 0x23 .done 0 ∧
      u.writer.queue.length = 2 := by decide +kernel

theorem test_unknown_code :
    resultIs (after (.codeNamingNoCommand 0x0E (.new (word 0 0 9 0))) State.reset) 9 .invalid 0xF002 := by
  decide +kernel

/-- The HOLD of 9.9 is absorbed and answered BUSY. -/
theorem test_busy :
    let t := after (.hold (.new (word 0 9 0x22 0))) pendingShadow
    resultIs t 0x22 .busy 0 ∧ t.ports.returned = [(0, { error := false, data := [] })] ∧
      t.channel = pendingShadow.channel := by decide +kernel

theorem test_partial_word :
    resultIs (after (.hold (.new { word 0 9 0x22 0 with lanes := 0x07 })) State.reset) 0 .invalid 0xF001 := by
  decide +kernel

/-! ### Tail and marker words -/

/-- A full-width word write by master 0. -/
def tailWord (w : Beat) : WordWrite := { master := 0, lock := false, low := 0, lanes := 0xFF, word := w }

/-- The ring of 10.8: k = 6, head 8, tail 9, next sequence number 500. -/
def fullRing : State :=
  { State.reset with writer := { State.reset.writer with
      log := some { base := 0x1000000, k := 6 }, head := 8, tail := 9, seq := 500
      queue := List.replicate 3 { time := 0, sector := none, frame := none, body := .tail .order 0 } } }

theorem test_tail_word_accepted :
    (after (.logTailWord (.new (tailWord 20))) fullRing).writer.tail = 9 + 11 ∧
    (after (.logTailWord (.new (tailWord 8))) fullRing).writer.tail = 8 := by decide +kernel

theorem test_tail_word_range :
    let t := after (.logTailWord (.new (tailWord 64))) fullRing
    t.writer.tail = 9 ∧ (t.writer.queue.map LogRecord.body).getLast? = some (.tail .range 64) := by decide +kernel

theorem test_marker_masks_lanes :
    let t := after (.markerWord (.new { tailWord 0x1122334455667788 with lanes := 0x81 })) State.reset
    t.writer.queue.map LogRecord.body = [.marker 0x81 0x1100000000000088] ∧ t.notices.pending = 0 := by
  decide +kernel

/-! ### The outbound writer: the full ring of 10.8 -/

theorem test_full_ring_discards :
    let t := after .outboundWriteFormed fullRing
    t.writer.queue = [] ∧ t.writer.skips = 3 ∧ t.writer.seq = 503 ∧ t.writer.head = 8 := by decide +kernel

theorem test_overflow_record :
    let t := after .outboundWriteFormed
      (after (.logTailWord (.new (tailWord 20))) (after .outboundWriteFormed fullRing))
    t.writer.skips = 0 ∧ t.writer.seq = 504 ∧ t.writer.head = 9 ∧ t.notices.pending = 4 ∧
      t.writer.buffer.map OutWrite.addr = [0x800, 0x1000100] := by decide +kernel

/-- A ready write of the device status block. -/
def readyWrite : OutWrite := { source := .device, addr := 0x800, data := [], issued := false }

/-- A part whose outbound buffer is given. -/
def buffered (ws : List OutWrite) : State := { State.reset with writer := { State.reset.writer with buffer := ws } }

theorem test_outbound_grant_and_completion :
    let t := after .outboundWriteGrant (buffered [readyWrite])
    let u := after (.outboundWriteCompletion true) t
    t.ports.outstanding = [.write] ∧ u.writer.buffer = [] ∧ u.writer.faults = 1 ∧
      u.writer.queue.map LogRecord.body = [.memory .counter 0x800] := by decide +kernel

theorem test_result_word_raises_command :
    let s := after (.cancel (.new (word 0 0 9 0))) State.reset
    let t := after (.outboundWriteCompletion false) (after .outboundWriteGrant (after .outboundWriteFormed s))
    t.notices.pending = 0x40 ∧ t.channel.inFlight = none := by decide +kernel

theorem test_result_handoff_waits :
    after .resultHandoff State.reset = State.reset := by decide +kernel

/-! ### The port: the windows and roles of 7.9 -/

/-- The window of sector 1 of a kind. -/
def win (kind : WindowKind) (base : Addr) (sizeExp : Nat) : Window :=
  { kind := kind, base := base, sizeExp := sizeExp, sector := some 1, mark := .none }

/-- Master 0 CONTROLLER, 2 BUILDER of sector 1, 3 BUILDER of sector 2, 5 RECEIVER of sector 1, the others OTHER. -/
def roles79 : Vector Role 8 :=
  #v[.controller, .other, .builder 1, .builder 2, .other, .receiver 1, .other, .other]

/-- Sector 1 with windows and roles. -/
def fabric (x : Sector) : State :=
  { part 1 x with
    windows := [Window.anchorAt 0, win .descriptor 0x100000 10, win .map 0x200000 11, win .report 0x300000 10]
    roles := roles79 }

theorem test_absorbed_status_write :
    (after (.absorbedWrite (.new (request 0 .write 0x808))) (fabric Sector.reset)).ports.returned =
      [(0, { error := false, data := [] })] := by decide +kernel

theorem test_pass_through_and_response :
    let t := after (.passThroughRequest (.new (request 0 .read 0x808))) (fabric Sector.reset)
    let u := after (.memoryResponse 0 { error := false, data := [5] }) t
    t.owedTo 0 = [.awaiting 1 none] ∧ u.ports.returned = [(0, { error := false, data := [5] })] := by decide +kernel

theorem test_pass_through_malformed :
    faultOf (.passThroughRequest (.new { request 0 .read 0x808 with beats := 0 })) (fabric Sector.reset) =
      some .malformedRequest ∧
    faultOf (.memoryResponse 0 { error := false, data := [] }) (fabric Sector.reset) = some .responseNotOwed := by
  decide +kernel

theorem test_refused_role :
    let t := after (.refusedRequest (.new (request 3 .read 0x200018))) (fabric Sector.reset)
    t.ports.returned = [(3, { error := true, data := [0] })] ∧ t.notices.pending = 8 ∧
      t.writer.queue.map LogRecord.body = [.access .role 3 (.builder 2) .read (some .map) 0x18] := by decide +kernel

/-- The REPORT column of Table 7.2 for role OTHER: a read passes, a write is refused. -/
theorem test_report_window_other_role :
    let w : Window := { kind := .report, base := 0x300000, sizeExp := 10, sector := some 1, mark := .none }
    classifyIn w .other (request 5 .read 0x300000) = .pass ∧
      classifyIn w .other (request 5 .write 0x300000) = .refuse .role ∧
      classifyIn w (.builder 1) (request 5 .read 0x300000) = .refuse .role ∧
      classifyIn w (.receiver 0) (request 5 .read 0x300000) = .pass := by decide

theorem test_refused_split :
    (after (.refusedRequest (.new { request 7 .read 0x3003F0 with beats := 4 })) (fabric Sector.reset)).ports.returned =
      [(7, { error := true, data := [0, 0, 0, 0] })] := by decide +kernel

/-- Remote 37 of 1.7: CLIMBING at profile 6 under ceiling 9, faded at frame 1000; the frame is 1312. -/
def climb37 : Sector :=
  { sectorWith .active 37 { entryIn .climbing 6 with ceiling := 9, good := 3, fadedAt := some 1000 } with
    frame := 1312 }

theorem test_descriptor_write_event_1 :
    let t := after (.descriptorWrite (.new { request 0 .write 0x100128 with lanes := 0x06, data := [0x070500] }))
      (fabric climb37)
    (t.entry 1 37).state = .serving ∧ (t.entry 1 37).profile = 5 ∧ (t.entry 1 37).cls = 2 ∧ (t.sector 1).n = 0 ∧
      t.writer.mirrorDirty[41] = true ∧
      t.writer.queue.map LogRecord.body =
        [.state .ceiling 37 .climbing .serving 5 0 312, .descriptor .classInvalid 37 7] := by decide +kernel

theorem test_descriptor_write_deferred :
    let t := after (.descriptorWrite (.new { request 0 .write 0x100128 with lanes := 0x01 }))
      (fabric { sectorWith .active 37 (entryIn .serving 7) with suspended := true })
    (t.entry 1 37).admin = true ∧ (t.entry 1 37).deferred = some false ∧ t.writer.queue = [] := by decide +kernel

/-! ### A frame of map reads (4.8) and reports (5.8) -/

/-- The remotes of 4.8 with the plan of frame 7040, the current frame. -/
def frame48 : Sector :=
  let q (c o : Nat) (solo : Bool) : Entry :=
    { entryIn .queued 0 with cls := c, order := o, solo := solo, fadedAt := some 7000 }
  let x : Sector := { Sector.reset with
    mode := .active, frame := 7040, resyncPending := false, history := [{ frame := 7040, slots := [] }]
    episode := { Episode.reset with state := .recovering }, nextTail := 32780
    rangingOrder := [{ remote := 45, silent := false }, { remote := 31, silent := false }], waitList := [45, 31] }
  ((((((((x.setEntry 10 (entryIn .serving 7)).setEntry 22 (entryIn .climbing 2)).setEntry 45 (entryIn .ranging 0)).setEntry
    31 (entryIn .ranging 0)).setEntry 50 (q 2 32770 false)).setEntry 61 (q 2 32771 false)).setEntry
    77 (q 1 32772 true)).setEntry 90 (q 0 32773 true))

/-- The header of frame 7041 with slot count 8, valid. -/
def header7041 : Beat := 7041 + 8 * 2 ^ 24 + 2 ^ 31

/-- The header read of 4.8: master 2 reads the first two beats of buffer 1. -/
def headerRead : State :=
  after (.mapRead (.new { request 2 .read 0x200400 with beats := 2 })) (fabric frame48)

theorem test_map_read_waits_for_memory :
    headerRead.owedTo 2 = [.awaiting 2 (some { sector := 1, addr := 0x200400, winBase := 0x200000 })] ∧
      headerRead.sectors = (fabric frame48).sectors := by decide +kernel

/-- The epoch draws remotes 50, 61 and 77; the RESTORE record of slot 0 becomes a RANGE of remote 45. -/
theorem test_map_read_response_epoch :
    let t := after (.mapReadResponse 2 { error := false, data := [header7041, 3] }) headerRead
    (t.sector 1).frame = 7041 ∧ (t.sector 1).waitList = [31] ∧
      (t.sector 1).roster.members.map Member.remote = [50, 61, 77] ∧
      t.ports.returned = [(2, { error := false, data := [header7041, 5 + 256 * 45] })] := by decide +kernel

theorem test_header_parity :
    let t := after (.mapReadResponse 2 { error := false, data := [header7041 + 1, 0] }) headerRead
    t.writer.queue.map LogRecord.body = [.frame .parity 1] ∧ t.notices.pending = 0x20 ∧
      (t.sector 1).frame = 7040 := by decide +kernel

/-- Sector 1 as 5.8 has it: a fade watch of remote 30 in slot 6 and a range of remote 51 in slot 2 of plan 299. -/
def frame58 : Sector :=
  let watch (r : RemoteNo) (kind : WatchKind) : Expectation := { remote := r, kind := kind, condition := .open }
  let x : Sector := { Sector.reset with
    mode := .active, frame := 299, resyncPending := false
    history := [{ frame := 299, slots :=
      [none, none, some { decision := .range (watch 51 .range), record := some 0 }, none, none, none,
       some { decision := .raw (some (watch 30 .fadeWatch)), record := some 0 }] }]
    rangingOrder := [{ remote := 51, silent := false }] }
  (x.setEntry 30 (entryIn .serving 7)).setEntry 51 (entryIn .ranging 0)

/-- A report for frame tag 2Bh: slot, outcome and remote; margin +5 dB, timing and power 0. -/
def report (slot outcome remote : Nat) : Beat :=
  BitVec.ofNat 64 (0x2B + 256 * slot + 2 ^ 15 + 2 ^ 19 * outcome + 2 ^ 24 * remote + 2 ^ 32 * 20)

theorem test_report_silent_is_a_miss :
    let t := after (.reportWrite (.new { request 5 .write 0x300048 with data := [report 6 1 30] })) (fabric frame58)
    (t.entry 1 30).misses = 1 ∧ (t.sector 1).counts.matched = 1 ∧ t.writer.queue = [] := by decide +kernel

theorem test_report_completes_ranging :
    let t := after (.reportWrite (.new { request 5 .write 0x300048 with data := [report 2 0 51] })) (fabric frame58)
    (t.entry 1 51).state = .climbing ∧ (t.sector 1).rangingOrder = [] ∧ (t.entry 1 51).lastMargin = some 20 ∧
      stepsOf t = [(.rangeDone, 51, .climbing)] := by decide +kernel

/-! ### The part's reads -/

/-- The part with a command in flight and one of its reads outstanding. -/
def reading (code : Byte) (p : Phase) (target : ReadTarget) (s : State) : State :=
  let s := flying code 9 1 p s
  { s with ports := { s.ports with outstanding := [.read target false] } }

theorem test_part_read_grant :
    let s := after (.loadConfig (.new (word 0 0 1 0))) State.reset
    (after .partReadGrant s).ports.outstanding = [.read (.config 0) false] := by decide +kernel

theorem test_config_read_error :
    resultIs (after (.configReadResponse { error := true, data := List.replicate 8 0 })
      (reading 1 (.readingConfig []) (.config 3) State.reset)) 9 .memoryError 0x1C0 := by decide +kernel

/-- An area of zeros has command timeout 0: the first item fails. -/
theorem test_config_validation_first_item :
    resultIs (after (.configReadResponse { error := false, data := List.replicate 8 0 })
      (reading 1 (.readingConfig (List.replicate 152 0)) (.config 19) State.reset)) 9 .invalid 1 := by decide +kernel

/-- A configuration with sector 1 configured and nothing else. -/
def setup1 : Setup :=
  { commandTimeout := 33, floor := 1, classes := Vector.replicate 8 2, log := some (6, 0x1000000), guard0 := none,
    guard1 := none, profiles := [], roles := roles79
    sectors := #v[none, some { descBase := 0x100000, mapBase := 0x200000, reportExp := 10, reportBase := 0x300000,
                               params := Params.default, tunables := Tunables.default }, none, none] }

/-- The staged entry of remote 126 of sector 1 in a load's phase. -/
def staged126 (t : State) : Option StagedEntry :=
  match t.channel.inFlight with
  | some { phase := .readingDescriptors _ staged _ _ _, .. } => some (staged[(1 : SectorNo)])[(126 : RemoteNo)]
  | _ => none

theorem test_load_descriptor_builds_staged_entry :
    let t := after (.loadDescriptorReadResponse { error := false, data := [0x10020701] })
      (reading 1 (.readingDescriptors setup1 stagedStart 1 126 []) (.loadDescriptor 1 126) State.reset)
    t.channel.read = some (.loadDescriptor 1 127) ∧
    staged126 t = some { entry := entryIn .serving 7, badCeiling := none, badClass := none, badGroup := some 0x10 } := by
  decide +kernel

theorem test_load_installs_table_and_entries :
    let t := installDevice setup1 State.reset
    let u := installEntry (modStaged 1 5 (fun _ => { stagedUnconfigured with entry := entryIn .serving 7 }) stagedStart)
      1 5 State.reset
    t.windows.map Window.kind = [.anchor, .log, .descriptor, .map, .report] ∧ t.store.commandTimeout = 33 ∧
      t.configured 1 = true ∧ t.configured 0 = false ∧ u.entry 1 5 = entryIn .serving 7 ∧
      stepsOf u = [(.config, 5, .serving)] := by decide +kernel

theorem test_staging_read_starts_map_relocation :
    let s := reading 0x0B .readingStaging (.staging 1 .map) (fabric Sector.reset)
    let t := after (.stagingReadResponse { error := false, data := [0x400000] }) s
    (t.sector 1).pendingOp = some (.relocation .map 0x400000 11 false) ∧ t.windows.length = 5 ∧
    resultIs (after (.stagingReadResponse { error := false, data := [0x400400] }) s) 9 .invalid 3 ∧
    resultIs (after (.stagingReadResponse { error := false, data := [0x200000] }) s) 9 .invalid 4 := by decide +kernel

theorem test_relocation_read_counts_differences :
    let s := reading 0x0B (.relocationReading 126 3 none [] none) (.relocDescriptor 1 126)
      (fabric (sectorWith .active 126 (entryIn .serving 7)))
    let t := after (.relocationDescriptorReadResponse { error := false, data := [0x00020601] }) s
    (t.entry 1 126).ceiling = 6 ∧ (t.entry 1 126).profile = 6 ∧
      t.channel.inFlight.map InFlight.phase = some (.relocationReading 127 4 none [] none) := by decide +kernel

/-! ### Expiries -/

theorem test_backoff_expiry :
    let t := after (.backoffExpiry 1 9) (part 1 (sectorWith .active 9 (entryIn .faded 0)))
    (t.sector 1).queue = [9] ∧ stepsOf t = [(.backoff, 9, .queued)] := by decide +kernel

theorem test_hold_down_expiry :
    let t := after (.holdDownExpiry 1) (part 1 { Sector.reset with
      mode := .active, episode := { Episode.reset with state := .fading } })
    (t.sector 1).episode.state = .recovering ∧ (t.sector 1).episode.record.recovering = some .holdDown ∧
      t.notices.pending = 0 := by decide +kernel

theorem test_settle_expiry :
    let t := after (.settleExpiry 1) (part 1 { Sector.reset with
      mode := .active, frame := 2044, episode := { Episode.reset with state := .settling } })
    (t.sector 1).episode.state = .clear ∧ (t.sector 1).episode.record.closing = some 2044 ∧
      t.notices.pending = 1 := by decide +kernel

/-! ### The hypotheses of the statements can be met

One theorem for each statement with hypotheses, named after it; where clauses split a range, one state for each clause. -/

theorem no_waiting_at_reset : ∀ m : MasterNo, State.reset.ports.channels[m] = [] := by decide

theorem controllers_at_reset : ∀ m : MasterNo, State.reset.roles[m] = .controller := by decide

/-- A full-width command word is ready to be taken in a part whose ports, windows, roles and results are at reset. -/
theorem ready_at_reset_ports {s : State} {w : CommandWrite} (hp : s.ports = State.reset.ports)
    (hw : s.windows = State.reset.windows) (ha : s.channel.anchorBase = State.reset.channel.anchorBase)
    (hr : s.roles = State.reset.roles) (hb : s.writer.buffer = []) (hq : s.resultWaits = false)
    (hl : w.lanes = allLanes) : s.ready w := by
  refine ⟨⟨?_, 0, ?_⟩, ⟨?_, ?_, ?_⟩, ?_, hq, hl⟩
  · rw [hw, ha]; rfl
  · rw [ha]; rfl
  · intro m; show s.ports.channels[m] = []; rw [hp]; exact no_waiting_at_reset m
  · rw [hp]; rfl
  · simp [outboundFirst, hb, Config.outboundPlaces]
  · show s.roles[w.master] = .controller; rw [hr]; exact controllers_at_reset w.master

theorem portFree_at_reset_ports {s : State} (hp : s.ports = State.reset.ports) (hb : s.writer.buffer = []) :
    s.portFree :=
  (ready_at_reset_ports (s := { State.reset with ports := s.ports, writer := { State.reset.writer with buffer := [] } })
    (w := word 0 0 0 0) hp rfl rfl rfl rfl rfl rfl).port.imp
    (fun h m => by simpa [State.waitingAt] using h m) fun h => ⟨h.1, by simp [outboundFirst, hb, Config.outboundPlaces]⟩

theorem ready_part (k : SectorNo) (x : Sector) (sector remote tag : Byte) (arg : Half) :
    (part k x).ready (word sector remote tag arg) := ready_at_reset_ports rfl rfl rfl rfl rfl rfl rfl

theorem readyFor_reset_like {s : State} {w : WordWrite} (hp : s.ports = State.reset.ports)
    (hw : s.windows = State.reset.windows) (ha : s.channel.anchorBase = State.reset.channel.anchorBase)
    (hr : s.roles = State.reset.roles) (hb : s.writer.buffer = []) (hl : w.lanes ≠ 0) : s.readyFor w := by
  have h := ready_at_reset_ports (s := { s with
      channel := { s.channel with held := [] }, writer := { s.writer with pendingResult := none } })
    (w := { word 0 0 0 0 with master := w.master }) hp hw ha hr hb rfl rfl
  exact ⟨h.anchor, portFree_at_reset_ports hp hb, h.role, hl⟩

theorem notLoading_idle {s : State} (h : s.channel.inFlight = none) : s.notLoading := by
  intro f _ _ _ _ _ hf; rw [h] at hf; exact absurd hf (by simp)

theorem hyp_StepRunsFrontOfQueue :
    { State.reset with pending := [.timeBaseAdvance] }.pending = .timeBaseAdvance :: [] ∧ State.reset.pending = [] :=
  ⟨rfl, rfl⟩

theorem hyp_OutsideFaultsStop :
    { request 0 .read 0 with beats := 0 }.ok = false ∧ { request 0 .read 0 with beats := 9 }.ok = false ∧
      State.reset.owedTo 7 = [] ∧ State.reset.ports.outstanding = [] := by decide +kernel

theorem hyp_OnlyTicksMoveTheTimeBase : exec .commandTimeout State.reset = .next (after .commandTimeout State.reset) :=
  rfl

theorem hyp_TimeoutEndsThePendingOperation_mode :
    let s := after .timeBaseAdvance pendingShadow
    s.resultWaits = false ∧ s.channel.inFlight.map InFlight.phase = some (.modePending 7020 true) ∧
      sectorOfByte 0 = some 0 ∧ (s.sector 0).pendingOp = some (.modeChange .shadow) := by decide +kernel

/-- A MAP relocation of sector 1 that is due. -/
def relocDue : State :=
  flying 0x0B 9 1 (.relocationPending 20 true)
    (addMapWindow 1 0x400000 (fabric { Sector.reset with pendingOp := some (.relocation .map 0x400000 11 false) }))

theorem hyp_TimeoutEndsThePendingOperation_relocation :
    relocDue.resultWaits = false ∧ relocDue.channel.inFlight.map InFlight.phase = some (.relocationPending 20 true) ∧
      (relocDue.sector 1).pendingOp = some (.relocation .map 0x400000 11 false) := by decide +kernel

theorem hyp_CommandWordRowsAreTaken :
    (Instr.hold, 0x04) ∈ commandRows ∧ (Instr.cancel, 0x0D) ∈ commandRows ∧ State.reset.ready (word 0 0 0 0) ∧
      pendingShadow.ready (word 0 0 0 0) :=
  ⟨by simp [commandRows], by simp [commandRows], ready_at_reset_ports rfl rfl rfl rfl rfl rfl rfl,
    ready_at_reset_ports rfl rfl rfl rfl rfl rfl rfl⟩

/-- A result in the pending result word. -/
def aResult : Result :=
  { tag := 9, result := .done, detail := 0, code := 0x0C, sector := none, remote := none, closes := false }

/-- The part with a result waiting to be formed. -/
def waitingResult : State := { State.reset with writer := { State.reset.writer with pendingResult := some aResult } }

theorem hyp_WaitingResultHoldsCommandWords :
    waitingResult.anchored ∧ waitingResult.role 0 = .controller ∧ (word 0 0 0 0).lanes ≠ 0 ∧
      waitingResult.resultWaits = true ∧ waitingResult.waitingAt 0 = [] ∧ (0 : MasterNo) ∉ waitingResult.ports.locks :=
  ⟨⟨rfl, 0, rfl⟩, by decide, by decide, rfl, by decide, by decide⟩

theorem hyp_AbsorbedCommandWordsAnswered_partial :
    State.reset.anchored ∧ State.reset.portFree ∧ State.reset.role 0 = .controller ∧ State.reset.resultWaits = false ∧
      (0x7F : Lanes) ≠ 0 ∧ (0x7F : Lanes) ≠ allLanes ∧ (0x01 : Lanes) ≠ allLanes ∧ State.reset.owedTo 0 = [] :=
  ⟨⟨rfl, 0, rfl⟩, portFree_at_reset_ports rfl rfl, by decide, rfl, by decide, by decide, by decide, by decide⟩

theorem hyp_AbsorbedCommandWordsAnswered_busy :
    pendingShadow.ready (word 0 9 0x22 0) ∧ pendingShadow.channel.inFlight.isSome = true ∧
      pendingShadow.owedTo 0 = [] :=
  ⟨ready_at_reset_ports rfl rfl rfl rfl rfl rfl rfl, rfl, by decide⟩

theorem hyp_FieldChecksAnsweredInvalid :
    ((0x00 : Byte) = 0 ∨ 13 < (0x00 : Byte).toNat) ∧ ((0x0E : Byte) = 0 ∨ 13 < (0x0E : Byte).toNat) ∧
      State.reset.channel.inFlight = none ∧ (Instr.setMode, 0x02) ∈ commandRows ∧ 3 < (4 : Byte).toNat ∧
      State.reset.ready (word 4 0 0 0) ∧ (Instr.hold, 0x04) ∈ commandRows ∧ (3 : Byte).toNat ≤ 3 ∧
      127 < (128 : Byte).toNat ∧ State.reset.ready (word 3 128 0 0) :=
  ⟨by decide, by decide, rfl, by simp [commandRows], by decide, ready_at_reset_ports rfl rfl rfl rfl rfl rfl rfl,
    by simp [commandRows], by decide, by decide, ready_at_reset_ports rfl rfl rfl rfl rfl rfl rfl⟩

theorem hyp_LoadConfigStartsReading :
    (∀ k, (State.reset.sector k).mode = .pass) ∧ State.reset.ready (word 0 0 0 0) ∧
      (∃ k, ((part 3 { Sector.reset with mode := .shadow }).sector k).mode ≠ .pass) ∧
      (part 3 { Sector.reset with mode := .shadow }).ready (word 0 0 0 0) :=
  ⟨by decide +kernel, ready_at_reset_ports rfl rfl rfl rfl rfl rfl rfl, ⟨3, by decide +kernel⟩, ready_part _ _ _ _ _ _⟩

theorem hyp_SetModeWaitsForAnEpoch :
    (part 3 Sector.reset).ready (word 3 0 9 1) ∧ (part 3 Sector.reset).channel.inFlight = none ∧
      sectorOfByte 3 = some 3 ∧ (part 3 Sector.reset).configured 3 = true ∧
      (1 : Half) = BitVec.ofNat 16 (modeCode .shadow) ∧ (2 : Half) = BitVec.ofNat 16 (modeCode .active) ∧
      ((part 3 Sector.reset).sector 3).mode = .pass ∧ ((part 3 Sector.reset).sector 3).suspended = false :=
  ⟨ready_part _ _ _ _ _ _, rfl, by decide, by decide +kernel, by decide, by decide, by decide +kernel,
    by decide +kernel⟩

theorem hyp_SetModeToPassReturnsRemotesToService :
    let s := part 0 { sectorWith .active 9 (entryIn .climbing 2) with suspended := true }
    s.ready (word 0 0 9 0) ∧ s.configured 0 = true ∧ (s.sector 0).mode ≠ .pass ∧ sectorOfByte 0 = some 0 :=
  ⟨ready_part _ _ _ _ _ _, by decide +kernel, by decide +kernel, by decide⟩

/-- The least and the greatest value of each tunable, and a value beside each range. -/
theorem hyp_SetTuneStagesValue :
    (∀ p ∈ [(0x0F, 0), (0x0F, 3), (0x10, 8), (0x10, 128), (0x11, 0), (0x11, 8), (0x12, 0), (0x12, 63), (0x13, 0), (0x13, 1),
        (0x14, 2), (0x14, 64), (0x15, 0), (0x15, 4095), (0x16, 0), (0x16, 255)], tuneInRange p.1 p.2) ∧
      (∀ p ∈ [(0x0F, 4), (0x10, 9), (0x11, 9), (0x12, 64), (0x13, 2), (0x14, 1), (0x14, 65), (0x15, 4096), (0x16, 256),
        (0x0E, 0), (0x17, 0)], ¬ tuneInRange p.1 p.2) ∧
      (part 0 Sector.reset).ready (word 0 0x16 9 255) ∧ (part 0 Sector.reset).configured 0 = true ∧
      (0x16 : Byte).toNat < 128 := by
  refine ⟨?_, ?_, ready_part _ _ _ _ _ _, by decide +kernel, by decide⟩ <;> simp [tuneInRange]

theorem hyp_HoldParksRemote :
    let s := part 0 (sectorWith .active 127 (entryIn .serving 7))
    s.ready (word 0 127 9 0) ∧ s.channel.inFlight = none ∧ sectorOfByte 0 = some 0 ∧ remoteOfByte 127 = some 127 ∧
      (s.sector 0).mode = .active ∧ acceptedIn 0x04 (s.entry 0 127).state :=
  ⟨ready_part _ _ _ _ _ _, rfl, by decide, by decide, by decide +kernel, by
    have h : ((part 0 (sectorWith .active 127 (entryIn .serving 7))).entry 0 127).state = .serving := by decide +kernel
    rw [h]; simp [acceptedIn]⟩

theorem hyp_ReleaseAndRearmQueueAtTail :
    let s := part 0 (sectorWith .active 5 (entryIn .held 7))
    let u := part 0 { sectorWith .active 5 (entryIn .excluded 7) with nextTail := 65536 }
    s.ready (word 0 5 9 0) ∧ (s.sector 0).mode = .active ∧ (s.entry 0 5).state = .held ∧ remoteOfByte 5 = some 5 ∧
      u.ready (word 0 5 9 0) ∧ (u.sector 0).mode = .active ∧ (u.entry 0 5).state = .excluded :=
  ⟨ready_part _ _ _ _ _ _, by decide +kernel, by decide +kernel, by decide, ready_part _ _ _ _ _ _, by decide +kernel,
    by decide +kernel⟩

theorem hyp_ForceFadeFadesUncharged :
    let s := part 0 (sectorWith .active 0 (entryIn .probing 0))
    s.ready (word 0 0 9 0) ∧ (s.sector 0).mode = .active ∧ remoteOfByte 0 = some 0 ∧
      acceptedIn 0x07 (s.entry 0 0).state :=
  ⟨ready_part _ _ _ _ _ _, by decide +kernel, by decide, by
    have h : ((part 0 (sectorWith .active 0 (entryIn .probing 0))).entry 0 0).state = .probing := by decide +kernel
    rw [h]; simp [acceptedIn]⟩

theorem hyp_RemoteCommandsRefusedWithState :
    (Instr.hold, 0x04) ∈ commandRows ∧ (State.reset.sector 0).mode ≠ .active ∧ State.reset.ready (word 0 0 9 0) ∧
      ¬ acceptedIn 0x04 .idle ∧ ¬ acceptedIn 0x04 .held ∧ ¬ acceptedIn 0x05 .serving ∧ ¬ acceptedIn 0x06 .held ∧
      ¬ acceptedIn 0x07 .faded :=
  ⟨by simp [commandRows], by decide +kernel, ready_at_reset_ports rfl rfl rfl rfl rfl rfl rfl, by simp [acceptedIn],
    by simp [acceptedIn], by simp [acceptedIn], by simp [acceptedIn], by simp [acceptedIn]⟩

theorem hyp_SuspendSetsTheFlag :
    let s := part 0 { Sector.reset with mode := .shadow }
    s.ready (word 0 0 9 0) ∧ s.configured 0 = true ∧ (s.sector 0).mode ≠ .pass ∧ (s.sector 0).suspended = false :=
  ⟨ready_part _ _ _ _ _ _, by decide +kernel, by decide +kernel, by decide +kernel⟩

theorem hyp_ResumeClearsTheFlag :
    let s := part 0 { sectorWith .active 37 { entryIn .probing 0 with deferred := some false } with suspended := true }
    s.ready (word 0 0 9 0) ∧ s.configured 0 = true ∧ (s.sector 0).suspended = true ∧ (s.sector 0).mode = .active ∧
      (s.entry 0 37).deferred = some false :=
  ⟨ready_part _ _ _ _ _ _, by decide +kernel, by decide +kernel, by decide +kernel, by decide +kernel⟩

theorem hyp_ResetSectorRestoresEntries :
    (part 3 frame48).ready (word 3 0 9 0) ∧ sectorOfByte 3 = some 3 ∧ (part 3 frame48).configured 3 = true :=
  ⟨ready_part _ _ _ _ _ _, by decide, by decide +kernel⟩

/-- A state for each clause: sector 1 unconfigured; sector 0 ACTIVE, suspended or not; PASS. -/
theorem hyp_SectorCommandsThatChangeNothing :
    let s := part 0 { Sector.reset with mode := .active, suspended := true }
    let u := part 0 Sector.reset
    s.ready (word 1 0 9 1) ∧ s.configured 1 = false ∧ s.configured 0 = true ∧ s.ready (word 0 0 9 3) ∧
      2 < (3 : Half).toNat ∧ (s.sector 0).suspended = true ∧ (1 : Half) ≠ BitVec.ofNat 16 (modeCode .active) ∧
      (2 : Half) = BitVec.ofNat 16 (modeCode (s.sector 0).mode) ∧ (u.sector 0).mode = .pass ∧
      (u.sector 0).suspended = false ∧ u.ready (word 0 0 9 3) ∧ u.configured 0 = true :=
  ⟨ready_part _ _ _ _ _ _, by decide +kernel, by decide +kernel, ready_part _ _ _ _ _ _, by decide, by decide +kernel,
    by decide, by decide +kernel, by decide +kernel, by decide +kernel, ready_part _ _ _ _ _ _, by decide +kernel⟩

theorem hyp_RelocateReadsItsStagingEntry :
    (part 0 Sector.reset).ready (word 0 0 9 2) ∧ (part 0 Sector.reset).configured 0 = true ∧
      (0 : Half) = BitVec.ofNat 16 RelocKind.map.code ∧ (2 : Half) = BitVec.ofNat 16 RelocKind.descriptor.code :=
  ⟨ready_part _ _ _ _ _ _, by decide +kernel, by decide, by decide⟩

theorem hyp_AckNoticeClearsKinds :
    State.reset.ready (word 0 0 9 255) ∧ State.reset.channel.inFlight = none ∧ (255 : Half).toNat ≤ 255 ∧
      255 < (256 : Half).toNat :=
  ⟨ready_at_reset_ports rfl rfl rfl rfl rfl rfl rfl, rfl, by decide, by decide⟩

theorem hyp_CancelAbandonsTheCommand :
    State.reset.ready (word 0 0 0x23 0) ∧ State.reset.channel.inFlight = none ∧ pendingShadow.ready (word 0 0 0x23 0) ∧
      pendingShadow.channel.inFlight.map InFlight.phase = some (.modePending 7020 false) ∧
      (pendingShadow.sector 0).pendingOp = some (.modeChange .shadow) :=
  ⟨ready_at_reset_ports rfl rfl rfl rfl rfl rfl rfl, rfl, ready_at_reset_ports rfl rfl rfl rfl rfl rfl rfl, rfl,
    by decide +kernel⟩

/-- Indices at the ends of the accepted range 9 to 8 (forward, around the ring), and each failing test. -/
theorem hyp_LogTailWordSetsTail :
    fullRing.readyFor (tailWord 8) ∧ (9 + 2 ^ 6 - 9) % 2 ^ 6 ≤ (8 + 2 ^ 6 - 9) % 2 ^ 6 ∧
      (8 + 2 ^ 6 - 9) % 2 ^ 6 ≤ (8 + 2 ^ 6 - 9) % 2 ^ 6 ∧ (64 : Nat) ≥ 2 ^ 6 ∧
      (∃ s : State, s.readyFor (tailWord 9) ∧ s.writer.head = 8 ∧ s.writer.tail = 7 ∧
        (8 + 2 ^ 6 - 7) % 2 ^ 6 < (9 + 2 ^ 6 - 7) % 2 ^ 6) ∧
      State.reset.readyFor (tailWord 0) ∧ State.reset.writer.log = none ∧
      State.reset.readyFor { tailWord 0 with lanes := 0x0F } ∧ fullRing.writer.queue.length < 64 ∧
      ∃ s : State, s.readyFor (tailWord 0) ∧ s.writer.log = none ∧ 64 ≤ s.writer.queue.length :=
  ⟨readyFor_reset_like rfl rfl rfl rfl rfl (by decide), by decide, by decide, by decide,
    ⟨{ fullRing with writer := { fullRing.writer with tail := 7 } },
      readyFor_reset_like rfl rfl rfl rfl rfl (by decide), rfl, rfl, by decide⟩,
    readyFor_reset_like rfl rfl rfl rfl rfl (by decide), rfl, readyFor_reset_like rfl rfl rfl rfl rfl (by decide),
    by decide, ⟨{ State.reset with writer := { State.reset.writer with
        queue := List.replicate 64 { time := 0, sector := none, frame := none, body := .tail .order 0 } } },
      readyFor_reset_like rfl rfl rfl rfl rfl (by decide), rfl, by decide⟩⟩

/-- A part whose record queue is full. -/
def fullQueue : State :=
  { State.reset with writer := { State.reset.writer with
      queue := List.replicate 64 { time := 0, sector := none, frame := none, body := .tail .order 0 } } }

theorem hyp_MarkerWordQueuesARecord :
    State.reset.readyFor { tailWord 1 with lanes := 0x01 } ∧ State.reset.writer.queue.length < 64 ∧
      fullQueue.readyFor (tailWord 1) ∧ 64 ≤ fullQueue.writer.queue.length :=
  ⟨readyFor_reset_like rfl rfl rfl rfl rfl (by decide), by decide, readyFor_reset_like rfl rfl rfl rfl rfl (by decide),
    by decide⟩

theorem hyp_AbsorbedWriteAnsweredOkay :
    (request 0 .write 0x808).ok = true ∧ State.reset.waitingAt 0 = [] ∧ State.reset.owedTo 0 = [] ∧
      classify State.reset (request 0 .write 0x808) = .absorb ∧ State.reset.notLoading :=
  ⟨by decide, by decide, by decide, by decide +kernel, notLoading_idle rfl⟩

theorem hyp_PassThroughRequestForwarded :
    (request 0 .read 0x1000).ok = true ∧ State.reset.portFree ∧
      classify State.reset (request 0 .read 0x1000) = .pass ∧ State.reset.notLoading :=
  ⟨by decide, portFree_at_reset_ports rfl rfl, by decide +kernel, notLoading_idle rfl⟩

theorem hyp_HeldRequestsWait :
    (classify State.reset (request 0 .read 0x1000)).needsPort = true ∧ State.reset.waitingAt 0 = [] ∧
      (∃ s : State, s.holdOff = true ∧ (5 : MasterNo) ∉ s.ports.locks ∧ s.waitingAt 5 = [] ∧
        classify s (request 5 .write 0x300000) = .snoopReport (win .report 0x300000 10) 1) :=
  ⟨by decide +kernel, by decide, { fabric Sector.reset with holdOff := true }, rfl, by decide, by decide,
    by decide +kernel⟩

theorem hyp_EngineRequestsTaken :
    let s := fabric Sector.reset
    s.portFree ∧ s.channel.inFlight = none ∧ s.holdOff = false ∧
      classify s (request 0 .write 0x1003F8) = .snoopDescriptor (win .descriptor 0x100000 10) 1 ∧
      classify s (request 5 .write 0x3003F8) = .snoopReport (win .report 0x300000 10) 1 ∧
      classify s (request 2 .read 0x2007F8) = .patch (win .map 0x200000 11) 1 :=
  ⟨portFree_at_reset_ports rfl rfl, rfl, rfl, by decide +kernel, by decide +kernel, by decide +kernel⟩

theorem hyp_RefusedRequestAnsweredError :
    let s := fabric Sector.reset
    (request 3 .read 0x200018).ok = true ∧ s.waitingAt 3 = [] ∧ s.owedTo 3 = [] ∧
      classify s (request 3 .read 0x200018) = .refuse .role ∧
      classify { s with writer := fullQueue.writer } (request 3 .read 0x200018) = .refuse .role := by decide +kernel

/-- One case of each window kind and role class that Table 7.2 tells apart. -/
theorem hyp_AccessMatrixAsTabulated :
    (Window.anchorAt 0).kind = .anchor ∧ (win .descriptor 0 10).sector = some 1 ∧ (win .map 0 11).sector ≠ some 2 ∧
      (win .report 0 10).kind = .report ∧ Role.other ≠ .controller := by decide

theorem hyp_MapReadResponseTaken :
    headerRead.owedTo 2 = [.awaiting 2 (some { sector := 1, addr := 0x200400, winBase := 0x200000 })] ∧
      [header7041, 3].length = 2 := by decide +kernel

theorem hyp_UnsubstitutedMapReadsReturnMemory :
    ((part 0 { Sector.reset with mode := .active, suspended := true }).sector 0).suspended = true ∧
      ((part 0 { Sector.reset with mode := .shadow }).sector 0).mode ≠ .active ∧ (State.reset.sector 3).mode ≠ .active ∧
      ∀ m, (State.reset.sector 3).pendingOp ≠ some (.modeChange m) :=
  ⟨by decide +kernel, by decide +kernel, by decide +kernel, fun m h => by cases h⟩

/-- Sector 1 ACTIVE with two undecided slots in the current plan. -/
def undecided : Sector :=
  { frame48 with history := [{ frame := 7040, slots := [none, none] }] }

theorem hyp_ReReadsReturnTheStoredRecord :
    ((part 1 undecided).sector 1).mode = .active ∧ ((part 1 undecided).sector 1).suspended = false ∧
      ((part 1 undecided).sector 1).history.getLast? = some { frame := 7040, slots := [none, none] } ∧
      (Plan.mk 7040 [none, none]).slots[0]? = some none ∧ (Plan.mk 7040 [none, none]).slots[1]? = some none := by
  decide +kernel

theorem hyp_HeaderReadTakesAnEpoch :
    let s := after (.mapRead (.new (request 2 .read 0x200400))) (fabric frame48)
    s.owedTo 2 = [.awaiting 1 (some { sector := 1, addr := 0x200400, winBase := 0x200000 })] ∧
      checkHeader (s.sector 1) 1 (headerOf header7041) = .epoch ∧ (s.sector 1).pendingOp = none := by decide +kernel

/-- Sector 1 at frame 7040 with the plans 7039 and 7040, and a read of buffer 1's header issued. -/
def twoPlans : State :=
  after (.mapRead (.new (request 2 .read 0x200400)))
    (fabric { frame48 with history := [{ frame := 7039, slots := [] }, { frame := 7040, slots := [] }] })

/-- The other outcomes of a header read: valid clear; counts 0, 1, 64 and 65; the wrong buffer; a re-read; a stale frame. -/
theorem hyp_HeaderReadTakesAnEpoch_outcomes :
    let h (n count : Nat) (v : Bool) := headerOf (BitVec.ofNat 64 (n + count * 2 ^ 24 + if v then 2 ^ 31 else 0))
    twoPlans.owedTo 2 = [.awaiting 1 (some { sector := 1, addr := 0x200400, winBase := 0x200000 })] ∧
      (h 7041 8 false).valid = false ∧ (∀ n ∈ [0, 65], (h 7041 n true).valid = true ∧ (h 7041 n true).count = n) ∧
      (∀ n ∈ [1, 64], (h 7041 n true).valid = true ∧ (h 7041 n true).count = n) ∧
      (h 7042 8 true).frame.toNat % 2 = 0 ∧ (h 7039 8 true).frame.toNat % 2 = 1 ∧
      (∃ q ∈ (twoPlans.sector 1).history.dropLast, q.frame = (h 7039 8 true).frame) ∧
      ((part 1 { frame48 with frame := 7041 }).sector 1).history ≠ [] ∧
      (h 7041 8 true).frame = ((part 1 { frame48 with frame := 7041 }).sector 1).frame ∧
      ¬ ∃ q ∈ (twoPlans.sector 1).history.dropLast, q.frame = (h 7041 8 true).frame := by decide +kernel

/-- The FRAME record at gaps 1, 2, 64 and 65, and at a silent resync. -/
theorem test_log_gap :
    ([(1, false), (2, false), (64, false), (65, false), (65, true)].map fun p =>
      (logGap 1 7105 p.1 p.2 State.reset).writer.queue.map LogRecord.body) =
      [[], [.frame .gap 2], [.frame .gap 64], [.frame .resync 65], []] := by decide +kernel

/-- Sector 1 at frame 100 with two plans, one of them more than D = 2 frames behind: a probe of remote 5 is open in it, and a
fade watch of remote 9. -/
def twoBehind (m : Mode) (suspended : Bool) : State :=
  let probe : Decision := .probe true [some { remote := 5, kind := .probe true false, condition := .open },
    none, none, none, none, none]
  let raw : Decision := .raw (some { remote := 9, kind := .fadeWatch, condition := .open })
  part 1 { (sectorWith m 5 (entryIn .probing 0)).setEntry 9 (entryIn .serving 7) with
    frame := 100, resyncPending := false, suspended := suspended
    history := [
      { frame := 97, slots := [some { decision := raw, record := none }, some { decision := probe, record := none }] },
      { frame := 98, slots := [none] }] }

/-- Item 1 of a normal epoch: the plan 3 behind leaves with its timeouts, the one 2 behind stays; a suspended sector's remotes
are not touched. -/
theorem test_item1_times_out :
    (twoBehind .active false).params 1 = Params.default ∧ Params.default.latency = 2 ∧
      (let t := epochItem1 1 false (twoBehind .active false)
       (t.sector 1).history.map Plan.frame = [98] ∧ stepsOf t = [(.probeTimeout, 5, .faded)] ∧ (t.entry 1 9).misses = 1) ∧
      (let t := epochItem1 1 false (twoBehind .active true)
       (t.sector 1).history.map Plan.frame = [98] ∧ stepsOf t = [] ∧ (t.entry 1 9).misses = 0) := by decide +kernel

/-- Item 1 of a resync: the PROBING remotes 5 and 6 stand at the head of the queue, 5 first. -/
theorem test_item1_requeues :
    let s := part 1 { (sectorWith .active 5 (entryIn .probing 0)).setEntry 6 (entryIn .probing 0) with nextHead := 1 }
    let t := epochItem1 1 true s
    stepsOf t = [(.resync, 6, .queued), (.resync, 5, .queued)] ∧ (t.sector 1).queue = [5, 6] := by decide +kernel

/-- Sector 1 with FADED remotes at backoff 3 and 4, and an episode. -/
def fadedPair (m : Mode) (st : EpisodeState) (count : Nat) : State :=
  part 1 { (sectorWith m 5 { entryIn .faded 0 with backoff := 3 }).setEntry 6 { entryIn .faded 0 with backoff := 4 } with
    nextTail := 65536, episode := { Episode.reset with state := st, holdDown := count, settle := count } }

/-- Item 2 with a gap of 3: a backoff of 3 expires and one of 4 stands at 1; so do the episode's counts; in SHADOW no backoff
falls, in PASS nothing does. -/
theorem test_item2_counts_fall :
    (let t := epochItem2 1 3 (fadedPair .active .fading 4)
     stepsOf t = [(.backoff, 5, .queued)] ∧ (t.entry 1 6).backoff = 1 ∧ (t.sector 1).episode.holdDown = 1) ∧
    ((epochItem2 1 3 (fadedPair .active .fading 3)).sector 1).episode.state = .recovering ∧
    ((epochItem2 1 3 (fadedPair .shadow .settling 4)).sector 1).episode.settle = 1 ∧
    ((epochItem2 1 3 (fadedPair .shadow .settling 3)).sector 1).episode.state = .clear ∧
    ((epochItem2 1 3 (fadedPair .shadow .settling 3)).entry 1 5).backoff = 3 ∧
    epochItem2 1 3 (fadedPair .pass .fading 3) = fadedPair .pass .fading 3 := by decide +kernel

/-- A step into another state voids the remote's open expectations alone and takes it off the ranging order (R20, R34). -/
theorem test_hold_voids :
    let s := part 1 { frame48 with history := [{ frame := 7040, slots := [
      some { decision := .range { remote := 45, kind := .range, condition := .open }, record := none },
      some { decision := .range { remote := 31, kind := .range, condition := .open }, record := none }] }] }
    let t := after (.hold (.new (word 1 45 1 0))) s
    (t.sector 1).waitList = [31] ∧ (t.sector 1).rangingOrder.map Ranger.remote = [31] ∧
      (t.sector 1).history.map (fun p => [p.watch 0 0, p.watch 1 0].map fun w => w.map Expectation.condition) =
        [[some .void, some .open]] := by decide +kernel

/-- A mode change of sector 1 pending, with its command in flight. -/
def changing (x : Sector) (source target : Mode) : State :=
  flying 2 9 1 (.modePending 20 false) (part 1 { x with mode := source, pendingOp := some (.modeChange target) })

theorem hyp_EpochCompletesTheModeChange :
    (∀ p ∈ [(Mode.shadow, Mode.active), (Mode.active, Mode.shadow), (Mode.pass, Mode.shadow)],
      (((changing frame48 p.1 p.2).sector 1).pendingOp = some (.modeChange p.2) ∧
        (changing frame48 p.1 p.2).channel.inFlight.map InFlight.phase = some (.modePending 20 false) ∧
        (changing frame48 p.1 p.2).resultWaits = false ∧ ((changing frame48 p.1 p.2).sector 1).mode = p.1)) := by
  decide +kernel

theorem hyp_MemoryResponseReturned :
    (after (.passThroughRequest (.new (request 0 .read 0x1000))) State.reset).owedTo 0 = [.awaiting 1 none] ∧
      (after (.passThroughRequest (.new (request 0 .write 0x1000))) State.reset).owedTo 0 = [.awaiting 0 none] := by
  decide +kernel

/-- A part with the ring of 10.8 roomy: tail 9, head 10. -/
def roomyRing (skips : Word) (queue : List LogRecord) : State :=
  { fullRing with writer := { fullRing.writer with head := 10, skips := skips, queue := queue } }

theorem hyp_OutboundWriteFormedInOrder :
    waitingResult.writer.buffer.length < 6 ∧ waitingResult.writer.pendingResult = some aResult ∧
      (roomyRing 0 fullRing.writer.queue).writer.queue ≠ [] ∧ (10 + 2 ^ 6 - 9) % 2 ^ 6 + 1 < 2 ^ 6 ∧
      (roomyRing 3 []).writer.skips ≠ 0 ∧ 2 ^ 6 ≤ (8 + 2 ^ 6 - 9) % 2 ^ 6 + 1 ∧ State.reset.writer.log = none ∧
      (buffered (List.replicate 5 readyWrite)).writer.buffer.length < 6 := by decide

theorem hyp_PartGrantsIssueTheirRequests :
    let s := buffered (List.replicate 6 readyWrite)
    let u := buffered [{ readyWrite with issued := true }, readyWrite]
    s.ports.locks = [] ∧ outboundFirst s = true ∧ (∀ m, u.waitingAt m = []) ∧ u.channel.read = none ∧
      u.writer.buffer = [{ readyWrite with issued := true }] ++ readyWrite :: [] ∧
      (after (.loadConfig (.new (word 0 0 1 0))) State.reset).channel.read = some (.config 0) ∧
      (after (.loadConfig (.new (word 0 0 1 0))) State.reset).ports.locks = [] := by decide +kernel

theorem hyp_OutboundWriteCompletionFreesPlace :
    let s := after .outboundWriteGrant (buffered [readyWrite, readyWrite])
    s.ports.outstanding = [.write] ∧ s.writer.buffer = [] ++ { readyWrite with issued := true } :: [readyWrite] := by
  decide +kernel

theorem hyp_ConfigReadResponseContinues :
    let s := reading 1 (.readingConfig []) (.config 18) State.reset
    s.ports.outstanding = [.read (.config 18) false] ∧ (List.replicate 8 (0 : Beat)).length = 8 ∧
      s.channel.inFlight.map InFlight.phase = some (.readingConfig []) ∧ s.resultWaits = false := by decide +kernel

theorem hyp_LoadDescriptorReadBuildsStagedEntry :
    let s := reading 1 (.readingDescriptors setup1 stagedStart 1 126 []) (.loadDescriptor 1 126) State.reset
    s.ports.outstanding = [.read (.loadDescriptor 1 126) false] ∧ (127 : RemoteNo).val = (126 : RemoteNo).val + 1 ∧
      s.resultWaits = false := by decide +kernel

theorem hyp_LastDescriptorAppliesTheLoad :
    let s := reading 1 (.readingDescriptors setup1 stagedStart 1 127 []) (.loadDescriptor 1 127) State.reset
    s.ports.outstanding = [.read (.loadDescriptor 1 127) false] ∧ nextDescriptor setup1 1 127 = none ∧
      s.resultWaits = false := by decide +kernel

theorem hyp_StagingReadResponseMakesTheChecks :
    let s := reading 0x0B .readingStaging (.staging 1 .map) (fabric Sector.reset)
    s.ports.outstanding = [.read (.staging 1 .map) false] ∧
      s.channel.inFlight.map InFlight.phase = some .readingStaging ∧ s.resultWaits = false ∧
      relocationFault s .map 1 0x400000 = none ∧ relocationFault s .map 1 0x400400 = some 3 ∧
      relocationFault s .report 1 0x400000 = some 2 := by decide +kernel

theorem hyp_RelocationReadTakesDifferences :
    let s := reading 0x0B (.relocationReading 126 3 none [] none) (.relocDescriptor 1 126) (fabric Sector.reset)
    s.ports.outstanding = [.read (.relocDescriptor 1 126) false] ∧
      s.channel.inFlight.map InFlight.phase = some (.relocationReading 126 3 none [] none) := by decide +kernel

theorem hyp_ResultHandoffFillsThePendingWord :
    let s := { State.reset with channel := { State.reset.channel with held := [aResult] } }
    s.writer.pendingResult = none ∧ s.channel.held = aResult :: [] ∧ s.writer.queue.length < 64 := by decide

theorem hyp_BackoffExpiryQueuesAtTail :
    let s := part 1 (sectorWith .active 9 (entryIn .faded 0))
    (s.sector 1).mode = .active ∧ (s.sector 1).suspended = false ∧ (s.entry 1 9).state = .faded ∧
      (s.entry 1 9).backoff = 0 := by decide +kernel

theorem hyp_EpisodeCountsExpire :
    (∀ st ∈ [EpisodeState.fading, EpisodeState.settling],
      let s := part 1 { Sector.reset with mode := .shadow, episode := { Episode.reset with state := st } }
      (s.sector 1).mode ≠ .pass ∧ (s.sector 1).suspended = false ∧ (s.sector 1).episode.state = st ∧
        (s.sector 1).episode.holdDown = 0 ∧ (s.sector 1).episode.settle = 0) := by decide +kernel

/-- Attempts 4 and 5 under the default limit of 6: the charges that bring attempts to 5 and to the limit. -/
theorem hyp_ChargeCountsAnAttempt :
    let s := part 1 (sectorWith .active 9 { entryIn .probing 0 with attempts := 4 })
    let u := part 1 (sectorWith .active 9 { entryIn .ranging 0 with attempts := 5 })
    (s.entry 1 9).attempts + 1 < (s.params 1).attemptsLimit ∧ (s.entry 1 9).state = .probing ∧
      (u.entry 1 9).attempts + 1 = (u.params 1).attemptsLimit ∧ (u.entry 1 9).state = .ranging := by decide +kernel

theorem hyp_RosterKeepsItsBounds :
    frame48.mode = .active ∧ frame48.suspended = false ∧ (drawRoster frame48).roster.members.length = 3 ∧
      (drawRoster { frame48 with episode := { frame48.episode with state := .fading } }).roster.members.length = 1 := by
  decide +kernel

theorem hyp_HoldOffFollowsTheFillLevel :
    (setQueue (List.replicate 48 { time := 0, sector := none, frame := none, body := .tail .order 0 })
      State.reset).holdOff = true ∧
    (setQueue (List.replicate 47 { time := 0, sector := none, frame := none, body := .tail .order 0 })
      State.reset).holdOff = false := by decide

/-! ### Further clauses: one state, or one value at each end, for each clause with a condition of its own -/

/-- The advance that reaches the deadline and one that does not, for both kinds of pending operation, and a phase that the
advance keeps. -/
theorem hyp_TimeBaseAdvances :
    pendingShadow.channel.inFlight.map InFlight.phase = some (.modePending 7020 false) ∧ pendingShadow.time + 1 = 7020 ∧
      State.reset.time + 1 ≠ 7020 ∧ relocDue.channel.inFlight.map InFlight.phase = some (.relocationPending 20 true) ∧
      (flying 1 9 1 .decided State.reset).channel.inFlight.map InFlight.phase = some .decided :=
  ⟨rfl, rfl, by decide, rfl, rfl⟩

theorem hyp_TimeoutEndsThePendingOperation_nothing_due :
    (∀ f d, State.reset.channel.inFlight = some f → f.phase ≠ .modePending d true ∧ f.phase ≠ .relocationPending d true) ∧
      ∀ f d, pendingShadow.channel.inFlight = some f →
        f.phase ≠ .modePending d true ∧ f.phase ≠ .relocationPending d true :=
  ⟨fun f d h => (by cases (show State.reset.channel.inFlight = none from rfl).symm.trans h), fun f d h => by cases h; simp⟩

/-- A part with a relocation of sector 1 pending, or a command of another phase in flight. -/
def relocating (kind : RelocKind) (p : Phase) : State :=
  flying 0x0B 9 1 p (part 1 { Sector.reset with pendingOp := some (.relocation kind 0x400000 10 false) })

/-- A load reading its area or its descriptors, a staging read, each kind of relocation pending, the read phase with and
without a CANCEL that waits, and a decided result. -/
theorem hyp_CancelAbandonsTheCommand_other_phases :
    (∀ p : Phase, (relocating .map p).ready (word 0 0 0x23 0) ∧
      (relocating .map p).channel.inFlight.map InFlight.phase = some p) ∧
      (∀ kind ∈ [RelocKind.map, .report, .descriptor],
        ((relocating kind (.relocationPending 20 false)).sector 1).pendingOp =
          some (.relocation kind 0x400000 10 false)) ∧ sectorOfByte 1 = some 1 :=
  ⟨fun _ => ⟨ready_at_reset_ports rfl rfl rfl rfl rfl rfl rfl, rfl⟩, by decide +kernel, by decide⟩

/-- The ends of each area of R141, with the class of a single beat there. -/
theorem test_anchor_areas :
    (∀ p ∈ [(0x000, AccessClass.takeCommand), (0x007, .takeCommand), (0x008, .absorb), (0x00F, .absorb), (0x010, .takeTail),
        (0x017, .takeTail), (0x018, .takeMarker), (0x01F, .takeMarker), (0x020, .pass), (0x7FF, .pass), (0x800, .absorb),
        (0x83F, .absorb), (0x840, .pass), (0x8FF, .pass), (0x900, .absorb), (0x9FF, .absorb), (0xA00, .pass), (0xBFF, .pass),
        (0xC00, .absorb), (0xFFF, .absorb)],
      classifyAnchorWrite (Window.anchorAt 0) (request 0 .write p.1) = p.2) ∧
      classifyAnchorWrite (Window.anchorAt 0) { request 0 .write 0x7C0 with beats := 8, data := List.replicate 8 0 } = .pass ∧
      classifyAnchorWrite (Window.anchorAt 0) { request 0 .write 0x7F8 with beats := 2, data := [0, 0] } =
        .refuse .split := by decide

/-- The beats of a request of two, at the last ordinary beat before the device status block. -/
theorem hyp_AccessMatrixAsTabulated_beats :
    beatAddrs { request 0 .write 0x7F0 with beats := 2, data := [0, 0] } = [0x7F0, 0x7F8] ∧
      beatAddrs { request 0 .write 0x7F8 with beats := 2, data := [0, 0] } = [0x7F8, 0x800] := by decide

/-- A part whose masters m and n have a request of class PASS at the head, with that master granted last. -/
def twoWaiting (m n last : MasterNo) (locks : List MasterNo) : State :=
  { State.reset with ports := { State.reset.ports with
      channels := (State.reset.ports.channels.set m.val [request m .read 0x1000] m.isLt).set n.val
        [request n .read 0x2000] n.isLt
      lastMaster := last, locks := locks } }

theorem hyp_HeldRequestsWait_locked :
    let s := { State.reset with ports := { State.reset.ports with locks := [3] } }
    let u := twoWaiting 3 5 7 [5]
    s.waitingAt 3 = [] ∧ s.ports.locks = [3] ∧ classify s (request 3 .read 0x1000) = .pass ∧
      u.ports.locks = 5 :: [] ∧ u.waitingAt 3 = request 3 .read 0x1000 :: [] ∧
      (classify u (request 3 .read 0x1000)).needsPort = true := by decide +kernel

/-- Masters 3 and 5 wait: 5 is next after 4, 3 after 5, across the wrap, and after 7. -/
theorem hyp_HeldRequestsWait_round_robin :
    (∀ p ∈ [((4 : MasterNo), (0 : Fin 8)), (5, 5), (7, 3)],
      let s := twoWaiting 3 5 p.1 []
      s.ports.locks = [] ∧ outboundFirst s = false ∧ eligible s (s.ports.lastMaster + 1 + p.2) = true ∧
        (∀ j : Fin 8, j < p.2 → eligible s (s.ports.lastMaster + 1 + j) = false) ∧
        s.waitingAt (s.ports.lastMaster + 1 + p.2) ≠ []) ∧
      classify (twoWaiting 3 5 4 []) (request 5 .read 0x2000) = .pass ∧
      (classify (twoWaiting 3 5 4 []) (request 3 .read 0x1000)).needsPort = true := by decide +kernel

/-- Lanes at each end of their ranges, and a state for each clause of the ceiling and admin lanes. -/
theorem hyp_ClassAndGroupLanesTaken :
    (∀ p ∈ [((0x0F030000 : Beat), 3, 15), (0, 0, 0), (0x10040000, 4, 16)],
      (beatByte p.1 2).toNat = p.2.1 ∧ (beatByte p.1 3).toNat = p.2.2) ∧
      (∀ n ∈ [6, 7, 11, 12], (beatByte (BitVec.ofNat 64 (256 * n)) 1).toNat = n) ∧
      (∀ lanes ∈ [(0 : Lanes), 0x04, 0x08, 0xFC], lanes.getLsbD 0 = false ∧ lanes.getLsbD 1 = false) ∧
      (∀ m ∈ [Mode.pass, .shadow, .active], ∀ admin ∈ [true, false],
        let s := part 1 (sectorWith m 37 { entryIn .climbing 6 with admin := admin })
        (s.entry 1 37).ceiling = 7 ∧ (s.entry 1 37).profile = 6 ∧ (s.entry 1 37).state = .climbing ∧
          (s.entry 1 37).admin = admin ∧ (s.sector 1).suspended = false ∧ (s.sector 1).mode = m) ∧
      ((part 1 { sectorWith .active 37 (entryIn .serving 7) with suspended := true }).sector 1).suspended = true := by
  decide +kernel

/-- A load reading descriptors while a CONTROLLER writes across the staged table's windows: the table in force has the
write inside a DESCRIPTOR window. -/
theorem hyp_RefusedRequestAnsweredError_in_force :
    let s := flying 1 9 1 (.readingDescriptors { setup1 with log := some (6, 0x1003F8) } stagedStart 1 126 [])
      (fabric Sector.reset)
    let q := { request 0 .write 0x1003F0 with beats := 2, data := [0, 0] }
    classify s q = .refuse .split ∧ inForceDescriptor s q = some (win .descriptor 0x100000 10, 1) ∧
      inForceDescriptor (fabric Sector.reset) q = none := by decide +kernel

theorem hyp_RefusedRequestAnsweredError_lock :
    let s := { waitingResult with ports := { waitingResult.ports with locks := [0] } }
    s.anchored ∧ s.role 0 = .controller ∧ s.resultWaits = true ∧ s.waitingAt 0 = [] ∧ (0 : MasterNo) ∈ s.ports.locks ∧
      s.owedTo 0 = [] :=
  ⟨⟨rfl, 0, rfl⟩, by decide, rfl, by decide, by decide, by decide⟩

/-- Sector 1 ACTIVE with remote 9 in a state and two undecided slots, in an episode that reclaims, with a roster of two. -/
def firstRead (st : RState) (waiting : List RemoteNo) : State :=
  part 1 { sectorWith .active 9 (entryIn st 2) with
    frame := 7040, history := [{ frame := 7040, slots := [none, none] }], waitList := waiting
    episode := { Episode.reset with state := .recovering }
    roster := { members := [{ remote := 50, solo := false, scout := false, placed := false }], mask := 3, budget := 1,
                used := 0 } }

/-- A first read of each raw kind, of a remote in each state, with remote 9 on the wait list and without. -/
theorem hyp_ReReadsReturnTheStoredRecord_first :
    (∀ st ∈ RState.all, ((firstRead st []).entry 1 9).state = st) ∧
      ((firstRead .ranging [9]).sector 1).waitList = [9] ∧ ((firstRead .queued []).sector 1).roster.canSupply = true ∧
      ((firstRead .queued []).sector 1).episode.state = .recovering ∧
      ((firstRead .queued []).sector 1).tunables.reclaim = true ∧
      ((part 1 undecided).sector 1).roster.canSupply = false ∧
      (∀ p ∈ [((0x900 : Beat), RawKind.idle), (0x901, .dataUp), (0x902, .dataDown), (0x903, .restore), (0x905, .restore),
        (0x906, .other), (0x90F, .other)], (rawRecordOf p.1).kind = p.2 ∧ (rawRecordOf p.1).remote = 9) ∧
      (Plan.mk 7040 [none, none]).assigned 9 = false := by decide +kernel

theorem hyp_EpochCompletesTheModeChange_relocation :
    ∀ kind ∈ [RelocKind.map, .report, .descriptor],
      let s := relocating kind (.relocationPending 20 false)
      (s.sector 1).pendingOp = some (.relocation kind 0x400000 10 false) ∧ s.resultWaits = false ∧
        s.channel.inFlight.map InFlight.phase = some (.relocationPending 20 false) := by decide +kernel

/-- Sector 1 ACTIVE with one plan of tag 80h whose slots are open, resolved, void and unwatched, the last a probe's. -/
def reported (m : Mode) (suspended : Bool) : State :=
  let w (c : Condition) : Option Decided :=
    some { decision := .raw (some { remote := 9, kind := .fadeWatch, condition := c }), record := some 0 }
  part 1 { sectorWith m 9 (entryIn .serving 7) with
    suspended := suspended, frame := 7040
    history := [{ frame := 7040, slots :=
      [w .open, w .resolved, w .void, some { decision := .idle, record := some 0 },
       some { decision := .probe false [none, none, none, none, none, none], record := some 0 }] }] }

/-- A report in each case of R105 to R109: slots 0 to 5 of the plan, and the tag of no plan. -/
theorem hyp_EveryReportIsCountedOnce_engine :
    (((reported .active false).sector 1).planOfTag 0x80).map (fun p => (p.count, p.probeAt 3, p.probeAt 4, p.watch 3 0)) =
        some (5, false, true, none) ∧
      (∀ q ∈ [(0, Condition.open), (1, .resolved), (2, .void)],
        (((reported .active false).sector 1).planOfTag 0x80).map (fun p => p.watch q.1 0) =
          some (some { remote := 9, kind := .fadeWatch, condition := q.2 })) ∧
      ((reported .active false).sector 1).planOfTag 0x81 = none ∧
      ((reported .active true).sector 1).suspended = true ∧ ((reported .pass false).sector 1).mode = .pass := by
  decide +kernel

/-- Report fields at each end of their ranges, quarters 0 to 3 and lanes of none, and a pack of each length. -/
theorem hyp_EveryReportIsCountedOnce_intake :
    (reportOf 0).valid = false ∧
      (∀ p ∈ [((0xBF00 : Beat), 63, 0, 0), (0xC000, 64, 0, 0), (0x058000, 0, 5, 0), (0x068000, 0, 6, 0), (0x188000, 0, 0, 3),
        (0x208000, 0, 0, 4)], (reportOf p.1).valid = true ∧ (reportOf p.1).slot = p.2.1 ∧
          (reportOf p.1).minislot = p.2.2.1 ∧ (reportOf p.1).outcome = p.2.2.2) ∧
      (∀ p ∈ [((0x03 : Lanes), (0 : Fin 4)), (0x0C, 1), (0x30, 2), (0xC0, 3)], quarterOf p.1 = some p.2) ∧
      quarterOf 0x01 = none ∧ quarterOf 0x0F = none ∧ quarterOf allLanes = none ∧
      (∀ n ∈ [1, 2, 3],
        let s := part 1 { Sector.reset with
          pack := some { addr := 0x300048, winBase := 0x300000, quarters := List.replicate n 0 } }
        ((s.sector 1).pack.map fun p => (p.addr, p.quarters.length)) = some (0x300048, n)) := by decide +kernel

theorem hyp_MemoryResponseReturned_order :
    let s := after (.passThroughRequest (.new (request 0 .read 0x1000))) State.reset
    let t := after (.absorbedWrite (.new (request 0 .write 0x808))) s
    let u := after (.passThroughRequest (.new (request 0 .read 0x1000))) t
    classify s (request 0 .write 0x808) = .absorb ∧ s.owedTo 0 = .awaiting 1 none :: [] ∧
      t.owedTo 0 = .awaiting 1 none :: ([{ error := false, data := [] }].map Owed.formed ++ []) ∧
      u.owedTo 0 = .awaiting 1 none :: ([{ error := false, data := [] }].map Owed.formed ++ [.awaiting 1 none]) := by
  decide +kernel

/-- A part with the device block marked, or counter block k, or mirror group g after the one last formed. -/
def marked (device : Bool) (k : Option SectorNo) (g : Option (Fin 128)) (last : Fin 128) : State :=
  { State.reset with writer := { State.reset.writer with
      deviceDirty := device
      counterDirty := match k with
        | some k => State.reset.writer.counterDirty.set k.val true k.isLt
        | none => State.reset.writer.counterDirty
      mirrorDirty := match g with
        | some g => State.reset.writer.mirrorDirty.set g.val true g.isLt
        | none => State.reset.writer.mirrorDirty
      lastGroup := last } }

/-- Six writes held; the device block marked; each counter block the lowest marked. -/
theorem hyp_OutboundWriteFormedInOrder_blocks :
    6 ≤ (buffered (List.replicate 6 readyWrite)).writer.buffer.length ∧
      (marked true none none 127).writer.deviceDirty = true ∧
      (∀ k : SectorNo, (marked false (some k) none 127).writer.counterDirty[k] = true ∧
        ∀ j : SectorNo, j < k → (marked false (some k) none 127).writer.counterDirty[j] = false) ∧
      (marked false none none 127).writer.log = none ∧ (marked false none none 127).writer.queue = [] := by decide +kernel

/-- Every mirror group is the next one marked, after any group last formed and at any place of the turn. -/
theorem hyp_OutboundWriteFormedInOrder_groups (last i : Fin 128) :
    let s := marked false none (some (last + 1 + i)) last
    s.writer.mirrorDirty[s.writer.lastGroup + 1 + i] = true ∧
      ∀ j : Fin 128, j < i → s.writer.mirrorDirty[s.writer.lastGroup + 1 + j] = false := by
  refine ⟨by simp [marked], fun j hj => ?_⟩
  have hne : (last + 1 + i).val ≠ (last + 1 + j).val := fun h => hj.ne (add_left_cancel (Fin.val_injective h)).symm
  simp [marked, hne, State.reset, State.resetWith, Writer.reset]

/-- The device status block of distinct values, beat by beat (Table 11.12). -/
theorem test_device_block :
    deviceBlock { flying 2 0x21 0 .decided State.reset with
      time := 0x31323334
      notices := { State.reset.notices with pending := 0x48 }
      writer := { State.reset.writer with faults := 5, head := 0x11, seq := 0x21222324, skips := 7 } } =
      [0x0000000500210148, 0x2122232400000011, 0x3132333400000007, 0, 0, 0, 0, 0] := by decide +kernel

/-- A part write leaves at its address with its beats; so does a read (R129). -/
theorem test_part_requests_issued :
    (after .outboundWriteGrant (buffered [{ readyWrite with data := [5] }])).ports.issued =
      [{ master := 8, dir := .write, addr := 0x800, beats := 1, lanes := allLanes, lock := false, data := [5] }] ∧
    (after .partReadGrant (after (.loadConfig (.new (word 0 0 1 0))) State.reset)).ports.issued.getLast? =
      some { master := 8, dir := .read, addr := 0x100, beats := 8, lanes := allLanes, lock := false, data := [] } := by
  decide +kernel

theorem hyp_PartGrantsIssueTheirRequests_addresses :
    ((reading 1 (.readingDescriptors setup1 stagedStart 1 126 []) (.loadDescriptor 1 126) State.reset).channel.inFlight.map
        InFlight.phase) = some (.readingDescriptors setup1 stagedStart 1 126 []) ∧
      setup1.sectors[(1 : SectorNo)].map SectorSetup.descBase = some 0x100000 ∧
      ((fabric Sector.reset).windows.find? fun w => w.kind = .descriptor && w.sector = some 1) =
        some (win .descriptor 0x100000 10) := by decide +kernel

/-- An area whose items are all in range: timeout 1, twelve rising profiles, every master CONTROLLER; sector 3 configured at
the low end of its ranges where asked. -/
def validArea (sector3 : Bool) : List Beat :=
  [1] ++ List.replicate 7 0 ++
  ((List.range 6).map fun j => BitVec.ofNat 64 ((8 * j + 4) + 2 ^ 16 * (8 * j) + 2 ^ 32 * (8 * j + 8) +
    2 ^ 48 * (8 * j + 4))) ++ List.replicate 114 0 ++
  (if sector3 then [1, 0x100000, 0x200000, 0x300000, 0x010101010101010A, 0x0200000008000000] else List.replicate 6 0) ++
  List.replicate 26 0

/-- A first test that fails, no sector configured, and one configured. -/
theorem hyp_ConfigReadResponseContinues_last :
    (∃ post, allTests (List.replicate 160 0) 0 = [] ++ (false, 1) :: post) ∧
      (∀ b ∈ [true, false], (validArea b).length = 160 ∧ ∀ x ∈ allTests (validArea b) 0, x.1 = true) ∧
      (∀ k : SectorNo, (setupOf (validArea false)).sectors[k] = none) ∧
      (setupOf (validArea true)).sectors[(3 : SectorNo)].isSome = true ∧
      ∀ j : SectorNo, j < 3 → (setupOf (validArea true)).sectors[j] = none :=
  ⟨⟨_, rfl⟩, by decide +kernel, by decide +kernel, by decide +kernel, by decide +kernel⟩

/-- Each check of a staging entry at its ends: exponents 9, 10, 16 and 17, alignment, overlap, and a full table. -/
theorem test_relocation_checks :
    let s := fabric Sector.reset
    let full := { s with windows := s.windows ++ List.replicate 12 (win .guard 0x800000 10) }
    let at_ (e : Nat) (base : Nat) : Beat := BitVec.ofNat 64 (base + 2 ^ 40 * e)
    relocationFault s .report 1 (at_ 9 0x400000) = some 2 ∧ relocationFault s .report 1 (at_ 10 0x400000) = none ∧
      relocationFault s .report 1 (at_ 16 0x400000) = none ∧ relocationFault s .report 1 (at_ 17 0x400000) = some 2 ∧
      relocationFault s .descriptor 1 0x400200 = some 3 ∧ relocationFault s .descriptor 1 0x2003FF = some 3 ∧
      relocationFault s .descriptor 1 0x200400 = some 4 ∧ relocationFault s .descriptor 1 0x200800 = none ∧
      relocationFault full .map 1 0x400000 = some 5 ∧ relocationFault full .report 1 (at_ 10 0x400000) = none := by
  decide +kernel

/-- The end of the read phase: an ERROR or none, with and without an earlier failure and a CANCEL that waits. -/
theorem hyp_RelocationReadTakesDifferences_last :
    ∀ failed ∈ [none, some (3 : RemoteNo)], ∀ cancel ∈ [none, some (word 0 0 0x23 0 : CommandWrite)],
      let s := reading 0x0B (.relocationReading 127 4 failed [] (cancel.map fun w => w.command 0x0D)) (.relocDescriptor 1 127)
        (fabric Sector.reset)
      s.ports.outstanding = [.read (.relocDescriptor 1 127) false] ∧ s.resultWaits = false := by decide +kernel

/-- Sector 1 with its episode in a state and n remotes QUEUED. -/
def raining (st : EpisodeState) (n : Nat) : Sector :=
  (List.range n).foldl (fun x r => x.setEntry (Fin.ofNat 128 r) (entryIn .queued 0))
    { Sector.reset with mode := .active, episode := { Episode.reset with state := st } }

/-- n at, above and below the threshold and at 0, in each state of an episode. -/
theorem hyp_EpisodeCountsExpire_inputs :
    ∀ st ∈ [EpisodeState.clear, .fading, .recovering, .settling],
      ((part 1 (raining st 0)).sector 1).n = 0 ∧
      ((part 1 (raining st (raining st 0).tunables.threshold)).sector 1).n = (raining st 0).tunables.threshold ∧
      ((part 1 (raining st 0)).sector 1).episode.state = st := by decide +kernel

/-- A remote in each state that takes outcomes, alone and with a FADED companion, at the ends of its counts. -/
theorem hyp_ChargeCountsAnAttempt_outcomes :
    (∀ st ∈ [RState.serving, .faded, .probing, .ranging, .climbing],
      let s := part 1 ((sectorWith .active 9 { entryIn st 2 with group := some 4 }).setEntry 10
        { entryIn .faded 0 with group := some 4 })
      (s.entry 1 9).state = st ∧ (s.entry 1 10).state = .faded ∧ (s.entry 1 10).group = (s.entry 1 9).group ∧
        s.store.profiles[(s.entry 1 9).profile]? = some { enter := 12, exit := 8 } ∧
        s.store.profiles[(s.entry 1 9).profile + 1]? = some { enter := 16, exit := 12 }) ∧
      (Params.default.fadeCount ≠ 0 ∧ 1 < Params.default.rangingLimit ∧ 1 < Params.default.climbHold) ∧
      ((part 1 (sectorWith .shadow 9 (entryIn .faded 0))).sector 1).mode = .shadow ∧
      ({ remote := 51, silent := true } : Ranger) ∈
        ((part 1 { sectorWith .active 51 (entryIn .ranging 0) with
          rangingOrder := [{ remote := 51, silent := true }] }).sector 1).rangingOrder := by decide +kernel

/-- The stamp counters at and before their ends, with two remotes QUEUED in the order of their stamps. -/
theorem hyp_RosterKeepsItsBounds_restamp :
    let x := ((sectorWith .active 50 { entryIn .queued 0 with order := 32770 }).setEntry 61
      { entryIn .queued 0 with order := 65535 })
    let y := readyTail { x with nextTail := 65536 }
    (x.entry 50).order < (x.entry 61).order ∧ (y.entry 50).order = 16384 ∧ (y.entry 61).order = 16385 ∧
      y.nextTail = 16386 ∧ y.nextHead = 16383 ∧
      ((readyHead { x with nextHead := 0 }).entry 61).order = 16385 ∧
      (readyTail { x with nextTail := 65535 }).nextTail = 65535 ∧ (readyHead { x with nextHead := 1 }).nextHead = 1 := by
  decide +kernel

/-- A deferred value is taken on the way to PASS; ceiling and class are kept. -/
theorem test_set_mode_pass_deferred :
    let e := { entryIn .climbing 2 with deferred := some false, lastMargin := some 9 }
    let t := after (.setMode (.new (word 0 0 1 0))) (part 0 { sectorWith .active 9 e with suspended := true })
    t.entry 0 9 = { entryIn .idle 7 with admin := false, lastMargin := some 9 } := by decide +kernel

/-- A load of sector 1 that reads descriptors of a setup, in the state of `fabric`, with a read issued or not. -/
def loading (setup : Setup) (read : Option ReadTarget) : State :=
  let s := flying 1 9 1 (.readingDescriptors setup stagedStart 1 126 []) (fabric Sector.reset)
  { s with channel := { s.channel with read := read } }

/-- A request of two beats. -/
def twoBeats (m : MasterNo) (dir : Dir) (addr : Addr) : Request :=
  { request m dir addr with beats := 2, data := match dir with
      | .read => []
      | .write => [0, 0] }

/-- A request outside every window, in one, across the end of one, past the top of the address space and held back inside its
master's sequence; the staged table of a load without sector 1. -/
theorem hyp_AccessMatrixAsTabulated_placement :
    let s := fabric Sector.reset
    let windowOf := fun (s : State) (a : Nat) => s.activeTable.find? fun w =>
      decide (w.base.toNat ≤ a ∧ a < w.base.toNat + 2 ^ w.sizeExp)
    let none1 := { setup1 with sectors := #v[none, none, none, none] }
    windowOf s 0x1000 = none ∧ windowOf s 0x2007F8 = some (win .map 0x200000 11) ∧
      windowOf s 0x1003F8 ≠ windowOf s 0x100400 ∧ windowOf (loading none1 none) 0x2007F8 = none ∧
      (∀ p ∈ [(twoBeats 2 .read 0x1000, AccessClass.pass), (request 2 .read 0x2007F8, .patch (win .map 0x200000 11) 1),
        (request 3 .read 0x2007F8, .refuse .role), (twoBeats 0 .write 0x1003F8, .refuse .split),
        (twoBeats 0 .read 0xFFFFFFFFF8, .refuse .split), (request 0 .read 0xFFFFFFFFF8, .pass),
        (request 0 .write 0, .takeCommand)], classify s p.1 = p.2) ∧
      classify (loading setup1 none) (request 2 .read 0x2007F8) = .patch (win .map 0x200000 11) 1 ∧
      classify (loading none1 none) (request 2 .read 0x2007F8) = .pass ∧
      classify { waitingResult with ports := { waitingResult.ports with locks := [0] } } (request 0 .write 0) =
        .refuse .lock ∧
      classify waitingResult (request 0 .write 0) = .takeCommand := by decide +kernel

/-- Writes of each class that the table in force has in its DESCRIPTOR window while a load reads descriptors. -/
theorem hyp_EngineRequestsTaken_in_force :
    let none1 := { setup1 with sectors := #v[none, none, none, none] }
    let q := request 0 .write 0x1003F8
    let low := { loading setup1 none with windows := [win .descriptor 0x800 10] }
    classify (loading none1 none) q = .pass ∧ inForceDescriptor (loading none1 none) q = some (win .descriptor 0x100000 10, 1) ∧
      classify (loading setup1 none) q = .snoopDescriptor (win .descriptor 0x100000 10) 1 ∧
      inForceDescriptor (loading setup1 none) q = some (win .descriptor 0x100000 10, 1) ∧
      classify low (request 0 .write 0x808) = .absorb ∧
      inForceDescriptor low (request 0 .write 0x808) = some (win .descriptor 0x800 10, 1) ∧
      inForceDescriptor (loading setup1 none) (request 2 .read 0x1003F8) = none ∧ (loading none1 none).portFree :=
  ⟨by decide +kernel, by decide +kernel, by decide +kernel, by decide +kernel, by decide +kernel, by decide +kernel,
    by decide +kernel, portFree_at_reset_ports rfl rfl⟩

/-- Copies of descriptors before, at and after the one being read, the read waiting and issued: a load takes them on the staged
entries, for the read, or not at all; the read phase of a relocation takes them on the entries, for the read, or not at all. -/
theorem test_descriptor_copies :
    let target := some (ReadTarget.loadDescriptor 1 126)
    let beat : Beat := 0x00030000
    let late : LateWrite := { lanes := 0x04, beat := beat }
    let phase := fun s : State => s.channel.inFlight.map InFlight.phase
    let moved := { loading setup1 target with channel := { (loading setup1 target).channel with
      inFlight := some { cmd := { code := 0x0B, sector := 1, remote := 0, tag := 9, arg := 1 }
                         phase := .relocationReading 126 0 none [] none } } }
    let issued := fun s : State => { s with channel := { s.channel with read := none } }
    phase (copyDescriptor 1 125 0x04 beat (loading setup1 target)) = some (.readingDescriptors setup1
        (modStaged 1 125 (fun e => { e with entry := { e.entry with cls := 3 } }) stagedStart) 1 126 []) ∧
      phase (copyDescriptor 1 126 0x04 beat (loading setup1 none)) =
        some (.readingDescriptors setup1 stagedStart 1 126 [late]) ∧
      copyDescriptor 1 126 0x04 beat (loading setup1 target) = loading setup1 target ∧
      copyDescriptor 2 0 0x04 beat (loading setup1 target) = loading setup1 target ∧
      ((copyDescriptor 1 125 0x04 beat moved).entry 1 125).cls = 3 ∧
      phase (copyDescriptor 1 126 0x04 beat (issued moved)) = some (.relocationReading 126 0 none [late] none) ∧
      copyDescriptor 1 126 0x04 beat moved = moved ∧ copyDescriptor 1 127 0x04 beat moved = moved ∧
      ((copyDescriptor 0 127 0x04 beat moved).entry 0 127).cls = 3 := by decide +kernel

/-- A write accepted between the issue of a descriptor's read and its answer is taken after the answer. -/
theorem test_late_writes :
    let late : LateWrite := { lanes := 0x04, beat := 0x00030000 }
    let t := after (.loadDescriptorReadResponse { error := false, data := [0x10020701] })
      (reading 1 (.readingDescriptors setup1 stagedStart 1 126 [late]) (.loadDescriptor 1 126) State.reset)
    let u := after (.relocationDescriptorReadResponse { error := true, data := [0] })
      (reading 0x0B (.relocationReading 126 3 none [late] none) (.relocDescriptor 1 126) (fabric Sector.reset))
    ((staged126 t).map fun e => (e.entry.ceiling, e.entry.cls)) = some (7, 3) ∧ (u.entry 1 126).cls = 3 ∧
      u.channel.inFlight.map InFlight.phase = some (.relocationReading 127 3 (some 126) [] none) := by decide +kernel

/-- A window with a sector, a window of none and a role with a sector, no window and a role with none. -/
theorem hyp_RefusedRequestAnsweredError_fields :
    let s := fabric Sector.reset
    (∀ p ∈ [(request 3 .read 0x200018, AccessCause.role), (request 3 .write 0x808, .role), (twoBeats 7 .read 0x2FFFF8, .split)],
      p.1.ok = true ∧ classify s p.1 = .refuse p.2) ∧
      (s.role 3, s.role 7) = (.builder 2, .other) ∧
      ([0x200018, 0x808, 0x2FFFF8].map fun a : Addr => (windowAt s.activeTable a).map fun w => (w.kind, w.sector)) =
        [some (.map, some 1), some (.anchor, none), none] := by decide +kernel

/-- First reads in SHADOW of a DATA_UP record, of a remote to be watched and of one not; a decided slot; a roster that
supplies. -/
theorem hyp_ReReadsReturnTheStoredRecord_shadow :
    let x := fun st => part 1 { (firstRead st []).sector 1 with mode := .shadow }
    (∀ st ∈ [RState.serving, .faded, .climbing], ((x st).sector 1).mode = .shadow ∧ ((x st).sector 1).suspended = false ∧
      ((x st).sector 1).history.getLast? = some { frame := 7040, slots := [none, none] } ∧ ((x st).entry 1 9).state = st) ∧
      (rawRecordOf 0x901).remote = 9 ∧ (0x901 : Beat).toNat % 16 = 1 ∧ (7040 : Frame).toNat % 2 = 0 ∧
      (((reported .shadow false).sector 1).history.getLast?.bind fun p => p.slots[4]?).isSome = true ∧
      ((firstRead .queued []).sector 1).roster.supply.map (fun o => o.member.remote) = [50] := by decide +kernel

/-- Offsets of a header, of the first and the last record, and of the byte after it. -/
theorem hyp_MapReadResponseTaken_offsets :
    ([0x200400, 0x200408, 0x200600, 0x200608].map fun a : Addr => (a - 0x200000).toNat % 0x400) =
      [0, 8 + 8 * 0, 8 + 8 * 63, 0x208] := by decide

/-- A report write held off and a command word that waits for a result: both wait, neither is eligible. -/
theorem hyp_PartGrantsIssueTheirRequests_held :
    let held := fun (s : State) (m : MasterNo) (q : Request) =>
      { s with ports := { s.ports with channels := s.ports.channels.set m.val [q] m.isLt }
               writer := { s.writer with buffer := [readyWrite] } }
    ∀ s ∈ [held { fabric Sector.reset with holdOff := true } 5 (request 5 .write 0x300000),
        held waitingResult 5 (request 5 .write 0)],
      s.waitingAt 5 ≠ [] ∧ (∀ m, eligible s m = false) ∧ s.ports.locks = [] ∧ outboundFirst s = false ∧
        s.channel.read = none ∧ s.writer.buffer = [] ++ readyWrite :: [] := by decide +kernel

/-- A write of each source, dropped; mirror group 127 is of sector 3. -/
theorem hyp_OutboundWriteCompletionFreesPlace_dropped :
    ∀ p ∈ [(WriteSource.result, some (MemoryCause.result, 0x008)), (.device, some (.counter, 0x800)),
        (.counter 3, some (.counter, 0x9C0)), (.mirror 127, some (.mirror, 0xFF8)), (.log, none)],
      let s := after .outboundWriteGrant (buffered [{ readyWrite with source := p.1 }])
      s.writer.buffer = [] ++ { readyWrite with source := p.1, issued := true } :: [] ∧
        (after (.outboundWriteCompletion true) s).writer.queue.map (fun rec => (rec.body, rec.sector)) =
          (p.2.map fun q => (RecordBody.memory q.1 q.2, if 0x9C0 ≤ q.2 then some 3 else none)).toList := by
  decide +kernel

/-- The invariants hold of the state after reset, which every command meets. -/
theorem hyp_Invariants : State.reset.Inv ∧ State.reset.PlansInv ∧ step State.reset = .next State.reset := by
  refine ⟨⟨⟨by decide, by decide, by decide⟩, by decide, by decide, ⟨rfl, 0, rfl⟩, ?_⟩, ⟨?_, by decide +kernel, ?_⟩, rfl⟩
  · intro k; exact ⟨fun _ => by revert k; decide +kernel, fun h => by revert k; decide +kernel⟩
  · intro k
    have h : (State.reset.sector k).history = [] := by revert k; decide +kernel
    exact ⟨by rw [h]; exact List.nodup_nil, by rw [h]; simp, by rw [h]; simp⟩
  · intro f setup staged k r late h; exact absurd h (by simp [State.reset, State.resetWith, Channel.reset])

end Sys2Proof.Machine.Tests
end

/-! PROOF. The readmission queue stands by class and stamp (R51, R52): `sortBy` is the library's insertion sort, and R52's
order is total and transitive. -/

namespace Sys2Proof.Machine

/-! ### Sorting by an order -/

theorem insertBy_eq_orderedInsert (before : RemoteNo → RemoteNo → Bool) (r : RemoteNo) (rs : List RemoteNo) :
    insertBy before r rs = rs.orderedInsert (fun a b => before a b = true) r := by
  induction rs with
  | nil => rfl
  | cons q qs ih => simp only [insertBy, List.orderedInsert_cons, ih]

theorem sortBy_eq_insertionSort (before : RemoteNo → RemoteNo → Bool) (rs : List RemoteNo) :
    sortBy before rs = rs.insertionSort fun a b => before a b = true := by
  induction rs with
  | nil => rfl
  | cons r rs ih =>
    calc sortBy before (r :: rs) = insertBy before r (sortBy before rs) := rfl
      _ = (r :: rs).insertionSort fun a b => before a b = true := by
        rw [ih, insertBy_eq_orderedInsert, List.insertionSort_cons]

/-- Sorting keeps each remote as often as it stood. -/
theorem sortBy_perm (before : RemoteNo → RemoteNo → Bool) (rs : List RemoteNo) : (sortBy before rs).Perm rs :=
  sortBy_eq_insertionSort before rs ▸ List.perm_insertionSort _ rs

/-- A sorted list stands in the order it was sorted by, where that order is total and transitive. -/
theorem sortBy_pairwise (before : RemoteNo → RemoteNo → Bool) (total : ∀ a b, before a b = true ∨ before b a = true)
    (trans : ∀ a b c, before a b = true → before b c = true → before a c = true) (rs : List RemoteNo) :
    (sortBy before rs).Pairwise fun a b => before a b = true := by
  have : Std.Total fun a b => before a b = true := ⟨total⟩
  have : IsTrans RemoteNo fun a b => before a b = true := ⟨trans⟩
  rw [sortBy_eq_insertionSort]
  exact List.pairwise_insertionSort _ rs

/-! ### The order of the queue (R52) -/

theorem queueBefore_iff (x : Sector) (a b : RemoteNo) :
    queueBefore x a b = true ↔ (x.entry b).cls < (x.entry a).cls ∨
      ((x.entry a).cls = (x.entry b).cls ∧ (x.entry a).order ≤ (x.entry b).order) := by
  simp [queueBefore]

theorem queueBefore_total (x : Sector) (a b : RemoteNo) : queueBefore x a b = true ∨ queueBefore x b a = true := by
  simp only [queueBefore_iff]
  obtain h | h | h := lt_trichotomy (x.entry a).cls (x.entry b).cls
  · exact .inr (.inl h)
  · exact (Nat.le_total (x.entry a).order (x.entry b).order).imp (fun o => .inr ⟨h, o⟩) (fun o => .inr ⟨h.symm, o⟩)
  · exact .inl (.inl h)

theorem queueBefore_trans (x : Sector) (a b c : RemoteNo) (hab : queueBefore x a b = true)
    (hbc : queueBefore x b c = true) : queueBefore x a c = true := by
  rw [queueBefore_iff] at hab hbc ⊢
  obtain hab | ⟨eab, oab⟩ := hab <;> obtain hbc | ⟨ebc, obc⟩ := hbc
  · exact .inl (hbc.trans hab)
  · exact .inl (ebc ▸ hab)
  · exact .inl (eab ▸ hbc)
  · exact .inr ⟨eab.trans ebc, oab.trans obc⟩

/-! ### The members of the queue (R51) -/

@[simp] theorem mem_queued (x : Sector) (r : RemoteNo) : r ∈ x.queued ↔ (x.entry r).state = .queued := by
  simp [Sector.queued, mem_remotes]

theorem queued_nodup (x : Sector) : x.queued.Nodup := remotes_nodup.filter _

theorem queue_nodup (x : Sector) : x.queue.Nodup := (sortBy_perm _ _).nodup_iff.mpr (queued_nodup x)

theorem mem_queue (x : Sector) (r : RemoteNo) : r ∈ x.queue ↔ (x.entry r).state = .queued :=
  (mem_sortBy _ r _).trans (mem_queued x r)

theorem queue_pairwise_queueBefore (x : Sector) : x.queue.Pairwise fun a b => queueBefore x a b = true :=
  sortBy_pairwise _ (queueBefore_total x) (queueBefore_trans x) _

/-- Settles O54: the queue is the QUEUED remotes sorted by R52's order, which is total and transitive. -/
theorem queueStandsByClassAndStamp : Obligations.QueueStandsByClassAndStamp := by
  unfold Obligations.QueueStandsByClassAndStamp
  exact fun x => ⟨queue_nodup x, mem_queue x, (queue_pairwise_queueBefore x).imp (queueBefore_iff x _ _).mp⟩

end Sys2Proof.Machine

/-! PROOF. The hold-off follows the record queue's fill level (R102): off, only the high mark turns it on; on, only the low
mark turns it off. -/

namespace Sys2Proof.Machine

/-! ### The hold-off and the fill level (R102) -/

@[simp] theorem resetWith_holdOff (straps : Byte) : (State.resetWith straps).holdOff = false := rfl

@[simp] theorem setQueue_holdOff (q : List LogRecord) (s : State) :
    (setQueue q s).holdOff = holdOffAfter q.length s.holdOff := rfl

theorem holdOffAfter_off_eq_true_iff (level : Nat) : holdOffAfter level false = true ↔ 48 ≤ level :=
  calc holdOffAfter level false = true
    _ ↔ Config.highMark ≤ level := by simp [holdOffAfter]
    _ ↔ 48 ≤ level := Iff.rfl

theorem holdOffAfter_on_eq_false_iff (level : Nat) : holdOffAfter level true = false ↔ level ≤ 32 :=
  calc holdOffAfter level true = false
    _ ↔ level ≤ Config.lowMark := by simp [holdOffAfter]
    _ ↔ level ≤ 32 := Iff.rfl

/-- Settles O56: the hold-off after a change of the queue is `holdOffAfter` of the new level, read from off and from on. -/
theorem holdOffFollowsTheFillLevel : Obligations.HoldOffFollowsTheFillLevel := by
  unfold Obligations.HoldOffFollowsTheFillLevel
  refine ⟨resetWith_holdOff 0, resetWith_holdOff, fun q s => ⟨fun off => ?_, fun on => ?_⟩⟩
  · rw [setQueue_holdOff, off]
    exact holdOffAfter_off_eq_true_iff q.length
  · rw [setQueue_holdOff, on]
    exact holdOffAfter_on_eq_false_iff q.length

end Sys2Proof.Machine

/-! PROOF. The marker word (R165): a CONTROLLER's write to it is forwarded and handed to the Outbound Writer, which queues one
MARKER record with the bytes of the enabled lanes. -/

namespace Sys2Proof.Machine

/-! ### The bytes of a masked word -/

theorem beatByte_maskLanes (lanes : Lanes) (b : Beat) {n : Nat} (h : n < 8) :
    beatByte (maskLanes lanes b) n = if lanes.getLsbD n then beatByte b n else 0 := by
  unfold maskLanes
  rw [beatByte_beatOfBytes _ n h]
  simp [h]

/-! ### The marker word on the fabric port (R131, R141) -/

theorem markerRequest_ok (s : State) (w : WordWrite) (h : w.lanes ≠ 0) : (markerRequest s w).ok = true := by
  simpa [markerRequest, wordRequest, Request.ok] using h

theorem forwarded_kept (p : Option Patch) (q : Request) (s : State) : DeviceKept s (forwarded p q s) :=
  ⟨rfl, rfl, rfl, rfl, rfl, rfl, rfl, rfl, rfl, rfl, rfl, rfl, rfl, rfl⟩

theorem exec_markerWord_new (w : WordWrite) (s : State) :
    exec (.markerWord (.new w)) s = takeRequest issue (markerRequest s w) s := rfl

/-- A marker word that can be granted the port is forwarded, and then taken by the Outbound Writer. -/
theorem issue_markerRequest {s : State} {w : WordWrite} (h : s.readyFor w) :
    issue (markerRequest s w) s = takeMarkerWord w.lanes w.word (forwarded none (markerRequest s w) s) := by
  have hc : classify s (markerRequest s w) = .takeMarker := classify_marker s w h.anchor h.role
  calc issue (markerRequest s w) s
    _ = acceptAs (markerRequest s w) (classify s (markerRequest s w)) (granted (markerRequest s w) s) :=
      issue_portFree _ s h.port (by rw [hc]; rfl) (by rw [hc]; rfl)
    _ = takeMarkerWord w.lanes w.word (oweAwaited (markerRequest s w) none (granted (markerRequest s w) s)) := by
      rw [hc]; rfl
    _ = takeMarkerWord w.lanes w.word (forwarded none (markerRequest s w) s) := by rw [oweAwaited_granted]

theorem exec_markerWord_ready {s : State} {w : WordWrite} (h : s.readyFor w) :
    exec (.markerWord (.new w)) s = .next (takeMarkerWord w.lanes w.word (forwarded none (markerRequest s w) s)) := by
  rw [exec_markerWord_new, takeRequest, if_pos (markerRequest_ok s w h.some_lane), issue_markerRequest h]

/-! ### The MARKER record (R165, R172) -/

theorem takeMarkerWord_quiet (lanes : Lanes) (b : Beat) (s : State) : Quiet s (takeMarkerWord lanes b s) :=
  quiet_pushRecord _ s

theorem takeMarkerWord_sectors (lanes : Lanes) (b : Beat) (s : State) : (takeMarkerWord lanes b s).sectors = s.sectors :=
  pushRecord_sectors _ s

theorem takeMarkerWord_notices (lanes : Lanes) (b : Beat) (s : State) : (takeMarkerWord lanes b s).notices = s.notices :=
  pushRecord_notices _ s

theorem takeMarkerWord_logged (lanes : Lanes) (b : Beat) (s : State) :
    Logged { time := s.time, sector := none, frame := none, body := .marker lanes (maskLanes lanes b) } s
      (takeMarkerWord lanes b s) :=
  pushRecord_logged _ s

/-- Settles O27: the granted word is forwarded and pushed as one MARKER record; what the push keeps of the forwarded state,
forwarding keeps of the state before. -/
theorem markerWordQueuesARecord : Obligations.MarkerWordQueuesARecord := by
  unfold Obligations.MarkerWordQueuesARecord
  intro w s h
  let u := forwarded none (markerRequest s w) s
  have hq : Quiet u (takeMarkerWord w.lanes w.word u) := takeMarkerWord_quiet w.lanes w.word u
  obtain ⟨queued, skipped⟩ := takeMarkerWord_logged w.lanes w.word u
  exact ⟨takeMarkerWord w.lanes w.word u, maskLanes w.lanes w.word, exec_markerWord_ready h,
    takeMarkerWord_sectors w.lanes w.word u, hq.channel, hq.ports, (forwarded_kept none _ s).trans hq.dev,
    takeMarkerWord_notices w.lanes w.word u, fun n => beatByte_maskLanes w.lanes w.word n.isLt, queued, skipped⟩

end Sys2Proof.Machine

/-! PROOF. Every step keeps the invariants (R79, R84, R102, R133, R145, R172, R174), and only a tick or a reset moves the time base
(R173): each row of the table is a fabric row, a response of memory, an event of the part, the tick or the reset. -/

namespace Sys2Proof.Machine

/-! ### The rows by kind -/

/-- What a row that answers a next state is: the rows by which the outside issues a request all run `takeIssue`, those by which
memory answers `memoryReply` or `partReadReply`; an event of the part is an act and then a move of its Outbound Writer, each of
which may be none. -/
inductive RowKind (c : Instr) (s t : State) : Prop where
  | issue {α : Type} (request : α → Request) (i : Issue α) (h : takeIssue request i s = .next t)
  | reply (m : MasterNo) (r : Reply) (h : memoryReply m r s = .next t)
  | part (r : Reply) (h : partReadReply r s = .next t)
  | event (u : State) (a : Act s u) (w : Writes u t)
  | advance (hc : c = .timeBaseAdvance) (h : t = advanceTime s)
  | reset (straps : Byte) (hc : c = .powerOnReset straps) (h : t = { State.resetWith straps with pending := s.pending })

theorem RowKind.of_act {c : Instr} {s t : State} (h : Act s t) : RowKind c s t := .event t h (.refl t)

theorem RowKind.of_writes {c : Instr} {s t : State} (h : Writes s t) : RowKind c s t := .event s (.refl s) h

theorem act_grantRead (s : State) : Act s (grantRead s) := by
  unfold grantRead
  split
  · exact ((act_read none s).trans (act_ports _ _)).trans (act_issueToMemory _ _)
  · exact .refl s

/-- A grant to an outbound write moves the ports and marks a write of the buffer issued. -/
theorem rowKind_grantOutbound (c : Instr) (s : State) : RowKind c s (grantOutbound s) := by
  let u : State := { s with ports := (grantOutbound s).ports }
  have hu : grantOutbound s = { u with writer := { u.writer with buffer := issueOldest u.writer.buffer } } := rfl
  rw [hu]
  exact .event u (act_ports _ s)
    ⟨rfl, rfl, rfl, rfl, rfl, rfl, rfl, rfl, .inl rfl, fun h => h, fun h => (length_issueOldest u.writer.buffer).trans_le h⟩

theorem writes_freePlace (s : State) : Writes s (freePlace s) :=
  ⟨rfl, rfl, rfl, rfl, rfl, rfl, rfl, rfl, .inl rfl, fun h => h, (length_removeIssued s.writer.buffer).trans⟩

/-- A completion pops the answered request, and frees its place before the write is dropped or complete. -/
theorem rowKind_completion {c : Instr} {error : Bool} {s t : State} (h : execOutboundWriteCompletion error s = .next t) :
    RowKind c s t := by
  unfold execOutboundWriteCompletion at h
  split at h
  case h_1 source _ _ =>
    injection h with h
    subst h
    refine .event (popOutstanding s) (act_popOutstanding s) ((writes_freePlace _).trans ?_)
    split
    · exact writes_dropWrite source _
    · exact writes_completeWrite source _
  case h_2 => cases h

/-- Every row that answers a next state, by its kind. -/
theorem exec_rowKind {c : Instr} {s t : State} (h : exec c s = .next t) : RowKind c s t := by
  cases c with
  | powerOnReset straps => injection h with h; exact .reset straps rfl h.symm
  | timeBaseAdvance => injection h with h; exact .advance rfl h.symm
  | commandTimeout => injection h with h; exact h ▸ .of_act (act_expireTimeout s)
  | mapReadResponse m reply => exact .reply m reply h
  | memoryResponse m reply => exact .reply m reply h
  | configReadResponse reply => exact .part reply h
  | loadDescriptorReadResponse reply => exact .part reply h
  | stagingReadResponse reply => exact .part reply h
  | relocationDescriptorReadResponse reply => exact .part reply h
  | outboundWriteFormed => injection h with h; exact h ▸ .of_writes (writes_formWrite s)
  | outboundWriteGrant =>
    injection h with h
    subst h
    split
    · exact rowKind_grantOutbound _ s
    · exact .of_act (.refl s)
  | outboundWriteCompletion error => exact rowKind_completion h
  | partReadGrant => injection h with h; exact h ▸ .of_act (.ite (fun _ => act_grantRead s) fun _ => .refl s)
  | resultHandoff => injection h with h; exact h ▸ .of_act (act_handHeld s)
  | backoffExpiry k r => injection h with h; exact h ▸ .of_act (local_backoffExpires k r s).act
  | holdDownExpiry k =>
    injection h with h
    exact h ▸ .of_act (.ite (fun _ => (local_holdDownExpires k s).act) fun _ => .refl s)
  | settleExpiry k =>
    injection h with h
    exact h ▸ .of_act (.ite (fun _ => (local_settleExpires k s).act) fun _ => .refl s)
  | _ => exact .issue _ _ h

/-! ### The tick and the reset -/

/-- A tick moves the time base and, of the command in flight, the mark that its deadline has come. -/
theorem act_advanceTime (s : State) : Act { s with time := s.time + 1 } (advanceTime s) := by
  unfold advanceTime
  dsimp only
  split
  · exact act_setPhase _ _ fun _ _ _ _ _ _ e => by cases e
  · exact act_setPhase _ _ fun _ _ _ _ _ _ e => by cases e
  · exact .refl _

theorem inv_of_time {s : State} (w : Word) (hi : s.Inv) : State.Inv { s with time := w } :=
  ⟨hi.queue, hi.buffer, hi.places, hi.anchor, hi.modes⟩

theorem plans_of_time {s : State} (w : Word) (hi : s.PlansInv) : State.PlansInv { s with time := w } :=
  ⟨hi.plans, hi.latency, hi.staged⟩

theorem plans_of_pending {s : State} (p : List Instr) (hi : s.PlansInv) : State.PlansInv { s with pending := p } :=
  ⟨hi.plans, hi.latency, hi.staged⟩

theorem resetWith_sector (straps : Byte) (k : SectorNo) : (State.resetWith straps).sector k = Sector.reset := by
  simp [State.resetWith, State.sector]

theorem resetWith_params (straps : Byte) (k : SectorNo) : (State.resetWith straps).params k = Params.default := by
  simp [State.resetWith, State.params, State.sectorConfig, Store.reset]

theorem inv_resetWith (straps : Byte) : (State.resetWith straps).Inv where
  queue := ⟨Nat.zero_le _, fun h => absurd h (Nat.not_succ_le_zero 47), fun _ => rfl⟩
  buffer := Nat.zero_le _
  places := by simp [State.resetWith]
  anchor := ⟨rfl, straps, rfl⟩
  modes k := by rw [resetWith_sector]; exact ⟨fun _ => rfl, by decide⟩

theorem plansInv_resetWith (straps : Byte) : (State.resetWith straps).PlansInv where
  plans k := by rw [resetWith_sector]; exact plansOk_of_nil rfl _
  latency k := by rw [resetWith_params]; decide
  staged _ _ _ _ _ _ h := by cases h

/-! ### The invariants -/

/-- Settles O57: the reset state of any straps meets both invariants, and the queue of commands that POWER_ON_RESET keeps is in
neither. -/
theorem invariantHoldsAtReset : Obligations.InvariantHoldsAtReset := by
  unfold Obligations.InvariantHoldsAtReset
  refine ⟨inv_resetWith 0, plansInv_resetWith 0, fun straps s t h => ?_⟩
  injection h with h
  exact h ▸ ⟨inv_of_pending _ (inv_resetWith straps), plans_of_pending _ (plansInv_resetWith straps)⟩

theorem exec_inv {c : Instr} {s t : State} (h : exec c s = .next t) (hi : s.Inv) : t.Inv := by
  cases exec_rowKind h with
  | issue request i h => exact inv_of_issue request i h hi
  | reply m r h => exact inv_of_reply h hi
  | part r h => exact inv_of_part h hi
  | event u a w => exact inv_of_writes w (inv_of_act a.weak hi)
  | advance _ h => exact h ▸ inv_of_act (act_advanceTime s).weak (inv_of_time _ hi)
  | reset straps _ h => exact h ▸ inv_of_pending _ (inv_resetWith straps)

theorem exec_plansInv {c : Instr} {s t : State} (h : exec c s = .next t) (hv : s.Inv) (hi : s.PlansInv) : t.PlansInv := by
  cases exec_rowKind h with
  | issue request i h => exact plans_of_issue request i h hi
  | reply m r h => exact plans_of_reply h hv hi
  | part r h => exact plans_of_part h hi
  | event u a w => exact plans_of_writes w (plans_of_act a hi)
  | advance _ h => exact h ▸ plans_of_act (act_advanceTime s) (plans_of_time _ hi)
  | reset straps _ h => exact h ▸ plans_of_pending _ (plansInv_resetWith straps)

/-- A step idles or runs the row at the front of the queue on the state with the queue's rest. -/
theorem step_cases {s t : State} (h : step s = .next t) :
    t = s ∨ ∃ c rest, s.pending = c :: rest ∧ exec c { s with pending := rest } = .next t := by
  unfold step at h
  split at h
  · injection h with h; exact .inl h.symm
  · exact .inr ⟨_, _, ‹_›, h⟩

/-- Settles O58: the queue of commands is not in the invariant, and every row keeps it. -/
theorem everyStepKeepsTheInvariant : Obligations.EveryStepKeepsTheInvariant := by
  unfold Obligations.EveryStepKeepsTheInvariant
  intro s t hi h
  obtain rfl | ⟨c, rest, -, h⟩ := step_cases h
  · exact hi
  · exact exec_inv h (inv_of_pending rest hi)

/-- Settles O59: the queue of commands is not in the invariants, and every row keeps them. -/
theorem everyStepKeepsThePlanHistories : Obligations.EveryStepKeepsThePlanHistories := by
  unfold Obligations.EveryStepKeepsThePlanHistories
  intro s t hv hi h
  obtain rfl | ⟨c, rest, -, h⟩ := step_cases h
  · exact hi
  · exact exec_plansInv h (inv_of_pending rest hv) (plans_of_pending rest hi)

/-- Settles O1: both clauses are the two branches of `step`. -/
theorem stepRunsFrontOfQueue : Obligations.StepRunsFrontOfQueue := by
  unfold Obligations.StepRunsFrontOfQueue
  exact ⟨fun c rest s h => by simp only [step, h], fun s h => by simp only [step, h]⟩

/-! ### The time base (R173) -/

theorem Act.time {s t : State} (h : Act s t) : t.time = s.time := h.dev.time

theorem takeReply_time (patch : Option Patch) (reply : Reply) (s : State) : (takeReply patch reply s).2.time = s.time := by
  unfold takeReply takeMapReply
  split
  next p =>
    split
    · rfl
    · obtain ⟨-, -, h, -⟩ := takeMapBeats_spec p.sector p.winBase reply.data p.addr s
      exact h.dev.time
  · rfl

theorem memoryReply_time {m : MasterNo} {reply : Reply} {s t : State} (h : memoryReply m reply s = .next t) :
    t.time = s.time := by
  unfold memoryReply at h
  split at h
  next n patch rest _ =>
    split at h
    · injection h with h
      subst h
      exact (act_answerOldest m _ rest _).time.trans (takeReply_time patch reply s)
    · cases h
  · cases h

theorem actOrLoad_time {s t : State} (h : ActOrLoad s t) : t.time = s.time := by
  obtain h | ⟨setup, staged, e, -⟩ := h
  · exact h.time
  · rw [e]; exact (applyLoad_spec setup staged s).time

theorem partReadReply_time {reply : Reply} {s t : State} (h : partReadReply reply s = .next t) : t.time = s.time := by
  unfold partReadReply at h
  split at h
  · split at h
    · injection h with h
      subst h
      split
      · rfl
      · exact (actOrLoad_time (takePartReply_spec _ reply (popOutstanding s))).trans (popOutstanding_time s)
    · cases h
  · cases h
  · cases h

/-- Settles O5: of the kinds of row, only the tick and the reset move the time base. -/
theorem onlyTicksMoveTheTimeBase : Obligations.OnlyTicksMoveTheTimeBase := by
  unfold Obligations.OnlyTicksMoveTheTimeBase
  intro c s t h tick reset
  cases exec_rowKind h with
  | issue request i h => obtain ⟨_, a⟩ := act_takeIssue request i s t h; exact a.time
  | reply m r h => exact memoryReply_time h
  | part r h => exact partReadReply_time h
  | event u a w => exact w.time.trans a.time
  | advance hc _ => exact absurd hc tick
  | reset straps hc _ => exact absurd hc (reset straps)

end Sys2Proof.Machine

/-! PROOF. The history's bound (R84), the rows that stop the model (logs 8 and 9), the reset values (R144), the tick (R173) and the
timeout of a pending operation (R148, R156, R163). -/

namespace Sys2Proof.Machine

/-! ### At most five plans (R84) -/

/-- A frame number within 4 behind f is one of five. -/
theorem frame_mem_of_age_le {f g : Frame} (h : (f - g).toNat ≤ 4) : g ∈ [f, f - 1, f - 2, f - 3, f - 4] := by
  simp only [List.mem_cons, List.not_mem_nil, or_false]
  bv_omega

/-- Settles O60: the frame numbers of a history are distinct and among five. -/
theorem planHistoryHoldsAtMostFive : Obligations.PlanHistoryHoldsAtMostFive := by
  unfold Obligations.PlanHistoryHoldsAtMostFive
  intro s k h
  obtain ⟨distinct, near, -⟩ := h.plans k
  let f := (s.sector k).frame
  have among : (s.sector k).history.map Plan.frame ⊆ [f, f - 1, f - 2, f - 3, f - 4] := by
    intro g hg
    obtain ⟨p, hp, rfl⟩ := List.mem_map.mp hg
    exact frame_mem_of_age_le ((near p hp).trans (h.latency k))
  refine ⟨?_, distinct⟩
  calc (s.sector k).history.length = ((s.sector k).history.map Plan.frame).length := (List.length_map _).symm
    _ ≤ [f, f - 1, f - 2, f - 3, f - 4].length := (distinct.subperm among).length_le
    _ = 5 := rfl

/-! ### The outside's faults (logs 8 and 9) -/

theorem takeRequest_malformed {act : Request → State → State} {q : Request} {s : State} (h : q.ok = false) :
    takeRequest act q s = .fault .malformedRequest := by simp [takeRequest, h]

theorem memoryReply_notOwed {m : MasterNo} {s : State} (reply : Reply) (h : s.owedTo m = []) :
    memoryReply m reply s = .fault .responseNotOwed := by simp [memoryReply, oldestAwaited, h]

/-- Settles O2: the form of a request is tested when it is issued, and a response is looked up among what is outstanding. -/
theorem outsideFaultsStop : Obligations.OutsideFaultsStop := by
  unfold Obligations.OutsideFaultsStop
  refine ⟨fun q s h => ⟨takeRequest_malformed h, takeRequest_malformed h⟩,
    fun m reply s h => ⟨memoryReply_notOwed reply h, memoryReply_notOwed reply h⟩, fun reply error s h => ⟨?_, ?_⟩⟩
  · show partReadReply reply s = _
    simp [partReadReply, h]
  · show execOutboundWriteCompletion error s = _
    simp [execOutboundWriteCompletion, h]

/-! ### Reset (R144) -/

theorem anchorBaseOf_toNat (straps : Byte) : (anchorBaseOf straps).toNat = straps.toNat * 65536 := by
  have := straps.isLt
  simp only [anchorBaseOf, BitVec.toNat_shiftLeft, BitVec.toNat_setWidth, Nat.shiftLeft_eq]
  omega

/-- Settles O3: every block of `State.resetWith` read off, field by field. -/
theorem powerOnResetGivesResetValues : Obligations.PowerOnResetGivesResetValues := by
  unfold Obligations.PowerOnResetGivesResetValues
  intro straps s
  have sector (k : SectorNo) : State.sector { State.resetWith straps with pending := s.pending } k = Sector.reset :=
    resetWith_sector straps k
  have quiet : ({ State.resetWith straps with pending := s.pending } : State).notice = false := by
    simp [State.notice, Notices.asserted, State.resetWith, Notices.reset]
  refine ⟨_, rfl, rfl, anchorBaseOf_toNat straps, rfl, rfl, rfl, rfl, quiet, fun m => ?_, rfl, rfl, rfl, rfl, rfl, rfl, rfl,
    rfl, rfl, rfl, rfl, rfl, rfl, rfl, rfl, rfl, rfl, rfl, fun k => ?_, fun g => ?_, rfl, fun i => ?_, rfl, rfl, rfl,
    fun k => ⟨?_, ?_, fun r => ?_, ?_⟩⟩
  · simp [State.role, State.waitingAt, State.owedTo, State.resetWith, Ports.reset]
  · simp [State.resetWith, Writer.reset]
  · simp [State.resetWith, Writer.reset]
  · simp [State.resetWith, Notices.reset]
  · simp [State.configured, State.sectorConfig, State.resetWith, Store.reset]
  · exact resetWith_params straps k
  · rw [State.entry, sector]
    simp [Sector.entry, Sector.reset, Entry.reset]
  · rw [sector]
    exact ⟨rfl, rfl, rfl, rfl, rfl, rfl, rfl, rfl, rfl, rfl, rfl, rfl, rfl, rfl, rfl, rfl, rfl, rfl⟩

/-! ### The tick (R163, R173) -/

/-- The phase of a command in flight after a tick to `now`: a pending operation whose deadline is `now` is due. -/
def Phase.ticked (now : Word) : Phase → Phase
  | .modePending d e => .modePending d (e || now == d)
  | .relocationPending d e => .relocationPending d (e || now == d)
  | p => p

/-- `Phase.ticked` is what the tick does to the command in flight. -/
theorem advanceTime_eq (s : State) : advanceTime s = { s with
    time := s.time + 1
    channel := { s.channel with
      inFlight := s.channel.inFlight.map fun f => { f with phase := f.phase.ticked (s.time + 1) } } } := by
  obtain ⟨pending, time, ports, windows, roles, store, sectors, holdOff, ⟨base, inFlight, held, read⟩, writer, notices⟩ := s
  obtain - | ⟨c, phase⟩ := inFlight
  · rfl
  · cases phase <;> rfl

/-- Settles O4: the tick is the count and `Phase.ticked`. -/
theorem timeBaseAdvances : Obligations.TimeBaseAdvances := by
  unfold Obligations.TimeBaseAdvances
  intro s
  refine ⟨advanceTime s, rfl, by rw [advanceTime_eq], by rw [advanceTime_eq], fun h => by rw [advanceTime_eq, h]; rfl,
    fun c old h => ⟨old.ticked (s.time + 1), by rw [advanceTime_eq, h]; rfl, ?_, ?_, fun other => ?_⟩⟩
  · rintro d e rfl; rfl
  · rintro d e rfl; rfl
  · cases old with
    | modePending d e => exact absurd rfl (other d e).1
    | relocationPending d e => exact absurd rfl (other d e).2
    | _ => rfl

end Sys2Proof.Machine

/-! PROOF. The command word on the port (R159, R160) and the commands that move no remote: each accepted word is forwarded, its
command put in flight and run, and what it decides stands in the free pending result word. -/

namespace Sys2Proof.Machine

/-! ### The command word on the port (R159, R160) -/

/-- A full-width command word that the Command Channel does not absorb is forwarded and its command taken. -/
theorem acceptCommandWord_taken {q : Request} {s : State} (hl : q.lanes = allLanes)
    (h : absorbsWord s q.lanes (q.data.getD 0 0) = false) :
    acceptCommandWord q s = takeCommand (commandOf (q.data.getD 0 0)) (oweAwaited q none s) := by
  have h' : absorbsWord (oweAwaited q none s) q.lanes (q.data.getD 0 0) = false := h
  simp only [acceptCommandWord, h, Bool.false_eq_true, if_false]
  rw [takeCommandWord, if_neg (not_not.mpr hl), h', if_neg Bool.false_ne_true]

/-- A command word issued with the port free is forwarded and its command taken. -/
theorem issue_commandWord (code : Byte) {w : CommandWrite} {s : State} (h : s.ready w)
    (hf : s.channel.inFlight = none ∨ code = 0x0D) :
    issue (commandRequest s code w) s = takeCommand (w.command code) (forwarded none (commandRequest s code w) s) := by
  have class_eq := classify_command s code w h.anchor h.role (.inl h.free)
  have eligible : eligibleClass s (commandRequest s code w) (classify s (commandRequest s code w)) = true := by
    rw [class_eq]; simp [eligibleClass, h.free]
  have word : commandOf ((commandRequest s code w).data.getD 0 0) = w.command code :=
    commandOf_commandBeat code w.sector w.remote w.tag w.arg w.spare
  have taken : absorbsWord (granted (commandRequest s code w) s) w.lanes ((commandRequest s code w).data.getD 0 0) = false := by
    rw [absorbsWord, word, h.full]
    obtain idle | rfl := hf
    · simp [granted, idle]
    · simp [CommandWrite.command, codeCancel]
  rw [issue_portFree _ s h.port (by rw [class_eq]; rfl) eligible, class_eq, acceptAs,
    acceptCommandWord_taken (q := commandRequest s code w) h.full taken, word, oweAwaited_granted]

theorem lanes_ne_zero {w : CommandWrite} {s : State} (h : s.ready w) : w.lanes ≠ 0 := by rw [h.full]; decide

theorem takeIssue_new {α : Type} (request : α → Request) (a : α) (s : State) (h : (request a).ok = true) :
    takeIssue request (.new a) s = .next (issue (request a) s) := by simp [takeIssue, takeRequest, h]

theorem takeIssue_commandWord (code : Byte) {w : CommandWrite} {s : State} (h : s.ready w)
    (hf : s.channel.inFlight = none ∨ code = 0x0D) :
    takeIssue (commandRequest s code) (.new w) s =
      .next (takeCommand (w.command code) (forwarded none (commandRequest s code w) s)) := by
  rw [takeIssue_new _ w s (commandRequest_ok s code w (lanes_ne_zero h)), issue_commandWord code h hf]

theorem exec_codeNamingNoCommand (code : Byte) (i : Issue CommandWrite) (s : State) :
    exec (.codeNamingNoCommand code i) s = takeIssue (commandRequest s code) i s := rfl

/-- Settles O7: every row that writes the command word issues that word. -/
theorem commandWordRowsAreTaken : Obligations.CommandWordRowsAreTaken := by
  unfold Obligations.CommandWordRowsAreTaken
  refine ⟨fun row code hm w s h hf => ?_, fun code w s h hf => ?_⟩
  · rw [row_exec hm, takeIssue_commandWord code h hf]
  · rw [exec_codeNamingNoCommand, takeIssue_commandWord code h hf]

/-- Settles O8: a waiting result makes a command word ineligible, so that it waits at the head of its channel. -/
theorem waitingResultHoldsCommandWords : Obligations.WaitingResultHoldsCommandWords := by
  unfold Obligations.WaitingResultHoldsCommandWords
  intro row code hm w s anchored role lane waits empty unlocked
  have class_eq := classify_command s code w anchored role (.inr unlocked)
  have held : issue (commandRequest s code w) s = joinChannel (commandRequest s code w) s :=
    issue_held _ s empty (by rw [class_eq]; rfl) (by rw [class_eq]; simp [eligibleClass, waits])
  rw [row_exec hm, takeIssue_new _ w s (commandRequest_ok s code w lane), held]
  exact ⟨_, rfl, joinChannel_spec (commandRequest s code w) s empty⟩

/-! ### A command in flight and its result -/

/-- The command of the word w is in flight and no result waits. -/
structure Begun (code : Byte) (w : CommandWrite) (u : State) : Prop where
  inFlight : ∃ p, u.channel.inFlight = some { cmd := w.command code, phase := p }
  result : u.writer.pendingResult = none
  held : u.channel.held = []

theorem begun_started (code : Byte) {w : CommandWrite} {s : State} (h : s.ready w) : Begun code w (started code w s) :=
  ⟨⟨.decided, rfl⟩, (resultWaits_eq_false.mp h.free).1, started_held h⟩

theorem Begun.of_eq {code : Byte} {w : CommandWrite} {u v : State} (h : Begun code w u) (hc : v.channel = u.channel)
    (hr : v.writer.pendingResult = u.writer.pendingResult) : Begun code w v :=
  ⟨by rw [hc]; exact h.inFlight, hr.trans h.result, by rw [hc]; exact h.held⟩

theorem Begun.quiet {code : Byte} {w : CommandWrite} {u v : State} (h : Begun code w u) (q : Quiet u v) : Begun code w v :=
  h.of_eq q.channel q.result

theorem finish_begun {code : Byte} {w : CommandWrite} {u : State} (h : Begun code w u) (c : ResultCode) (d : Half) :
    Answers (resultOf (w.command code) c d true) u (finish c d u) ∧ (finish c d u).answered w c d := by
  obtain ⟨p, hp⟩ := h.inFlight
  have a := (finish_spec c d u _ hp (resultWaits_eq_false.mpr ⟨h.result, h.held⟩)).1
  exact ⟨a, answered_of a h.held rfl rfl rfl⟩

theorem Answers.otherSectors {r : Result} {s u t : State} {k : SectorNo} (a : Answers r u t) (h : OtherSectors k s u) :
    OtherSectors k s t := fun j hj => (a.sector j).trans (h j hj)

/-- A command whose fields pass the checks of R160, and which is no CANCEL, is put in flight and passed to its owner. -/
theorem takeCommand_started {code : Byte} {w : CommandWrite} {s : State} (hc : code ≠ 0x0D)
    (hk : commandFault (w.command code) = none) :
    takeCommand (w.command code) (forwarded none (commandRequest s code w) s) =
      runCommand (w.command code) (started code w s) := takeCommand_run (w.command code) _ hk hc

theorem exec_run {row : Issue CommandWrite → Instr} {code : Byte} (hm : (row, code) ∈ commandRows) (hc : code ≠ 0x0D)
    {w : CommandWrite} {s : State} (h : s.ready w) (hf : s.channel.inFlight = none)
    (hk : commandFault (w.command code) = none) :
    exec (row (.new w)) s = .next (runCommand (w.command code) (started code w s)) := by
  rw [row_exec hm, takeIssue_commandWord code h (.inl hf), takeCommand_started hc hk]

/-! ### The checks of R160 -/

theorem sectorOfByte_isSome (b : Byte) : (sectorOfByte b).isSome = decide (b.toNat < 4) := by
  unfold sectorOfByte; split <;> simp [*]

theorem remoteOfByte_isSome (b : Byte) : (remoteOfByte b).isSome = decide (b.toNat < 128) := by
  unfold remoteOfByte; split <;> simp [*]

theorem commandFault_eq (code : Byte) (w : CommandWrite) : commandFault (w.command code) =
    if ¬ (1 ≤ code.toNat ∧ code.toNat ≤ 13) then some 0xF002
    else if (2 ≤ code.toNat ∧ code.toNat ≤ 11) ∧ 4 ≤ w.sector.toNat then some 0xF003
    else if (3 ≤ code.toNat ∧ code.toNat ≤ 7) ∧ 128 ≤ w.remote.toNat then some 0xF004
    else none := by
  let c := w.command code
  show commandFault c = if ¬ (1 ≤ c.code.toNat ∧ c.code.toNat ≤ 13) then some 0xF002
    else if (2 ≤ c.code.toNat ∧ c.code.toNat ≤ 11) ∧ 4 ≤ c.sector.toNat then some 0xF003
    else if (3 ≤ c.code.toNat ∧ c.code.toNat ≤ 7) ∧ 128 ≤ c.remote.toNat then some 0xF004
    else none
  have hs : (sectorOfByte c.sector).isNone = decide (4 ≤ c.sector.toNat) := by
    rw [← Option.not_isSome, sectorOfByte_isSome, Bool.eq_iff_iff]; simp
  have hr : (remoteOfByte c.remote).isNone = decide (128 ≤ c.remote.toNat) := by
    rw [← Option.not_isSome, remoteOfByte_isSome, Bool.eq_iff_iff]; simp
  simp only [commandFault, namesCommand, usesSector, usesRemote, hs, hr, ← Bool.decide_and, decide_eq_true_eq,
    decide_eq_false_iff_not]

theorem toNat_lt_of_sectorOfByte {b : Byte} {k : SectorNo} (h : sectorOfByte b = some k) : b.toNat < 4 := by
  simpa [h] using (sectorOfByte_isSome b).symm

theorem toNat_lt_of_remoteOfByte {b : Byte} {r : RemoteNo} (h : remoteOfByte b = some r) : b.toNat < 128 := by
  simpa [h] using (remoteOfByte_isSome b).symm

/-- A command on a sector passes the checks where its sector byte names one, and its remote byte too where it uses one. -/
theorem commandFault_none {code : Byte} {w : CommandWrite} (hn : 1 ≤ code.toNat ∧ code.toNat ≤ 13) (hs : w.sector.toNat < 4)
    (hr : 3 ≤ code.toNat ∧ code.toNat ≤ 7 → w.remote.toNat < 128) : commandFault (w.command code) = none := by
  rw [commandFault_eq, if_neg (not_not.mpr hn), if_neg fun h => absurd h.2 (by omega), if_neg fun h => absurd h.2 (by have := hr h.1; omega)]

/-- A command word that fails a check is answered INVALID with its detail, and no command is in flight. -/
theorem takeCommand_invalid {code : Byte} {w : CommandWrite} {s : State} {d : Half} (h : s.ready w)
    (hf : s.channel.inFlight = none) (hk : commandFault (w.command code) = some d) :
    let t := takeCommand (w.command code) (forwarded none (commandRequest s code w) s)
    t.sectors = s.sectors ∧ DeviceKept s t ∧ t.ports = (forwarded none (commandRequest s code w) s).ports ∧
      t.channel.inFlight = none ∧ t.answered w .invalid d := by
  let u := forwarded none (commandRequest s code w) s
  obtain ⟨a, hc⟩ := answer_spec (w.command code) .invalid d u h.free
  have ht : takeCommand (w.command code) u = answer (w.command code) .invalid d u := by simp only [takeCommand, hk]
  rw [ht]
  exact ⟨a.sectors, (forwarded_kept none _ s).trans a.dev, a.ports, by rw [hc]; exact hf,
    answered_of a (resultWaits_eq_false.mp h.free).2 rfl rfl rfl⟩

/-- Settles O10: the three checks in their order. -/
theorem fieldChecksAnsweredInvalid : Obligations.FieldChecksAnsweredInvalid := by
  unfold Obligations.FieldChecksAnsweredInvalid
  refine ⟨fun code w s hc h hf => ?_, fun row code hm w s d h hf hd => ?_⟩
  · have fault : commandFault (w.command code) = some 0xF002 := by
      rw [commandFault_eq, if_pos]
      obtain rfl | hc := hc
      · simp
      · omega
    rw [exec_codeNamingNoCommand, takeIssue_commandWord code h (.inl hf)]
    exact ⟨_, rfl, takeCommand_invalid h hf fault⟩
  · have code_mem : code ∈ commandRows.map Prod.snd := List.mem_map_of_mem hm
    have fault : commandFault (w.command code) = some d := by
      simp only [commandRows, List.map_cons, List.map_nil, List.mem_cons, List.not_mem_nil, or_false] at code_mem hd
      rw [commandFault_eq]
      obtain ⟨hc, hs, rfl⟩ | ⟨hc, hs, hr, rfl⟩ := hd
      · have range : 2 ≤ code.toNat ∧ code.toNat ≤ 11 := by
          obtain rfl | rfl | rfl | rfl | rfl | rfl | rfl | rfl | rfl | rfl | rfl | rfl | rfl := code_mem <;> simp_all
        rw [if_neg (by omega), if_pos ⟨range, hs⟩]
      · have range : 3 ≤ code.toNat ∧ code.toNat ≤ 7 := by obtain rfl | rfl | rfl | rfl | rfl := hc <;> simp
        rw [if_neg (by omega), if_neg (by omega), if_pos ⟨range, hr⟩]
    rw [row_exec hm, takeIssue_commandWord code h (.inl hf)]
    exact ⟨_, rfl, takeCommand_invalid h hf fault⟩

end Sys2Proof.Machine

/-! PROOF. The commands that move no remote: LOAD_CONFIG, SET_MODE to SHADOW or ACTIVE, SET_TUNE, SUSPEND, RELOCATE and ACK_NOTICE,
and what each is refused with (R146, R150 to R153, R166, R169, R170). -/

namespace Sys2Proof.Machine

/-! ### Which command a code names (Table 9.2) -/

section
variable {w : CommandWrite} {k : SectorNo} (u : State)

theorem run_loadConfig : runCommand (w.command 0x01) u = cmdLoadConfig u := rfl

theorem run_ackNotice : runCommand (w.command 0x0C) u = cmdAckNotice w.arg u := rfl

theorem run_setMode (h : sectorOfByte w.sector = some k) : runCommand (w.command 0x02) u = cmdSetMode k w.arg u :=
  show cmdSetMode ((sectorOfByte w.sector).getD 0) w.arg u = _ by rw [h]; rfl

theorem run_setTune (h : sectorOfByte w.sector = some k) : runCommand (w.command 0x03) u = cmdSetTune k w.remote w.arg u :=
  show cmdSetTune ((sectorOfByte w.sector).getD 0) w.remote w.arg u = _ by rw [h]; rfl

theorem run_suspend (h : sectorOfByte w.sector = some k) : runCommand (w.command 0x08) u = cmdSuspend k u :=
  show cmdSuspend ((sectorOfByte w.sector).getD 0) u = _ by rw [h]; rfl

theorem run_resume (h : sectorOfByte w.sector = some k) : runCommand (w.command 0x09) u = cmdResume k u :=
  show cmdResume ((sectorOfByte w.sector).getD 0) u = _ by rw [h]; rfl

theorem run_resetSector (h : sectorOfByte w.sector = some k) : runCommand (w.command 0x0A) u = cmdResetSector k u :=
  show cmdResetSector ((sectorOfByte w.sector).getD 0) u = _ by rw [h]; rfl

theorem run_relocate (h : sectorOfByte w.sector = some k) : runCommand (w.command 0x0B) u = cmdRelocate k w.arg u :=
  show cmdRelocate ((sectorOfByte w.sector).getD 0) w.arg u = _ by rw [h]; rfl

end

section
variable {row : Issue CommandWrite → Instr} {code : Byte} {w : CommandWrite} {s : State} {k : SectorNo}

/-- A command on a sector, taken: its remote byte is checked only where it uses one. -/
theorem exec_sectorCommand (hm : (row, code) ∈ commandRows) (h : s.ready w) (hf : s.channel.inFlight = none)
    (hk : sectorOfByte w.sector = some k) (hc : code ≠ 0x0D) (hn : 1 ≤ code.toNat ∧ code.toNat ≤ 13)
    (hr : 3 ≤ code.toNat ∧ code.toNat ≤ 7 → w.remote.toNat < 128) :
    exec (row (.new w)) s = .next (runCommand (w.command code) (started code w s)) :=
  exec_run hm hc h hf (commandFault_none hn (toNat_lt_of_sectorOfByte hk) hr)

end

/-! ### Answers that change nothing -/

section
variable {w : CommandWrite} {s : State}

/-- A command decided as soon as it is taken changes no sector and no device item. -/
theorem finish_started (code : Byte) (h : s.ready w) (c : ResultCode) (d : Half) :
    let t := finish c d (started code w s)
    t.sectors = s.sectors ∧ DeviceKept s t ∧ t.notices = s.notices ∧ t.channel.read = s.channel.read ∧ t.answered w c d := by
  obtain ⟨a, answered⟩ := finish_begun (begun_started code h) c d
  exact ⟨a.sectors, (started_kept code w s).trans a.dev, a.notices, a.read, answered⟩

end

theorem modeOfCode_modeCode (m : Mode) : modeOfCode (BitVec.ofNat 16 (modeCode m)).toNat = some m := by cases m <;> rfl

theorem modeOfCode_none : ∀ {n : Nat}, 2 < n → modeOfCode n = none
  | _ + 3, _ => rfl

theorem relocKindOfCode_code (kind : RelocKind) : relocKindOfCode (BitVec.ofNat 16 kind.code).toNat = some kind := by
  cases kind <;> rfl

theorem relocKindOfCode_none : ∀ {n : Nat}, 2 < n → relocKindOfCode n = none
  | _ + 3, _ => rfl

section
variable {k : SectorNo} {u : State}

/-- SET_MODE of a configured sector with the code of a mode (R146). -/
theorem cmdSetMode_mode (hc : u.configured k = true) (m : Mode) : cmdSetMode k (BitVec.ofNat 16 (modeCode m)) u =
    if m = (u.sector k).mode then finish .done (BitVec.ofNat 16 (modeCode m)) u
    else if m = .pass then finish .done (BitVec.ofNat 16 (modeCode .pass)) (changeToPass k u)
    else if (u.sector k).suspended then finish .state (BitVec.ofNat 16 (modeCode (u.sector k).mode)) u
    else setPhase (.modePending u.deadline false) (setPendingOp k (some (.modeChange m)) u) := by
  simp only [cmdSetMode, hc, Bool.true_eq_false, if_false, modeOfCode_modeCode]

theorem cmdSetMode_present (hc : u.configured k = true) :
    cmdSetMode k (BitVec.ofNat 16 (modeCode (u.sector k).mode)) u =
      finish .done (BitVec.ofNat 16 (modeCode (u.sector k).mode)) u := by
  rw [cmdSetMode_mode hc, if_pos rfl]

theorem cmdSetMode_pass (hc : u.configured k = true) (h : (u.sector k).mode ≠ .pass) :
    cmdSetMode k 0 u = finish .done 0 (changeToPass k u) := by
  show cmdSetMode k (BitVec.ofNat 16 (modeCode .pass)) u = _
  rw [cmdSetMode_mode hc, if_neg h.symm, if_pos rfl]
  rfl

theorem cmdSetMode_suspended (hc : u.configured k = true) {m : Mode} (h : m ≠ (u.sector k).mode) (hp : m ≠ .pass)
    (hs : (u.sector k).suspended = true) :
    cmdSetMode k (BitVec.ofNat 16 (modeCode m)) u = finish .state (BitVec.ofNat 16 (modeCode (u.sector k).mode)) u := by
  rw [cmdSetMode_mode hc, if_neg h, if_neg hp, if_pos hs]

theorem cmdSetMode_pending (hc : u.configured k = true) {m : Mode} (h : m ≠ (u.sector k).mode) (hp : m ≠ .pass)
    (hs : (u.sector k).suspended = false) : cmdSetMode k (BitVec.ofNat 16 (modeCode m)) u =
      setPhase (.modePending u.deadline false) (setPendingOp k (some (.modeChange m)) u) := by
  rw [cmdSetMode_mode hc, if_neg h, if_neg hp, if_neg (by rw [hs]; exact Bool.false_ne_true)]

theorem cmdSetMode_noMode (hc : u.configured k = true) {arg : Half} (ha : 2 < arg.toNat) :
    cmdSetMode k arg u = finish .invalid arg u := by
  simp only [cmdSetMode, hc, Bool.true_eq_false, if_false, modeOfCode_none ha]

theorem cmdRelocate_noKind (hc : u.configured k = true) {arg : Half} (ha : 2 < arg.toNat) :
    cmdRelocate k arg u = finish .invalid 1 u := by
  simp only [cmdRelocate, hc, Bool.true_eq_false, if_false, relocKindOfCode_none ha]

theorem cmdSuspend_refused (h : (u.sector k).mode = .pass ∨ (u.sector k).suspended = true) :
    cmdSuspend k u = finish .state 0 u := by
  rw [cmdSuspend, if_pos (.inr h)]

theorem cmdResume_refused (h : (u.sector k).suspended = false) : cmdResume k u = finish .state 0 u := by
  rw [cmdResume, if_pos (.inr h)]

/-- Every command on a sector is answered STATE with detail 0 where the sector is not configured (R145, R169). -/
theorem runCommand_unconfigured {w : CommandWrite} {code : Byte} (hk : sectorOfByte w.sector = some k)
    (hc : u.configured k = false) (h : code ∈ ([0x02, 0x03, 0x08, 0x09, 0x0A, 0x0B] : List Byte)) :
    runCommand (w.command code) u = finish .state 0 u := by
  simp only [List.mem_cons, List.not_mem_nil, or_false] at h
  obtain rfl | rfl | rfl | rfl | rfl | rfl := h
  · rw [run_setMode u hk, cmdSetMode, if_pos hc]
  · rw [run_setTune u hk, cmdSetTune, if_pos hc]
  · rw [run_suspend u hk, cmdSuspend, if_pos (.inl hc)]
  · rw [run_resume u hk, cmdResume, if_pos (.inl hc)]
  · rw [run_resetSector u hk, cmdResetSector, if_pos hc]
  · rw [run_relocate u hk, cmdRelocate, if_pos hc]

end

/-- Settles O22: each of these commands is decided as soon as it is taken. -/
theorem sectorCommandsThatChangeNothing : Obligations.SectorCommandsThatChangeNothing := by
  unfold Obligations.SectorCommandsThatChangeNothing
  intro row code hm w s k result detail h hf hk cases
  suffices decided : exec (row (.new w)) s = .next (finish result detail (started code w s)) from
    ⟨_, decided, finish_started code h result detail⟩
  have run {code : Byte} (hm : (row, code) ∈ commandRows) (hc : code ≠ 0x0D) (hn : 1 ≤ code.toNat ∧ code.toNat ≤ 13)
      (hr : 3 ≤ code.toNat ∧ code.toNat ≤ 7 → w.remote.toNat < 128)
      (he : runCommand (w.command code) (started code w s) = finish result detail (started code w s)) :
      exec (row (.new w)) s = .next (finish result detail (started code w s)) := by
    rw [exec_sectorCommand hm h hf hk hc hn hr, he]
  obtain ⟨hc, hr, conf, rfl, rfl⟩ | ⟨rfl, conf, arg, rfl, rfl⟩ | ⟨rfl, conf, arg, rfl, rfl⟩ |
    ⟨rfl, conf, susp, arg, other, rfl, rfl⟩ | ⟨rfl, mode, rfl, rfl⟩ | ⟨rfl, susp, rfl, rfl⟩ | ⟨rfl, conf, arg, rfl, rfl⟩ := cases
  · have unconfigured := runCommand_unconfigured (u := started code w s) hk conf hc
    simp only [List.mem_cons, List.not_mem_nil, or_false] at hc
    obtain rfl | rfl | rfl | rfl | rfl | rfl := hc
    case inr.inl => exact run hm (by decide) (by decide) (fun _ => Nat.lt_succ_of_le (hr rfl)) unconfigured
    all_goals exact run hm (by decide) (by decide) (fun c => absurd c (by decide)) unconfigured
  · exact run hm (by decide) (by decide) (fun c => absurd c (by decide))
      (by rw [run_setMode _ hk, cmdSetMode_noMode (u := started 0x02 w s) conf arg])
  · refine run hm (by decide) (by decide) (fun c => absurd c (by decide)) ?_
    rw [run_setMode _ hk, arg]
    exact cmdSetMode_present (u := started 0x02 w s) conf
  · refine run hm (by decide) (by decide) (fun c => absurd c (by decide)) ?_
    obtain ⟨m, hm, hp⟩ : ∃ m, w.arg = BitVec.ofNat 16 (modeCode m) ∧ m ≠ .pass := by
      obtain arg | arg := arg
      · exact ⟨.shadow, arg, by decide⟩
      · exact ⟨.active, arg, by decide⟩
    have ne : m ≠ (s.sector k).mode := fun same => other (by rw [hm, same])
    rw [run_setMode _ hk, hm]
    exact cmdSetMode_suspended (u := started 0x02 w s) conf ne hp susp
  · exact run hm (by decide) (by decide) (fun c => absurd c (by decide)) (by rw [run_suspend _ hk, cmdSuspend_refused (u := started 0x08 w s) mode])
  · exact run hm (by decide) (by decide) (fun c => absurd c (by decide)) (by rw [run_resume _ hk, cmdResume_refused (u := started 0x09 w s) susp])
  · exact run hm (by decide) (by decide) (fun c => absurd c (by decide))
      (by rw [run_relocate _ hk, cmdRelocate_noKind (u := started 0x0B w s) conf arg])

/-! ### Commands that begin a read or a pending change -/

theorem deviceKept_channel {s : State} {c : Channel} (h : c.anchorBase = s.channel.anchorBase) :
    DeviceKept s { s with channel := c } :=
  ⟨rfl, rfl, rfl, rfl, rfl, rfl, rfl, rfl, rfl, rfl, rfl, rfl, rfl, h⟩

theorem cmdLoadConfig_allPass {u : State} (h : ∀ k, (u.sector k).mode = .pass) :
    cmdLoadConfig u = waitRead (some (.config 0)) (setPhase (.readingConfig []) u) := by
  rw [cmdLoadConfig, if_pos (List.all_eq_true.mpr fun k _ => decide_eq_true (h k))]
  rfl

theorem cmdLoadConfig_refused {u : State} (h : ∃ k, (u.sector k).mode ≠ .pass) : cmdLoadConfig u = finish .state 0 u := by
  obtain ⟨k, hk⟩ := h
  exact if_neg fun all => hk (of_decide_eq_true (List.all_eq_true.mp all k (mem_sectorNos k)))

theorem mem_commandRows_loadConfig : (Instr.loadConfig, (0x01 : Byte)) ∈ commandRows := by simp [commandRows]
theorem mem_commandRows_setMode : (Instr.setMode, (0x02 : Byte)) ∈ commandRows := by simp [commandRows]
theorem mem_commandRows_setTune : (Instr.setTune, (0x03 : Byte)) ∈ commandRows := by simp [commandRows]
theorem mem_commandRows_hold : (Instr.hold, (0x04 : Byte)) ∈ commandRows := by simp [commandRows]
theorem mem_commandRows_release : (Instr.release, (0x05 : Byte)) ∈ commandRows := by simp [commandRows]
theorem mem_commandRows_rearm : (Instr.rearm, (0x06 : Byte)) ∈ commandRows := by simp [commandRows]
theorem mem_commandRows_forceFade : (Instr.forceFade, (0x07 : Byte)) ∈ commandRows := by simp [commandRows]
theorem mem_commandRows_suspend : (Instr.suspend, (0x08 : Byte)) ∈ commandRows := by simp [commandRows]
theorem mem_commandRows_resume : (Instr.resume, (0x09 : Byte)) ∈ commandRows := by simp [commandRows]
theorem mem_commandRows_resetSector : (Instr.resetSector, (0x0A : Byte)) ∈ commandRows := by simp [commandRows]
theorem mem_commandRows_relocate : (Instr.relocate, (0x0B : Byte)) ∈ commandRows := by simp [commandRows]
theorem mem_commandRows_ackNotice : (Instr.ackNotice, (0x0C : Byte)) ∈ commandRows := by simp [commandRows]
theorem mem_commandRows_cancel : (Instr.cancel, (0x0D : Byte)) ∈ commandRows := by simp [commandRows]

theorem setPhase_started (code : Byte) (w : CommandWrite) (s : State) (p : Phase) : setPhase p (started code w s) =
    { started code w s with channel := { (started code w s).channel with
      inFlight := some { cmd := w.command code, phase := p } } } := rfl

/-- Settles O11: LOAD_CONFIG tests the mode of every sector, and begins with the first read of the area or is refused. -/
theorem loadConfigStartsReading : Obligations.LoadConfigStartsReading := by
  unfold Obligations.LoadConfigStartsReading
  intro w s h hf
  have fault : commandFault (w.command 0x01) = none := by
    rw [commandFault_eq, if_neg (by decide), if_neg fun c => absurd c.1 (by decide), if_neg fun c => absurd c.1 (by decide)]
  have run := exec_run mem_commandRows_loadConfig (by decide) h hf fault
  rw [run_loadConfig] at run
  by_cases all : ∀ k, (s.sector k).mode = .pass
  · rw [cmdLoadConfig_allPass (u := started 0x01 w s) all, setPhase_started] at run
    exact ⟨_, run, rfl, (started_kept 0x01 w s).trans (deviceKept_channel rfl), rfl,
      fun _ => ⟨rfl, rfl, (resultWaits_eq_false.mp h.free).2, rfl, (resultWaits_eq_false.mp h.free).1⟩,
      fun ⟨k, hk⟩ => absurd (all k) hk⟩
  · obtain ⟨sectors, dev, notices, read, answered⟩ := finish_started 0x01 h .state 0
    rw [cmdLoadConfig_refused (u := started 0x01 w s) (not_forall.mp all)] at run
    exact ⟨_, run, sectors, dev, notices, fun c => absurd c all, fun _ => ⟨read, answered⟩⟩

theorem otherSectors_modSector (k : SectorNo) (f : Sector → Sector) (s : State) : OtherSectors k s (modSector k f s) :=
  fun _ hj => sector_modSector_of_ne hj f s

section
variable (k : SectorNo) (s : State)

theorem setPendingOp_sector (p : Option PendingOp) : (setPendingOp k p s).sector k = { s.sector k with pendingOp := p } :=
  sector_modSector_self k _ s

theorem setPendingOp_others (p : Option PendingOp) : OtherSectors k s (setPendingOp k p s) := otherSectors_modSector k _ s

theorem setSuspended_sector (b : Bool) : (setSuspended k b s).sector k = { s.sector k with suspended := b } :=
  sector_modSector_self k (fun x => { x with suspended := b }) s

theorem setSuspended_others (b : Bool) : OtherSectors k s (setSuspended k b s) :=
  otherSectors_modSector k (fun x => { x with suspended := b }) s

theorem setModeTo_sector (m : Mode) : (setModeTo k m s).sector k = { s.sector k with mode := m } :=
  sector_modSector_self k (fun x => { x with mode := m }) s

theorem setModeTo_others (m : Mode) : OtherSectors k s (setModeTo k m s) :=
  otherSectors_modSector k (fun x => { x with mode := m }) s

end

theorem deviceKept_modSector (k : SectorNo) (f : Sector → Sector) (s : State) : DeviceKept s (modSector k f s) :=
  (quiet_modSector k f s).dev

/-- Settles O12: the last branch of SET_MODE. -/
theorem setModeWaitsForAnEpoch : Obligations.SetModeWaitsForAnEpoch := by
  unfold Obligations.SetModeWaitsForAnEpoch
  intro w s k m h hf hk conf arg notPass other susp
  have run := exec_sectorCommand mem_commandRows_setMode h hf hk (by decide) (by decide) fun c => absurd c (by decide)
  rw [run_setMode _ hk, arg, cmdSetMode_pending (u := started 0x02 w s) conf other notPass susp] at run
  refine ⟨_, run, ?_, ?_, ?_, rfl, (resultWaits_eq_false.mp h.free).1, rfl, rfl⟩
  · exact setPendingOp_sector k (started 0x02 w s) _
  · exact setPendingOp_others k (started 0x02 w s) _
  · exact (started_kept 0x02 w s).trans ((deviceKept_modSector k _ _).trans (deviceKept_channel rfl))

/-- Settles O19: SUSPEND is the flag and its mark, and then its answer. -/
theorem suspendSetsTheFlag : Obligations.SuspendSetsTheFlag := by
  unfold Obligations.SuspendSetsTheFlag
  intro w s k h hf hk conf mode susp
  have run := exec_sectorCommand mem_commandRows_suspend h hf hk (by decide) (by decide) fun c => absurd c (by decide)
  have taken : cmdSuspend k (started 0x08 w s) = finish .done 0 (setSuspended k true (started 0x08 w s)) := by
    refine if_neg ?_
    rintro (c | c | c)
    · exact Bool.false_ne_true (c.symm.trans conf)
    · exact mode c
    · exact Bool.false_ne_true (susp.symm.trans c)
  let u := setSuspended k true (started 0x08 w s)
  have sector : u.sector k = { s.sector k with suspended := true } := setSuspended_sector k (started 0x08 w s) true
  obtain ⟨a, answered⟩ := finish_begun (u := u) ((begun_started 0x08 h).of_eq rfl rfl) .done 0
  rw [run_suspend _ hk, taken] at run
  refine ⟨_, run, (a.sector k).trans sector, a.otherSectors (setSuspended_others k (started 0x08 w s) true), ?_, ?_, answered⟩
  · exact (started_kept 0x08 w s).trans (((quiet_modSector k _ _).dev.trans (local_markCounter k k _).dev).trans a.dev)
  · rw [a.counters]
    exact vector_getElem_set_self _ k true

/-- Settles O23: RELOCATE passes its two checks and begins its staging read. -/
theorem relocateReadsItsStagingEntry : Obligations.RelocateReadsItsStagingEntry := by
  unfold Obligations.RelocateReadsItsStagingEntry
  intro w s k kind h hf hk conf arg
  have run := exec_sectorCommand mem_commandRows_relocate h hf hk (by decide) (by decide) fun c => absurd c (by decide)
  have conf' : (started 0x0B w s).configured k = true := conf
  rw [run_relocate _ hk, arg] at run
  simp only [cmdRelocate, conf', Bool.true_eq_false, if_false, relocKindOfCode_code] at run
  exact ⟨_, run, rfl, (started_kept 0x0B w s).trans (deviceKept_channel rfl), rfl,
    rfl, (resultWaits_eq_false.mp h.free).1, rfl⟩

/-! ### SET_TUNE (R71, R126, R169) -/

/-- Staging one parameter's value leaves the other staged values. -/
theorem stageValue_others {p v q : Nat} {g g' : Staged} (h : stageValue p v g = some g') (hq : q ≠ p) :
    g'.value q = g.value q := by
  unfold stageValue at h
  split at h
  case h_9 => cases h
  all_goals
    obtain ⟨-, h⟩ := Option.ite_none_right_eq_some.mp h
    cases h
    unfold Staged.value
    split <;> simp_all

/-- A value in range of its tunable is staged. -/
theorem stageValue_inRange {p v : Nat} (h : tuneInRange p v) (g : Staged) :
    ∃ g', stageValue p v g = some g' ∧ g'.value p = some v := by
  obtain ⟨rfl, hv⟩ | ⟨rfl, hv⟩ | ⟨rfl, hv⟩ | ⟨rfl, hv⟩ | ⟨rfl, hv⟩ | ⟨rfl, hv⟩ | ⟨rfl, hv⟩ | ⟨rfl, hv⟩ := h
  · exact ⟨{ g with floor := some v }, if_pos hv, rfl⟩
  · have ok : capOk v = true := by
      simp only [List.mem_cons, List.not_mem_nil, or_false] at hv
      obtain rfl | rfl | rfl | rfl := hv <;> rfl
    exact ⟨{ g with cap := some v }, if_pos ok, rfl⟩
  · exact ⟨{ g with budget := some v }, if_pos hv, rfl⟩
  · have value : (BitVec.ofNat 6 v).toNat = v := Nat.mod_eq_of_lt (Nat.lt_succ_of_le hv)
    exact ⟨{ g with mask := some (BitVec.ofNat 6 v) }, if_pos hv, by simp [Staged.value, value]⟩
  · have value : (v == 1).toNat = v := by interval_cases v <;> rfl
    exact ⟨{ g with reclaim := some (v == 1) }, if_pos hv, by simp [Staged.value, value]⟩
  · have ok : within 2 64 v = true := by simp [within, hv]
    exact ⟨{ g with threshold := some v }, if_pos ok, rfl⟩
  · exact ⟨{ g with holdDown := some v }, if_pos hv, rfl⟩
  · exact ⟨{ g with settle := some v }, if_pos hv, rfl⟩

theorem stageValue_outOfRange {p v : Nat} (h : ¬ tuneInRange p v) (g : Staged) : stageValue p v g = none := by
  unfold stageValue
  split <;> simp_all [tuneInRange, capOk, within]

theorem code_of_tuneInRange {p v : Nat} (h : tuneInRange p v) : 0x0F ≤ p ∧ p ≤ 0x16 := by
  unfold tuneInRange at h; omega

section
variable {k : SectorNo} {u : State} {param : Byte} {arg : Half}

theorem cmdSetTune_inRange (hc : u.configured k = true) {g : Staged} (h : tuneInRange param.toNat arg.toNat)
    (hg : stageValue param.toNat arg.toNat (u.sector k).staged = some g) :
    cmdSetTune k param arg u = finish .done arg (modSector k (fun x => { x with staged := g }) u) := by
  obtain ⟨lo, hi⟩ := code_of_tuneInRange h
  have range : within 0x0F 0x16 param.toNat = true := by simp [within, lo, hi]
  simp only [cmdSetTune, hc, range, Bool.true_eq_false, if_false, hg]

theorem cmdSetTune_outOfRange (hc : u.configured k = true) (h : ¬ tuneInRange param.toNat arg.toNat) :
    cmdSetTune k param arg u = finish .invalid (if 0x0F ≤ param.toNat ∧ param.toNat ≤ 0x16 then 2 else 1) u := by
  have none := stageValue_outOfRange h (u.sector k).staged
  by_cases range : 0x0F ≤ param.toNat ∧ param.toNat ≤ 0x16
  · have : within 0x0F 0x16 param.toNat = true := by simp [within, range]
    simp only [cmdSetTune, hc, this, Bool.true_eq_false, if_false, none, range, and_self, if_true]
  · have : within 0x0F 0x16 param.toNat = false := by simpa [within] using range
    simp only [cmdSetTune, hc, this, Bool.true_eq_false, if_false, if_true, if_neg range]

end

/-- Settles O14: the parameter code names the tunable, and its range decides. -/
theorem setTuneStagesValue : Obligations.SetTuneStagesValue := by
  unfold Obligations.SetTuneStagesValue
  intro w s k h hf hk conf hr
  have run := exec_sectorCommand mem_commandRows_setTune h hf hk (by decide) (by decide) fun _ => hr
  rw [run_setTune _ hk] at run
  by_cases range : tuneInRange w.remote.toNat w.arg.toNat
  · obtain ⟨g, stage, value⟩ := stageValue_inRange range (s.sector k).staged
    rw [cmdSetTune_inRange (u := started 0x03 w s) conf range stage] at run
    let u := modSector k (fun x => { x with staged := g }) (started 0x03 w s)
    have sector : u.sector k = { s.sector k with staged := g } :=
      sector_modSector_self k (fun x => { x with staged := g }) (started 0x03 w s)
    have moved : OtherSectors k s u := otherSectors_modSector k (fun x => { x with staged := g }) (started 0x03 w s)
    obtain ⟨a, answered⟩ := finish_begun (u := u) ((begun_started 0x03 h).of_eq rfl rfl) .done w.arg
    have sector_eq := (a.sector k).trans sector
    refine ⟨_, run, a.otherSectors moved, (started_kept 0x03 w s).trans ((deviceKept_modSector k _ _).trans a.dev), ?_, ?_,
      fun c => absurd range c⟩
    · rw [sector_eq]
    · rw [sector_eq]
      exact fun _ => ⟨value, fun p hp => stageValue_others stage hp, answered⟩
  · rw [cmdSetTune_outOfRange (u := started 0x03 w s) conf range] at run
    obtain ⟨sectors, dev, -, -, answered⟩ := finish_started 0x03 h .invalid
      (if 0x0F ≤ w.remote.toNat ∧ w.remote.toNat ≤ 0x16 then 2 else 1)
    have same {t : State} (ht : t.sectors = s.sectors) (j : SectorNo) : t.sector j = s.sector j := by
      rw [State.sector, ht, State.sector]
    exact ⟨_, run, fun j _ => same sectors j, dev, by rw [same sectors], fun c => absurd c range,
      fun _ => ⟨sectors, answered⟩⟩

/-! ### ACK_NOTICE and the NOTICE output (R170, R183) -/

theorem asserted_iff (n : Notices) :
    n.asserted = true ↔ ∃ i : Fin 8, n.pending.getLsbD i.val = true ∧ n.floor ≤ n.classes[i] := by
  simp [Notices.asserted]

theorem setPendingNotices_pending (p : BitVec 8) (s : State) : (setPendingNotices p s).notices.pending = p := by
  unfold setPendingNotices
  split
  · exact Eq.symm ‹_›
  · rfl

/-- Settles O24: the set's bits are taken out of the pending set, and NOTICE is asserted by what remains. -/
theorem ackNoticeClearsKinds : Obligations.AckNoticeClearsKinds := by
  unfold Obligations.AckNoticeClearsKinds
  intro w s h hf
  have fault : commandFault (w.command 0x0C) = none := by
    rw [commandFault_eq, if_neg (by decide), if_neg fun c => absurd c.1 (by decide), if_neg fun c => absurd c.1 (by decide)]
  have run := exec_run mem_commandRows_ackNotice (by decide) h hf fault
  rw [run_ackNotice] at run
  have output {t : State} (dev : DeviceKept s t) :
      t.notice = true ↔ ∃ i : Fin 8, t.notices.pending.getLsbD i.val = true ∧ s.notices.floor ≤ s.notices.classes[i] := by
    rw [State.notice, asserted_iff, dev.floor, dev.classes]
  by_cases arg : 255 < w.arg.toNat
  · rw [cmdAckNotice, if_pos arg] at run
    obtain ⟨sectors, dev, notices, -, answered⟩ := finish_started 0x0C h .invalid 1
    exact ⟨_, run, sectors, dev, fun c => absurd arg (Nat.not_lt.mpr c), fun _ => ⟨by rw [notices], answered⟩, output dev⟩
  · let u := setPendingNotices (s.notices.pending &&& ~~~(w.arg.setWidth 8)) (started 0x0C w s)
    have q : Quiet (started 0x0C w s) u := quiet_setPendingNotices _ _
    obtain ⟨a, answered⟩ := finish_begun ((begun_started 0x0C h).quiet q) .done
      ((s.notices.pending &&& w.arg.setWidth 8).setWidth 16)
    rw [cmdAckNotice, if_neg arg] at run
    have dev := ((started_kept 0x0C w s).trans q.dev).trans a.dev
    exact ⟨_, run, a.sectors.trans (setPendingNotices_sectors _ _), dev,
      fun _ => ⟨(congrArg Notices.pending a.notices).trans (setPendingNotices_pending _ _), answered⟩, fun c => absurd c arg, output dev⟩

end Sys2Proof.Machine

/-! PROOF. The end of an operation that has not completed: CANCEL in every phase of the command in flight (R162) and the timeout of a
pending operation (R148, R156, R163). -/

namespace Sys2Proof.Machine

/-! ### A pending operation abandoned (R148, R156) -/

/-- What the abandonment of a pending operation leaves: nothing pending, the table `ws`, the other sectors and device items kept; its
result stands in the pending result word. -/
structure Abandoned (k : SectorNo) (r : Result) (ws : List Window) (s t : State) : Prop where
  sector : t.sector k = { s.sector k with pendingOp := none }
  others : OtherSectors k s t
  device : DeviceKept s { t with windows := s.windows }
  windows : t.windows = ws
  ports : t.ports = s.ports
  result : t.writer.pendingResult = some r
  held : t.channel.held = s.channel.held

/-- Device items kept but for the table, and the table kept. -/
theorem deviceKept_of_windows {s t : State} (h : DeviceKept s { t with windows := s.windows }) (hw : t.windows = s.windows) :
    DeviceKept s t :=
  ⟨h.pending, h.time, hw, h.roles, h.store, h.classes, h.floor, h.log, h.head, h.tail, h.buffer, h.lastGroup, h.faults, h.base⟩

section
variable {k : SectorNo} {s : State} {f : InFlight}

/-- The shape of every abandonment: at most the table changes before the result of the command in flight is decided. -/
theorem abandoned_of_finish (hf : s.channel.inFlight = some f) (hw : s.resultWaits = false) (ws : List Window)
    (code : ResultCode) (d : Half) : Abandoned k (resultOf f.cmd code d true) ws s
      (finish code d (setPendingOp k none { s with windows := ws })) := by
  obtain ⟨a, -⟩ := finish_spec code d (setPendingOp k none { s with windows := ws }) f hf hw
  exact ⟨(a.sector k).trans (setPendingOp_sector k _ none),
    fun j hj => (a.sector j).trans (setPendingOp_others k { s with windows := ws } none j hj),
    ⟨a.dev.pending, a.dev.time, rfl, a.dev.roles, a.dev.store, a.dev.classes, a.dev.floor, a.dev.log, a.dev.head, a.dev.tail,
      a.dev.buffer, a.dev.lastGroup, a.dev.faults, a.dev.base⟩, a.dev.windows, a.ports, a.result, a.held⟩

/-- A mode change abandoned: its detail is the present mode (R148). -/
theorem abandonPending_mode (hf : s.channel.inFlight = some f) (hw : s.resultWaits = false) {m : Mode}
    (hp : (s.sector k).pendingOp = some (.modeChange m)) (code : ResultCode) :
    Abandoned k (resultOf f.cmd code (BitVec.ofNat 16 (modeCode (s.sector k).mode)) true) s.windows s (abandonPending k code s) := by
  simp only [abandonPending, hp]
  exact abandoned_of_finish hf hw s.windows code _

/-- The window table after a MAP relocation of sector k has ended without completing (R135). -/
def oldMapTable (k : SectorNo) (ws : List Window) : List Window :=
  (ws.filter fun w => !decide (w.kind = .map ∧ w.sector = some k ∧ w.mark = .new)).map fun w =>
    if w.kind = .map ∧ w.sector = some k then { w with mark := .none } else w

theorem keepOldMap_eq (k : SectorNo) (s : State) : keepOldMap k s = { s with windows := oldMapTable k s.windows } := by
  simp only [keepOldMap, oldMapTable, Bool.decide_and, Bool.and_assoc]

theorem oldMapTable_mark {k : SectorNo} {ws : List Window} {w : Window} (h : w ∈ oldMapTable k ws) (hk : w.kind = .map)
    (hs : w.sector = some k) : w.mark = .none := by
  obtain ⟨v, -, rfl⟩ := List.mem_map.mp h
  by_cases hv : v.kind = .map ∧ v.sector = some k
  · rw [if_pos hv]
  · rw [if_neg hv] at hk hs
    exact absurd ⟨hk, hs⟩ hv

/-- A relocation abandoned: a MAP relocation's new window leaves the table (R156). -/
theorem abandonPending_relocation (hf : s.channel.inFlight = some f) (hw : s.resultWaits = false) {kind : RelocKind} {b : Addr}
    {e : Nat} {sw : Bool} (hp : (s.sector k).pendingOp = some (.relocation kind b e sw)) (code : ResultCode) :
    Abandoned k (resultOf f.cmd code 0 true) (if kind = .map then oldMapTable k s.windows else s.windows) s
      (abandonPending k code s) := by
  cases kind with
  | map =>
    simp only [abandonPending, hp, keepOldMap_eq]
    exact abandoned_of_finish hf hw (oldMapTable k s.windows) code 0
  | report => simp only [abandonPending, hp]; exact abandoned_of_finish hf hw s.windows code 0
  | descriptor => simp only [abandonPending, hp]; exact abandoned_of_finish hf hw s.windows code 0

end

/-! ### The timeout (R163) -/

theorem expireTimeout_mode {s : State} {f : InFlight} {d : Word} {k : SectorNo} (hf : s.channel.inFlight = some f)
    (hp : f.phase = .modePending d true) (hk : sectorOfByte f.cmd.sector = some k) :
    expireTimeout s = abandonPending k .timeout s := by
  obtain ⟨c, phase⟩ := f
  obtain rfl : phase = .modePending d true := hp
  simp only [expireTimeout, hf, show sectorOfByte c.sector = some k from hk, Option.getD_some]

theorem expireTimeout_relocation {s : State} {f : InFlight} {d : Word} {k : SectorNo} (hf : s.channel.inFlight = some f)
    (hp : f.phase = .relocationPending d true) (hk : sectorOfByte f.cmd.sector = some k) :
    expireTimeout s = abandonPending k .timeout s := by
  obtain ⟨c, phase⟩ := f
  obtain rfl : phase = .relocationPending d true := hp
  simp only [expireTimeout, hf, show sectorOfByte c.sector = some k from hk, Option.getD_some]

theorem expireTimeout_idle {s : State} (h : ∀ f d, s.channel.inFlight = some f →
    f.phase ≠ .modePending d true ∧ f.phase ≠ .relocationPending d true) : expireTimeout s = s := by
  unfold expireTimeout
  split
  · exact absurd rfl (h _ _ ‹_›).1
  · exact absurd rfl (h _ _ ‹_›).2
  · rfl

/-- Settles O6: the expiry of an operation that is due is its abandonment with TIMEOUT. -/
theorem timeoutEndsThePendingOperation : Obligations.TimeoutEndsThePendingOperation := by
  unfold Obligations.TimeoutEndsThePendingOperation
  refine ⟨fun s h => congrArg Host.Outcome.next (expireTimeout_idle h), ?_, ?_⟩
  · intro s f d k m hw hf hp hk pending
    have a := abandonPending_mode hf hw pending .timeout
    exact ⟨_, congrArg Host.Outcome.next (expireTimeout_mode hf hp hk), a.sector, a.others,
      deviceKept_of_windows a.device a.windows, a.ports, a.held.trans (resultWaits_eq_false.mp hw).2, _, a.result, rfl, rfl, rfl⟩
  · intro s f d k kind b e sw hw hf hp hk pending
    have a := abandonPending_relocation hf hw pending .timeout
    refine ⟨_, congrArg Host.Outcome.next (expireTimeout_relocation hf hp hk), a.sector, a.others, a.device, a.ports,
      a.held.trans (resultWaits_eq_false.mp hw).2, fun hk => a.windows.trans (if_neg hk), fun hk => ?_, _, a.result, rfl, rfl, rfl⟩
    have table := a.windows.trans (if_pos hk)
    exact ⟨fun w hw => oldMapTable_mark (table ▸ hw), table⟩

/-! ### CANCEL (R162) -/

/-- A CANCEL issued with the port free is forwarded and taken. -/
theorem exec_cancel {w : CommandWrite} {s : State} (h : s.ready w) : exec (.cancel (.new w)) s =
    .next (cmdCancel (w.command 0x0D) (forwarded none (commandRequest s 0x0D w) s)) := by
  have fault : commandFault (w.command 0x0D) = none := by
    rw [commandFault_eq, if_neg (by decide), if_neg fun c => absurd c.1 (by decide), if_neg fun c => absurd c.1 (by decide)]
  rw [row_exec mem_commandRows_cancel, takeIssue_commandWord 0x0D h (.inr rfl)]
  simp only [takeCommand, fault]
  rfl

/-- The CANCEL's own result is held behind the one it has brought about. -/
theorem answer_behind (c : Command) (code : ResultCode) (d : Half) {u : State} {r : Result}
    (h : u.writer.pendingResult = some r) (hh : u.channel.held = []) :
    answer c code d u = { u with channel := { u.channel with held := [resultOf c code d false] } } := by
  rw [answer, deliver_occupied _ r u h, hh, List.nil_append]

/-- Settles O25: by the phase of the command in flight. -/
theorem cancelAbandonsTheCommand : Obligations.CancelAbandonsTheCommand := by
  unfold Obligations.CancelAbandonsTheCommand
  refine ⟨?_, ?_, ?_, ?_, ?_, ?_⟩
  · intro w s h hf
    let v := forwarded none (commandRequest s 0x0D w) s
    have taken : cmdCancel (w.command 0x0D) v = finish .nothing 0 (started 0x0D w s) := by
      simp only [cmdCancel, show v.channel.inFlight = none from hf]
      rfl
    obtain ⟨sectors, dev, -, -, answered⟩ := finish_started 0x0D h .nothing 0
    rw [exec_cancel h, taken]
    exact ⟨_, rfl, sectors, dev, finish_ports _ _ _, answered⟩
  · intro w s f d e k m h hf hp hk pending
    let v := forwarded none (commandRequest s 0x0D w) s
    have a := abandonPending_mode (s := v) hf h.free pending .cancelled
    have taken : cmdCancel (w.command 0x0D) v = answer (w.command 0x0D) .done 0 (abandonPending k .cancelled v) := by
      simp only [cmdCancel, show v.channel.inFlight = some f from hf, hp, hk, Option.getD_some]
    rw [exec_cancel h, taken, answer_behind _ _ _ a.result (a.held.trans (resultWaits_eq_false.mp h.free).2)]
    exact ⟨_, rfl, a.sector, a.others, ((forwarded_kept none _ s).trans (deviceKept_of_windows a.device a.windows)).trans
      (deviceKept_channel rfl), ⟨_, a.result, rfl, rfl⟩, _, rfl, rfl, rfl, rfl⟩
  · intro w s f h hf hp
    let v := forwarded none (commandRequest s 0x0D w) s
    have taken : cmdCancel (w.command 0x0D) v = answer (w.command 0x0D) .done 0 (finish .cancelled 0 (dropReads v)) := by
      obtain ⟨_, hp⟩ | ⟨_, _, _, _, _, hp⟩ | hp := hp <;>
        simp only [cmdCancel, show v.channel.inFlight = some f from hf, hp]
    obtain ⟨a, hc⟩ := finish_spec .cancelled 0 (dropReads v) f hf h.free
    rw [exec_cancel h, taken, answer_behind _ _ _ a.result (a.held.trans (resultWaits_eq_false.mp h.free).2)]
    refine ⟨_, rfl, a.sectors, ?_, congrArg Channel.read hc, congrArg Ports.outstanding a.ports, ⟨_, a.result, rfl, rfl, rfl⟩,
      _, rfl, rfl, rfl, rfl⟩
    exact ((forwarded_kept none _ s).trans (DeviceKept.trans (t := dropReads v)
      ⟨rfl, rfl, rfl, rfl, rfl, rfl, rfl, rfl, rfl, rfl, rfl, rfl, rfl, rfl⟩ a.dev)).trans (deviceKept_channel rfl)
  · intro w s f d e k kind b x sw h hf hp hk pending
    let v := forwarded none (commandRequest s 0x0D w) s
    have a := abandonPending_relocation (s := v) hf h.free pending .cancelled
    have taken : cmdCancel (w.command 0x0D) v = answer (w.command 0x0D) .done 0 (abandonPending k .cancelled v) := by
      simp only [cmdCancel, show v.channel.inFlight = some f from hf, hp, hk, Option.getD_some]
    rw [exec_cancel h, taken, answer_behind _ _ _ a.result (a.held.trans (resultWaits_eq_false.mp h.free).2)]
    have dev : DeviceKept v { abandonPending k .cancelled v with windows := v.windows } := a.device
    exact ⟨_, rfl, a.sector, a.others, ((forwarded_kept none _ s).trans dev).trans (deviceKept_channel rfl),
      fun hk => a.windows.trans (if_neg hk), fun hk => a.windows.trans (if_pos hk), ⟨_, a.result, rfl, rfl, rfl⟩,
      _, rfl, rfl, rfl, rfl⟩
  · intro w s c r n failed late h hf
    let v := forwarded none (commandRequest s 0x0D w) s
    have inFlight : v.channel.inFlight = some { cmd := c, phase := .relocationReading r n failed late none } := hf
    have taken : cmdCancel (w.command 0x0D) v = setPhase (.relocationReading r n failed late (some (w.command 0x0D))) v := by
      simp only [cmdCancel, inFlight]
    rw [exec_cancel h, taken]
    exact congrArg Host.Outcome.next (setPhase_of _ inFlight)
  · intro w s f h hf hp
    let v := forwarded none (commandRequest s 0x0D w) s
    have taken : cmdCancel (w.command 0x0D) v = answer (w.command 0x0D) .nothing 0 v := by
      obtain hp | ⟨_, _, _, _, _, hp⟩ := hp <;> simp only [cmdCancel, show v.channel.inFlight = some f from hf, hp]
    obtain ⟨a, hc⟩ := answer_spec (w.command 0x0D) .nothing 0 v h.free
    rw [exec_cancel h, taken]
    exact ⟨_, rfl, a.sectors, (forwarded_kept none _ s).trans a.dev, congrArg Channel.inFlight hc, congrArg Channel.read hc,
      answered_of a (resultWaits_eq_false.mp h.free).2 rfl rfl rfl⟩

end Sys2Proof.Machine

/-! PROOF. The commands on one remote (R40 to R44): accepted, the remote's one step and the answer with its state; refused, the answer
alone. -/

namespace Sys2Proof.Machine

/-! ### The restoring count of a sector (R6) -/

theorem n_eq_countP (x : Sector) : x.n = (x.entries.toList.map Entry.state).countP RState.restoring := by
  rw [List.countP_map]; rfl

/-- n is a count of states alone. -/
theorem n_congr {x y : Sector} (h : ∀ q, (y.entry q).state = (x.entry q).state) : y.n = x.n := by
  have states : y.entries.toList.map Entry.state = x.entries.toList.map Entry.state := by
    refine List.ext_getElem (by simp) fun i hi _ => ?_
    simpa [Sector.entry] using h ⟨i, by simpa using hi⟩
  rw [n_eq_countP, n_eq_countP, states]

theorem n_of_entries {x y : Sector} (h : y.entries = x.entries) : y.n = x.n := by rw [Sector.n, Sector.n, h]

/-- A remote that begins to restore is one more. -/
theorem n_setEntry_restoring (x : Sector) (r : RemoteNo) (e : Entry) (old : (x.entry r).state.restoring = false)
    (new : e.state.restoring = true) : (x.setEntry r e).n = x.n + 1 := by
  have old' : (x.entries.toList[r.val]'(by simp)).state.restoring = false := by simpa [Sector.entry] using old
  rw [Sector.n, Sector.setEntry, Vector.toList_set, List.countP_set (by simp), old', new]
  rfl

/-! ### The stamp and the count of an entry to the queue (R53) -/

theorem applyStep_nextTail {r : RemoteNo} {e : Entry} {placed : Bool} {x : Sector} (h : (x.entry r).state ≠ .queued) :
    (applyStep r e placed x).nextTail = x.nextTail := by
  have leave : (leaveState r (x.entry r).state placed
      (x.setEntry r { e with fadedAt := fadedAtAfter x.frame (x.entry r).state e.state (x.entry r).fadedAt })).nextTail =
      x.nextTail := by
    unfold leaveState
    split
    · exact absurd ‹_› h
    · rfl
    · rfl
  unfold applyStep
  dsimp only
  split
  · rfl
  · rw [show ∀ y, (voidFor r e.state y).nextTail = y.nextTail from fun _ => rfl, ← leave]
    unfold enterRanging
    split <;> rfl

theorem readyTail_state (x : Sector) (q : RemoteNo) : ((readyTail x).entry q).state = (x.entry q).state := by
  obtain ⟨o, h⟩ := readyTail_entry x q
  rw [h]

/-- A remote that was not QUEUED takes the next tail stamp; one that was not restoring is one more. -/
theorem toQueueTail_counts {k : SectorNo} {r : RemoteNo} {info : StepInfo} {f : Entry → Entry} {s : State}
    (h : (s.entry k r).state ≠ .queued) :
    ((toQueueTail k r info f s).sector k).nextTail = (readyTail (s.sector k)).nextTail + 1 ∧
      ((s.entry k r).state.restoring = false → ((toQueueTail k r info f s).sector k).n = (s.sector k).n + 1) := by
  let x := readyTail (s.sector k)
  let y : Sector := { x with nextTail := x.nextTail + 1 }
  have state : (y.entry r).state = (s.entry k r).state := readyTail_state (s.sector k) r
  let v := modSector k (fun z => { z with nextTail := x.nextTail + 1 }) (modSector k readyTail s)
  have sector : v.sector k = y := by
    rw [sector_modSector_self, sector_modSector_self]
  let e := Entry.enter { f (y.entry r) with order := x.nextTail } .queued (s.params k).restart (s.params k).attemptsLimit
  have step : toQueueTail k r info f s = remoteStep k r info e v := by
    simp only [toQueueTail, stepTo, sector_modSector_self, State.entry]
    rfl
  obtain ⟨ep, after⟩ := remoteStep_sector k r info e v
  rw [step, after, sector]
  refine ⟨applyStep_nextTail (by rw [state]; exact h), fun old => ?_⟩
  have n_y : y.n = (s.sector k).n := n_congr (x := s.sector k) (readyTail_state (s.sector k))
  rw [← n_y]
  refine (n_of_entries (applyStep_entries r e info.placed y)).trans (n_setEntry_restoring y r _ (by rw [state]; exact old) ?_)
  show e.state.restoring = true
  rw [enter_state]
  rfl

/-! ### A command on one remote (R40) -/

section
variable {w : CommandWrite} {k : SectorNo} {r : RemoteNo} (u : State)

theorem run_hold (hk : sectorOfByte w.sector = some k) (hr : remoteOfByte w.remote = some r) :
    runCommand (w.command 0x04) u = cmdHold k r u :=
  show cmdHold ((sectorOfByte w.sector).getD 0) ((remoteOfByte w.remote).getD 0) u = _ by rw [hk, hr]; rfl

theorem run_release (hk : sectorOfByte w.sector = some k) (hr : remoteOfByte w.remote = some r) :
    runCommand (w.command 0x05) u = cmdRelease k r u :=
  show cmdRelease ((sectorOfByte w.sector).getD 0) ((remoteOfByte w.remote).getD 0) u = _ by rw [hk, hr]; rfl

theorem run_rearm (hk : sectorOfByte w.sector = some k) (hr : remoteOfByte w.remote = some r) :
    runCommand (w.command 0x06) u = cmdRearm k r u :=
  show cmdRearm ((sectorOfByte w.sector).getD 0) ((remoteOfByte w.remote).getD 0) u = _ by rw [hk, hr]; rfl

theorem run_forceFade (hk : sectorOfByte w.sector = some k) (hr : remoteOfByte w.remote = some r) :
    runCommand (w.command 0x07) u = cmdForceFade k r u :=
  show cmdForceFade ((sectorOfByte w.sector).getD 0) ((remoteOfByte w.remote).getD 0) u = _ by rw [hk, hr]; rfl

end

theorem holdAccepts_iff (st : RState) : holdAccepts st = true ↔ acceptedIn 0x04 st := by
  cases st <;> simp [holdAccepts, acceptedIn]

theorem releaseAccepts_iff (st : RState) : st = .held ↔ acceptedIn 0x05 st := by
  cases st <;> simp [acceptedIn]

theorem rearmAccepts_iff (st : RState) : st = .excluded ↔ acceptedIn 0x06 st := by
  cases st <;> simp [acceptedIn]

theorem forceFadeAccepts_iff (st : RState) : forceFadeAccepts st = true ↔ acceptedIn 0x07 st := by
  cases st <;> simp [forceFadeAccepts, acceptedIn]

section
variable {k : SectorNo} {r : RemoteNo} {accepts : RState → Bool} {act : State → State} {u : State}

theorem remoteCommand_refused (h : (u.sector k).mode ≠ .active ∨ ¬ accepts (u.entry k r).state) :
    remoteCommand k r accepts act u = finish .state (stateDetail k r u) u :=
  if_neg fun c => h.elim (absurd c.1) (absurd c.2)

theorem remoteCommand_accepted (hm : (u.sector k).mode = .active) (ha : accepts (u.entry k r).state) :
    remoteCommand k r accepts act u = finish .done (stateDetail k r (act u)) (act u) := if_pos ⟨hm, ha⟩

end

/-- Settles O18: the one test of R40, with each command's accepted states. -/
theorem remoteCommandsRefusedWithState : Obligations.RemoteCommandsRefusedWithState := by
  unfold Obligations.RemoteCommandsRefusedWithState
  intro row code hm hc w s k r h hf hk hr refused
  have sector_lt := toNat_lt_of_sectorOfByte hk
  have remote_lt := toNat_lt_of_remoteOfByte hr
  simp only [List.mem_cons, List.not_mem_nil, or_false] at hc
  have range : code ≠ 0x0D ∧ 1 ≤ code.toNat ∧ code.toNat ≤ 13 := by obtain rfl | rfl | rfl | rfl := hc <;> decide
  have decided : runCommand (w.command code) (started code w s) =
      finish .state (stateDetail k r (started code w s)) (started code w s) := by
    obtain rfl | rfl | rfl | rfl := hc
    · rw [run_hold _ hk hr]
      exact remoteCommand_refused (refused.imp_right (mt (holdAccepts_iff _).mp))
    · rw [run_release _ hk hr]
      exact remoteCommand_refused (refused.imp_right (mt fun c => (releaseAccepts_iff _).mp (of_decide_eq_true c)))
    · rw [run_rearm _ hk hr]
      exact remoteCommand_refused (refused.imp_right (mt fun c => (rearmAccepts_iff _).mp (of_decide_eq_true c)))
    · rw [run_forceFade _ hk hr]
      exact remoteCommand_refused (refused.imp_right (mt (forceFadeAccepts_iff _).mp))
  obtain ⟨sectors, dev, -, -, answered⟩ := finish_started code h .state (stateDetail k r (started code w s))
  rw [exec_run hm range.1 h hf (commandFault_none range.2 sector_lt fun _ => remote_lt), decided]
  exact ⟨_, rfl, sectors, dev, answered⟩

/-- What an accepted command on one remote comes to: the step it takes, and DONE with the state the step leads to. -/
theorem finish_moved {code : Byte} {w : CommandWrite} {s v : State} {k : SectorNo} {r : RemoteNo} {c : StateCause} {x : Sector}
    {e : Entry} (h : s.ready w) (q : Quiet (started code w s) v) (m : Moved k r c x e (started code w s) v) :
    let t := finish .done (stateDetail k r v) v
    t.entry k r = e ∧ Followed r (s.entry k r).state e.state (s.sector k) (t.sector k) ∧ OtherEntries k r x s t ∧
      SectorKept (s.sector k) (t.sector k) ∧ DeviceKept s t ∧ t.sector k = v.sector k ∧
      t.answered w .done (BitVec.ofNat 16 e.state.code) := by
  obtain ⟨a, answered⟩ := finish_begun ((begun_started code h).quiet q) .done (stateDetail k r v)
  have detail : stateDetail k r v = BitVec.ofNat 16 e.state.code := by rw [stateDetail, m.entry]
  have sector : (finish .done (stateDetail k r v) v).sector k = v.sector k := a.sector k
  refine ⟨(a.entry k r).trans m.entry, ?_, ⟨?_, fun j hj => (a.entry k j).trans (m.others.2 j hj)⟩, ?_,
    ((started_kept code w s).trans m.device).trans a.dev, sector, detail ▸ answered⟩
  · rw [sector]
    exact m.followed
  · exact a.otherSectors m.others.1
  · rw [sector]
    exact m.sector

/-- faded at on a step out of service: set where the remote was SERVING, and kept where it was not in service (R5). -/
theorem fadedAtAfter_notIdle {frame : Frame} {old new : RState} {f : Option Frame} (hn : new.inService = false)
    (ho : old ≠ .idle) : fadedAtAfter frame old new f = if old = .serving then some frame else f := by
  rw [fadedAtAfter, if_neg (by rw [hn]; exact Bool.false_ne_true)]
  cases old with
  | idle => exact absurd rfl ho
  | _ => rfl

/-- Settles O15: HOLD is one step to HELD. -/
theorem holdParksRemote : Obligations.HoldParksRemote := by
  unfold Obligations.HoldParksRemote
  intro w s k r h hf hk hr mode accepted
  let u := started 0x04 w s
  have accepts := (holdAccepts_iff (s.entry k r).state).mpr accepted
  have states : (s.entry k r).state ≠ .held ∧ (s.entry k r).state ≠ .idle := by
    simpa [holdAccepts, and_comm] using accepts
  have moved := stepTo_moved k r .held (StepInfo.plain .hold) id u _ _ rfl states.1 rfl
  have run := exec_run mem_commandRows_hold (by decide) h hf
    (commandFault_none (by decide) (toNat_lt_of_sectorOfByte hk) fun _ => toNat_lt_of_remoteOfByte hr)
  rw [run_hold _ hk hr, cmdHold, remoteCommand_accepted (u := u) mode accepts] at run
  obtain ⟨entry, followed, others, kept, dev, -, answered⟩ := finish_moved h (local_stepTo k r .held _ id u).toQuiet moved
  refine ⟨_, run, entry.trans ?_, followed, others, kept, dev, answered⟩
  rw [← fadedAtAfter_notIdle (new := .held) rfl states.2]
  rfl

/-- Settles O17: FORCE_FADE is one step to FADED with the backoff base. -/
theorem forceFadeFadesUncharged : Obligations.ForceFadeFadesUncharged := by
  unfold Obligations.ForceFadeFadesUncharged
  intro w s k r h hf hk hr mode accepted
  let u := started 0x07 w s
  have accepts := (forceFadeAccepts_iff (s.entry k r).state).mpr accepted
  have states : (s.entry k r).state ≠ .faded ∧ (s.entry k r).state ≠ .idle :=
    by
    constructor <;> (intro c; rw [c] at accepts; cases accepts)
  let info : StepInfo := { StepInfo.plain .forceFade with inputs := some { Inputs.none with fade := true } }
  have moved := stepTo_moved k r .faded info (fun e => { e with backoff := (s.params k).backoffBase }) u _ _ rfl states.1 rfl
  have run := exec_run mem_commandRows_forceFade (by decide) h hf
    (commandFault_none (by decide) (toNat_lt_of_sectorOfByte hk) fun _ => toNat_lt_of_remoteOfByte hr)
  rw [run_forceFade _ hk hr, cmdForceFade, remoteCommand_accepted (u := u) mode accepts] at run
  obtain ⟨entry, followed, others, kept, dev, -, answered⟩ := finish_moved h (local_stepTo k r .faded info _ u).toQuiet moved
  refine ⟨_, run, entry.trans ?_, followed, others, kept, dev, answered⟩
  rw [← fadedAtAfter_notIdle (new := .faded) rfl states.2]
  rfl

/-- Settles O16: RELEASE and REARM are the same step to QUEUED, each from its own state. -/
theorem releaseAndRearmQueueAtTail : Obligations.ReleaseAndRearmQueueAtTail := by
  unfold Obligations.ReleaseAndRearmQueueAtTail
  intro row old hrow w s k r h hf hk hr mode state
  obtain ⟨code, cause, hstate, run⟩ : ∃ code cause, (old = .held ∨ old = .excluded) ∧
      exec (row (.new w)) s = .next
        (let v := toQueueTail k r (StepInfo.plain cause) Entry.fresh (started code w s)
         finish .done (stateDetail k r v) v) := by
    simp only [List.mem_cons, Prod.mk.injEq, List.not_mem_nil, or_false] at hrow
    have fault {code : Byte} (hc : 1 ≤ code.toNat ∧ code.toNat ≤ 13) : commandFault (w.command code) = none :=
      commandFault_none hc (toNat_lt_of_sectorOfByte hk) fun _ => toNat_lt_of_remoteOfByte hr
    obtain ⟨rfl, rfl⟩ | ⟨rfl, rfl⟩ := hrow
    · refine ⟨0x05, .release, .inl rfl, ?_⟩
      rw [exec_run mem_commandRows_release (by decide) h hf (fault (by decide)), run_release _ hk hr, cmdRelease,
        remoteCommand_accepted (u := started 0x05 w s) mode (decide_eq_true state)]
    · refine ⟨0x06, .rearm, .inr rfl, ?_⟩
      rw [exec_run mem_commandRows_rearm (by decide) h hf (fault (by decide)), run_rearm _ hk hr, cmdRearm,
        remoteCommand_accepted (u := started 0x06 w s) mode (decide_eq_true state)]
  let u := started code w s
  have facts : old ≠ .queued ∧ old.inService = false ∧ old.restoring = false := by
    obtain rfl | rfl := hstate <;> decide
  have notQueued : (u.entry k r).state ≠ .queued := state.trans_ne facts.1
  have moved := toQueueTail_moved k r (StepInfo.plain cause) Entry.fresh u (readyTail (s.sector k))
    ((s.entry k r).fresh.queuedAs (s.params k).restart (readyTail (s.sector k)).nextTail) cause rfl rfl notQueued
    ((congrArg RState.inService state).trans facts.2.1) (fun _ => rfl) (fun _ => rfl)
  obtain ⟨tail, count⟩ := toQueueTail_counts (info := StepInfo.plain cause) (f := Entry.fresh) notQueued
  obtain ⟨entry, followed, others, kept, dev, sector, answered⟩ :=
    finish_moved h (local_toQueueTail k r (StepInfo.plain cause) Entry.fresh u).toQuiet moved
  refine ⟨_, readyTail (s.sector k), rfl, run, entry, ?_, ?_, state ▸ followed, others, kept, dev, answered⟩
  · rw [sector]
    exact tail
  · rw [sector]
    exact count ((congrArg RState.restoring state).trans facts.2.2)

end Sys2Proof.Machine

/-! PROOF. The commands that move every remote of a sector: SET_MODE to PASS (R147), RESUME (R151) and RESET_SECTOR (R152). Each is a
discard and a pass over the remotes, of which the entries, the lists that stay empty and the close of the episode are told apart. -/

namespace Sys2Proof.Machine

/-! ### Lists that a discard has emptied stay empty -/

/-- History, wait list and roster are empty (R74). -/
def Sector.discarded (x : Sector) : Prop := x.history = [] ∧ x.waitList = [] ∧ x.roster.members = []

theorem VoidedFor.nil {r : RemoteNo} {st : RState} {after : List Plan} (h : VoidedFor r st [] after) : after = [] := by
  obtain ⟨f, h, -⟩ := h
  exact h

/-- A step that does not enter RANGING fills none of the lists. -/
theorem Followed.discarded {r : RemoteNo} {old new : RState} {x y : Sector} (h : Followed r old new x y) (hn : new ≠ .ranging)
    (hx : x.discarded) : y.discarded := by
  obtain ⟨hh, hw, hr⟩ := hx
  by_cases same : old = new
  · obtain ⟨h1, -, h3, h4⟩ := h.kept same
    exact ⟨h1.trans hh, h3.trans hw, (congrArg Roster.members h4).trans hr⟩
  · refine ⟨(hh ▸ h.plans same).nil, ?_, ?_⟩
    · rw [(h.ranging same).2, if_neg hn, hw]
      split <;> rfl
    · rw [h.roster same]
      split
      · rw [hr]; rfl
      · exact hr

theorem Followed.noRanging {r : RemoteNo} {old new : RState} {x y : Sector} (h : Followed r old new x y) (hn : new ≠ .ranging)
    (hx : x.rangingOrder = []) : y.rangingOrder = [] := by
  by_cases same : old = new
  · exact (h.kept same).2.1.trans hx
  · rw [(h.ranging same).1, if_neg hn, hx]
    split <;> rfl

/-- What every step of a pass keeps of the sector, the pass keeps. -/
theorem forRemotes_keeps {k : SectorNo} {f : RemoteNo → State → State} {P : Sector → Prop}
    (step : ∀ r s, P (s.sector k) → P ((f r s).sector k)) (rs : List RemoteNo) (s : State) (h : P (s.sector k)) :
    P ((forRemotes rs f s).sector k) := by
  induction rs generalizing s with
  | nil => exact h
  | cons r rs ih => exact ih (f r s) (step r s h)

/-! ### The close of an episode (R125) -/

theorem episodeOnly_closeForEvent (k : SectorNo) (cause : EpisodeCause) (s : State) : EpisodeOnly k s (closeForEvent k cause s) :=
  .ite (episodeOnly_changeEpisode ..) (.refl ..)

theorem sector_of_sectors {s t : State} (h : t.sectors = s.sectors) (k : SectorNo) : t.sector k = s.sector k := by
  rw [State.sector, h, State.sector]

theorem changeEpisode_state (k : SectorNo) (target : EpisodeState) (cause : EpisodeCause) (f : Episode → Episode) (s : State) :
    ((changeEpisode k target cause f s).sector k).episode.state = target := by
  unfold changeEpisode
  dsimp only
  rw [sector_of_sectors (noticeOfChange_sectors _ _), sector_of_sectors (markCounter_sectors _ _),
    sector_of_sectors (logSector_sectors _ _ _), modEpisode, sector_modSector_self]

theorem closeForEvent_clear (k : SectorNo) (cause : EpisodeCause) (s : State) :
    ((closeForEvent k cause s).sector k).episode.state = .clear := by
  unfold closeForEvent
  split
  · exact changeEpisode_state ..
  next h => simpa [Episode.isOpen] using h

theorem EpisodeOnly.entry {k : SectorNo} {s t : State} (h : EpisodeOnly k s t) (q : RemoteNo) : t.entry k q = s.entry k q := by
  obtain ⟨e, h⟩ := h
  exact entry_of_entries q (by rw [h])

/-! ### SET_MODE to PASS (R147) -/

theorem quiet_setSuspended (k : SectorNo) (b : Bool) (s : State) : Quiet s (setSuspended k b s) :=
  (quiet_modSector k _ s).trans (local_markCounter k k _).toQuiet

theorem quiet_setModeTo (k : SectorNo) (m : Mode) (s : State) : Quiet s (setModeTo k m s) :=
  (quiet_modSector k _ s).trans (local_markCounter k k _).toQuiet

theorem OtherSectors.trans {k : SectorNo} {s t u : State} (h : OtherSectors k s t) (g : OtherSectors k t u) :
    OtherSectors k s u := fun j hj => (g j hj).trans (h j hj)

/-- Suspension ended for a change to PASS: the flag clear and every deferred value taken. -/
def unsuspended (k : SectorNo) (s : State) : State :=
  if (s.sector k).suspended then takeAllDeferred StepInfo.silent k (setSuspended k false s) else s

theorem unsuspended_kept (k : SectorNo) (s : State) : Quiet s (unsuspended k s) ∧ OtherSectors k s (unsuspended k s) ∧
    SectorKept { s.sector k with suspended := false } ((unsuspended k s).sector k) := by
  unfold unsuspended
  split
  · have l := local_takeAllDeferred StepInfo.silent k (setSuspended k false s)
    refine ⟨(quiet_setSuspended k false s).trans l.toQuiet, (setSuspended_others k s false).trans l.others, ?_⟩
    rw [← setSuspended_sector k s false]
    exact l.stable.toSectorKept
  next h => exact ⟨.refl s, fun _ _ => rfl, ⟨rfl, by simpa using h, rfl, rfl, rfl, rfl, rfl, rfl, rfl, rfl⟩⟩

theorem toService_followed (cause : StateCause) (k : SectorNo) (r : RemoteNo) (s : State) :
    ∃ new, new ≠ .ranging ∧ Followed r (s.entry k r).state new (s.sector k) ((toService cause k r s).sector k) := by
  have inService : serviceState (s.entry k r) ≠ .ranging := by unfold serviceState; split <;> decide
  unfold toService
  dsimp only
  split
  next h => exact ⟨_, inService, fun _ => ⟨rfl, rfl, rfl, rfl⟩, fun c => absurd h.1 c, fun c => absurd h.1 c, fun c => absurd h.1 c,
      fun c => absurd (h.1.symm.trans c) (by unfold serviceState; split <;> decide)⟩
  · exact ⟨_, inService, stepTo_followed k r _ (StepInfo.silent cause) id s rfl⟩

/-- What a change to PASS comes to, beside the entries. -/
structure Passed (k : SectorNo) (s t : State) : Prop where
  quiet : Quiet s t
  others : OtherSectors k s t
  mode : (t.sector k).mode = .pass
  suspended : (t.sector k).suspended = false
  resync : (t.sector k).resyncPending = true
  discarded : (t.sector k).discarded
  ranging : (t.sector k).rangingOrder = []
  episode : (t.sector k).episode.state = .clear
  tunables : (t.sector k).tunables = (s.sector k).tunables
  staged : (t.sector k).staged = (s.sector k).staged
  pack : (t.sector k).pack = (s.sector k).pack
  counts : (t.sector k).counts = (s.sector k).counts
  entry : ∀ q, t.entry k q = ((unsuspended k s).entry k q).served

theorem changeToPass_passed (k : SectorNo) (s : State) : Passed k s (changeToPass k s) := by
  have whole : changeToPass k s = setModeTo k .pass (closeForEvent k .mode (forRemotes remotes (toService .mode k)
      (modSector k (fun x => { discardForEvent x with rangingOrder := [] }) (unsuspended k s)))) := rfl
  obtain ⟨quiet_a, others_a, kept_a⟩ := unsuspended_kept k s
  obtain ⟨a, ha⟩ : ∃ a, a = unsuspended k s := ⟨_, rfl⟩
  rw [whole, ← ha]
  rw [← ha] at quiet_a others_a kept_a
  obtain ⟨b, hb⟩ : ∃ b, b = modSector k (fun x => { discardForEvent x with rangingOrder := [] }) a := ⟨_, rfl⟩
  obtain ⟨c, hc⟩ : ∃ c, c = forRemotes remotes (toService .mode k) b := ⟨_, rfl⟩
  obtain ⟨d, hd⟩ : ∃ d, d = closeForEvent k .mode c := ⟨_, rfl⟩
  rw [← hb, ← hc, ← hd]
  have quiet_b : Quiet a b := hb ▸ quiet_modSector k _ a
  have others_b : OtherSectors k a b := hb ▸ otherSectors_modSector k _ a
  have sector_b : b.sector k = { discardForEvent (a.sector k) with rangingOrder := [] } := by
    rw [hb, sector_modSector_self k (fun x => { discardForEvent x with rangingOrder := [] }) a]
  have local_c : Local k b c := hc ▸ local_forRemotes (local_toService .mode k) remotes b
  have local_d : Local k c d := hd ▸ local_closeForEvent k .mode c
  have kept_d : SectorKept (b.sector k) (d.sector k) := (local_c.trans local_d).stable.toSectorKept
  have lists_c : (c.sector k).discarded ∧ (c.sector k).rangingOrder = [] := by
    rw [hc]
    refine forRemotes_keeps (P := fun x => x.discarded ∧ x.rangingOrder = []) (fun r s h => ?_) remotes b ?_
    · obtain ⟨new, hn, f⟩ := toService_followed .mode k r s
      exact ⟨f.discarded hn h.1, f.noRanging hn h.2⟩
    · rw [sector_b]
      exact ⟨⟨rfl, rfl, rfl⟩, rfl⟩
  have closes : EpisodeOnly k c d := hd ▸ episodeOnly_closeForEvent k .mode c
  have clear : (d.sector k).episode.state = .clear := hd ▸ closeForEvent_clear k .mode c
  obtain ⟨ep, sector_d⟩ := id closes
  have sector_t := setModeTo_sector k d .pass
  refine ⟨?_, ?_, by rw [sector_t], ?_, ?_, ?_, ?_, by rw [sector_t]; exact clear, ?_, ?_, ?_, ?_, fun q => ?_⟩
  · exact ((quiet_a.trans quiet_b).trans (local_c.trans local_d).toQuiet).trans (quiet_setModeTo k .pass d)
  · exact ((others_a.trans others_b).trans (local_c.trans local_d).others).trans (setModeTo_others k d .pass)
  · rw [sector_t]
    exact kept_d.suspended.trans (by rw [sector_b]; exact kept_a.suspended)
  · rw [sector_t]
    exact kept_d.resync.trans (by rw [sector_b]; rfl)
  · rw [sector_t, sector_d]
    exact lists_c.1
  · rw [sector_t, sector_d]
    exact lists_c.2
  · rw [sector_t]
    exact kept_d.tunables.trans (by rw [sector_b]; exact kept_a.tunables)
  · rw [sector_t]
    exact kept_d.staged.trans (by rw [sector_b]; exact kept_a.staged)
  · rw [sector_t]
    exact kept_d.pack.trans (by rw [sector_b]; exact kept_a.pack)
  · rw [sector_t]
    exact kept_d.counts.trans (by rw [sector_b]; exact kept_a.counts)
  · calc (setModeTo k .pass d).entry k q = d.entry k q := entry_of_entries q (by rw [sector_t])
      _ = c.entry k q := closes.entry q
      _ = (b.entry k q).served := by rw [hc]; exact allToService_entry .mode k b q
      _ = (a.entry k q).served := congrArg Entry.served (entry_of_entries q (by rw [sector_b]; rfl))
      _ = ((unsuspended k s).entry k q).served := by rw [ha]

/-- A remote in service stands at its ceiling, by its admin. -/
theorem served_state (e : Entry) :
    e.served.state = (if e.served.admin then .serving else .idle) ∧ e.served.profile = e.served.ceiling := by
  unfold Entry.served
  split
  next h => exact h
  · exact ⟨rfl, rfl⟩

theorem served_stays {e : Entry} {v : Option Bool} {o : Nat} (c : e.state = serviceState e ∧ e.profile = e.ceiling) :
    ({ e with deferred := v, order := o } : Entry).served = { e with deferred := v, order := o } := if_pos c

theorem served_moves {e : Entry} {v : Option Bool} {o : Nat} (c : ¬(e.state = serviceState e ∧ e.profile = e.ceiling)) :
    ({ e with deferred := v, order := o } : Entry).served = { e.serviceAs (serviceState e) with deferred := v, order := o } :=
  if_neg c

/-- An entry in service after its deferred value is taken, in terms of the entry before. -/
theorem served_of_deferral {e e1 : Entry} (h : Deferral e e1) :
    let admin := e.deferred.getD e.admin
    let st : RState := if admin then .serving else .idle
    ∃ stamp, e1.served = { (if admin = e.admin ∧ e.state = st ∧ e.profile = e.ceiling then e else e.serviceAs st) with
      admin := admin, deferred := none, order := stamp } := by
  obtain ⟨o, absent, present⟩ := h
  refine ⟨o, ?_⟩
  cases hd : e.deferred with
  | none =>
    rw [absent hd, Option.getD_none]
    by_cases c : e.state = serviceState e ∧ e.profile = e.ceiling
    · rw [served_stays c, if_pos ⟨rfl, c⟩, hd]
    · rw [served_moves c, if_neg fun h => c h.2, hd]
      rfl
  | some v =>
    obtain ⟨same, differs⟩ := present v hd
    rw [Option.getD_some]
    by_cases hv : v = e.admin
    · rw [same hv]
      subst hv
      by_cases c : e.state = serviceState e ∧ e.profile = e.ceiling
      · rw [served_stays c, if_pos ⟨rfl, c⟩]
      · rw [served_moves c, if_neg fun h => c h.2]
        rfl
    · obtain ⟨admin, service, stays⟩ := differs hv
      have served : e1.served = e1.serviceAs (serviceState e1) := by
        unfold Entry.served
        split
        next h => exact stays h.1
        · rfl
      rw [served, service, if_neg (fun c => hv c.1), serviceState, admin]
      rfl

/-- A served entry after the end of suspension, in terms of the entry before: the deferred value is taken of a suspended
sector only (R147). -/
theorem unsuspended_served (k : SectorNo) (s : State) (r : RemoteNo) :
    let e := s.entry k r
    let admin := if (s.sector k).suspended then e.deferred.getD e.admin else e.admin
    let st : RState := if admin then .serving else .idle
    ∃ stamp, ((s.sector k).suspended = false → stamp = e.order) ∧ ((unsuspended k s).entry k r).served =
      { (if admin = e.admin ∧ e.state = st ∧ e.profile = e.ceiling then e else e.serviceAs st) with
        admin := admin, deferred := if (s.sector k).suspended then none else e.deferred, order := stamp } := by
  unfold unsuspended
  cases susp : (s.sector k).suspended with
  | true =>
    have same : (setSuspended k false s).entry k r = s.entry k r := entry_of_entries r (by rw [setSuspended_sector])
    have deferral := takeAllDeferred_entry StepInfo.silent k (setSuspended k false s) r
    rw [same] at deferral
    obtain ⟨stamp, service⟩ := served_of_deferral deferral
    exact ⟨stamp, nofun, service⟩
  | false =>
    refine ⟨(s.entry k r).order, fun _ => rfl, ?_⟩
    by_cases c : (s.entry k r).state = serviceState (s.entry k r) ∧ (s.entry k r).profile = (s.entry k r).ceiling
    · have stays : ((s.entry k r).served : Entry) = s.entry k r := served_stays c
      simp only [Bool.false_eq_true, if_false]
      rw [stays, if_pos ⟨trivial, c⟩]
    · have moves : (s.entry k r).served = (s.entry k r).serviceAs (serviceState (s.entry k r)) := served_moves c
      simp only [Bool.false_eq_true, if_false]
      rw [moves, if_neg fun h => c h.2]
      rfl

/-- Settles O13: the change to PASS, and each entry of it by whether the sector was suspended. -/
theorem setModeToPassReturnsRemotesToService : Obligations.SetModeToPassReturnsRemotesToService := by
  unfold Obligations.SetModeToPassReturnsRemotesToService
  intro w s k h hf hk conf arg mode
  let u := started 0x02 w s
  have p := changeToPass_passed k u
  have run := exec_sectorCommand mem_commandRows_setMode h hf hk (by decide) (by decide) fun c => absurd c (by decide)
  rw [run_setMode _ hk, arg, cmdSetMode_pass (u := u) conf mode] at run
  obtain ⟨a, answered⟩ := finish_begun ((begun_started 0x02 h).quiet p.quiet) .done 0
  have sector := a.sector k
  have entry (q : RemoteNo) := (a.entry k q).trans (p.entry q)
  refine ⟨_, run, a.otherSectors p.others, ((started_kept 0x02 w s).trans p.quiet.dev).trans a.dev, ?_⟩
  rw [sector]
  refine ⟨p.mode, p.suspended, p.resync, p.discarded.1, p.discarded.2.1, p.discarded.2.2, p.ranging, p.episode, fun r => ?_,
    fun r => by rw [entry]; exact served_state _, p.tunables, p.staged, p.pack, p.counts, answered⟩
  rw [entry]
  exact unsuspended_served k u r

end Sys2Proof.Machine

/-! PROOF. RESUME (R151) and RESET_SECTOR (R152): the entries after the pass over the remotes, and what the discard leaves of the
sector. -/

namespace Sys2Proof.Machine

/-! ### RESUME (R48, R151) -/

theorem Entry.enter_admin (e : Entry) (st : RState) (restart limit : Nat) :
    (e.enter st restart limit).admin = e.admin ∧ (e.enter st restart limit).deferred = e.deferred := by
  cases st <;> exact ⟨rfl, rfl⟩

/-- What a requeue keeps of an entry, and the state it does not leave it in (R48). -/
def Requeued (e e' : Entry) : Prop := e'.admin = e.admin ∧ e'.deferred = e.deferred ∧ e'.state ≠ .probing

/-- An entry with perhaps another stamp. -/
def Restamped (e e' : Entry) : Prop := ∃ o, e' = { e with order := o }

theorem requeueProbing_own (cause : StateCause) (k : SectorNo) (r : RemoteNo) (s : State) :
    Requeued (s.entry k r) ((requeueProbing cause k r s).entry k r) := by
  unfold requeueProbing
  split
  · obtain ⟨o, ho⟩ := readyHead_entry (s.sector k) r
    rw [toQueueHead_entry k r r _ _ s _ rfl, if_pos rfl]
    refine ⟨(Entry.enter_admin _ _ _ _).1.trans ?_, (Entry.enter_admin _ _ _ _).2.trans ?_, ?_⟩
    · show ((readyHead (s.sector k)).entry r).admin = _
      rw [ho]; rfl
    · show ((readyHead (s.sector k)).entry r).deferred = _
      rw [ho]; rfl
    · rw [enter_state]; decide
  next h => exact ⟨rfl, rfl, h⟩

theorem requeueProbing_other (cause : StateCause) (k : SectorNo) {r q : RemoteNo} (s : State) (h : q ≠ r) :
    Restamped (s.entry k q) ((requeueProbing cause k r s).entry k q) := by
  unfold requeueProbing
  split
  · obtain ⟨o, ho⟩ := readyHead_entry (s.sector k) q
    rw [toQueueHead_entry k r q _ _ s _ rfl, if_neg h]
    exact ⟨o, ho⟩
  · exact ⟨_, rfl⟩

/-- The pass of a discard in ACTIVE. -/
theorem requeueAll_entry (cause : StateCause) (k : SectorNo) (s : State) (q : RemoteNo) :
    Requeued (s.entry k q) ((forRemotes remotes.reverse (requeueProbing cause k) s).entry k q) :=
  (forRemotes_entries (K := Restamped) (G := Requeued) (fun _ => ⟨_, rfl⟩)
    (by rintro a _ _ ⟨o, rfl⟩ ⟨o', rfl⟩; exact ⟨o', rfl⟩) (by rintro a _ _ ⟨o, rfl⟩ g; exact g)
    (by rintro a b _ g ⟨o, rfl⟩; exact g) (fun r s q h => requeueProbing_other cause k s h)
    (fun r s => requeueProbing_own cause k r s) remotes.reverse (List.nodup_reverse.mpr remotes_nodup) s q).1
    (List.mem_reverse.mpr (mem_remotes q))

theorem requeueProbing_discarded (cause : StateCause) (k : SectorNo) (r : RemoteNo) (s : State) (h : (s.sector k).discarded) :
    ((requeueProbing cause k r s).sector k).discarded := by
  unfold requeueProbing
  split
  · exact (toQueueHead_followed k r _ _ s rfl).discarded (by decide) h
  · exact h

/-- The remotes' part of a discard: the lists stay empty, and in ACTIVE no remote is left PROBING. -/
theorem requeueForDiscard_spec (cause : StateCause) (k : SectorNo) (s : State) (h : (s.sector k).discarded) :
    ((requeueForDiscard cause k s).sector k).discarded ∧ ∀ q,
      ((requeueForDiscard cause k s).entry k q).admin = (s.entry k q).admin ∧
      ((requeueForDiscard cause k s).entry k q).deferred = (s.entry k q).deferred ∧
      ((s.sector k).mode = .active → ((requeueForDiscard cause k s).entry k q).state ≠ .probing) := by
  unfold requeueForDiscard
  split
  · have lists := forRemotes_keeps (k := k) (P := Sector.discarded) (requeueProbing_discarded cause k) remotes.reverse s h
    have entries := requeueAll_entry cause k s
    generalize forRemotes remotes.reverse (requeueProbing cause k) s = t at lists entries
    refine ⟨by rw [sector_modSector_self]; exact lists, fun q => ?_⟩
    obtain ⟨admin, deferred, state⟩ := entries q
    rw [entry_of_entries (s := t) q (by rw [sector_modSector_self]; rfl)]
    exact ⟨admin, deferred, fun _ => state⟩
  next passive => exact ⟨h, fun q => ⟨rfl, rfl, fun c => absurd c passive⟩⟩

theorem Deferral.admin {e e1 : Entry} (h : Deferral e e1) : e1.admin = e.deferred.getD e.admin := by
  obtain ⟨o, absent, present⟩ := h
  cases d : e.deferred with
  | none => rw [absent d]; rfl
  | some v =>
    by_cases hv : v = e.admin
    · rw [(present v d).1 hv]; exact hv.symm
    · exact ((present v d).2 hv).1

theorem Deferral.deferred {e e1 : Entry} (h : Deferral e e1) : e1.deferred = none := by
  obtain ⟨o, absent, present⟩ := h
  cases d : e.deferred with
  | none => rw [absent d]; exact d
  | some v =>
    by_cases hv : v = e.admin
    · rw [(present v d).1 hv]
    · exact congrArg Entry.deferred (((present v d).2 hv).2.1 .idle)

/-- What RESUME comes to, beside the entries' ways. -/
structure Resumed (k : SectorNo) (s t : State) : Prop where
  quiet : Quiet s t
  others : OtherSectors k s t
  mode : (t.sector k).mode = (s.sector k).mode
  suspended : (t.sector k).suspended = false
  resync : (t.sector k).resyncPending = true
  discarded : (t.sector k).discarded
  entry : ∀ q, (t.entry k q).admin = (s.entry k q).deferred.getD (s.entry k q).admin ∧ (t.entry k q).deferred = none ∧
    ((s.sector k).mode = .active → (t.entry k q).state ≠ .probing)
  pack : (t.sector k).pack = (s.sector k).pack
  counts : (t.sector k).counts = (s.sector k).counts

theorem resumeSector_resumed (k : SectorNo) (s : State) : Resumed k s (resumeSector k s) := by
  have whole : resumeSector k s = requeueForDiscard .resume k
      (modSector k discardForEvent (takeAllDeferred StepInfo.plain k (setSuspended k false s))) := rfl
  obtain ⟨a, ha⟩ : ∃ a, a = takeAllDeferred StepInfo.plain k (setSuspended k false s) := ⟨_, rfl⟩
  obtain ⟨b, hb⟩ : ∃ b, b = modSector k discardForEvent a := ⟨_, rfl⟩
  rw [whole, ← ha, ← hb]
  have local_a : Local k (setSuspended k false s) a := ha ▸ local_takeAllDeferred StepInfo.plain k _
  have local_c : Local k b (requeueForDiscard .resume k b) := local_requeueForDiscard .resume k b
  have kept_a : SectorKept { s.sector k with suspended := false } (a.sector k) :=
    setSuspended_sector k s false ▸ local_a.stable.toSectorKept
  have kept_c := local_c.stable.toSectorKept
  have sector_b : b.sector k = discardForEvent (a.sector k) := by rw [hb, sector_modSector_self]
  obtain ⟨lists, entries⟩ := requeueForDiscard_spec .resume k b (by rw [sector_b]; exact ⟨rfl, rfl, rfl⟩)
  have deferral (q : RemoteNo) : Deferral (s.entry k q) (b.entry k q) := by
    have before : (setSuspended k false s).entry k q = s.entry k q := entry_of_entries q (by rw [setSuspended_sector])
    have after : b.entry k q = a.entry k q := entry_of_entries q (by rw [sector_b]; rfl)
    rw [after, ← before, ha]
    exact takeAllDeferred_entry StepInfo.plain k _ q
  have mode_b : (b.sector k).mode = (s.sector k).mode := by rw [sector_b]; exact kept_a.mode
  refine ⟨?_, ?_, kept_c.mode.trans mode_b, ?_, ?_, lists, fun q => ?_, ?_, ?_⟩
  · exact ((quiet_setSuspended k false s).trans local_a.toQuiet).trans
      ((hb ▸ quiet_modSector k _ a : Quiet a b).trans local_c.toQuiet)
  · exact ((setSuspended_others k s false).trans local_a.others).trans
      ((hb ▸ otherSectors_modSector k _ a : OtherSectors k a b).trans local_c.others)
  · exact kept_c.suspended.trans (by rw [sector_b]; exact kept_a.suspended)
  · exact kept_c.resync.trans (by rw [sector_b]; rfl)
  · obtain ⟨admin, deferred, state⟩ := entries q
    exact ⟨admin.trans (deferral q).admin, deferred.trans (deferral q).deferred, fun c => state (mode_b.trans c)⟩
  · exact kept_c.pack.trans (by rw [sector_b]; exact kept_a.pack)
  · exact kept_c.counts.trans (by rw [sector_b]; exact kept_a.counts)

/-- Settles O20: RESUME passes its checks and ends the suspension. -/
theorem resumeClearsTheFlag : Obligations.ResumeClearsTheFlag := by
  unfold Obligations.ResumeClearsTheFlag
  intro w s k h hf hk conf susp
  let u := started 0x09 w s
  have p := resumeSector_resumed k u
  have run := exec_sectorCommand mem_commandRows_resume h hf hk (by decide) (by decide) fun c => absurd c (by decide)
  have taken : cmdResume k u = finish .done 0 (resumeSector k u) := by
    refine if_neg ?_
    rintro (c | c)
    · exact Bool.false_ne_true (c.symm.trans conf)
    · exact Bool.false_ne_true (c.symm.trans susp)
  rw [run_resume _ hk, taken] at run
  obtain ⟨a, answered⟩ := finish_begun ((begun_started 0x09 h).quiet p.quiet) .done 0
  have entry (q : RemoteNo) := a.entry k q
  refine ⟨_, run, a.otherSectors p.others, ((started_kept 0x09 w s).trans p.quiet.dev).trans a.dev, ?_⟩
  rw [a.sector k]
  refine ⟨p.mode, p.suspended, p.resync, p.discarded.1, p.discarded.2.1, p.discarded.2.2, fun r => ?_, fun active r => ?_,
    fun r v hv => ?_, p.pack, p.counts, answered⟩
  · rw [entry]; exact (p.entry r).2.1
  · rw [entry]; exact (p.entry r).2.2 active
  · have deferred : (u.entry k r).deferred = some v := hv
    rw [entry, (p.entry r).1, deferred, Option.getD_some]

/-! ### RESET_SECTOR (R152) -/

theorem serviceState_inService (e : Entry) : (serviceState e).inService = true := by
  unfold serviceState
  split <;> rfl

theorem serviceState_notRanging (e : Entry) : serviceState e ≠ .ranging := by
  unfold serviceState
  split <;> decide

theorem resetRemote_entry (k : SectorNo) (r q : RemoteNo) (s : State) : (resetRemote k r s).entry k q =
    if q = r then { (s.entry k r).afterReset with fadedAt := none } else s.entry k q := by
  unfold resetRemote
  rw [remoteStep_entry]
  split
  · have none : ∀ f, fadedAtAfter (s.sector k).frame (s.entry k r).state (s.entry k r).afterReset.state f = none :=
      fun f => if_pos (serviceState_inService (s.entry k r))
    rw [none]
  · rfl

theorem resetAll_entry (k : SectorNo) (s : State) (q : RemoteNo) :
    (forRemotes remotes (resetRemote k) s).entry k q = { (s.entry k q).afterReset with fadedAt := none } :=
  (forRemotes_entries (K := fun e e' => e' = e) (G := fun e e' => e' = { e.afterReset with fadedAt := none }) (fun _ => rfl)
    (by rintro a _ _ rfl rfl; rfl) (by rintro a _ _ rfl rfl; rfl) (by rintro a _ _ rfl rfl; rfl)
    (fun r s q h => by rw [resetRemote_entry, if_neg h]) (fun r s => by rw [resetRemote_entry, if_pos rfl])
    remotes remotes_nodup s q).1 (mem_remotes q)

theorem markAll_sectors (k : SectorNo) (s : State) : (forRemotes remotes (markMirror k) s).sectors = s.sectors := by
  unfold forRemotes
  induction remotes generalizing s with
  | nil => rfl
  | cons r rs ih => exact ih (markMirror k r s)

/-- What RESET_SECTOR comes to, beside its result. -/
structure SectorReset (k : SectorNo) (s t : State) : Prop where
  quiet : Quiet s t
  others : OtherSectors k s t
  entry : ∀ q, t.entry k q = { (s.entry k q).afterReset with fadedAt := none }
  discarded : (t.sector k).discarded
  ranging : (t.sector k).rangingOrder = []
  resync : (t.sector k).resyncPending = true
  stamps : (t.sector k).nextHead = 32767 ∧ (t.sector k).nextTail = 32768
  cleared : (t.sector k).pack = none ∧ (t.sector k).framesSeen = 0 ∧ (t.sector k).counts = ReportCounts.zero
  episode : (t.sector k).episode.state = .clear
  mode : (t.sector k).mode = (s.sector k).mode
  suspended : (t.sector k).suspended = (s.sector k).suspended
  tunables : (t.sector k).tunables = (s.sector k).tunables
  staged : (t.sector k).staged = (s.sector k).staged
  frame : (t.sector k).frame = (s.sector k).frame

theorem resetSectorOp_reset (k : SectorNo) (s : State) : SectorReset k s (resetSectorOp k s) := by
  have whole : resetSectorOp k s = markCounter k (forRemotes remotes (markMirror k)
      (modSector k (fun x => { x with pack := none, framesSeen := 0, counts := ReportCounts.zero })
        (closeForEvent k .reset (modSector k resetStamps (forRemotes remotes (resetRemote k)
          (modSector k (fun x => { discardForEvent x with rangingOrder := [] }) s)))))) := rfl
  obtain ⟨b, hb⟩ : ∃ b, b = modSector k (fun x => { discardForEvent x with rangingOrder := [] }) s := ⟨_, rfl⟩
  obtain ⟨c, hc⟩ : ∃ c, c = forRemotes remotes (resetRemote k) b := ⟨_, rfl⟩
  obtain ⟨d, hd⟩ : ∃ d, d = modSector k resetStamps c := ⟨_, rfl⟩
  obtain ⟨e, he⟩ : ∃ e, e = closeForEvent k .reset d := ⟨_, rfl⟩
  obtain ⟨f, hf⟩ : ∃ f, f = modSector k (fun x => { x with pack := none, framesSeen := 0, counts := ReportCounts.zero }) e :=
    ⟨_, rfl⟩
  rw [whole, ← hb, ← hc, ← hd, ← he, ← hf]
  have local_c : Local k b c := hc ▸ local_forRemotes (local_resetRemote k) remotes b
  have local_e : Local k d e := he ▸ local_closeForEvent k .reset d
  have local_t : Local k f (markCounter k (forRemotes remotes (markMirror k) f)) :=
    (local_forRemotes (fun r s => local_markMirror k k r s) remotes f).trans (local_markCounter k k _)
  have sector_b : b.sector k = { discardForEvent (s.sector k) with rangingOrder := [] } := by
    rw [hb, sector_modSector_self k (fun x => { discardForEvent x with rangingOrder := [] }) s]
  have sector_d : d.sector k = resetStamps (c.sector k) := by rw [hd, sector_modSector_self]
  have sector_f : f.sector k = { e.sector k with pack := none, framesSeen := 0, counts := ReportCounts.zero } := by
    rw [hf, sector_modSector_self k (fun x => { x with pack := none, framesSeen := 0, counts := ReportCounts.zero }) e]
  have sector_t : (markCounter k (forRemotes remotes (markMirror k) f)).sector k = f.sector k :=
    (sector_of_sectors (markCounter_sectors k _) k).trans (sector_of_sectors (markAll_sectors k f) k)
  have closes : EpisodeOnly k d e := he ▸ episodeOnly_closeForEvent k .reset d
  have clear : (e.sector k).episode.state = .clear := he ▸ closeForEvent_clear k .reset d
  have kept_c := local_c.stable.toSectorKept
  have lists_c : (c.sector k).discarded ∧ (c.sector k).rangingOrder = [] := by
    rw [hc]
    refine forRemotes_keeps (P := fun x => x.discarded ∧ x.rangingOrder = []) (fun r s h => ?_) remotes b ?_
    · have followed := remoteStep_followed k r (StepInfo.silent .reset) (s.entry k r).afterReset s rfl
      exact ⟨followed.discarded (serviceState_notRanging _) h.1, followed.noRanging (serviceState_notRanging _) h.2⟩
    · rw [sector_b]
      exact ⟨⟨rfl, rfl, rfl⟩, rfl⟩
  obtain ⟨ep, sector_e⟩ := id closes
  have sector_e : e.sector k = { resetStamps (c.sector k) with episode := ep } := by rw [sector_e, sector_d]
  refine ⟨?_, ?_, fun q => ?_, ?_, ?_, ?_, ?_, ?_, ?_, ?_, ?_, ?_, ?_, ?_⟩
  case refine_1 =>
    have start : Quiet s c := (hb ▸ quiet_modSector k _ s : Quiet s b).trans local_c.toQuiet
    have close : Quiet c e := (hd ▸ quiet_modSector k _ c : Quiet c d).trans local_e.toQuiet
    exact (start.trans close).trans ((hf ▸ quiet_modSector k _ e : Quiet e f).trans local_t.toQuiet)
  case refine_2 =>
    have start : OtherSectors k s c := (hb ▸ otherSectors_modSector k _ s : OtherSectors k s b).trans local_c.others
    have close : OtherSectors k c e := (hd ▸ otherSectors_modSector k _ c : OtherSectors k c d).trans local_e.others
    exact (start.trans close).trans ((hf ▸ otherSectors_modSector k _ e : OtherSectors k e f).trans local_t.others)
  case refine_3 =>
    calc (markCounter k (forRemotes remotes (markMirror k) f)).entry k q = c.entry k q :=
          entry_of_entries q (by rw [sector_t, sector_f, sector_e]; rfl)
      _ = { (b.entry k q).afterReset with fadedAt := none } := by rw [hc]; exact resetAll_entry k b q
      _ = { (s.entry k q).afterReset with fadedAt := none } := by
          rw [entry_of_entries (s := s) (t := b) q (by rw [sector_b]; rfl)]
  case refine_4 => rw [sector_t, sector_f, sector_e]; exact lists_c.1
  case refine_5 => rw [sector_t, sector_f, sector_e]; exact lists_c.2
  case refine_7 => rw [sector_t, sector_f, sector_e]; exact ⟨rfl, rfl⟩
  case refine_8 => rw [sector_t, sector_f]; exact ⟨rfl, rfl, rfl⟩
  case refine_9 => rw [sector_t, sector_f]; exact clear
  all_goals rw [sector_t, sector_f, sector_e]
  case refine_6 => exact kept_c.resync.trans (by rw [sector_b]; rfl)
  case refine_10 => exact kept_c.mode.trans (by rw [sector_b]; rfl)
  case refine_11 => exact kept_c.suspended.trans (by rw [sector_b]; rfl)
  case refine_12 => exact kept_c.tunables.trans (by rw [sector_b]; rfl)
  case refine_13 => exact kept_c.staged.trans (by rw [sector_b]; rfl)
  case refine_14 => exact kept_c.frame.trans (by rw [sector_b]; rfl)

/-- Settles O21: RESET_SECTOR passes its check and resets the sector. -/
theorem resetSectorRestoresEntries : Obligations.ResetSectorRestoresEntries := by
  unfold Obligations.ResetSectorRestoresEntries
  intro w s k h hf hk conf
  let u := started 0x0A w s
  have p := resetSectorOp_reset k u
  have run := exec_sectorCommand mem_commandRows_resetSector h hf hk (by decide) (by decide) fun c => absurd c (by decide)
  have taken : cmdResetSector k u = finish .done 0 (resetSectorOp k u) :=
    if_neg fun c => Bool.false_ne_true (c.symm.trans conf)
  rw [run_resetSector _ hk, taken] at run
  obtain ⟨a, answered⟩ := finish_begun ((begun_started 0x0A h).quiet p.quiet) .done 0
  obtain ⟨history, waits, members⟩ := p.discarded
  obtain ⟨pack, seen, counts⟩ := p.cleared
  refine ⟨_, run, a.otherSectors p.others, ((started_kept 0x0A w s).trans p.quiet.dev).trans a.dev,
    fun r => by rw [a.entry k r, p.entry r]; rfl, ?_⟩
  rw [a.sector k]
  exact ⟨history, waits, members, p.ranging, p.resync, p.stamps.1, p.stamps.2, pack, seen, counts, p.episode, p.mode,
    p.suspended, p.tunables, p.staged, p.frame, answered⟩

end Sys2Proof.Machine

/-! PROOF. The fabric rows of Section 7: the log tail word (R164), absorbed and passed requests (R138), refusals (R139), and memory's
responses (R128). -/

namespace Sys2Proof.Machine

/-! ### Whole requests as rows -/

theorem exec_absorbedWrite_new {q : Request} (s : State) (h : q.ok = true) :
    exec (.absorbedWrite (.new q)) s = .next (issue q s) := takeIssue_new id q s h

theorem exec_passThroughRequest_new {q : Request} (s : State) (h : q.ok = true) :
    exec (.passThroughRequest (.new q)) s = .next (issue q s) := takeIssue_new id q s h

theorem exec_refusedRequest_new {q : Request} (s : State) (h : q.ok = true) :
    exec (.refusedRequest (.new q)) s = .next (issue q s) := takeIssue_new id q s h

theorem exec_descriptorWrite_new {q : Request} (s : State) (h : q.ok = true) :
    exec (.descriptorWrite (.new q)) s = .next (issue q s) := takeIssue_new id q s h

theorem exec_reportWrite_new {q : Request} (s : State) (h : q.ok = true) :
    exec (.reportWrite (.new q)) s = .next (issue q s) := takeIssue_new id q s h

theorem exec_mapRead_new {q : Request} (s : State) (h : q.ok = true) :
    exec (.mapRead (.new q)) s = .next (issue q s) := takeIssue_new id q s h

/-! ### The log tail word (R164) -/

theorem maskLanes_all (b : Beat) : maskLanes allLanes b = b := by
  refine beat_ext _ _ fun n h => ?_
  have every : ∀ i : Fin 8, allLanes.getLsbD i.val = true := by decide
  rw [beatByte_maskLanes allLanes b h, if_pos (every ⟨n, h⟩)]

theorem tailIndex_all (b : Beat) : tailIndex allLanes b = (b.setWidth 32).toNat := by
  rw [tailIndex, maskLanes_all, field_eq, BitVec.toNat_setWidth, Nat.pow_zero, Nat.div_one]

theorem tailRequest_ok (s : State) (w : WordWrite) (h : w.lanes ≠ 0) : (tailRequest s w).ok = true := by
  simpa [tailRequest, wordRequest, Request.ok] using h

/-- A tail word that can be granted the port is forwarded, and then taken by the Command Channel. -/
theorem exec_logTailWord_ready {s : State} {w : WordWrite} (h : s.readyFor w) :
    exec (.logTailWord (.new w)) s = .next (takeTailWord w.lanes w.word (forwarded none (tailRequest s w) s)) := by
  have class_eq : classify s (tailRequest s w) = .takeTail := classify_tail s w h.anchor h.role
  have issued : issue (tailRequest s w) s = acceptAs (tailRequest s w) .takeTail (granted (tailRequest s w) s) := by
    rw [issue_portFree _ s h.port (by rw [class_eq]; rfl) (by rw [class_eq]; rfl), class_eq]
  show takeIssue (tailRequest s) (.new w) s = _
  rw [takeIssue_new _ w s (tailRequest_ok s w h.some_lane), issued, ← oweAwaited_granted]
  rfl

theorem takeTailWord_taken {s : State} {w : WordWrite} {g : LogGeometry} (full : w.lanes = allLanes)
    (log : s.writer.log = some g) (range : (w.word.setWidth 32).toNat < 2 ^ g.k)
    (order : ((w.word.setWidth 32).toNat + 2 ^ g.k - s.writer.tail) % 2 ^ g.k ≤
      (s.writer.head + 2 ^ g.k - s.writer.tail) % 2 ^ g.k) :
    takeTailWord w.lanes w.word s = { s with writer := { s.writer with tail := (w.word.setWidth 32).toNat } } := by
  have passes : tailFault s w.lanes w.word = none := by
    simp only [tailFault, full, ne_eq, not_true_eq_false, if_false, log, tailIndex_all]
    rw [if_neg (Nat.not_le.mpr range), if_neg (Nat.not_lt.mpr order)]
  rw [takeTailWord, passes, full, tailIndex_all]

theorem takeTailWord_faulty {s : State} {lanes : Lanes} {b : Beat} {cause : TailCause} (h : tailFault s lanes b = some cause) :
    takeTailWord lanes b s = logDevice (.tail cause (BitVec.ofNat 32 (tailIndex lanes b))) s := by rw [takeTailWord, h]

/-- R164's tests in their order. -/
theorem tailFault_of {s : State} {w : WordWrite} {i : Nat} (hi : i = (w.word.setWidth 32).toNat) {cause : TailCause}
    (h : (w.lanes ≠ allLanes ∧ cause = .partialWord) ∨ (w.lanes = allLanes ∧ s.writer.log = none ∧ cause = .noLog) ∨
      (∃ g, w.lanes = allLanes ∧ s.writer.log = some g ∧ 2 ^ g.k ≤ i ∧ cause = .range) ∨
      (∃ g, w.lanes = allLanes ∧ s.writer.log = some g ∧ i < 2 ^ g.k ∧ cause = .order ∧
        (s.writer.head + 2 ^ g.k - s.writer.tail) % 2 ^ g.k < (i + 2 ^ g.k - s.writer.tail) % 2 ^ g.k)) :
    tailFault s w.lanes w.word = some cause := by
  subst hi
  obtain ⟨part, rfl⟩ | ⟨full, log, rfl⟩ | ⟨g, full, log, range, rfl⟩ | ⟨g, full, log, range, rfl, order⟩ := h
  · exact if_pos part
  · simp only [tailFault, full, ne_eq, not_true_eq_false, if_false, log]
  · simp only [tailFault, full, ne_eq, not_true_eq_false, if_false, log, tailIndex_all]
    rw [if_pos range]
  · simp only [tailFault, full, ne_eq, not_true_eq_false, if_false, log, tailIndex_all]
    rw [if_neg (Nat.not_le.mpr range), if_pos order]

theorem takeTailWord_kept (lanes : Lanes) (b : Beat) (s : State) :
    (takeTailWord lanes b s).sectors = s.sectors ∧ (takeTailWord lanes b s).channel = s.channel ∧
      (takeTailWord lanes b s).notices = s.notices ∧ (takeTailWord lanes b s).ports = s.ports := by
  unfold takeTailWord
  split
  · exact ⟨pushRecord_sectors _ s, (quiet_pushRecord _ s).channel, pushRecord_notices _ s, (quiet_pushRecord _ s).ports⟩
  · exact ⟨rfl, rfl, rfl, rfl⟩

/-- Settles O26: the granted word is forwarded, and R164's tests decide between the tail index and the TAIL record. -/
theorem logTailWordSetsTail : Obligations.LogTailWordSetsTail := by
  unfold Obligations.LogTailWordSetsTail
  intro w s i h hi
  let u := forwarded none (tailRequest s w) s
  obtain ⟨sectors, channel, notices, ports⟩ := takeTailWord_kept w.lanes w.word u
  refine ⟨_, exec_logTailWord_ready h, sectors, channel, notices, ports, fun g full log range order => ?_, fun cause fault => ?_⟩
  · subst hi
    exact takeTailWord_taken (s := u) full log range order
  · rw [takeTailWord_faulty (tailFault_of (s := u) hi fault)]
    obtain ⟨queued, skipped⟩ := pushRecord_logged
      { time := s.time, sector := none, frame := none, body := .tail cause (BitVec.ofNat 32 (tailIndex w.lanes w.word)) } u
    refine ⟨(forwarded_kept none _ s).trans (quiet_pushRecord _ u).dev, fun room => ⟨_, fun full => ?_, queued room⟩,
      fun full => ⟨(skipped full).1, (skipped full).2.1⟩⟩
    rw [full, tailIndex_all, BitVec.ofNat_toNat, BitVec.setWidth_eq]

/-! ### Requests that are answered by the part, and passed ones (R138) -/

/-- A request of a class that needs no port, in the state in which its class takes it. -/
def unported (q : Request) (s : State) : State :=
  { s with ports := { s.ports with locks := locksAfter q s.ports.locks } }

theorem issue_unported {q : Request} {s : State} {c : AccessClass} (waiting : s.waitingAt q.master = []) (hc : classify s q = c)
    (port : c.needsPort = false) : issue q s = acceptAs q c (unported q s) := by
  subst hc
  exact issue_noPort q s waiting port

theorem issue_granted {q : Request} {s : State} {c : AccessClass} (free : s.portFree) (hc : classify s q = c)
    (port : c.needsPort = true) (eligible : eligibleClass s q c = true) : issue q s = acceptAs q c (granted q s) := by
  subst hc
  exact issue_portFree q s free port eligible

/-- Settles O29: the class ABSORB answers OKAY, and during a load the copy follows. -/
theorem absorbedWriteAnsweredOkay : Obligations.AbsorbedWriteAnsweredOkay := by
  unfold Obligations.AbsorbedWriteAnsweredOkay
  intro q s ok waiting owed class_eq
  let t := oweFormed q.master okay (unported q s)
  have answered : t = { unported q s with ports := { (unported q s).ports with
      returned := s.ports.returned ++ [(q.master, okay)] } } := oweFormed_empty q.master okay (unported q s) owed
  have taken : issue q s = copyInForce q t := issue_unported waiting class_eq rfl
  have window : inForceDescriptor t q = inForceDescriptor s q :=
    inForce_congr q (notLoading_of_inFlight (by rw [answered]; rfl)) (by rw [answered]; rfl) (by rw [answered]; rfl)
  refine ⟨t, copyInForce q t, by rw [exec_absorbedWrite_new s ok, taken], fun absent => copyInForce_none (window.trans absent),
    fun w k present => copyInForce_some (window.trans present), ?_, ?_, ?_⟩
  all_goals rw [answered]
  · rfl
  · rfl
  · rfl

/-- Settles O30: the class PASS forwards, and during a load the copy follows. -/
theorem passThroughRequestForwarded : Obligations.PassThroughRequestForwarded := by
  unfold Obligations.PassThroughRequestForwarded
  intro q s ok free class_eq
  have taken : issue q s = copyInForce q (forwarded none q s) := by
    rw [issue_granted free class_eq rfl rfl, ← oweAwaited_granted]
    rfl
  have window : inForceDescriptor (forwarded none q s) q = inForceDescriptor s q :=
    inForce_congr q (notLoading_of_inFlight rfl) rfl rfl
  rw [exec_passThroughRequest_new s ok, taken]
  exact ⟨fun absent => by rw [copyInForce_none (window.trans absent)],
    fun w k present => by rw [copyInForce_some (window.trans present)]⟩

end Sys2Proof.Machine

/-! PROOF. Waiting at the fabric port (R129 to R131), refused requests (R139), and the order of responses (R128). -/

namespace Sys2Proof.Machine

/-! ### Refused requests (R139) -/

theorem covers_aligned (w : Window) (a : Addr) : w.covers (alignBeat a) =
    decide (w.base.toNat ≤ a.toNat / 8 * 8 ∧ a.toNat / 8 * 8 < w.base.toNat + 2 ^ w.sizeExp) := by
  rw [Window.covers, Window.size, alignBeat_toNat, Bool.decide_and]

/-- The window of the beat that holds an address, in the terms of Section 7. -/
theorem windowAt_aligned (ws : List Window) (a : Addr) : windowAt ws (alignBeat a) =
    ws.find? fun w => decide (w.base.toNat ≤ a.toNat / 8 * 8 ∧ a.toNat / 8 * 8 < w.base.toNat + 2 ^ w.sizeExp) :=
  congrArg (ws.find? ·) (funext fun w => covers_aligned w a)

/-- The sector of an ACCESS record (R139). -/
def accessSector (s : State) (q : Request) : Option SectorNo :=
  ((windowAt s.activeTable (alignBeat q.addr)).bind Window.sector).or (roleSector (s.role q.master))

/-- The ACCESS record of a refusal (R139). -/
def accessRecord (cause : AccessCause) (q : Request) (s : State) : LogRecord where
  time := s.time
  sector := accessSector s q
  frame := (accessSector s q).map fun k => (s.sector k).frame
  body := .access cause q.master (s.role q.master) q.dir ((windowAt s.activeTable (alignBeat q.addr)).map Window.kind)
    ((q.addr.setWidth 16).setWidth 32)

theorem logRefusal_quiet (cause : AccessCause) (q : Request) (s : State) : Quiet s (logRefusal cause q s) :=
  ((local_logFor 0 _ _ s).trans (local_raiseNotice 0 .access _)).toQuiet

theorem logRefusal_sectors (cause : AccessCause) (q : Request) (s : State) : (logRefusal cause q s).sectors = s.sectors :=
  (raiseNotice_sectors .access _).trans (logFor_sectors _ _ s)

theorem logRefusal_pending (cause : AccessCause) (q : Request) (s : State) :
    (logRefusal cause q s).notices.pending = s.notices.pending ||| 8 := by
  rw [logRefusal, raiseNotice_pending, logFor_notices]
  rfl

theorem logRefusal_logged (cause : AccessCause) (q : Request) (s : State) :
    Logged (accessRecord cause q s) s (logRefusal cause q s) :=
  raiseNotice_logged .access (logFor_logged _ _ s)

/-- The state of a refusal before the copy of R17: recorded, and answered ERROR. -/
def refused (cause : AccessCause) (q : Request) (s : State) : State :=
  oweFormed q.master (refusal q) (logRefusal cause q (unported q s))

theorem refused_eq {cause : AccessCause} {q : Request} {s : State} (owed : s.owedTo q.master = []) :
    refused cause q s = { logRefusal cause q (unported q s) with ports := { (unported q s).ports with
      returned := s.ports.returned ++ [(q.master, refusal q)] } } := by
  have ports : (logRefusal cause q (unported q s)).ports = (unported q s).ports := (logRefusal_quiet cause q _).ports
  rw [refused, oweFormed_empty q.master (refusal q) _ (by rw [State.owedTo, ports]; exact owed), ports]
  rfl

/-- What a refusal comes to, beside its copy. -/
structure Refused (cause : AccessCause) (q : Request) (s t : State) : Prop where
  sectors : t.sectors = s.sectors
  kept : DeviceKept s t
  channel : t.channel = s.channel
  returned : t.ports.returned = s.ports.returned ++ [(q.master, refusal q)]
  pending : t.notices.pending = s.notices.pending ||| 8
  logged : Logged (accessRecord cause q s) s t

theorem refused_spec {cause : AccessCause} {q : Request} {s : State} (owed : s.owedTo q.master = []) :
    Refused cause q s (refused cause q s) := by
  have quiet := logRefusal_quiet cause q (unported q s)
  have before : DeviceKept s (unported q s) := ⟨rfl, rfl, rfl, rfl, rfl, rfl, rfl, rfl, rfl, rfl, rfl, rfl, rfl, rfl⟩
  have after : DeviceKept (logRefusal cause q (unported q s)) (refused cause q s) := by
    rw [refused_eq owed]
    exact ⟨rfl, rfl, rfl, rfl, rfl, rfl, rfl, rfl, rfl, rfl, rfl, rfl, rfl, rfl⟩
  refine ⟨?_, (before.trans quiet.dev).trans after, ?_, ?_, ?_, ?_⟩
  all_goals rw [refused_eq owed]
  · exact logRefusal_sectors cause q (unported q s)
  · exact quiet.channel
  · exact logRefusal_pending cause q (unported q s)
  · exact logRefusal_logged cause q (unported q s)

theorem issue_refused {cause : AccessCause} {q : Request} {s : State} (waiting : s.waitingAt q.master = [])
    (class_eq : classify s q = .refuse cause) : issue q s = copyInForce q (refused cause q s) :=
  issue_unported waiting class_eq rfl

theorem inForce_refused {cause : AccessCause} {q : Request} {s : State} (owed : s.owedTo q.master = []) :
    inForceDescriptor (refused cause q s) q = inForceDescriptor s q := by
  have p := refused_spec (cause := cause) owed
  exact inForce_congr q (notLoading_of_inFlight (by rw [p.channel])) p.kept.windows p.kept.roles

/-! ### A command word refused with cause LOCK (R159) -/

theorem placement_command {ws : List Window} {s : State} (code : Byte) (w : CommandWrite)
    (hw : ws.head? = some (Window.anchorAt s.channel.anchorBase)) (h : s.anchored) :
    placementIn ws (commandRequest s code w) = .inside (Window.anchorAt s.channel.anchorBase) := by
  obtain ⟨straps, base⟩ := h.2
  obtain ⟨⟨covered, -⟩, -, -, top⟩ := anchor_covers straps
  have aligned : alignBeat (commandRequest s code w).addr = anchorBaseOf straps := by
    show alignBeat (s.channel.anchorBase + w.low.setWidth 40) = _
    rw [base, alignBeat_word0]
  exact placement_anchor hw rfl (by rw [aligned]; exact top) (by rw [aligned, base]; exact covered)

theorem windowAt_command {s : State} (code : Byte) (w : CommandWrite) (h : s.anchored) :
    windowAt s.activeTable (alignBeat (commandRequest s code w).addr) = some (Window.anchorAt s.channel.anchorBase) := by
  obtain ⟨straps, base⟩ := h.2
  obtain ⟨⟨covered, -⟩, -⟩ := anchor_covers straps
  have aligned : alignBeat (commandRequest s code w).addr = anchorBaseOf straps := by
    show alignBeat (s.channel.anchorBase + w.low.setWidth 40) = _
    rw [base, alignBeat_word0]
  obtain ⟨rest, table⟩ : ∃ rest, s.activeTable = Window.anchorAt s.channel.anchorBase :: rest :=
    ⟨_, List.eq_cons_of_mem_head? (activeTable_head s h)⟩
  rw [windowAt, table, List.find?_cons_of_pos]
  rw [aligned, base]
  exact covered

theorem inForce_command {s : State} (code : Byte) (w : CommandWrite) (h : s.anchored) :
    inForceDescriptor s (commandRequest s code w) = none := by
  by_cases loading : s.notLoading
  · exact inForce_notLoading s _ loading
  · rw [inForce_loading s _ loading, placement_command code w h.1 h]
    simp [Window.anchorAt]

theorem classify_locked {s : State} (code : Byte) {w : CommandWrite} (h : s.anchored) (role : s.role w.master = .controller)
    (waits : s.resultWaits = true) (locked : w.master ∈ s.ports.locks) :
    classify s (commandRequest s code w) = .refuse .lock := by
  obtain ⟨straps, base⟩ := h.2
  obtain ⟨placed, cell⟩ := classify_anchor s w.master w.lock (s.channel.anchorBase + w.low.setWidth 40) 0 w.lanes
    (commandBeat code w.sector w.remote w.tag w.arg w.spare) h role (by rw [base, alignBeat_word0]; simp) (.inl rfl)
  refine ((classify_inside s _ _ placed).2 cell).trans (if_pos ?_)
  rw [waits, Bool.true_and]
  exact List.contains_iff_mem.mpr locked

/-- Settles O34: the class REFUSE answers ERROR and records; a command word of a locked sequence has that class while a result
waits. -/
theorem refusedRequestAnsweredError : Obligations.RefusedRequestAnsweredError := by
  unfold Obligations.RefusedRequestAnsweredError
  refine ⟨fun q s cause ok waiting owed class_eq => ?_, fun row code hm w s anchored role lane waits waiting locked owed => ?_⟩
  · have p := refused_spec (cause := cause) owed
    have window := inForce_refused (cause := cause) owed
    refine ⟨refused cause q s, copyInForce q (refused cause q s), by rw [exec_refusedRequest_new s ok, issue_refused waiting class_eq],
      fun absent => copyInForce_none (window.trans absent), fun w k present => copyInForce_some (window.trans present),
      p.sectors, p.kept, p.channel, ?_, p.pending, ?_⟩
    · rw [p.returned, refusal]
      cases q.dir <;> rfl
    · intro first window own sector
      have window_eq : windowAt s.activeTable (alignBeat q.addr) = window := windowAt_aligned s.activeTable q.addr
      have sector_eq : accessSector s q = sector := by
        rw [accessSector, window_eq]
        show _ = match window.bind Window.sector with | some k => some k | none => own
        have own_eq : own = roleSector (s.role q.master) := by
          show (match s.role q.master with | .builder k => some k | .receiver k => some k | .controller => none | .other => none) = _
          cases s.role q.master <;> rfl
        rw [own_eq]
        cases window.bind Window.sector <;> rfl
      rw [← sector_eq, ← window_eq]
      exact p.logged
  · let q := commandRequest s code w
    have p := refused_spec (cause := .lock) (q := q) (s := s) owed
    have issued : issue q s = refused .lock q s := by
      rw [issue_refused waiting (classify_locked code anchored role waits locked), copyInForce_none]
      rw [inForce_refused owed]
      exact inForce_command code w anchored
    refine ⟨refused .lock q s, ?_, p.sectors, p.kept, p.channel, p.returned, p.pending, ?_⟩
    · rw [row_exec hm, takeIssue_new _ w s (commandRequest_ok s code w lane), issued]
    · have record : accessRecord .lock q s = {
          time := s.time, sector := none, frame := none
          body := .access .lock w.master .controller .write (some .anchor) ((q.addr.setWidth 16).setWidth 32) } := by
        have noSector : accessSector s q = none := by
          rw [accessSector, windowAt_command code w anchored]
          show roleSector (s.role w.master) = none
          rw [role]
          rfl
        have window_eq : windowAt s.activeTable (alignBeat q.addr) = _ := windowAt_command code w anchored
        have role_eq : s.role q.master = .controller := role
        rw [accessRecord, noSector, window_eq, role_eq]
        rfl
      rw [← record]
      exact p.logged

end Sys2Proof.Machine

/-! PROOF. Waiting at the fabric port (R103, R129 to R131) and the order of responses (R128). -/

namespace Sys2Proof.Machine

/-! ### The head of a channel is considered (R127, R131) -/

theorem exec_passThroughRequest_waiting (m : MasterNo) (s : State) :
    exec (.passThroughRequest (.waiting m)) s = .next (consider m s) := rfl

/-- A head that needs the port waits where the arbiter does not grant its master the port. -/
theorem consider_denied {m : MasterNo} {q : Request} {rest : List Request} {s : State} (waiting : s.waitingAt m = q :: rest)
    (port : (classify s q).needsPort = true) (denied : arbiter s ≠ .passThrough m) : consider m s = s := by
  simp only [consider, waiting, port, if_true, if_neg denied]

/-- A lone head that is granted the port is accepted by its class. -/
theorem consider_granted {q : Request} {s : State} {c : AccessClass} (waiting : s.waitingAt q.master = [q])
    (class_eq : classify s q = c) (port : c.needsPort = true) (grant : arbiter s = .passThrough q.master) :
    consider q.master s = acceptAs q c (leaveChannel q (noteGrant q.master s)) := by
  subst class_eq
  simp only [consider, waiting, port, if_true, if_pos grant, acceptHead_alone, accept]

theorem arbiter_locked {s : State} {n : MasterNo} {others : List MasterNo} (h : s.ports.locks = n :: others) :
    arbiter s = if eligible s n then .passThrough n else .nothing := by
  simp only [arbiter, h]

/-- The arbiter's search, with no lock and no outbound write first (R131 rule 3). -/
theorem arbiter_search {s : State} {i : Fin 8} (locks : s.ports.locks = []) (outbound : outboundFirst s = false)
    (found : eligible s (s.ports.lastMaster + 1 + i) = true)
    (before : ∀ j : Fin 8, j < i → eligible s (s.ports.lastMaster + 1 + j) = false) :
    arbiter s = .passThrough (s.ports.lastMaster + 1 + i) := by
  have search : (masterOrder s.ports.lastMaster).find? (fun m => eligible s m) = some (s.ports.lastMaster + 1 + i) := by
    refine find_first _ _ i.val _ (by simp [masterOrder]) found fun j hj m hm => ?_
    have hj8 : j < 8 := hj.trans i.isLt
    have at_j : (masterOrder s.ports.lastMaster)[j]? = some (s.ports.lastMaster + 1 + (⟨j, hj8⟩ : Fin 8)) := by
      simp [masterOrder, hj8]
    obtain rfl := Option.some.inj (at_j.symm.trans hm)
    exact before ⟨j, hj8⟩ hj
  simp only [arbiter, locks, outbound, Bool.false_eq_true, if_false, search]

/-- What granting leaves of a request that has joined its empty channel. -/
theorem leaveChannel_joined {q : Request} {s : State} (waiting : s.waitingAt q.master = [])
    (locks : locksAfter q s.ports.locks = if q.lock then [q.master] else []) :
    leaveChannel q (noteGrant q.master (joinChannel q s)) = granted q s := by
  have back : setChannel q.master [] (joinChannel q s) = s := by
    have h := channels_join_leave q s waiting
    rwa [waitingAt_joinChannel, waiting] at h
  have channels : (joinChannel q s).ports.channels.set q.master.val [] q.master.isLt = s.ports.channels :=
    congrArg (fun t : State => t.ports.channels) back
  have tail : (noteGrant q.master (joinChannel q s)).waitingAt q.master = [q] := by
    show (joinChannel q s).waitingAt q.master = _
    rw [waitingAt_joinChannel, waiting, List.nil_append]
  rw [leaveChannel, tail]
  show { s with ports := { s.ports with
    channels := (joinChannel q s).ports.channels.set q.master.val [] q.master.isLt
    locks := locksAfter q s.ports.locks, lastMaster := q.master, lastOutbound := false } } = _
  rw [channels, locks]
  rfl

/-- The open locked sequence's own master is served (R130). -/
theorem issue_inSequence {q : Request} {s : State} {c : AccessClass} (waiting : s.waitingAt q.master = [])
    (lock : s.ports.locks = [q.master]) (class_eq : classify s q = c) (port : c.needsPort = true)
    (may : eligibleClass s q c = true) : issue q s = acceptAs q c (granted q s) := by
  have lone : (joinChannel q s).waitingAt q.master = [q] := by rw [waitingAt_joinChannel, waiting, List.nil_append]
  have joined : classify (joinChannel q s) q = c := (classify_joinChannel q q s).trans class_eq
  have head : eligible (joinChannel q s) q.master = true := by
    simp only [eligible, lone, joined]
    exact may
  have grant : arbiter (joinChannel q s) = .passThrough q.master := by
    rw [arbiter_locked (s := joinChannel q s) (n := q.master) (others := []) lock, head, if_pos rfl]
  have locks : locksAfter q s.ports.locks = if q.lock then [q.master] else [] := by
    rw [locksAfter, lock]
    split <;> simp
  rw [issue, consider_granted lone joined port grant, leaveChannel_joined waiting locks]

/-- The lone head of a channel leaves it. -/
theorem leaveChannel_lone {q : Request} {s : State} (waiting : s.waitingAt q.master = [q]) (locks : s.ports.locks = []) :
    leaveChannel q (noteGrant q.master s) = setChannel q.master [] (granted q s) := by
  have lone : (noteGrant q.master s).waitingAt q.master = [q] := waiting
  have after : locksAfter q (noteGrant q.master s).ports.locks = if q.lock then [q.master] else [] := by
    rw [show (noteGrant q.master s).ports.locks = s.ports.locks from rfl, locks, locksAfter_nil]
  rw [leaveChannel, lone]
  show { setChannel q.master [] (noteGrant q.master s) with ports := { (setChannel q.master [] (noteGrant q.master s)).ports with
    locks := locksAfter q (noteGrant q.master s).ports.locks } } = _
  rw [after]
  rfl

/-- A lone head of class PASS that is granted the port is forwarded. -/
theorem consider_pass {q : Request} {s : State} (waiting : s.waitingAt q.master = [q]) (class_eq : classify s q = .pass)
    (idle : s.notLoading) (locks : s.ports.locks = []) (grant : arbiter s = .passThrough q.master) :
    consider q.master s = setChannel q.master [] (forwarded none q s) := by
  have forward : oweAwaited q none (setChannel q.master [] (granted q s)) = setChannel q.master [] (forwarded none q s) := by
    rw [← oweAwaited_granted]
    rfl
  have window : inForceDescriptor (setChannel q.master [] (forwarded none q s)) q = none :=
    (inForce_congr q (notLoading_of_inFlight rfl) rfl rfl).trans (inForce_notLoading s q idle)
  rw [consider_granted waiting class_eq rfl grant, leaveChannel_lone waiting locks, acceptAs, forward, copyInForce_none window]

theorem waitingAt_setChannel (m : MasterNo) (qs : List Request) (s : State) : (setChannel m qs s).waitingAt m = qs :=
  vector_getElem_set_self _ _ _

theorem waitingAt_setChannel_of_ne {m n : MasterNo} (h : n ≠ m) (qs : List Request) (s : State) :
    (setChannel m qs s).waitingAt n = s.waitingAt n := vector_getElem_set_of_ne _ h _

/-- Settles O31: each request that waits is one the arbiter's grant does not name, and the two that are served are those it does. -/
theorem heldRequestsWait : Obligations.HeldRequestsWait := by
  unfold Obligations.HeldRequestsWait
  refine ⟨fun q s ok waiting => ⟨fun port => ?_, fun w k hold unlocked class_eq => ?_⟩, fun q s ok waiting lock class_eq idle => ?_,
    fun m q rest s n others lock other waiting port => ?_, fun s i locks outbound found before =>
      ⟨fun q master waiting class_eq idle => ?_, fun m q rest other waiting port => ?_⟩⟩
  · have row : exec (.passThroughRequest (.stalled q)) s = .next (issueStalled q s) := if_pos ok
    exact ⟨_, by rw [row, issueStalled_held q s waiting port], joinChannel_spec q s waiting⟩
  · have held : eligibleClass s q (classify s q) = false := by
      rw [class_eq]
      simp [eligibleClass, heldOff, hold, unlocked]
    exact ⟨_, by rw [exec_reportWrite_new s ok, issue_held q s waiting (by rw [class_eq]; rfl) held], joinChannel_spec q s waiting⟩
  · have window : inForceDescriptor (forwarded none q s) q = none :=
      (inForce_congr q (notLoading_of_inFlight rfl) rfl rfl).trans (inForce_notLoading s q idle)
    rw [exec_passThroughRequest_new s ok, issue_inSequence waiting lock class_eq rfl rfl, acceptAs, oweAwaited_granted,
      copyInForce_none window]
  · rw [exec_passThroughRequest_waiting, consider_denied waiting port]
    rw [arbiter_locked lock]
    split
    · exact fun c => other (Grant.passThrough.inj c)
    · exact nofun
  · have grant : arbiter s = .passThrough q.master := (arbiter_search locks outbound found before).trans (by rw [master])
    have run : exec (.passThroughRequest (.waiting q.master)) s = .next (setChannel q.master [] (forwarded none q s)) := by
      rw [exec_passThroughRequest_waiting, consider_pass waiting class_eq idle locks grant]
    exact ⟨_, run, rfl, waitingAt_setChannel _ _ _, fun m h => waitingAt_setChannel_of_ne h _ _, rfl⟩
  · rw [exec_passThroughRequest_waiting, consider_denied waiting port]
    rw [arbiter_search locks outbound found before]
    exact fun c => other (Grant.passThrough.inj c).symm

/-! ### The order of responses (R128) -/

theorem formedFront_formed (rs : List Response) {behind : List Owed} (h : ∀ r, behind.head? ≠ some (.formed r)) :
    formedFront (rs.map Owed.formed ++ behind) = rs ∧ behindFormed (rs.map Owed.formed ++ behind) = behind := by
  induction rs with
  | nil =>
    cases behind with
    | nil => exact ⟨rfl, rfl⟩
    | cons o rest =>
      cases o with
      | formed r => exact absurd rfl (h r)
      | awaiting n p => exact ⟨rfl, rfl⟩
  | cons r rs ih => exact ⟨congrArg (r :: ·) ih.1, ih.2⟩

theorem owedTo_setOwed (m : MasterNo) (os : List Owed) (s : State) : (setOwed m os s).owedTo m = os :=
  vector_getElem_set_self _ _ _

theorem owedTo_setOwed_of_ne {m n : MasterNo} (h : n ≠ m) (os : List Owed) (s : State) :
    (setOwed m os s).owedTo n = s.owedTo n := vector_getElem_set_of_ne _ h _

/-- Memory's answer to the oldest request returns it and what stood formed behind it. -/
theorem answerOldest_formed (m : MasterNo) (r : Response) (rs : List Response) {behind : List Owed} (s : State)
    (h : ∀ r, behind.head? ≠ some (.formed r)) : answerOldest m r (rs.map Owed.formed ++ behind) s =
      { setOwed m behind s with ports := { (setOwed m behind s).ports with
        returned := s.ports.returned ++ (m, r) :: rs.map fun r => (m, r) } } := by
  obtain ⟨front, rest⟩ := formedFront_formed (r :: rs) h
  have order : (setOwed m (.formed r :: (rs.map Owed.formed ++ behind)) s).owedTo m = (r :: rs).map Owed.formed ++ behind :=
    owedTo_setOwed _ _ _
  rw [answerOldest, returnReady, order, front, rest]
  simp only [setOwed, Vector.set_set, List.map_cons]

/-- A response formed behind an awaited one is held (R128). -/
theorem oweFormed_behind {m : MasterNo} {s : State} {n : Nat} {p : Option Patch} {behind : List Owed}
    (owed : s.owedTo m = .awaiting n p :: behind) (r : Response) :
    oweFormed m r s = setOwed m (s.owedTo m ++ [.formed r]) s := by
  have order : (setOwed m (s.owedTo m ++ [.formed r]) s).owedTo m = .awaiting n p :: (behind ++ [.formed r]) := by
    rw [owedTo_setOwed, owed, List.cons_append]
  rw [oweFormed, returnReady, order, owed]
  simp only [setOwed, formedFront, behindFormed, Vector.set_set, List.map_nil, List.append_nil, List.cons_append]

theorem memoryReply_awaited {m : MasterNo} {reply : Reply} {s : State} {n : Nat} {p : Option Patch} {behind : List Owed}
    (owed : s.owedTo m = .awaiting n p :: behind) (fits : reply.data.length = n) :
    memoryReply m reply s = .next (answerOldest m (takeReply p reply s).1 behind (takeReply p reply s).2) := by
  have beats : Reply.fits n reply = true := beq_iff_eq.mpr fits
  simp only [memoryReply, oldestAwaited, owed, beats, if_true]

theorem exec_memoryResponse (m : MasterNo) (reply : Reply) (s : State) :
    exec (.memoryResponse m reply) s = memoryReply m reply s := rfl

/-- Settles O41: the answered request and the formed responses behind it leave the master's order together. -/
theorem memoryResponseReturned : Obligations.MemoryResponseReturned := by
  unfold Obligations.MemoryResponseReturned
  refine ⟨fun m reply s n owed fits => ?_, fun m reply s n held behind owed front fits => ?_,
    fun q s n p behind ok waiting owed class_eq idle => ?_⟩
  · have run : exec (.memoryResponse m reply) s = .next { setOwed m [] s with ports := { (setOwed m [] s).ports with
        returned := s.ports.returned ++ [(m, { error := reply.error, data := reply.data })] } } := by
      rw [exec_memoryResponse, memoryReply_awaited owed fits, answerOldest_only]
      rfl
    exact ⟨_, run, rfl, owedTo_setOwed m [] s, rfl, rfl, fun j hj => owedTo_setOwed_of_ne hj [] s⟩
  · have run : exec (.memoryResponse m reply) s = .next { setOwed m behind s with ports := { (setOwed m behind s).ports with
        returned := s.ports.returned ++ (m, { error := reply.error, data := reply.data }) :: held.map fun r => (m, r) } } := by
      rw [exec_memoryResponse, memoryReply_awaited owed fits, answerOldest_formed m _ held _ front]
      rfl
    exact ⟨_, run, rfl, owedTo_setOwed m behind s, rfl⟩
  · have held : oweFormed q.master okay (unported q s) = setOwed q.master (s.owedTo q.master ++ [.formed okay]) (unported q s) :=
      oweFormed_behind (s := unported q s) owed okay
    have window : inForceDescriptor (setOwed q.master (s.owedTo q.master ++ [.formed okay]) (unported q s)) q = none :=
      (inForce_congr q (notLoading_of_inFlight rfl) rfl rfl).trans (inForce_notLoading s q idle)
    have run : exec (.absorbedWrite (.new q)) s =
        .next (setOwed q.master (s.owedTo q.master ++ [.formed okay]) (unported q s)) := by
      rw [exec_absorbedWrite_new s ok, issue_unported waiting class_eq rfl, acceptAs, held, copyInForce_none window]
    exact ⟨_, run, rfl, rfl, owedTo_setOwed q.master _ (unported q s)⟩

end Sys2Proof.Machine

/-! PROOF. The access matrix (Table 7.2), the areas of the anchor block (R141) and the class of a whole request (R137, R143, R159). -/

namespace Sys2Proof.Machine

/-! ### The cells of the matrix by window kind (Table 7.2) -/

section
variable {w : Window} {role : Role} {q : Request}

theorem classifyIn_anchor (kind : w.kind = .anchor) : classifyIn w role q =
    if role = .controller then (if q.dir = .read then .pass else classifyAnchorWrite w q) else .refuse .role := by
  unfold classifyIn
  rw [kind]
  cases role <;> cases q.dir <;> rfl

theorem classifyIn_descriptor (kind : w.kind = .descriptor) : classifyIn w role q =
    if q.dir = .read then .pass
    else if role = .controller then (match w.sector with | some k => .snoopDescriptor w k | none => .pass)
    else .refuse .role := by
  unfold classifyIn
  rw [kind]
  cases role <;> cases q.dir <;> rfl

theorem classifyIn_map (kind : w.kind = .map) : classifyIn w role q =
    if role = .controller then .pass
    else if q.dir = .write then .refuse .role
    else match role with
      | .builder k => if w.sector = some k then .patch w k else .refuse .role
      | _ => .pass := by
  unfold classifyIn
  rw [kind]
  cases role <;> cases q.dir <;> rfl

theorem classifyIn_report (kind : w.kind = .report) : classifyIn w role q = match role with
    | .controller => if q.dir = .read then .pass else .absorb
    | .builder _ => .refuse .role
    | .receiver k => if q.dir = .read then .pass else if w.sector = some k then .snoopReport w k else .refuse .role
    | .other => if q.dir = .read then .pass else .refuse .role := by
  unfold classifyIn
  rw [kind]
  cases role <;> cases q.dir <;> rfl

theorem classifyIn_log (kind : w.kind = .log) : classifyIn w role q =
    if role = .controller then (if q.dir = .read then .pass else .absorb) else .refuse .role := by
  unfold classifyIn
  rw [kind]
  cases role <;> cases q.dir <;> rfl

theorem classifyIn_guard (kind : w.kind = .guard) : classifyIn w role q =
    if role = .controller then .pass else .refuse .role := by
  unfold classifyIn
  rw [kind]
  cases role <;> cases q.dir <;> rfl

end

/-! ### The areas of the anchor block (R141) -/

/-- The offsets of ordinary memory in the anchor block. -/
def ordinaryOffset (n : Nat) : Prop := 0x020 ≤ n ∧ ¬ (0x800 ≤ n ∧ n < 0x840) ∧ ¬ (0x900 ≤ n ∧ n < 0xA00) ∧ n < 0xC00

theorem anchorArea_ordinary_iff (n : Nat) : anchorArea n = .ordinary ↔ ordinaryOffset n := by
  unfold anchorArea ordinaryOffset
  split_ifs <;> simp <;> omega

theorem anchorArea_status {n : Nat} (h : 0x020 ≤ n) (other : ¬ ordinaryOffset n) : anchorArea n = .status := by
  rw [← anchorArea_ordinary_iff] at other
  revert other
  unfold anchorArea
  rw [if_neg (by omega), if_neg (by omega), if_neg (by omega), if_neg (by omega)]
  split_ifs <;> simp

/-- The class of a CONTROLLER's single-beat write by its area (R141). -/
def AnchorArea.writeClass : AnchorArea → AccessClass
  | .command => .takeCommand
  | .result => .absorb
  | .tail => .takeTail
  | .marker => .takeMarker
  | .status => .absorb
  | .ordinary => .pass

theorem classifyAnchorWrite_single {w : Window} {q : Request} (one : q.beats = 1) {area : AnchorArea}
    (h : anchorArea (alignBeat q.addr - w.base).toNat = area) : classifyAnchorWrite w q = area.writeClass := by
  subst h
  unfold classifyAnchorWrite
  rw [if_pos one]
  cases anchorArea (alignBeat q.addr - w.base).toNat <;> rfl

theorem classifyAnchorWrite_several {w : Window} {q : Request} (several : q.beats ≠ 1) : classifyAnchorWrite w q =
    if (beatAddrs q).all fun a => anchorArea (a - w.base).toNat = .ordinary then .pass else .refuse .split :=
  if_neg several

/-! ### The table in force (R143) -/

theorem activeTable_notLoading {s : State} (h : s.notLoading) : s.activeTable = s.windows := by
  unfold State.activeTable
  split
  next c setup staged k r late reading => exact absurd rfl (h _ setup staged k r late reading)
  · rfl

/-- Settles O28: the matrix by kind, the anchor block by area, and a whole request by the placement of its beats. -/
theorem accessMatrixAsTabulated : Obligations.AccessMatrixAsTabulated := by
  unfold Obligations.AccessMatrixAsTabulated
  refine ⟨fun w role q => ⟨?_, ?_, ?_, ?_, ?_, ?_, ?_, ?_, ?_, ?_, ?_, ?_, ?_, ?_, ?_, ?_, ?_, ?_, ?_⟩, fun w q => ?_, fun s q => ?_⟩
  · rintro kind rfl read; simp [classifyIn_anchor kind, read]
  · rintro kind rfl write; simp [classifyIn_anchor kind, write]
  · intro kind other; simp [classifyIn_anchor kind, other]
  · intro kind read; simp [classifyIn_descriptor kind, read]
  · rintro k kind sector rfl write; simp [classifyIn_descriptor kind, sector, write]
  · intro kind other write; simp [classifyIn_descriptor kind, other, write]
  · rintro kind rfl; simp [classifyIn_map kind]
  · rintro k kind sector rfl read; simp [classifyIn_map kind, sector, read]
  · rintro k kind sector rfl read; simp [classifyIn_map kind, sector, read]
  · rintro k kind (rfl | rfl) read <;> simp [classifyIn_map kind, read]
  · intro kind other write; simp [classifyIn_map kind, other, write]
  · rintro kind rfl; rw [classifyIn_report kind]
  · rintro k kind rfl; rw [classifyIn_report kind]
  · rintro k kind (rfl | rfl) read <;> simp [classifyIn_report kind, read]
  · rintro kind rfl write; simp [classifyIn_report kind, write]
  · rintro k kind rfl write; simp [classifyIn_report kind, write]
  · rintro kind rfl; rw [classifyIn_log kind, if_pos rfl]
  · rintro kind rfl; rw [classifyIn_guard kind, if_pos rfl]
  · rintro (kind | kind) other
    · rw [classifyIn_log kind, if_neg other]
    · rw [classifyIn_guard kind, if_neg other]
  · intro off ordinary
    refine ⟨fun one low => ?_, fun one low high => ?_, fun one low high => ?_, fun one low high => ?_, fun one low other => ?_,
      fun one here => ?_, fun several all => ?_, fun several ⟨a, mem, other⟩ => ?_⟩
    · exact classifyAnchorWrite_single one (if_pos low)
    · exact classifyAnchorWrite_single one ((if_neg (by omega)).trans (if_pos high))
    · exact classifyAnchorWrite_single one ((if_neg (by omega)).trans ((if_neg (by omega)).trans (if_pos high)))
    · exact classifyAnchorWrite_single one
        ((if_neg (by omega)).trans ((if_neg (by omega)).trans ((if_neg (by omega)).trans (if_pos high))))
    · exact classifyAnchorWrite_single one (anchorArea_status low other)
    · exact classifyAnchorWrite_single one ((anchorArea_ordinary_iff off).mpr here)
    · rw [classifyAnchorWrite_several several, if_pos]
      exact List.all_eq_true.mpr fun a mem => decide_eq_true ((anchorArea_ordinary_iff _).mpr (all a mem))
    · rw [classifyAnchorWrite_several several, if_neg]
      exact fun all => other ((anchorArea_ordinary_iff _).mp (of_decide_eq_true (List.all_eq_true.mp all a mem)))
  · intro first windowOfBeat held
    obtain ⟨top, fits⟩ := placementIn_spec s.activeTable q
    have held_iff : s.resultWaits = true ↔ held := by
      show (s.writer.pendingResult.isSome || !s.channel.held.isEmpty) = true ↔ (s.writer.pendingResult ≠ none ∨ s.channel.held ≠ [])
      simp [Option.isSome_iff_ne_none]
    have locked_iff : (s.resultWaits && s.ports.locks.contains q.master) = true ↔ held ∧ q.master ∈ s.ports.locks := by
      rw [Bool.and_eq_true, held_iff, List.contains_iff_mem]
    refine ⟨activeTable_notLoading, fun c setup staged k r late loading => ?_, fun past => ?_, fun below => ⟨fun outside => ?_,
      fun w some_beat inside => ?_, fun i j hi hj differ => ?_⟩⟩
    · simp only [State.activeTable, loading]
    · simp only [classify, top past]
    · simp only [classify, (fits below).1 outside]
    · obtain ⟨others, command⟩ := classify_inside s q w ((fits below).2.1 w some_beat inside)
      refine ⟨others, fun cell waits locked => ?_, fun cell free => ?_⟩
      · rw [command cell, if_pos (locked_iff.mpr ⟨waits, locked⟩)]
      · rw [command cell, if_neg fun c => free (locked_iff.mp c)]
    · simp only [classify, (fits below).2.2 i j hi hj differ]

end Sys2Proof.Machine

/-! PROOF. The requests whose copies go to an engine (R8, R73, R96), and where a descriptor copy goes during a load and in the read phase of
a relocation (R17, R18). -/

namespace Sys2Proof.Machine

/-! ### Where a beat of a descriptor copy goes (R17, R18) -/

section
variable {s : State} {i pos : Nat}

theorem readStand_returned (h : i < pos) : readStand s i pos = .returned := if_pos h

theorem readStand_inFlight (h : i = pos) (granted : s.channel.read = none) : readStand s i pos = .inFlight :=
  (if_neg (by omega)).trans (if_pos ⟨h, granted⟩)

theorem readStand_waiting (h : i = pos) (waits : s.channel.read ≠ none) : readStand s i pos = .notYet :=
  (if_neg (by omega)).trans (if_neg fun c => waits c.2)

theorem readStand_ahead (h : pos < i) : readStand s i pos = .notYet := (if_neg (by omega)).trans (if_neg fun c => by omega)

end

theorem copyDescriptor_live {k : SectorNo} {r : RemoteNo} {lanes : Lanes} {b : Beat} {s : State} (idle : s.notLoading)
    (other : ∀ c q n failed ls x, s.channel.inFlight = some { cmd := c, phase := .relocationReading q n failed ls x } →
      sectorOfByte c.sector ≠ some k) : copyDescriptor k r lanes b s = changeDescriptor k r lanes b s := by
  unfold copyDescriptor
  split
  next c q n failed late cancel reading => exact if_neg (other c q n failed late cancel reading)
  next setup staged j q late c loading => exact absurd idle (loading_of loading)
  · rfl

theorem copyDescriptor_loading {k : SectorNo} {r : RemoteNo} {lanes : Lanes} {b : Beat} {s : State} {c setup staged j q late}
    (h : s.channel.inFlight = some { cmd := c, phase := .readingDescriptors setup staged j q late }) :
    copyDescriptor k r lanes b s = copyToStaged setup staged j q late k r lanes b s := by
  simp only [copyDescriptor, h]

theorem copyDescriptor_reading {k : SectorNo} {r : RemoteNo} {lanes : Lanes} {b : Beat} {s : State} {c q n failed late x}
    (h : s.channel.inFlight = some { cmd := c, phase := .relocationReading q n failed late x })
    (own : sectorOfByte c.sector = some k) :
    copyDescriptor k r lanes b s = copyInReadPhase q n failed late x k r lanes b s := by
  simp only [copyDescriptor, h, own, if_true]

/-- Where no load reads and no relocation is in its read phase, the copies go to the entries. -/
theorem copyBeats_live (k : SectorNo) (w : Window) (lanes : Lanes) : ∀ (data : List Beat) (a : Addr) (s : State),
    s.channel.inFlight = none → copyBeats (copyDescriptor k) w lanes a data s = copyBeats (changeDescriptor k) w lanes a data s
  | [], _, _, _ => rfl
  | b :: data, a, s, idle => by
    have live : copyDescriptor k (remoteAt w a) lanes b s = changeDescriptor k (remoteAt w a) lanes b s :=
      copyDescriptor_live (fun f _ _ _ _ _ h => by rw [idle] at h; cases h) fun _ _ _ _ _ _ h => by rw [idle] at h; cases h
    have next : (changeDescriptor k (remoteAt w a) lanes b s).channel.inFlight = none := by
      rw [(local_changeDescriptor k _ lanes b s).channel, idle]
    rw [copyBeats, copyBeats, live, copyBeats_live k w lanes data (a + 8) _ next]

theorem remoteAt_eq {w : Window} {a : Addr} {r : RemoteNo} (h : r.val = (a - w.base).toNat / 8 % 128) : remoteAt w a = r :=
  Fin.ext h.symm

/-! ### A descriptor change of a staged entry, lane by lane (R17) -/

section
variable (lanes : Lanes) (b : Beat) (e : StagedEntry)

/-- The value of a lane kept as refused: that of its last enabled write, where it was out of range. -/
def keptBad (n limit : Nat) (old : Option Byte) : Option Byte :=
  if laneOn lanes n then (if (beatByte b n).toNat ≤ limit then none else some (beatByte b n)) else old

def stageCeiling : StagedEntry :=
  if laneOn lanes 1 then
    { e with badCeiling := refusedValue (ceilingOk (beatByte b 1)) (beatByte b 1),
             entry := if ceilingOk (beatByte b 1) then
               { e.entry with ceiling := (beatByte b 1).toNat, profile := (beatByte b 1).toNat } else e.entry }
  else e

def stageClass : StagedEntry :=
  if laneOn lanes 2 then
    { e with badClass := refusedValue (classOk (beatByte b 2)) (beatByte b 2),
             entry := if classOk (beatByte b 2) then { e.entry with cls := (beatByte b 2).toNat } else e.entry }
  else e

def stageGroup : StagedEntry :=
  if laneOn lanes 3 then
    { e with badGroup := refusedValue (groupOk (beatByte b 3)) (beatByte b 3),
             entry := if groupOk (beatByte b 3) then { e.entry with group := groupOf (beatByte b 3) } else e.entry }
  else e

def stageAdmin : StagedEntry :=
  if laneOn lanes 0 then
    { e with entry := { e.entry with
        admin := adminOf (beatByte b 0), state := if adminOf (beatByte b 0) then .serving else .idle } }
  else e

/-- The lanes are taken one after another. -/
theorem changeStaged_lanes :
    changeStaged lanes b e = stageAdmin lanes b (stageGroup lanes b (stageClass lanes b (stageCeiling lanes b e))) := rfl

theorem stageCeiling_eq : stageCeiling lanes b e = { e with
    badCeiling := keptBad lanes b 1 11 e.badCeiling
    entry := { e.entry with
      ceiling := if laneOn lanes 1 ∧ (beatByte b 1).toNat ≤ 11 then (beatByte b 1).toNat else e.entry.ceiling
      profile := if laneOn lanes 1 ∧ (beatByte b 1).toNat ≤ 11 then (beatByte b 1).toNat else e.entry.profile } } := by
  unfold stageCeiling keptBad refusedValue ceilingOk
  cases lane : laneOn lanes 1 with
  | false => simp
  | true => by_cases ok : (beatByte b 1).toNat ≤ 11 <;> simp [ok]

theorem stageClass_eq : stageClass lanes b e = { e with
    badClass := keptBad lanes b 2 3 e.badClass
    entry := { e.entry with
      cls := if laneOn lanes 2 ∧ (beatByte b 2).toNat ≤ 3 then (beatByte b 2).toNat else e.entry.cls } } := by
  unfold stageClass keptBad refusedValue classOk
  cases lane : laneOn lanes 2 with
  | false => simp
  | true => by_cases ok : (beatByte b 2).toNat ≤ 3 <;> simp [ok]

theorem stageGroup_eq : stageGroup lanes b e = { e with
    badGroup := keptBad lanes b 3 15 e.badGroup
    entry := { e.entry with
      group := if laneOn lanes 3 ∧ (beatByte b 3).toNat ≤ 15 then
        (if (beatByte b 3).toNat = 0 then none else some (beatByte b 3).toNat) else e.entry.group } } := by
  unfold stageGroup keptBad refusedValue groupOk
  cases lane : laneOn lanes 3 with
  | false => simp
  | true => by_cases ok : (beatByte b 3).toNat ≤ 15 <;> simp [ok, groupOf]

theorem stageAdmin_eq : stageAdmin lanes b e = { e with
    entry := { e.entry with
      admin := if laneOn lanes 0 then b.getLsbD 0 else e.entry.admin
      state := if laneOn lanes 0 then (if b.getLsbD 0 then .serving else .idle) else e.entry.state } } := by
  have bit : adminOf (beatByte b 0) = b.getLsbD 0 := by simp [adminOf, beatByte]
  unfold stageAdmin
  rw [bit]
  cases lane : laneOn lanes 0 with
  | false => simp
  | true => simp

end

/-- Settles O32: each class is granted the port and hands its beats over; where a descriptor beat goes is `copyDescriptor`'s
case; a staged entry changes lane by lane. -/
theorem engineRequestsTaken : Obligations.EngineRequestsTaken := by
  unfold Obligations.EngineRequestsTaken
  refine ⟨fun q s w k ok free => ⟨fun idle class_eq => ?_, fun class_eq => ?_, fun hold class_eq => ?_, fun class_eq => ?_⟩,
    fun take w lanes a s => ⟨rfl, fun b bs r at_r => ?_⟩,
    fun k r lanes b s => ⟨copyDescriptor_live, fun c setup staged j q late loading => ?_,
      fun c q n failed late x reading own => ?_⟩,
    fun lanes b e => ?_, fun s q => ?_⟩
  · have issued : issue q s = copyInForce q (copyBeats (copyDescriptor k) w q.lanes (alignBeat q.addr) q.data (forwarded none q s)) := by
      rw [issue_granted free class_eq rfl rfl, ← oweAwaited_granted]
      rfl
    have idle' : s.notLoading := fun f _ _ _ _ _ h => by rw [idle] at h; cases h
    obtain ⟨loads, windows, roles⟩ := copyBeats_kept k w q.lanes q.data (alignBeat q.addr) (forwarded none q s)
    have window := (inForce_congr q loads windows roles).trans (inForce_notLoading (forwarded none q s) q idle')
    rw [exec_descriptorWrite_new s ok, issued, copyInForce_none window,
      copyBeats_live k w q.lanes q.data _ (forwarded none q s) idle]
  · have issued : issue q s = copyInForce q (copyBeats (copyDescriptor k) w q.lanes (alignBeat q.addr) q.data (forwarded none q s)) := by
      rw [issue_granted free class_eq rfl rfl, ← oweAwaited_granted]
      rfl
    obtain ⟨loads, windows, roles⟩ := copyBeats_kept k w q.lanes q.data (alignBeat q.addr) (forwarded none q s)
    have window := inForce_congr q loads windows roles
    have window' : inForceDescriptor (forwarded none q s) q = inForceDescriptor s q :=
      inForce_congr q (notLoading_of_inFlight rfl) rfl rfl
    rw [exec_descriptorWrite_new s ok, issued]
    exact ⟨fun absent => by rw [copyInForce_none (window.trans (window'.trans absent))],
      fun v j present => by rw [copyInForce_some (window.trans (window'.trans present))]⟩
  · have may : eligibleClass s q (.snoopReport w k) = true := by simp [eligibleClass, heldOff, hold]
    rw [exec_reportWrite_new s ok, issue_granted free class_eq rfl may, acceptAs, oweAwaited_granted]
  · rw [exec_mapRead_new s ok, issue_granted free class_eq rfl rfl, acceptAs, oweAwaited_granted]
  · rw [copyBeats, remoteAt_eq at_r]
  · rw [copyDescriptor_loading loading, copyToStaged, setPhase_of _ loading, setPhase_of _ loading]
    exact ⟨fun before => by rw [readStand_returned before]; rfl, fun here granted => by rw [readStand_inFlight here granted],
      fun here waits => by rw [readStand_waiting here waits], fun ahead => by rw [readStand_ahead ahead]⟩
  · rw [copyDescriptor_reading reading own, copyInReadPhase, setPhase_of _ reading]
    exact ⟨fun before => by rw [readStand_returned before],
      fun here granted => by rw [readStand_inFlight (congrArg Fin.val here) granted],
      fun here waits => by rw [readStand_waiting (congrArg Fin.val here) waits], fun ahead => by rw [readStand_ahead ahead]⟩
  · rw [changeStaged_lanes, stageCeiling_eq, stageClass_eq, stageGroup_eq, stageAdmin_eq]
    rfl
  · intro first windowOfBeat
    obtain ⟨top, fits⟩ := placementIn_spec s.windows q
    refine ⟨fun h => ?_, fun loading write role some_beat => ⟨fun w k below inside kind sector => ?_, fun h => ?_⟩⟩
    · by_cases idle : s.notLoading
      · exact inForce_notLoading s q idle
      · rw [inForce_loading s q idle, if_neg]
        rintro ⟨write, role⟩
        obtain h | h | h := h
        · exact idle h
        · rw [h] at write; cases write
        · exact h role
    · rw [inForce_loading s q loading, if_pos ⟨write, role⟩, (fits below).2.1 w some_beat inside]
      simp [kind, sector]
    · rw [inForce_loading s q loading, if_pos ⟨write, role⟩]
      obtain past | none_inside := h
      · rw [top past]
      · obtain past | below := Nat.lt_or_ge (2 ^ 40) (first + 8 * q.beats)
        · rw [top past]
        · by_cases alike : ∀ j, j < q.beats → windowOfBeat j = windowOfBeat 0
          · cases at_0 : windowOfBeat 0 with
            | none => rw [(fits below).1 fun j hj => (alike j hj).trans at_0]
            | some w =>
              have inside : ∀ j, j < q.beats → windowOfBeat j = some w := fun j hj => (alike j hj).trans at_0
              rw [(fits below).2.1 w some_beat inside]
              show (if w.kind = .descriptor then w.sector.map fun k => (w, k) else none) = none
              split
              next kind =>
                cases sector : w.sector with
                | none => rfl
                | some k => exact absurd sector (none_inside w k inside kind)
              · rfl
          · push Not at alike
            obtain ⟨j, hj, differ⟩ := alike
            rw [(fits below).2.2 j 0 hj (Nat.pos_of_ne_zero some_beat) differ]

end Sys2Proof.Machine

/-! PROOF. A descriptor change (R8 to R15), lane by lane. -/

namespace Sys2Proof.Machine

section
variable (k : SectorNo) (r : RemoteNo) (b : Beat) (s : State)

/-! ### The lanes of one change (R8) -/

theorem changeDescriptor_lane0 : changeDescriptor k r 0x01 b s = changeAdmin k r (beatByte b 0) s := rfl
theorem changeDescriptor_lane1 : changeDescriptor k r 0x02 b s = changeCeiling k r (beatByte b 1) s := rfl
theorem changeDescriptor_lane2 : changeDescriptor k r 0x04 b s = changeClass k r (beatByte b 2) s := rfl
theorem changeDescriptor_lane3 : changeDescriptor k r 0x08 b s = changeGroup k r (beatByte b 3) s := rfl

/-- The change of a lane, where it is enabled. -/
def laneChange (lanes : Lanes) (n : Nat) (u : State) : State :=
  if lanes.getLsbD n then changeDescriptor k r ((1 : Lanes) <<< n) b u else u

theorem changeDescriptor_eq (lanes : Lanes) : changeDescriptor k r lanes b s =
    laneChange k r b lanes 0 (laneChange k r b lanes 3 (laneChange k r b lanes 2 (laneChange k r b lanes 1 s))) := rfl

/-! ### Class and group (R9, R11, R12) -/

/-- One entry is given a new value with no record, beside the marks. -/
structure LaneTaken (e : Entry) (s t : State) : Prop where
  sector : t.sector k = (s.sector k).setEntry r e
  others : OtherSectors k s t
  kept : DeviceKept s t
  ports : t.ports = s.ports
  channel : t.channel = s.channel
  notices : t.notices = s.notices

end

section
variable {k : SectorNo} {r : RemoteNo} {s t u : State} {e e' : Entry}

theorem setEntry_setEntry (x : Sector) (r : RemoteNo) (e e' : Entry) : (x.setEntry r e).setEntry r e' = x.setEntry r e' := by
  simp [Sector.setEntry, Vector.set_set]

theorem LaneTaken.refl (k : SectorNo) (r : RemoteNo) (s : State) : LaneTaken k r (s.entry k r) s s :=
  ⟨(setEntry_self _ r).symm, fun _ _ => rfl, .refl s, rfl, rfl, rfl⟩

theorem LaneTaken.trans (h : LaneTaken k r e s t) (g : LaneTaken k r e' t u) : LaneTaken k r e' s u :=
  ⟨by rw [g.sector, h.sector, setEntry_setEntry], h.others.trans g.others, h.kept.trans g.kept, g.ports.trans h.ports,
    g.channel.trans h.channel, g.notices.trans h.notices⟩

theorem LaneTaken.entry (h : LaneTaken k r e s t) : t.entry k r = e := by
  rw [State.entry, h.sector, entry_setEntry, if_pos rfl]

theorem LaneTaken.of_local (h : Local k s t) (sector : t.sector k = (s.sector k).setEntry r e) (notices : t.notices = s.notices) :
    LaneTaken k r e s t := ⟨sector, h.others, h.dev, h.ports, h.channel, notices⟩

/-- The DESCRIPTOR record of a refused lane value (R9). -/
def refusedRecord (k : SectorNo) (r : RemoteNo) (cause : DescriptorCause) (b : Byte) (s : State) : LogRecord :=
  { time := s.time, sector := some k, frame := some (s.sector k).frame, body := .descriptor cause r (b.setWidth 32) }

theorem refuseLane_taken (k : SectorNo) (r : RemoteNo) (cause : DescriptorCause) (b : Byte) (s : State) :
    LaneTaken k r (s.entry k r) s (refuseLane k r cause b s) :=
  .of_local (local_logSector k k _ s) ((sector_of_sectors (logSector_sectors k _ s) k).trans (setEntry_self _ r).symm)
    (pushRecord_notices _ s)

theorem refuseLane_logged (k : SectorNo) (r : RemoteNo) (cause : DescriptorCause) (b : Byte) (s : State) :
    Logged (refusedRecord k r cause b s) s (refuseLane k r cause b s) := pushRecord_logged _ s

theorem modEntry_taken (k : SectorNo) (r : RemoteNo) (f : Entry → Entry) (s : State) :
    LaneTaken k r (f (s.entry k r)) s (modEntry k r f s) :=
  .of_local (local_modEntry k r f s) (modEntry_sector k r f s) rfl

/-- No record is queued or skipped. -/
def NoRecord (s t : State) : Prop :=
  t.writer.queue = s.writer.queue ∧ t.writer.skips = s.writer.skips ∧ t.writer.seq = s.writer.seq

theorem Logged.after {rec : LogRecord} (quiet : NoRecord s t) (h : Logged rec t u) : Logged rec s u := by
  obtain ⟨queue, skips, seq⟩ := quiet
  unfold Logged at h ⊢
  rwa [← queue, ← skips, ← seq]

theorem Logged.before {rec : LogRecord} (h : Logged rec s t) (quiet : NoRecord t u) : Logged rec s u := by
  obtain ⟨queue, skips, seq⟩ := quiet
  unfold Logged
  rwa [queue, skips, seq]

/-- An entry with the class lane taken (R11). -/
def Entry.withClass (e : Entry) (b : Byte) : Entry := { e with cls := if b.toNat ≤ 3 then b.toNat else e.cls }

/-- An entry with the group lane taken (R12). -/
def Entry.withGroup (e : Entry) (b : Byte) : Entry := { e with group := if b.toNat ≤ 15 then groupOf b else e.group }

theorem Entry.withClass_if (e : Entry) (b : Byte) (p : Bool) : (if p then e.withClass b else e) =
    { e with cls := if p ∧ b.toNat ≤ 3 then b.toNat else e.cls } := by cases p <;> simp [Entry.withClass]

theorem Entry.withGroup_if (e : Entry) (b : Byte) (p : Bool) : (if p then e.withGroup b else e) =
    { e with group := if p ∧ b.toNat ≤ 15 then groupOf b else e.group } := by cases p <;> simp [Entry.withGroup]

theorem changeClass_taken (k : SectorNo) (r : RemoteNo) (b : Byte) (s : State) :
    LaneTaken k r ((s.entry k r).withClass b) s (changeClass k r b s) := by
  unfold changeClass Entry.withClass classOk
  by_cases ok : b.toNat ≤ 3
  · rw [if_pos ok, if_neg (by simp [ok])]
    split
    next same => rw [same]; exact .refl k r s
    · have marked (t : State) : LaneTaken k r (t.entry k r) t (markMirror k r t) :=
        .of_local (local_markMirror k k r t) (setEntry_self _ r).symm rfl
      have taken := modEntry_taken k r (fun e => { e with cls := b.toNat }) s
      have mark := marked (modEntry k r (fun e => { e with cls := b.toNat }) s)
      rw [taken.entry] at mark
      exact taken.trans mark
  · rw [if_neg ok, if_pos (by simp [ok])]
    exact refuseLane_taken k r _ b s

theorem changeClass_noRecord (k : SectorNo) (r : RemoteNo) {b : Byte} (s : State) (ok : b.toNat ≤ 3) :
    NoRecord s (changeClass k r b s) := by
  unfold changeClass classOk
  rw [if_neg (by simp [ok])]
  split
  · exact ⟨rfl, rfl, rfl⟩
  · exact ⟨rfl, rfl, rfl⟩

theorem changeClass_logged (k : SectorNo) (r : RemoteNo) {b : Byte} (s : State) (bad : 3 < b.toNat) :
    Logged (refusedRecord k r .classInvalid b s) s (changeClass k r b s) := by
  unfold changeClass classOk
  rw [if_pos (by simpa using bad)]
  exact refuseLane_logged k r _ b s

theorem changeGroup_taken (k : SectorNo) (r : RemoteNo) (b : Byte) (s : State) :
    LaneTaken k r ((s.entry k r).withGroup b) s (changeGroup k r b s) := by
  unfold changeGroup Entry.withGroup groupOk
  by_cases ok : b.toNat ≤ 15
  · rw [if_pos ok, if_neg (by simp [ok])]
    exact modEntry_taken k r (fun e => { e with group := groupOf b }) s
  · rw [if_neg ok, if_pos (by simp [ok])]
    exact refuseLane_taken k r _ b s

theorem changeGroup_noRecord (k : SectorNo) (r : RemoteNo) {b : Byte} (s : State) (ok : b.toNat ≤ 15) :
    NoRecord s (changeGroup k r b s) := by
  unfold changeGroup groupOk
  rw [if_neg (by simp [ok])]
  exact ⟨rfl, rfl, rfl⟩

theorem changeGroup_logged (k : SectorNo) (r : RemoteNo) {b : Byte} (s : State) (bad : 15 < b.toNat) :
    Logged (refusedRecord k r .groupInvalid b s) s (changeGroup k r b s) := by
  unfold changeGroup groupOk
  rw [if_pos (by simpa using bad)]
  exact refuseLane_logged k r _ b s

/-- The record of a refused lane is the same after a change of the entry. -/
theorem LaneTaken.record (h : LaneTaken k r e s t) (cause : DescriptorCause) (b : Byte) :
    refusedRecord k r cause b t = refusedRecord k r cause b s := by
  simp only [refusedRecord, h.kept.time, h.sector, setEntry_frame]

/-- The class lane of a change, where it is enabled. -/
theorem classLane_taken (k : SectorNo) (r : RemoteNo) (lanes : Lanes) (b : Beat) (s : State) :
    LaneTaken k r (if lanes.getLsbD 2 then (s.entry k r).withClass (beatByte b 2) else s.entry k r) s
      (laneChange k r b lanes 2 s) := by
  unfold laneChange
  split
  · exact changeClass_taken k r _ s
  · exact .refl k r s

theorem groupLane_taken (k : SectorNo) (r : RemoteNo) (lanes : Lanes) (b : Beat) (s : State) :
    LaneTaken k r (if lanes.getLsbD 3 then (s.entry k r).withGroup (beatByte b 3) else s.entry k r) s
      (laneChange k r b lanes 3 s) := by
  unfold laneChange
  split
  · exact changeGroup_taken k r _ s
  · exact .refl k r s

theorem classLane_noRecord (k : SectorNo) (r : RemoteNo) {lanes : Lanes} {b : Beat} (s : State)
    (ok : ¬ (lanes.getLsbD 2 = true ∧ 3 < (beatByte b 2).toNat)) :
    NoRecord s (laneChange k r b lanes 2 s) := by
  unfold laneChange
  split
  next on => exact changeClass_noRecord k r s (by by_contra c; exact ok ⟨on, by omega⟩)
  · exact ⟨rfl, rfl, rfl⟩

theorem classLane_logged (k : SectorNo) (r : RemoteNo) {lanes : Lanes} {b : Beat} (s : State)
    (bad : lanes.getLsbD 2 = true ∧ 3 < (beatByte b 2).toNat) :
    Logged (refusedRecord k r .classInvalid (beatByte b 2) s) s (laneChange k r b lanes 2 s) := by
  rw [laneChange, if_pos bad.1]
  exact changeClass_logged k r s bad.2

theorem groupLane_noRecord (k : SectorNo) (r : RemoteNo) {lanes : Lanes} {b : Beat} (s : State)
    (ok : ¬ (lanes.getLsbD 3 = true ∧ 15 < (beatByte b 3).toNat)) :
    NoRecord s (laneChange k r b lanes 3 s) := by
  unfold laneChange
  split
  next on => exact changeGroup_noRecord k r s (by by_contra c; exact ok ⟨on, by omega⟩)
  · exact ⟨rfl, rfl, rfl⟩

theorem groupLane_logged (k : SectorNo) (r : RemoteNo) {lanes : Lanes} {b : Beat} (s : State)
    (bad : lanes.getLsbD 3 = true ∧ 15 < (beatByte b 3).toNat) :
    Logged (refusedRecord k r .groupInvalid (beatByte b 3) s) s (laneChange k r b lanes 3 s) := by
  rw [laneChange, if_pos bad.1]
  exact changeGroup_logged k r s bad.2

/-! ### Ceiling (R10) -/

theorem changeCeiling_refused (k : SectorNo) (r : RemoteNo) {b : Byte} (s : State) (bad : 11 < b.toNat) :
    changeCeiling k r b s = refuseLane k r .ceilingInvalid b s := if_pos (by simpa [ceilingOk] using bad)

theorem changeCeiling_same (k : SectorNo) (r : RemoteNo) {b : Byte} (s : State) (ok : b.toNat ≤ 11)
    (same : b.toNat = (s.entry k r).ceiling) : changeCeiling k r b s = s :=
  (if_neg (by simp [ceilingOk, ok])).trans (if_pos same)

theorem changeCeiling_step (k : SectorNo) (r : RemoteNo) {b : Byte} (s : State) (ok : b.toNat ≤ 11)
    (differs : b.toNat ≠ (s.entry k r).ceiling) : changeCeiling k r b s = remoteStep k r (StepInfo.plain .ceiling)
      ((s.entry k r).withCeiling b.toNat (s.params k).restart (s.params k).attemptsLimit) s :=
  (if_neg (by simp [ceilingOk, ok])).trans (if_neg differs)

/-- The climb ends where the new ceiling is reached. -/
theorem Entry.withCeiling_reached {e : Entry} {c restart limit : Nat} (climbing : e.state = .climbing) (reached : c ≤ e.profile) :
    e.withCeiling c restart limit = Entry.enter { e with ceiling := c } .serving restart limit := by
  unfold Entry.withCeiling
  simp only [climbing, reached, if_true]

/-- An entry under a new ceiling that keeps its state: the profile follows by the state (R10). -/
def Entry.underCeiling (e : Entry) (c restart : Nat) : Entry :=
  { e with
    ceiling := c
    profile := if e.state ∈ [.idle, .serving, .held, .excluded] then c
      else if e.state ∈ [.faded, .queued, .probing] then min restart c
      else if e.state = .ranging then min e.profile c else e.profile }

theorem Entry.withCeiling_kept {e : Entry} {c : Nat} (restart limit : Nat) (h : ¬ (e.state = .climbing ∧ c ≤ e.profile)) :
    e.withCeiling c restart limit = e.underCeiling c restart := by
  unfold Entry.withCeiling Entry.restartProfile Entry.underCeiling
  cases state : e.state with
  | climbing =>
    have above : ¬ c ≤ e.profile := fun reached => h ⟨state, reached⟩
    simp [above]
  | _ => simp

theorem fadedAtAfter_same (frame : Frame) (st : RState) (f : Option Frame) :
    fadedAtAfter frame st st f = if st ∈ [.idle, .serving] then none else f := by cases st <;> rfl

theorem fadedAtAfter_queued (frame : Frame) (st : RState) (f : Option Frame) :
    fadedAtAfter frame st .queued f = if st ∈ [.idle, .serving] then some frame else f := by cases st <;> rfl

/-! ### Admin (R13 to R15) -/

theorem changeAdmin_deferred (k : SectorNo) (r : RemoteNo) (b : Byte) (s : State) (susp : (s.sector k).suspended = true) :
    changeAdmin k r b s = setDeferred k r (if adminOf b = (s.entry k r).admin then none else some (adminOf b)) s := if_pos susp

theorem changeAdmin_taken (k : SectorNo) (r : RemoteNo) (b : Byte) (s : State) (susp : (s.sector k).suspended = false) :
    changeAdmin k r b s = takeAdmin StepInfo.plain k r (adminOf b) s := if_neg (by simp [susp])

theorem setDeferred_sector (k : SectorNo) (r : RemoteNo) (d : Option Bool) (s : State) :
    (setDeferred k r d s).sector k = (s.sector k).setEntry r { s.entry k r with deferred := d } := by
  have set := modEntry_sector k r (fun e => { e with deferred := d }) s
  unfold setDeferred
  dsimp only
  split <;> exact set

theorem setDeferred_queue (k : SectorNo) (r : RemoteNo) (d : Option Bool) (s : State) :
    (setDeferred k r d s).writer.queue = s.writer.queue := by
  unfold setDeferred
  dsimp only
  split <;> rfl

/-- What an admin step comes to. -/
structure AdminStep (k : SectorNo) (r : RemoteNo) (c : StateCause) (x : Sector) (e : Entry) (s t : State) : Prop where
  entry : t.entry k r = e
  followed : Followed r (s.entry k r).state e.state (s.sector k) (t.sector k)
  others : OtherEntries k r x s t
  sector : SectorKept (s.sector k) (t.sector k)
  device : DeviceKept s t
  logged : (s.entry k r).state ≠ e.state → StateLogged k r c s t

theorem stepTo_adminStep (k : SectorNo) (r : RemoteNo) (st : RState) (c : StateCause) (f : Entry → Entry) (s : State) (e : Entry)
    (he : e = { (f (s.entry k r)).enter st (s.params k).restart (s.params k).attemptsLimit with
      fadedAt := fadedAtAfter (s.sector k).frame (s.entry k r).state st (s.entry k r).fadedAt }) :
    AdminStep k r c (s.sector k) e s (stepTo k r st (StepInfo.plain c) f s) := by
  have l := local_stepTo k r st (StepInfo.plain c) f s
  have state : e.state = st := by rw [he]; exact enter_state ..
  refine ⟨?_, state ▸ stepTo_followed k r st _ f s rfl, ⟨l.others, fun q h => ?_⟩, l.stable.toSectorKept, l.dev, fun h => ?_⟩
  · rw [he, stepTo_entry, if_pos rfl]
    simp only [enter_state]
  · rw [stepTo_entry, if_neg h]
    rfl
  · exact stepTo_logged k r st (StepInfo.plain c) f s (state ▸ h)

theorem adminOff_step (k : SectorNo) (r : RemoteNo) (s : State) :
    AdminStep k r .adminOff (s.sector k) ({ s.entry k r with admin := false }.serviceAs .idle) s
      (adminOff StepInfo.plain k r s) := stepTo_adminStep k r .idle .adminOff _ s _ rfl

theorem adminOn_passive (k : SectorNo) (r : RemoteNo) (s : State) (h : (s.sector k).mode ≠ .active) :
    adminOn StepInfo.plain k r s = stepTo k r .serving (StepInfo.plain .adminOn) (fun e => { e with admin := true }) s := by
  unfold adminOn
  split
  next active => exact absurd active h
  · rfl
  · rfl

theorem adminOn_active (k : SectorNo) (r : RemoteNo) (s : State) (h : (s.sector k).mode = .active) :
    AdminStep k r .adminOn (readyTail (s.sector k))
      { { s.entry k r with admin := true, attempts := 0, garbles := 0, solo := false }.queuedAs (s.params k).restart
          (readyTail (s.sector k)).nextTail with
        fadedAt := if (s.entry k r).state ∈ [.idle, .serving] then some (s.sector k).frame else (s.entry k r).fadedAt } s
      (adminOn StepInfo.plain k r s) := by
  have tail : adminOn StepInfo.plain k r s = toQueueTail k r (StepInfo.plain .adminOn)
      (fun e => { e with admin := true, attempts := 0, garbles := 0, solo := false }) s := by
    unfold adminOn
    rw [h]
  rw [tail]
  have l := local_toQueueTail k r (StepInfo.plain .adminOn)
    (fun e => { e with admin := true, attempts := 0, garbles := 0, solo := false }) s
  refine ⟨?_, toQueueTail_followed k r _ _ s rfl, ⟨l.others, fun q hq => ?_⟩, l.stable.toSectorKept, l.dev,
    fun hs => toQueueTail_logged k r (StepInfo.plain .adminOn) _ s hs⟩
  · obtain ⟨o, ho⟩ := readyTail_entry (s.sector k) r
    rw [toQueueTail_entry k r r _ _ s _ rfl, if_pos rfl, ho, readyTail_frame, ← fadedAtAfter_queued]
    rfl
  · rw [toQueueTail_entry k r q _ _ s _ rfl, if_neg hq]

/-- Settles O33: the lanes in their order, and each lane by its own rule. -/
theorem classAndGroupLanesTaken : Obligations.ClassAndGroupLanesTaken := by
  unfold Obligations.ClassAndGroupLanesTaken
  refine ⟨fun k r lanes b s => changeDescriptor_eq k r b s lanes, fun k r lanes b s off0 off1 => ?_, fun k r b s c hc => ?_,
    fun k r b s v hv => ?_⟩
  · intro t e cls group badClass badGroup refused
    let u := laneChange k r b lanes 2 s
    have t_eq : t = laneChange k r b lanes 3 u := by
      show changeDescriptor k r lanes b s = _
      rw [changeDescriptor_eq, laneChange, off0, laneChange, laneChange, laneChange, off1]
      rfl
    have taken_u := classLane_taken k r lanes b s
    have taken : LaneTaken k r _ s t := t_eq ▸ taken_u.trans (groupLane_taken k r lanes b u)
    rw [taken_u.entry] at taken
    refine ⟨?_, taken.others, taken.kept, taken.ports, taken.channel, taken.notices, fun okClass okGroup => ?_,
      fun bad okGroup => ?_, fun okClass bad => ?_, fun bad badG room => ?_⟩
    · rw [taken.sector, Entry.withGroup_if, Entry.withClass_if]
      rfl
    · rw [t_eq]
      exact (groupLane_noRecord k r u okGroup).1.trans (classLane_noRecord k r s okClass).1
    · rw [t_eq]
      exact (classLane_logged k r s bad).before (groupLane_noRecord k r u okGroup)
    · rw [t_eq]
      have logged := groupLane_logged k r u bad
      rw [taken_u.record] at logged
      exact logged.after (classLane_noRecord k r s okClass)
    · have first := (classLane_logged k r s bad).1 (by omega)
      have logged := groupLane_logged k r u badG
      rw [taken_u.record] at logged
      have second := logged.1 (by rw [first, List.length_append]; exact Nat.succ_lt_succ room)
      rw [t_eq, second, first, List.append_assoc]
      rfl
  · rw [changeDescriptor_lane1]
    subst hc
    intro t e p
    refine ⟨fun bad => ?_, fun ok same => changeCeiling_same k r s ok same, fun ok differs climbing reached => ?_,
      fun ok differs h => ?_⟩
    · have t_eq : t = refuseLane k r .ceilingInvalid (beatByte b 1) s := changeCeiling_refused k r s bad
      rw [t_eq]
      exact ⟨logSector_sectors k _ s, (refuseLane_taken k r _ _ s).kept, refuseLane_logged k r _ _ s⟩
    · have t_eq : t = remoteStep k r (StepInfo.plain .ceiling)
          (e.withCeiling (beatByte b 1).toNat p.restart p.attemptsLimit) s := changeCeiling_step k r s ok differs
      rw [Entry.withCeiling_reached climbing reached] at t_eq
      rw [t_eq]
      refine remoteStep_moved k r _ _ _ s .ceiling rfl (.inl ?_) ?_
      · show e.state ≠ .serving
        rw [climbing]; decide
      · rfl
    · have t_eq : t = remoteStep k r (StepInfo.plain .ceiling)
          (e.withCeiling (beatByte b 1).toNat p.restart p.attemptsLimit) s := changeCeiling_step k r s ok differs
      rw [Entry.withCeiling_kept _ _ h] at t_eq
      have l : Local k s t := t_eq ▸ local_remoteStep k r _ _ s
      obtain ⟨sector, quiet⟩ := remoteStep_same k r .ceiling (e.underCeiling (beatByte b 1).toNat p.restart)
        { e.underCeiling (beatByte b 1).toNat p.restart with
          fadedAt := if e.state ∈ [.idle, .serving] then none else e.fadedAt } s rfl
        (by rw [← fadedAtAfter_same (s.sector k).frame]; rfl)
      rw [← t_eq] at sector quiet
      have profile : (t.entry k r).profile = (e.underCeiling (beatByte b 1).toNat p.restart).profile := by
        rw [State.entry, sector, entry_setEntry, if_pos rfl]
      refine ⟨sector, l.others, l.dev, l.ports, l.channel, fun moves => ?_, fun stays => ?_⟩
      · rw [t_eq]
        refine remoteStep_logged k r (StepInfo.plain .ceiling) _ s (.inr fun c => moves ?_)
        exact profile.trans c.symm
      · exact quiet (stays.symm.trans profile)
  · rw [changeDescriptor_lane0]
    have bit : adminOf (beatByte b 0) = v := by rw [hv]; simp [adminOf, beatByte]
    intro t e p x
    refine ⟨fun susp => ?_, fun susp same => ?_, fun susp off on => ?_, fun susp on off active => ?_, fun susp on off passive => ?_⟩
    · have t_eq : t = setDeferred k r (if v = e.admin then none else some v) s := by
        rw [← bit]; exact changeAdmin_deferred k r _ s susp
      have l := local_setDeferred k r (if v = e.admin then none else some v) s
      rw [t_eq]
      exact ⟨setDeferred_sector k r _ s, l.others, l.dev, setDeferred_queue k r _ s⟩
    all_goals
      have t_eq : t = takeAdmin StepInfo.plain k r v s := by rw [← bit]; exact changeAdmin_taken k r _ s susp
    · exact t_eq.trans (if_pos same)
    · have taken : t = adminOff StepInfo.plain k r s := by
        rw [t_eq, takeAdmin, off, if_neg (by rw [on]; decide)]
        rfl
      have m := adminOff_step k r s
      rw [taken]
      exact ⟨m.entry, m.followed, m.others, m.sector, m.device, m.logged⟩
    · have taken : t = adminOn StepInfo.plain k r s := by
        rw [t_eq, takeAdmin, on, if_neg (by rw [off]; decide)]
        rfl
      have m := adminOn_active k r s active
      rw [taken]
      exact ⟨m.entry, m.followed, m.others, m.sector, m.device, m.logged⟩
    · have taken : t = adminOn StepInfo.plain k r s := by
        rw [t_eq, takeAdmin, on, if_neg (by rw [off]; decide)]
        rfl
      have m := stepTo_adminStep k r .serving .adminOn (fun e => { e with admin := true }) s
        ({ s.entry k r with admin := true }.serviceAs .serving) rfl
      rw [taken, adminOn_passive k r s passive]
      exact ⟨m.entry, m.followed, m.others, m.sector, m.device, m.logged⟩

end

end Sys2Proof.Machine

/-! PROOF. Memory's response to a map read (R73), and what an epoch leaves of mode, flag, pending operation, pack buffer and counts (R79 to
R83). -/

namespace Sys2Proof.Machine

/-! ### The response to a map read (R73) -/

theorem exec_mapReadResponse (m : MasterNo) (reply : Reply) (s : State) :
    exec (.mapReadResponse m reply) s = memoryReply m reply s := rfl

theorem takeMapReply_error (p : Patch) {reply : Reply} (s : State) (h : reply.error = true) :
    takeMapReply p reply s = ({ error := true, data := reply.data }, s) := if_pos h

theorem takeMapReply_okay (p : Patch) {reply : Reply} (s : State) (h : reply.error = false) :
    takeMapReply p reply s = ({ error := false, data := (takeMapBeats p.sector p.winBase p.addr reply.data s).1 },
      (takeMapBeats p.sector p.winBase p.addr reply.data s).2) := if_neg (by simp [h])

theorem rawKindOf_iff (n : Nat) : (rawKindOf n = .idle ↔ n = 0) ∧ (rawKindOf n = .dataUp ↔ n = 1) ∧
    (rawKindOf n = .dataDown ↔ n = 2) ∧ (rawKindOf n = .restore ↔ 3 ≤ n ∧ n ≤ 5) := by
  match n with
  | 0 | 1 | 2 | 3 | 4 | 5 => simp [rawKindOf]
  | n + 6 => simp [rawKindOf]

theorem toNat_extractLsb' (b : Beat) (lo len : Nat) : (b.extractLsb' lo len).toNat = b.toNat / 2 ^ lo % 2 ^ len := by
  rw [BitVec.extractLsb'_toNat, Nat.shiftRight_eq_div_pow]

/-- Settles O35: the reply is taken beat by beat and returned; a beat's place decides what it is; the fields are bit fields. -/
theorem mapReadResponseTaken : Obligations.MapReadResponseTaken := by
  unfold Obligations.MapReadResponseTaken
  refine ⟨fun m reply s n p owed fits => ?_, fun k base a s => ⟨rfl, fun b bs => rfl⟩, fun k base a b s => ?_, fun b => ?_⟩
  · have run : exec (.mapReadResponse m reply) s = .next (answerOldest m (takeMapReply p reply s).1 [] (takeMapReply p reply s).2) := by
      rw [exec_mapReadResponse, memoryReply_awaited owed fits]
      rfl
    rw [answerOldest_only] at run
    refine ⟨_, run, fun err => ?_, fun okay => ?_⟩
    · rw [takeMapReply_error p s err]
      exact ⟨rfl, rfl⟩
    · obtain ⟨others, ports, -⟩ := takeMapBeats_spec p.sector p.winBase reply.data p.addr s
      rw [takeMapReply_okay p s okay]
      generalize (takeMapBeats p.sector p.winBase p.addr reply.data s).2 = u at others ports
      exact ⟨by rw [← ports], others, by rw [ports]⟩
  · intro off
    refine ⟨fun at0 => ?_, fun i hi at_i => ?_, fun above => ?_⟩
    · exact if_pos at0
    · have pos : off % 1024 = 8 + 8 * i := at_i
      have slot : off % 1024 / 8 - 1 = i := by omega
      rw [takeMapBeat, if_neg (by omega), if_pos (by omega)]
      show takeRecord k (off / 1024) (off % 1024 / 8 - 1) b s = _
      rw [slot]
    · have pos : 512 < off % 1024 := above
      rw [takeMapBeat, if_neg (by omega), if_neg (by omega)]
  · intro kind
    have kind_eq : field b 0 4 = kind := by rw [field_eq]; simp [kind]
    obtain ⟨idle, up, down, restore⟩ := rawKindOf_iff (field b 0 4)
    rw [kind_eq] at idle up down restore
    refine ⟨?_, ?_, flag_iff b 31, ?_, ?_, ?_, ?_, ?_, ?_⟩
    · show (b.extractLsb' 0 24).toNat = _
      rw [toNat_extractLsb', Nat.pow_zero, Nat.div_one]
    · show field b 24 7 = _
      rw [field_eq]
      rfl
    · show field b 4 4 = _
      rw [field_eq]
      rfl
    · show (b.extractLsb' 8 7).toNat = _
      rw [toNat_extractLsb']
      rfl
    all_goals simp only [rawRecordOf, kind_eq]
    · exact idle
    · exact up
    · exact down
    · exact restore

end Sys2Proof.Machine

/-! PROOF. What an epoch leaves of mode, flag, pending operation, pack buffer and counts (R79 to R83), and the map reads that return memory's
data (R94, R140). -/

namespace Sys2Proof.Machine

/-! ### Steps that leave the pending operation alone -/

/-- What work item 4 reads is kept: mode, flag, pending operation, pack buffer and counts of the sector, and the Command Channel. -/
structure OpKept (k : SectorNo) (s t : State) : Prop where
  dev : DeviceKept s t
  channel : t.channel = s.channel
  result : t.writer.pendingResult = s.writer.pendingResult
  others : OtherSectors k s t
  mode : (t.sector k).mode = (s.sector k).mode
  suspended : (t.sector k).suspended = (s.sector k).suspended
  pendingOp : (t.sector k).pendingOp = (s.sector k).pendingOp
  pack : (t.sector k).pack = (s.sector k).pack
  counts : (t.sector k).counts = (s.sector k).counts

section
variable {k : SectorNo} {s t u : State}

theorem OpKept.refl (k : SectorNo) (s : State) : OpKept k s s := ⟨.refl s, rfl, rfl, fun _ _ => rfl, rfl, rfl, rfl, rfl, rfl⟩

theorem OpKept.trans (h : OpKept k s t) (g : OpKept k t u) : OpKept k s u :=
  ⟨h.dev.trans g.dev, g.channel.trans h.channel, g.result.trans h.result, h.others.trans g.others, g.mode.trans h.mode,
    g.suspended.trans h.suspended, g.pendingOp.trans h.pendingOp, g.pack.trans h.pack, g.counts.trans h.counts⟩

theorem Local.opKept (h : Local k s t) : OpKept k s t :=
  ⟨h.dev, h.channel, h.result, h.others, h.stable.mode, h.stable.suspended, h.stable.pendingOp, h.stable.pack, h.stable.counts⟩

theorem opKept_modSector {f : Sector → Sector} (s : State) (mode : (f (s.sector k)).mode = (s.sector k).mode)
    (suspended : (f (s.sector k)).suspended = (s.sector k).suspended)
    (pendingOp : (f (s.sector k)).pendingOp = (s.sector k).pendingOp) (pack : (f (s.sector k)).pack = (s.sector k).pack)
    (counts : (f (s.sector k)).counts = (s.sector k).counts) : OpKept k s (modSector k f s) := by
  have q := quiet_modSector k f s
  refine ⟨q.dev, q.channel, q.result, otherSectors_modSector k f s, ?_, ?_, ?_, ?_, ?_⟩
  all_goals rw [sector_modSector_self]
  · exact mode
  · exact suspended
  · exact pendingOp
  · exact pack
  · exact counts

theorem opKept_foldl {α : Type} {f : State → α → State} (h : ∀ s a, OpKept k s (f s a)) :
    ∀ (l : List α) (s : State), OpKept k s (l.foldl f s)
  | [], s => .refl k s
  | a :: l, s => (h s a).trans (opKept_foldl h l (f s a))

end

section
variable (k : SectorNo) (s : State)

theorem stable_modPlan (f : Frame) (g : Plan → Plan) (hg : ∀ p, (g p).frame = p.frame) (x : Sector) : Stable x (modPlan f g x) :=
  ⟨⟨rfl, rfl, rfl, rfl, rfl, rfl, rfl, rfl, rfl, rfl⟩, (steady_modPlan f g hg x).frames⟩

theorem local_timeoutOne (f : Frame) (slot minislot : Nat) : Local k s (timeoutOne k f slot minislot s) := by
  unfold timeoutOne
  split
  · split
    · exact (local_modSector k _ s (stable_modPlan f (Plan.setCondition slot minislot .resolved) (fun _ => rfl) _)).trans
        (local_takeOutcome k _ _ _ _)
    · exact .refl k s
    · exact .refl k s
  · exact .refl k s

theorem local_timeoutPlan (f : Frame) (count : Nat) : Local k s (timeoutPlan k f count s) :=
  local_foldl _ (fun t slot => local_foldl _ (fun u minislot => local_timeoutOne k u f slot minislot) _ t) _ s

theorem opKept_retirePlan (p : Plan) : OpKept k s (retirePlan k p s) := by
  have late : Local k s (if (s.sector k).mode ≠ .pass ∧ (s.sector k).suspended = false then timeoutPlan k p.frame p.count s else s) :=
    .ite (fun _ => local_timeoutPlan k s p.frame p.count) fun _ => .refl k s
  exact late.opKept.trans (opKept_modSector _ rfl rfl rfl rfl rfl)

theorem opKept_epochItem1 (resync : Bool) : OpKept k s (epochItem1 k resync s) := by
  unfold epochItem1
  split
  · exact (opKept_modSector s rfl rfl rfl rfl rfl).trans (local_requeueForDiscard .resync k _).opKept
  · exact opKept_foldl (fun t p => opKept_retirePlan k t p) _ s

theorem opKept_epochItem3 : OpKept k s (epochItem3 k s) :=
  (opKept_modSector s rfl rfl rfl rfl rfl).trans (local_testThreshold k _).opKept

/-- The state of an epoch before work item 4. -/
def epochBeforeItem4 (f : Frame) : State :=
  let g := (f - (s.sector k).frame).toNat
  let silent := silentResync (s.sector k)
  let resync := silent || decide (Config.maxGap < g)
  epochItem3 k (epochItem2 k (if resync then 0 else g)
    (epochItem1 k resync (logGap k f g silent (modSector k (fun x => { x with frame := f }) s))))

/-- The items of an epoch behind work item 4. -/
def epochAfterItem4 (f : Frame) (count : Nat) : State := epochItem6 k f count (modSector k drawRoster s)

theorem epoch_eq (f : Frame) (count : Nat) (base : Addr) :
    epoch k f count base s = epochAfterItem4 k (completePending k base (epochBeforeItem4 k s f)) f count := rfl

theorem opKept_beforeItem4 (f : Frame) : OpKept k s (epochBeforeItem4 k s f) :=
  (((opKept_modSector s rfl rfl rfl rfl rfl).trans (local_logGap k f _ _ _).opKept).trans (opKept_epochItem1 k _ _)).trans
    ((local_epochItem2 k _ _).opKept.trans (opKept_epochItem3 k _))

theorem opKept_epochItem6 (f : Frame) (count : Nat) : OpKept k s (epochItem6 k f count s) :=
  (opKept_modSector s rfl rfl rfl rfl rfl).trans (local_markCounter k k _).opKept

theorem opKept_afterItem4 (f : Frame) (count : Nat) : OpKept k s (epochAfterItem4 k s f count) :=
  (local_drawRoster k s).opKept.trans (opKept_epochItem6 k _ f count)

end

/-! ### Faults and counts of reports (R109, R110) -/

section
variable (k : SectorNo) (f : Frame) (cause : ReportFault) (remote : Option RemoteNo) (detail : Nat) (s : State)

theorem local_reportFault : Local k s (reportFault k f cause remote detail s) :=
  (local_logFrame k k f _ s).trans (local_raiseNotice k .reportFault _)

theorem reportFault_sectors : (reportFault k f cause remote detail s).sectors = s.sectors :=
  (raiseNotice_sectors .reportFault _).trans (pushRecord_sectors _ s)

theorem reportFault_pending : (reportFault k f cause remote detail s).notices.pending = s.notices.pending ||| 16 := by
  rw [reportFault, raiseNotice_pending]
  exact congrArg (· ||| 16#8) (congrArg Notices.pending (pushRecord_notices _ s))

theorem reportFault_logged : Logged
    { time := s.time, sector := some k, frame := some f, body := .reportFault cause remote (BitVec.ofNat 32 detail) } s
    (reportFault k f cause remote detail s) := raiseNotice_logged .reportFault (pushRecord_logged _ s)

theorem bumpCounts_sector (g : ReportCounts → ReportCounts) :
    (bumpCounts k g s).sector k = { s.sector k with counts := g (s.sector k).counts } :=
  sector_modSector_self k (fun x => { x with counts := g x.counts }) s

theorem quiet_bumpCounts (g : ReportCounts → ReportCounts) : Quiet s (bumpCounts k g s) :=
  (quiet_modSector k _ s).trans (local_markCounter k k _).toQuiet

theorem bumpCounts_others (g : ReportCounts → ReportCounts) : OtherSectors k s (bumpCounts k g s) :=
  otherSectors_modSector k (fun x => { x with counts := g x.counts }) s

end

/-! ### Work item 4 (R149, R154) -/

theorem setPack_sector (k : SectorNo) (p : Option Pack) (s : State) : (setPack k p s).sector k = { s.sector k with pack := p } :=
  sector_modSector_self k (fun x => { x with pack := p }) s

theorem tear_sector (k : SectorNo) (addr winBase : Addr) (s : State) : (tear k addr winBase s).sector k =
    { s.sector k with counts := { (s.sector k).counts with torn := (s.sector k).counts.torn + 1 } } := by
  rw [tear, bumpTorn, bumpCounts_sector, sector_of_sectors (reportFault_sectors ..)]

theorem quiet_tear (k : SectorNo) (addr winBase : Addr) (s : State) : Quiet s (tear k addr winBase s) :=
  (local_reportFault k _ _ _ _ s).toQuiet.trans (quiet_bumpCounts k _ _ : Quiet _ (bumpTorn k _))

section
variable {k : SectorNo} {base : Addr} {s : State}

theorem completePending_mode {target : Mode} (h : (s.sector k).pendingOp = some (.modeChange target)) :
    completePending k base s = completeMode k target s := by simp only [completePending, h]

theorem completePending_map {b : Addr} {x : Nat} {sw : Bool} (h : (s.sector k).pendingOp = some (.relocation .map b x sw)) :
    completePending k base s = if base = b then completeMapRelocation k s else s := by simp only [completePending, h]

theorem completePending_report {b : Addr} {x : Nat} {sw : Bool} (h : (s.sector k).pendingOp = some (.relocation .report b x sw)) :
    completePending k base s = completeReportRelocation k b x s := by simp only [completePending, h]

theorem completePending_descriptor {b : Addr} {x : Nat} {sw : Bool}
    (h : (s.sector k).pendingOp = some (.relocation .descriptor b x sw)) :
    completePending k base s = if sw then s else switchDescriptorWindow k b x s := by simp only [completePending, h]

theorem completePending_none (h : (s.sector k).pendingOp = none) : completePending k base s = s := by
  simp only [completePending, h]

end

section
variable (k : SectorNo) (s : State)

/-- The state of a mode change before its result. -/
def modeMoved (target : Mode) : State := setPendingOp k none (setModeTo k target (moveForMode k (s.sector k).mode target s))

theorem completeMode_eq (target : Mode) :
    completeMode k target s = finish .done (BitVec.ofNat 16 (modeCode target)) (modeMoved k s target) := rfl

theorem modeMoved_sector (target : Mode) : (modeMoved k s target).sector k =
    { (moveForMode k (s.sector k).mode target s).sector k with mode := target, pendingOp := none } := by
  rw [modeMoved, setPendingOp_sector, setModeTo_sector]

theorem quiet_setPendingOp (p : Option PendingOp) : Quiet s (setPendingOp k p s) := quiet_modSector k _ s

theorem quiet_modeMoved (target : Mode) : Quiet s (modeMoved k s target) :=
  ((local_moveForMode k _ target s).toQuiet.trans (quiet_setModeTo k target _)).trans (quiet_setPendingOp k _ none)

/-- The pack buffer emptied at a switch of the REPORT window: a held record is torn (R98, R155). -/
def packEmptied : State :=
  match (s.sector k).pack with
  | some p => setPack k none (tear k p.addr p.winBase s)
  | none => s

theorem packEmptied_sector : (packEmptied k s).sector k = { s.sector k with
    pack := none
    counts := if (s.sector k).pack = none then (s.sector k).counts
      else { (s.sector k).counts with torn := (s.sector k).counts.torn + 1 } } := by
  unfold packEmptied
  cases h : (s.sector k).pack with
  | none =>
    rw [if_pos rfl]
    cases x : s.sector k
    rw [x] at h
    cases h
    rfl
  | some p => rw [setPack_sector, tear_sector, if_neg (by simp)]

theorem quiet_packEmptied : Quiet s (packEmptied k s) := by
  unfold packEmptied
  split
  · exact (quiet_tear k _ _ s).trans (quiet_modSector k _ _)
  · exact .refl s

/-- The state of a REPORT relocation before its result. -/
def reportSwitched (base : Addr) (sizeExp : Nat) : State :=
  setPendingOp k none (moveWindow .report k base sizeExp (packEmptied k s))

theorem completeReportRelocation_eq (base : Addr) (sizeExp : Nat) :
    completeReportRelocation k base sizeExp s = finish .done 0 (reportSwitched k s base sizeExp) := rfl

theorem reportSwitched_sector (base : Addr) (sizeExp : Nat) : (reportSwitched k s base sizeExp).sector k =
    { s.sector k with
      pendingOp := none
      pack := none
      counts := if (s.sector k).pack = none then (s.sector k).counts
        else { (s.sector k).counts with torn := (s.sector k).counts.torn + 1 } } := by
  rw [reportSwitched, setPendingOp_sector]
  show { (packEmptied k s).sector k with pendingOp := none } = _
  rw [packEmptied_sector]

theorem switchDescriptorWindow_sector (base : Addr) (sizeExp : Nat) : (switchDescriptorWindow k base sizeExp s).sector k =
    { s.sector k with pendingOp := some (.relocation .descriptor base sizeExp true) } := by
  have phase (p : Phase) (u : State) : (setPhase p u).sector k = u.sector k := sector_of_sectors (setPhase_sectors p u) k
  show (setPhase _ (setPendingOp k _ (moveWindow .descriptor k base sizeExp s))).sector k = _
  rw [phase, setPendingOp_sector]
  rfl

theorem finish_sector (code : ResultCode) (detail : Half) : (finish code detail s).sector k = s.sector k :=
  sector_of_sectors (finish_sectors code detail s) k

/-- What work item 4 does to the sector's mode, flag and pending operation. -/
theorem completePending_sector (base : Addr) :
    ((completePending k base s).sector k).suspended = (s.sector k).suspended ∧
    ((∀ m, (s.sector k).pendingOp ≠ some (.modeChange m)) →
      ((completePending k base s).sector k).mode = (s.sector k).mode ∧
      ∀ m, ((completePending k base s).sector k).pendingOp ≠ some (.modeChange m)) := by
  cases h : (s.sector k).pendingOp with
  | none => rw [completePending_none h, h]; exact ⟨rfl, fun c => ⟨rfl, c⟩⟩
  | some op =>
    match op with
    | .modeChange target =>
      rw [completePending_mode h, completeMode_eq, finish_sector, modeMoved_sector]
      exact ⟨(local_moveForMode k _ target s).stable.suspended, fun c => absurd rfl (c target)⟩
    | .relocation .map b x sw =>
      rw [completePending_map h]
      split
      · rw [completeMapRelocation, finish_sector, setPendingOp_sector]
        exact ⟨rfl, fun _ => ⟨rfl, nofun⟩⟩
      · rw [h]; exact ⟨rfl, fun c => ⟨rfl, c⟩⟩
    | .relocation .report b x sw =>
      rw [completePending_report h, completeReportRelocation_eq, finish_sector, reportSwitched_sector]
      exact ⟨rfl, fun _ => ⟨rfl, nofun⟩⟩
    | .relocation .descriptor b x sw =>
      rw [completePending_descriptor h]
      split
      · rw [h]; exact ⟨rfl, fun c => ⟨rfl, c⟩⟩
      · rw [switchDescriptorWindow_sector]
        exact ⟨rfl, fun _ => ⟨rfl, nofun⟩⟩

end

/-! ### Map reads that return memory's data (R94, R140) -/

/-- No record of the sector's map is substituted, now or after the next epoch: suspended, or neither ACTIVE nor about to be. -/
def Sector.readsRaw (x : Sector) : Prop := x.suspended = true ∨ (x.mode ≠ .active ∧ ∀ m, x.pendingOp ≠ some (.modeChange m))

theorem Sector.readsRaw_congr {x y : Sector} (mode : y.mode = x.mode) (suspended : y.suspended = x.suspended)
    (pendingOp : y.pendingOp = x.pendingOp) (h : x.readsRaw) : y.readsRaw := by
  rwa [Sector.readsRaw, mode, suspended, pendingOp]

section
variable {k : SectorNo} {s t : State}

theorem Engine.readsRaw (h : Engine k s t) (raw : (s.sector k).readsRaw) : (t.sector k).readsRaw :=
  Sector.readsRaw_congr h.steady.mode h.steady.suspended h.steady.pendingOp raw

theorem OpKept.readsRaw (h : OpKept k s t) (raw : (s.sector k).readsRaw) : (t.sector k).readsRaw :=
  Sector.readsRaw_congr h.mode h.suspended h.pendingOp raw

theorem epoch_readsRaw (f : Frame) (count : Nat) (base : Addr) (raw : (s.sector k).readsRaw) :
    ((epoch k f count base s).sector k).readsRaw := by
  have ready : ((epochBeforeItem4 k s f).sector k).readsRaw := (opKept_beforeItem4 k s f).readsRaw raw
  obtain ⟨suspended, others⟩ := completePending_sector k (epochBeforeItem4 k s f) base
  have completed : ((completePending k base (epochBeforeItem4 k s f)).sector k).readsRaw := by
    obtain susp | ⟨mode, op⟩ := ready
    · exact .inl (suspended.trans susp)
    · exact .inr ⟨fun c => mode ((others op).1.symm.trans c), (others op).2⟩
  rw [epoch_eq]
  exact (opKept_afterItem4 k _ f count).readsRaw completed

theorem takeHeader_readsRaw (base : Addr) (buffer : Nat) (b : Beat) (raw : (s.sector k).readsRaw) :
    ((takeHeader k base buffer b s).sector k).readsRaw := by
  unfold takeHeader
  dsimp only
  split
  · exact raw
  · exact (local_faultHeader k _ _ _ s).engine.readsRaw raw
  · exact (local_faultHeader k _ _ _ s).engine.readsRaw raw
  · exact raw
  · exact (local_faultHeader k _ _ _ s).engine.readsRaw raw
  · exact epoch_readsRaw _ _ base raw

theorem takeRecord_raw (buffer slot : Nat) (b : Beat) (raw : (s.sector k).readsRaw) : (takeRecord k buffer slot b s).record = b := by
  unfold takeRecord
  split
  · rfl
  · split
    next p newest here =>
      obtain susp | ⟨mode, -⟩ := raw
      · exact absurd (susp.symm.trans here.1) (by decide)
      · unfold takeRecordIn
        split
        · rfl
        · split <;> rfl
        next active => exact absurd active mode
    · rfl

theorem takeMapBeat_raw (base addr : Addr) (b : Beat) (raw : (s.sector k).readsRaw) :
    (takeMapBeat k base addr b s).record = b ∧ ((takeMapBeat k base addr b s).state.sector k).readsRaw := by
  unfold takeMapBeat
  dsimp only
  split
  · exact ⟨rfl, takeHeader_readsRaw base _ b raw⟩
  · split
    · exact ⟨takeRecord_raw _ _ b raw, (engine_takeRecord k _ _ b s).readsRaw raw⟩
    · exact ⟨rfl, raw⟩

end

/-- Settles O36: no beat is substituted, and no beat makes the next one substituted. -/
theorem unsubstitutedMapReadsReturnMemory : Obligations.UnsubstitutedMapReadsReturnMemory := by
  unfold Obligations.UnsubstitutedMapReadsReturnMemory
  intro k base data
  induction data with
  | nil => exact fun _ _ _ => rfl
  | cons b bs ih =>
    intro addr s raw
    obtain ⟨record, next⟩ := takeMapBeat_raw (k := k) (s := s) base addr b raw
    calc (takeMapBeats k base addr (b :: bs) s).1
      _ = (takeMapBeat k base addr b s).record :: (takeMapBeats k base (addr + 8) bs (takeMapBeat k base addr b s).state).1 := rfl
      _ = b :: bs := by rw [record, ih (addr + 8) _ next]

end Sys2Proof.Machine

/-! PROOF. The epoch that completes a pending operation (R82, R135, R148, R149, R154, R155). -/

namespace Sys2Proof.Machine

/-! ### The remotes moved by a mode change (R149) -/

theorem fadedToQueued_own (k : SectorNo) (r : RemoteNo) (s : State) : ((fadedToQueued k r s).entry k r).state ≠ .faded := by
  unfold fadedToQueued
  split
  · rw [toQueueTail_entry k r r _ _ s _ rfl, if_pos rfl]
    show (Entry.enter _ _ _ _).state ≠ _
    rw [enter_state]
    decide
  next h => exact h

theorem fadedToQueued_other (k : SectorNo) {r q : RemoteNo} (s : State) (h : q ≠ r) :
    Restamped (s.entry k q) ((fadedToQueued k r s).entry k q) := by
  unfold fadedToQueued
  split
  · obtain ⟨o, ho⟩ := readyTail_entry (s.sector k) q
    rw [toQueueTail_entry k r q _ _ s _ rfl, if_neg h]
    exact ⟨o, ho⟩
  · exact ⟨_, rfl⟩

theorem allFadedToQueued (k : SectorNo) (s : State) (q : RemoteNo) :
    ((forRemotes remotes (fadedToQueued k) s).entry k q).state ≠ .faded :=
  (forRemotes_entries (K := Restamped) (G := fun _ e => e.state ≠ .faded) (fun _ => ⟨_, rfl⟩)
    (by rintro a _ _ ⟨o, rfl⟩ ⟨o', rfl⟩; exact ⟨o', rfl⟩) (fun _ _ _ _ g => g) (by rintro a b _ g ⟨o, rfl⟩; exact g)
    (fun _ s _ h => fadedToQueued_other k s h) (fun r s => fadedToQueued_own k r s) remotes remotes_nodup s q).1 (mem_remotes q)

theorem restoringToFaded_own (k : SectorNo) (r : RemoteNo) (s : State) :
    ((restoringToFaded k r s).entry k r).state ∉ [.queued, .probing, .ranging, .climbing] := by
  unfold restoringToFaded
  dsimp only
  split
  · rw [stepTo_entry, if_pos rfl]
    show (Entry.enter _ _ _ _).state ∉ _
    rw [enter_state]
    decide
  next h =>
    revert h
    cases (s.entry k r).state <;> decide

theorem restoringToFaded_other (k : SectorNo) {r q : RemoteNo} (s : State) (h : q ≠ r) :
    (restoringToFaded k r s).entry k q = s.entry k q := by
  unfold restoringToFaded
  dsimp only
  split
  · rw [stepTo_entry, if_neg h]
  · rfl

theorem allRestoringToFaded (k : SectorNo) (s : State) (q : RemoteNo) :
    ((forRemotes remotes (restoringToFaded k) s).entry k q).state ∉ [.queued, .probing, .ranging, .climbing] :=
  (forRemotes_entries (K := fun e e' => e' = e)
    (G := fun _ e => e.state ∉ [RState.queued, RState.probing, RState.ranging, RState.climbing]) (fun _ => rfl) (fun _ _ _ h g => g.trans h) (fun _ _ _ _ g => g) (by rintro a b _ g rfl; exact g)
    (fun _ s _ h => restoringToFaded_other k s h) (fun r s => restoringToFaded_own k r s) remotes remotes_nodup s q).1 (mem_remotes q)

/-! ### The history and the entries after an epoch -/

theorem epoch_resync_sector {k : SectorNo} {s : State} (f : Frame) (count : Nat) (base : Addr)
    (silent : silentResync (s.sector k) = true) :
    ((epoch k f count base s).sector k).history = [newPlan f count] ∧ ((epoch k f count base s).sector k).resyncPending = false := by
  have resync : (silentResync (s.sector k) || decide (Config.maxGap < (f - (s.sector k).frame).toNat)) = true := by
    rw [silent, Bool.true_or]
  obtain ⟨-, -, -, -, -, -, -, empty⟩ := epochBefore_spec k f base s
    (silentResync (s.sector k) || decide (Config.maxGap < (f - (s.sector k).frame).toNat)) (silentResync (s.sector k))
    (f - (s.sector k).frame).toNat
    (if (silentResync (s.sector k) || decide (Config.maxGap < (f - (s.sector k).frame).toNat)) then 0
      else (f - (s.sector k).frame).toNat)
  have history := List.map_eq_nil_iff.mp (empty resync)
  unfold epoch
  dsimp only
  rw [sector_epochItem6, history]
  exact ⟨rfl, rfl⟩

theorem drawRoster_entries (x : Sector) : (drawRoster x).entries = x.entries := by
  unfold drawRoster
  split <;> rfl

theorem epochAfterItem4_entry (k : SectorNo) (s : State) (f : Frame) (count : Nat) (q : RemoteNo) :
    (epochAfterItem4 k s f count).entry k q = s.entry k q := by
  refine entry_of_entries q ?_
  rw [epochAfterItem4, sector_epochItem6, sector_modSector_self]
  exact drawRoster_entries _

theorem resultWaits_congr {s t : State} (channel : t.channel = s.channel) (result : t.writer.pendingResult = s.writer.pendingResult) :
    t.resultWaits = s.resultWaits := by rw [State.resultWaits, channel, result, State.resultWaits]

/-! ### A mode change completed (R148, R149) -/

/-- What the completing epoch of a mode change comes to, beside history. -/
structure ModeCompleted (k : SectorNo) (target : Mode) (c : Command) (s t : State) : Prop where
  mode : (t.sector k).mode = target
  pendingOp : (t.sector k).pendingOp = none
  result : t.writer.pendingResult = some (resultOf c .done (BitVec.ofNat 16 (modeCode target)) true)
  unfaded : (s.sector k).mode = .shadow → target = .active → ∀ r, (t.entry k r).state ≠ .faded
  unrestoring : (s.sector k).mode = .active → target = .shadow → ∀ r,
    (t.entry k r).state ∉ [.queued, .probing, .ranging, .climbing]

theorem epoch_completesMode {k : SectorNo} {s : State} {target : Mode} {c : Command} {p : Phase} (f : Frame) (count : Nat)
    (base : Addr) (op : (s.sector k).pendingOp = some (.modeChange target))
    (flight : s.channel.inFlight = some { cmd := c, phase := p }) (free : s.resultWaits = false) :
    ModeCompleted k target c s (epoch k f count base s) := by
  obtain ⟨v, hv⟩ : ∃ v, v = epochBeforeItem4 k s f := ⟨_, rfl⟩
  have kept : OpKept k s v := hv ▸ opKept_beforeItem4 k s f
  obtain ⟨u, hu⟩ : ∃ u, u = modeMoved k v target := ⟨_, rfl⟩
  have quiet : Quiet v u := hu ▸ quiet_modeMoved k v target
  have sector_u : u.sector k = { (moveForMode k (v.sector k).mode target v).sector k with mode := target, pendingOp := none } := by
    rw [hu, modeMoved_sector]
  have channel_u : u.channel = s.channel := quiet.channel.trans kept.channel
  obtain ⟨answers, -⟩ := finish_spec .done (BitVec.ofNat 16 (modeCode target)) u _ (by rw [channel_u]; exact flight)
    (by rw [resultWaits_congr channel_u (quiet.result.trans kept.result)]; exact free)
  obtain ⟨w, hw⟩ : ∃ w, w = finish .done (BitVec.ofNat 16 (modeCode target)) u := ⟨_, rfl⟩
  rw [← hw] at answers
  have whole : epoch k f count base s = epochAfterItem4 k w f count := by
    rw [epoch_eq, ← hv, completePending_mode (kept.pendingOp.trans op), completeMode_eq, ← hu, ← hw]
  have after : OpKept k w (epochAfterItem4 k w f count) := opKept_afterItem4 k w f count
  have entry (q : RemoteNo) : (epochAfterItem4 k w f count).entry k q = (moveForMode k (v.sector k).mode target v).entry k q := by
    rw [epochAfterItem4_entry, answers.entry]
    exact entry_of_entries q (by rw [sector_u])
  rw [whole]
  refine ⟨?_, ?_, after.result.trans answers.result, fun shadow active q => ?_, fun active shadow q => ?_⟩
  · rw [after.mode, answers.sector, sector_u]
  · rw [after.pendingOp, answers.sector, sector_u]
  · rw [entry, kept.mode, shadow, active]
    exact allFadedToQueued k v q
  · rw [entry, kept.mode, active, shadow]
    exact allRestoringToFaded k v q

/-! ### A relocation completed (R135, R154, R155) -/

/-- The operation is over and its command answered DONE. -/
structure Completed (k : SectorNo) (c : Command) (windows : List Window) (t : State) : Prop where
  windows : t.windows = windows
  pendingOp : (t.sector k).pendingOp = none
  inFlight : t.channel.inFlight = some { cmd := c, phase := .decided }
  result : t.writer.pendingResult = some (resultOf c .done 0 true)

theorem Completed.done {k : SectorNo} {c : Command} {ws : List Window} {t : State} (h : Completed k c ws t) :
    (t.sector k).pendingOp = none ∧ t.channel.inFlight = some { cmd := c, phase := .decided } ∧
      ∃ r, t.writer.pendingResult = some r ∧ r.tag = c.tag ∧ r.result = .done ∧ r.detail = 0 :=
  ⟨h.pendingOp, h.inFlight, _, h.result, rfl, rfl, rfl⟩

/-- The result of a completed operation, given in a state whose pending operation is gone. -/
theorem finish_completed {k : SectorNo} {u : State} {c : Command} {p : Phase} (f : Frame) (count : Nat)
    (op : (u.sector k).pendingOp = none) (flight : u.channel.inFlight = some { cmd := c, phase := p })
    (free : u.resultWaits = false) : Completed k c u.windows (epochAfterItem4 k (finish .done 0 u) f count) := by
  obtain ⟨answers, channel⟩ := finish_spec .done 0 u _ flight free
  have after := opKept_afterItem4 k (finish .done 0 u) f count
  exact ⟨after.dev.windows.trans answers.dev.windows, by rw [after.pendingOp, answers.sector, op], by rw [after.channel, channel],
    after.result.trans answers.result⟩

/-- The window table after a MAP relocation of sector k has completed (R135). -/
def newMapTable (k : SectorNo) (ws : List Window) : List Window :=
  (ws.filter fun w => !decide (w.kind = .map ∧ w.sector = some k ∧ w.mark = .old)).map fun w =>
    if w.kind = .map ∧ w.sector = some k then { w with mark := .none } else w

theorem keepNewMap_eq (k : SectorNo) (s : State) : keepNewMap k s = { s with windows := newMapTable k s.windows } := by
  simp only [keepNewMap, newMapTable, Bool.decide_and, Bool.and_assoc]

/-- Settles O39: an epoch up to work item 4 leaves what the item reads, and the items behind it leave what it has written. -/
theorem epochCompletesTheModeChange : Obligations.EpochCompletesTheModeChange := by
  unfold Obligations.EpochCompletesTheModeChange
  refine ⟨fun k f count base s target c d e op flight free => ?_, fun k f count base s kind b x c d e op flight free => ?_⟩
  · have m := epoch_completesMode f count base op flight free
    have silent : silentResync (s.sector k) = true := by simp [silentResync, op]
    obtain ⟨history, resync⟩ := epoch_resync_sector f count base silent
    exact ⟨m.mode, m.pendingOp, history, resync, (epoch_spec k f count base s).1, ⟨_, m.result, rfl, rfl, rfl⟩, m.unfaded,
      m.unrestoring⟩
  · obtain ⟨v, hv⟩ : ∃ v, v = epochBeforeItem4 k s f := ⟨_, rfl⟩
    have kept : OpKept k s v := hv ▸ opKept_beforeItem4 k s f
    have whole : epoch k f count base s = epochAfterItem4 k (completePending k base v) f count := by rw [epoch_eq, hv]
    have op_v : (v.sector k).pendingOp = some (.relocation kind b x false) := kept.pendingOp.trans op
    have free_v : v.resultWaits = false := (resultWaits_congr kept.channel kept.result).trans free
    have flight_v : v.channel.inFlight = some { cmd := c, phase := .relocationPending d e } := by rw [kept.channel]; exact flight
    have after (u : State) := opKept_afterItem4 k u f count
    intro t done
    have t_eq : t = epochAfterItem4 k (completePending k base v) f count := whole
    refine ⟨(epoch_spec k f count base s).1, ?_, ?_, ?_, ?_, ?_⟩
    · rw [t_eq, (after _).mode]
      exact ((completePending_sector k v base).2 (by rw [op_v]; exact nofun)).1.trans kept.mode
    · rintro rfl rfl
      have switched : t = epochAfterItem4 k (finish .done 0 (setPendingOp k none (keepNewMap k v))) f count := by
        rw [t_eq, completePending_map op_v, if_pos rfl]
        rfl
      rw [keepNewMap_eq] at switched
      have completed : Completed k c (newMapTable k v.windows) t := by
        rw [switched]
        exact finish_completed (u := setPendingOp k none { v with windows := newMapTable k v.windows }) f count
          (by rw [setPendingOp_sector]) flight_v free_v
      exact ⟨completed.windows.trans (congrArg (newMapTable k) kept.dev.windows), completed.done⟩
    · rintro rfl other
      have waits : t = epochAfterItem4 k v f count := by rw [t_eq, completePending_map op_v, if_neg other]
      rw [waits]
      exact ⟨(after v).pendingOp.trans kept.pendingOp, (after v).dev.windows.trans kept.dev.windows,
        (after v).channel.trans kept.channel, ((after v).result.trans kept.result).trans (resultWaits_eq_false.mp free).1⟩
    · rintro rfl
      have switched : t = epochAfterItem4 k (finish .done 0 (reportSwitched k v b x)) f count := by
        rw [t_eq, completePending_report op_v, completeReportRelocation_eq]
      have quiet := quiet_packEmptied k v
      have channel : (reportSwitched k v b x).channel = v.channel := quiet.channel
      have completed : Completed k c _ t := switched ▸ finish_completed f count (by rw [reportSwitched_sector])
        (by rw [channel]; exact flight_v) (by rw [resultWaits_congr channel (quiet.result)]; exact free_v)
      have windows : (reportSwitched k v b x).windows = (s.windows.map fun w =>
          if w.kind = .report ∧ w.sector = some k then { w with base := b, sizeExp := x } else w) := by
        rw [← kept.dev.windows, ← quiet.dev.windows]
        rfl
      refine ⟨completed.windows.trans windows, ?_, ?_, completed.done⟩
      · rw [switched, (after _).pack, finish_sector, reportSwitched_sector]
      · rw [switched, (after _).counts, finish_sector, reportSwitched_sector, ← kept.pack, ← kept.counts]
    · rintro rfl
      have switched : t = epochAfterItem4 k (switchDescriptorWindow k b x v) f count := by
        rw [t_eq, completePending_descriptor op_v, if_neg Bool.false_ne_true]
      have phase : switchDescriptorWindow k b x v =
          { setPendingOp k (some (.relocation .descriptor b x true)) (moveWindow .descriptor k b x v) with
            channel := { v.channel with
              inFlight := some { cmd := c, phase := .relocationReading 0 0 none [] none }
              read := some (.relocDescriptor k 0) } } := by
        rw [switchDescriptorWindow, setPhase_of _ (show (setPendingOp k (some (.relocation .descriptor b x true))
          (moveWindow .descriptor k b x v)).channel.inFlight = _ from flight_v)]
        rfl
      rw [switched]
      refine ⟨(after _).dev.windows.trans ?_, ?_, ?_, ?_, ?_⟩
      · rw [phase, ← kept.dev.windows]
        rfl
      · rw [(after _).pendingOp, switchDescriptorWindow_sector]
      · rw [(after _).channel, phase]
      · rw [(after _).channel, phase]
      · rw [(after _).result, phase]
        exact kept.result.trans (resultWaits_eq_false.mp free).1

end Sys2Proof.Machine

/-! PROOF. The record reads of a map (R84 to R94): the decision of a first read, the record a re-read returns, and the records the part
forms. -/

namespace Sys2Proof.Machine

/-! ### A decided slot (R84) -/

section
variable (k : SectorNo) (f : Frame) (slot : Nat) (d : Decision) (record : Option Beat) (s : State)

theorem storeDecision_sector : (storeDecision k f slot d record s).sector k =
    modPlan f (fun p => { p with slots := p.slots.set slot (some { decision := d, record := record }) }) (s.sector k) :=
  sector_modSector_self k _ s

variable {f slot} in
/-- The slot of the newest plan holds the decision stored. -/
theorem storeDecision_newest {p : Plan} (newest : (s.sector k).history.getLast? = some p) (frame : p.frame = f)
    (here : slot < p.slots.length) : ∃ q, ((storeDecision k f slot d record s).sector k).history.getLast? = some q ∧
      q.frame = f ∧ q.slots[slot]? = some (some { decision := d, record := record }) := by
  refine ⟨{ p with slots := p.slots.set slot (some { decision := d, record := record }) }, ?_, frame, ?_⟩
  · rw [storeDecision_sector, modPlan, List.getLast?_map, newest, Option.map_some, if_pos frame]
  · exact List.getElem?_set_self here

end

/-- The answer has stored a decision with the record it returns, in a state that has perhaps moved remotes first. -/
def Stores (k : SectorNo) (f : Frame) (slot : Nat) (a : Answer) : Prop :=
  ∃ d u, a.state = storeDecision k f slot d (some a.record) u ∧ Undecided slot f (u.sector k)

section
variable {k : SectorNo} {f : Frame} {slot : Nat} {s : State}

theorem decideSlot_stores (d : Decision) (record : Beat) (h : Undecided slot f (s.sector k)) :
    Stores k f slot (decideSlot k f slot d record s) := ⟨d, s, rfl, h⟩

theorem decideRange_stores (r : RemoteNo) (h : Undecided slot f (s.sector k)) : Stores k f slot (decideRange k f slot r s) := by
  refine ⟨_, _, rfl, ?_⟩
  rw [sector_modSector_self]
  exact h

/-- The state in which a filled slot's decision is stored: the roster has supplied the slot, and the occupants are placed. -/
def supplied (k : SectorNo) (s : State) : State :=
  (s.sector k).roster.supply.foldl (placeOne k)
    (modSector k (fun x => { x with roster := x.roster.take (s.sector k).roster.supply }) s)

theorem supplied_kept (k : SectorNo) (s : State) (slot : Nat) (f : Frame) :
    ((supplied k s).sector k).roster = (s.sector k).roster.take (s.sector k).roster.supply ∧
    (Undecided slot f (s.sector k) → Undecided slot f ((supplied k s).sector k)) := by
  have h := placeAll_kept k slot f (s.sector k).roster.supply
    (modSector k (fun x => { x with roster := x.roster.take (s.sector k).roster.supply }) s)
  rw [sector_modSector_self] at h
  exact h

theorem decideProbe_stores (h : Undecided slot f (s.sector k)) : Stores k f slot (decideProbe k f slot s) :=
  ⟨_, supplied k s, rfl, (supplied_kept k s slot f).2 h⟩

theorem decideIdle_stores (h : Undecided slot f (s.sector k)) : Stores k f slot (decideIdle k f slot s) :=
  decideSlot_stores .idle idleRecord h

theorem decideRestore_stores {p : Plan} (h : Undecided slot p.frame (s.sector k)) :
    Stores k p.frame slot (decideRestore k p slot s) := by
  unfold decideRestore
  split
  · exact decideRange_stores _ h
  · split
    · exact decideProbe_stores h
    · exact decideIdle_stores h

theorem decideDataUp_stores {p : Plan} (b : Beat) (raw : RawRecord) (h : Undecided slot p.frame (s.sector k)) :
    Stores k p.frame slot (decideDataUp k p slot b raw s) := by
  have fill : Stores k p.frame slot
      (if reclaims (s.sector k) then decideProbe k p.frame slot s else decideIdle k p.frame slot s) := by
    split
    · exact decideProbe_stores h
    · exact decideIdle_stores h
  unfold decideDataUp
  dsimp only
  split
  · exact decideSlot_stores _ _ h
  · exact decideSlot_stores _ _ h
  · exact decideSlot_stores _ _ h
  · split
    · exact decideRange_stores _ h
    · exact decideIdle_stores h
  · exact fill
  · exact fill
  · exact decideIdle_stores h
  · exact decideIdle_stores h
  · exact decideIdle_stores h

theorem decideDataDown_stores {p : Plan} (b : Beat) (raw : RawRecord) (h : Undecided slot p.frame (s.sector k)) :
    Stores k p.frame slot (decideDataDown k p slot b raw s) := by
  unfold decideDataDown
  dsimp only
  split <;> exact decideSlot_stores _ _ h

theorem decideActive_stores {p : Plan} (b : Beat) (h : Undecided slot p.frame (s.sector k)) :
    Stores k p.frame slot (decideActive k p slot b s) := by
  unfold decideActive
  dsimp only
  split
  · exact decideSlot_stores _ _ h
  · exact decideSlot_stores _ _ h
  · exact decideDataUp_stores b _ h
  · exact decideDataDown_stores b _ h
  · exact decideRestore_stores h

/-! ### Where a record read is not decided (R86, R94) -/

theorem takeRecord_newest {p : Plan} (buffer slot : Nat) (b : Beat) (newest : (s.sector k).history.getLast? = some p) :
    takeRecord k buffer slot b s =
      if (s.sector k).suspended = false ∧ buffer = p.buffer ∧ slot < p.count then takeRecordIn k p slot b s
      else { record := b, state := s } := by
  simp only [takeRecord, Sector.newest, newest]

theorem takeRecord_current {p : Plan} {buffer slot : Nat} {d : Option Decided} (b : Beat) (susp : (s.sector k).suspended = false)
    (newest : (s.sector k).history.getLast? = some p) (own : buffer = p.buffer) (here : p.slots[slot]? = some d) :
    takeRecord k buffer slot b s = takeRecordIn k p slot b s := by
  rw [takeRecord_newest buffer slot b newest, if_pos ⟨susp, own, (List.getElem?_eq_some_iff.mp here).1⟩]

theorem takeRecordIn_pass (p : Plan) (slot : Nat) (b : Beat) (mode : (s.sector k).mode = .pass) :
    takeRecordIn k p slot b s = { record := b, state := s } := by simp only [takeRecordIn, mode]

theorem takeRecordIn_shadow (p : Plan) {slot : Nat} (b : Beat) (mode : (s.sector k).mode = .shadow) (here : p.slots[slot]? = some none) :
    takeRecordIn k p slot b s = { record := b, state := storeDecision k p.frame slot (.raw (shadowWatch k b s)) none s } := by
  simp only [takeRecordIn, mode, here]

theorem takeRecordIn_shadowAgain (p : Plan) {slot : Nat} (b : Beat) {d : Decided} (mode : (s.sector k).mode = .shadow)
    (here : p.slots[slot]? = some (some d)) : takeRecordIn k p slot b s = { record := b, state := s } := by
  simp only [takeRecordIn, mode, here]

theorem takeRecordIn_again (p : Plan) {slot : Nat} (b : Beat) {d : Decided} (mode : (s.sector k).mode = .active)
    (here : p.slots[slot]? = some (some d)) : takeRecordIn k p slot b s = { record := d.record.getD b, state := s } := by
  simp only [takeRecordIn, mode, here]

/-- The record of a first read in an ACTIVE sector is what a re-read returns. -/
theorem takeRecord_reread {p : Plan} (b b' : Beat) (mode : (s.sector k).mode = .active) (susp : (s.sector k).suspended = false)
    (newest : (s.sector k).history.getLast? = some p) (here : p.slots[slot]? = some none) :
    (takeRecord k p.buffer slot b' (takeRecord k p.buffer slot b s).state).record = (takeRecord k p.buffer slot b s).record := by
  rw [takeRecord_undecided k p slot b s mode susp newest here]
  have steady := (engine_decideActive k p slot b s).steady
  obtain ⟨d, u, stored, q, newest_u, frame, here_u⟩ := decideActive_stores b (s := s) ⟨p, newest, rfl, here⟩
  generalize decideActive k p slot b s = a at steady stored
  obtain ⟨p', newest', frame', here'⟩ := storeDecision_newest k d (some a.record) u newest_u frame (List.getElem?_eq_some_iff.mp here_u).1
  rw [← stored] at newest'
  have buffer : p.buffer = p'.buffer := by rw [Plan.buffer, Plan.buffer, frame']
  rw [takeRecord_current b' (steady.suspended.trans susp) newest' buffer here',
    takeRecordIn_again p' b' (steady.mode.trans mode) here']
  rfl

end

/-! ### A filled slot (R28, R68, R93) -/

section
variable (k : SectorNo) (f : Frame) (slot : Nat) (s : State)

/-- The six minislots of a filled slot, by what is kept of each occupant. -/
theorem minislotWatches_map {α : Type} (g : Expectation → α) (os : List Occupant) :
    (minislotWatches os).map (fun m => m.map g) = (List.finRange 6).map fun m =>
      (os.find? fun o => o.minislot = m).map fun o => g (openWatch o.member.remote (.probe o.member.solo o.member.scout)) := by
  simp only [minislotWatches, List.map_map, Function.comp_def, Option.map_map]

theorem decideProbe_record : (decideProbe k f slot s).record =
    probeRecord ((s.sector k).roster.supply.any fun o => o.member.solo)
      (lowest ((s.sector k).roster.supply.map fun o => (s.entry k o.member.remote).profile))
      ((List.finRange 6).map fun m => ((s.sector k).roster.supply.find? fun o => o.minislot = m).map fun o => o.member.remote) :=
  congrArg (probeRecord _ _) (minislotWatches_map Expectation.remote _)

theorem decideProbe_state : (decideProbe k f slot s).state = storeDecision k f slot
    (.probe ((s.sector k).roster.supply.any fun o => o.member.solo) (minislotWatches (s.sector k).roster.supply))
    (some (decideProbe k f slot s).record) (supplied k s) := rfl

theorem decideProbe_roster : ((decideProbe k f slot s).state.sector k).roster =
    (s.sector k).roster.take (s.sector k).roster.supply := by
  rw [decideProbe_state, storeDecision_sector]
  exact (supplied_kept k s slot f).1

theorem Roster.take_eq (t : Roster) (os : List Occupant) : t.take os = { t with
    members := t.members.map fun m => if ∃ o ∈ os, o.member.remote = m.remote then { m with placed := true } else m
    used := t.used + 1 } := by
  simp only [Roster.take, List.any_eq_true, decide_eq_true_eq]

end

/-! ### The records the part forms (R93, Table 11.4) -/

/-- The bits of the profile field of a record. -/
theorem profileMask_getLsbD (i : Nat) : (0xF0 : Beat).getLsbD i = decide (4 ≤ i ∧ i < 8) := by
  by_cases h : i < 8
  · interval_cases i <;> rfl
  · have small : (0xF0 : Nat) < 2 ^ i := Nat.lt_of_lt_of_le (by decide) (Nat.pow_le_pow_right (by decide) (Nat.not_lt.mp h))
    rw [decide_eq_false (by omega)]
    exact Nat.testBit_lt_two_pow small

theorem patchProfile_getLsbD (b : Beat) (profile i : Nat) : (patchProfile b profile).getLsbD i =
    if 4 ≤ i ∧ i < 8 then (BitVec.ofNat 4 profile).getLsbD (i - 4) else b.getLsbD i := by
  have four : BitVec.ofNat 64 (profile % 16) = (BitVec.ofNat 4 profile).setWidth 64 := by
    apply BitVec.eq_of_toNat_eq
    simp
  unfold patchProfile
  rw [four, BitVec.getLsbD_or, BitVec.getLsbD_and, BitVec.getLsbD_not, profileMask_getLsbD, BitVec.getLsbD_shiftLeft,
    BitVec.getLsbD_setWidth]
  by_cases field : 4 ≤ i ∧ i < 8
  · have h4 : ¬ i < 4 := by omega
    have h64 : i < 64 := by omega
    have h : i - 4 < 64 := by omega
    simp [field, h4, h64, h]
  · rw [if_neg field, decide_eq_false field]
    obtain low | high : i < 4 ∨ 8 ≤ i := by omega
    · have h64 : i < 64 := by omega
      simp [low, h64]
    · have outside : (BitVec.ofNat 4 profile).getLsbD (i - 4) = false := BitVec.getLsbD_of_ge _ _ (by omega)
      rw [outside]
      by_cases h64 : i < 64
      · simp [h64]
      · simp [h64, BitVec.getLsbD_of_ge b i (by omega)]

theorem patchProfile_fields (b : Beat) (profile : Nat) :
    (patchProfile b profile).extractLsb' 0 4 = b.extractLsb' 0 4 ∧
    (patchProfile b profile).extractLsb' 4 4 = BitVec.ofNat 4 profile ∧
    (patchProfile b profile).extractLsb' 8 56 = b.extractLsb' 8 56 := by
  refine ⟨BitVec.eq_of_getLsbD_eq fun i hi => ?_, BitVec.eq_of_getLsbD_eq fun i hi => ?_, BitVec.eq_of_getLsbD_eq fun i hi => ?_⟩
  · rw [BitVec.getLsbD_extractLsb', BitVec.getLsbD_extractLsb', patchProfile_getLsbD, if_neg (by omega)]
  · rw [BitVec.getLsbD_extractLsb', patchProfile_getLsbD, if_pos (by omega), decide_eq_true hi, Bool.true_and, Nat.add_sub_cancel_left]
  · rw [BitVec.getLsbD_extractLsb', BitVec.getLsbD_extractLsb', patchProfile_getLsbD, if_neg (by omega)]

theorem rangeRecord_toNat (r : RemoteNo) {profile : Nat} (h : profile ≤ 15) :
    (rangeRecord r profile).toNat = 5 + 16 * profile + 256 * r.val := by
  have := r.isLt
  rw [rangeRecord, BitVec.toNat_ofNat, Nat.mod_eq_of_lt (a := profile) (by omega), Nat.mod_eq_of_lt (by omega)]

theorem probeRecord_bytes (solo : Bool) {profile : Nat} (occupants : List (Option RemoteNo)) (h : profile ≤ 15) :
    beatByte (probeRecord solo profile occupants) 0 = BitVec.ofNat 8 (4 + 16 * profile) ∧
    beatByte (probeRecord solo profile occupants) 1 = (if solo then 0x80 else 0) ∧
    ∀ m : Fin 6, beatByte (probeRecord solo profile occupants) (2 + m.val) = minislotByte (occupants.getD m.val none) := by
  unfold probeRecord
  rw [Nat.mod_eq_of_lt (a := profile) (by omega)]
  refine ⟨beatByte_beatOfBytes _ 0 (by decide), beatByte_beatOfBytes _ 1 (by decide), fun m => ?_⟩
  rw [beatByte_beatOfBytes _ _ (by omega), Nat.add_comm 2 m.val]
  simp only [List.cons_append, List.nil_append, List.getD_eq_getElem?_getD, List.getElem?_cons_succ, List.getElem?_map]
  cases occupants[m.val]? <;> rfl

/-! ### The roster's supply (R68) -/

theorem supply_solo {t : Roster} {m : Member} (head : t.unplaced.head? = some m) (solo : m.solo = true) :
    t.supply = [{ minislot := 0, member := m }] := by
  rw [Roster.supply, List.eq_cons_of_mem_head? head]
  exact if_pos solo

theorem supply_shared {t : Roster} {m : Member} (head : t.unplaced.head? = some m) (shared : m.solo = false) :
    t.supply = ((minislotsOf t.mask).zip (t.unplaced.filter fun c => !c.solo)).map fun o =>
      { minislot := o.1, member := o.2 } := by
  rw [Roster.supply, List.eq_cons_of_mem_head? head]
  exact if_neg (by simp [shared])

theorem canSupply_iff (t : Roster) : t.canSupply = true ↔ t.unplaced ≠ [] ∧ t.used < t.budget := by
  simp [Roster.canSupply]

/-! ### The decision by the raw kind and the remote's state (R87 to R91) -/

section
variable {k : SectorNo} {p : Plan} {slot : Nat} {b : Beat} {s : State}

theorem decideActive_raw (h : (rawRecordOf b).kind = .idle ∨ (rawRecordOf b).kind = .other) :
    decideActive k p slot b s = decideSlot k p.frame slot (.raw none) b s := by
  obtain h | h := h <;> simp only [decideActive, h]

theorem decideActive_up (h : (rawRecordOf b).kind = .dataUp) :
    decideActive k p slot b s = decideDataUp k p slot b (rawRecordOf b) s := by simp only [decideActive, h]

theorem decideActive_down (h : (rawRecordOf b).kind = .dataDown) :
    decideActive k p slot b s = decideDataDown k p slot b (rawRecordOf b) s := by simp only [decideActive, h]

theorem decideActive_restore (h : (rawRecordOf b).kind = .restore) :
    decideActive k p slot b s = decideRestore k p slot s := by simp only [decideActive, h]

variable {raw : RawRecord}

theorem decideDataUp_idle (h : (s.entry k raw.remote).state = .idle) :
    decideDataUp k p slot b raw s = decideSlot k p.frame slot (.raw none) b s := by simp only [decideDataUp, h]

theorem decideDataUp_serving (h : (s.entry k raw.remote).state = .serving) : decideDataUp k p slot b raw s =
    decideSlot k p.frame slot (.raw (some (openWatch raw.remote .fadeWatch))) b s := by simp only [decideDataUp, h]

theorem decideDataUp_climbing (h : (s.entry k raw.remote).state = .climbing) : decideDataUp k p slot b raw s =
    decideSlot k p.frame slot (.dataUp (openWatch raw.remote .climbWatch))
      (patchProfile b (min raw.profile (s.entry k raw.remote).profile)) s := by simp only [decideDataUp, h]

theorem decideDataUp_ranging (h : (s.entry k raw.remote).state = .ranging) : decideDataUp k p slot b raw s =
    if raw.remote ∈ (s.sector k).waitList ∧ p.assigned raw.remote = false then decideRange k p.frame slot raw.remote s
    else decideIdle k p.frame slot s := by
  simp only [decideDataUp, h, Bool.and_eq_true, List.contains_iff_mem, Bool.not_eq_true']

theorem decideDataUp_passive (h : (s.entry k raw.remote).state ∈ [.faded, .held, .excluded]) :
    decideDataUp k p slot b raw s = decideIdle k p.frame slot s := by
  simp only [List.mem_cons, List.not_mem_nil, or_false] at h
  obtain h | h | h := h <;> simp only [decideDataUp, h]

theorem decideDataUp_waiting (h : (s.entry k raw.remote).state ∈ [.queued, .probing]) : decideDataUp k p slot b raw s =
    if reclaims (s.sector k) then decideProbe k p.frame slot s else decideIdle k p.frame slot s := by
  simp only [List.mem_cons, List.not_mem_nil, or_false] at h
  obtain h | h := h <;> simp only [decideDataUp, h]

theorem decideDataDown_service (h : (s.entry k raw.remote).state ∈ [.idle, .serving]) :
    decideDataDown k p slot b raw s = decideSlot k p.frame slot (.raw none) b s := by
  simp only [List.mem_cons, List.not_mem_nil, or_false] at h
  obtain h | h := h <;> simp only [decideDataDown, h]

theorem decideDataDown_climb (h : (s.entry k raw.remote).state ∈ [.climbing, .ranging]) : decideDataDown k p slot b raw s =
    decideSlot k p.frame slot (.dataDown raw.remote) (patchProfile b (min raw.profile (s.entry k raw.remote).profile)) s := by
  simp only [List.mem_cons, List.not_mem_nil, or_false] at h
  obtain h | h := h <;> simp only [decideDataDown, h]

theorem decideDataDown_passive (h : (s.entry k raw.remote).state ∈ [.faded, .queued, .probing, .held, .excluded]) :
    decideDataDown k p slot b raw s = decideIdle k p.frame slot s := by
  simp only [List.mem_cons, List.not_mem_nil, or_false] at h
  obtain h | h | h | h | h := h <;> simp only [decideDataDown, h]

theorem decideRestore_free {q : RemoteNo} (h : ((s.sector k).waitList.find? fun q => !p.assigned q) = some q) :
    decideRestore k p slot s = decideRange k p.frame slot q s := by
  simp only [decideRestore, nextRanger, h]

theorem decideRestore_none (h : ((s.sector k).waitList.find? fun q => !p.assigned q) = none) : decideRestore k p slot s =
    if (s.sector k).roster.canSupply then decideProbe k p.frame slot s else decideIdle k p.frame slot s := by
  simp only [decideRestore, nextRanger, h]

/-- A watched record of a SHADOW sector: DATA_UP of a SERVING or FADED remote (R94). -/
theorem shadowWatch_eq : shadowWatch k b s =
    if b.toNat % 16 = 1 ∧ (s.entry k (rawRecordOf b).remote).state ∈ [.serving, .faded] then
      some (openWatch (rawRecordOf b).remote .fadeWatch) else none := by
  have kind : (rawRecordOf b).kind = .dataUp ↔ b.toNat % 16 = 1 := by
    have low : field b 0 4 = b.toNat % 16 := by rw [field_eq, Nat.pow_zero, Nat.div_one]; rfl
    show rawKindOf (field b 0 4) = .dataUp ↔ _
    rw [low]
    exact (rawKindOf_iff _).2.1
  simp only [shadowWatch, kind, List.mem_cons, List.not_mem_nil, or_false]

theorem reclaims_iff (x : Sector) : reclaims x = true ↔
    x.episode.state = .recovering ∧ x.tunables.reclaim = true ∧ x.roster.canSupply = true := by
  simp [reclaims, and_assoc]

end

/-- Settles O37: the first read's decision is one case of R87 to R91, stored with its record; a re-read finds it stored. -/
theorem reReadsReturnTheStoredRecord : Obligations.ReReadsReturnTheStoredRecord := by
  unfold Obligations.ReReadsReturnTheStoredRecord
  refine ⟨fun k p slot b b' s mode susp newest here => takeRecord_reread b b' mode susp newest here,
    fun k p slot b s mode susp newest here => ?_, fun k p buffer slot b s => ?_, fun k f slot d record s => rfl,
    fun b profile r solo occupants small => ?_, fun t => ⟨fun m => supply_solo, fun m => supply_shared, canSupply_iff t⟩⟩
  · intro a raw r e decided ranged filled free reclaims'
    have a_eq : a = decideActive k p slot b s := takeRecord_undecided k p slot b s mode susp newest here
    have fills : a = decideProbe k p.frame slot s → filled := by
      intro h
      obtain ⟨q, newest', frame', here'⟩ : ∃ q, (a.state.sector k).history.getLast? = some q ∧ q.frame = p.frame ∧ _ := by
        obtain ⟨q, newest_u, frame_u, here_u⟩ := (supplied_kept k s slot p.frame).2 ⟨p, newest, rfl, here⟩
        rw [h]
        exact storeDecision_newest k _ (some _) (supplied k s) newest_u frame_u (List.getElem?_eq_some_iff.mp here_u).1
      refine ⟨?_, fun o mem => ?_, fun q other => ?_, ?_, ?_, ?_⟩
      · rw [h]; exact decideProbe_record k p.frame slot s
      · rw [h]; exact (decideProbe_entry k p.frame slot s o.member.remote).1 ⟨o, mem, rfl⟩
      · rw [h]; exact (decideProbe_entry k p.frame slot s q).2 other
      · rw [h, decideProbe_roster, Roster.take_eq]
      · rw [h]; exact (engine_decideProbe k p.frame slot s).others
      · rw [newest', Option.bind_some, here', h]
        rfl
    have decides {d : Decision} {record : Beat} (h : a = decideSlot k p.frame slot d record s) : decided d record := by
      show a.record = record ∧ a.state = _
      rw [h]
      exact ⟨rfl, rfl⟩
    have ranges {q : RemoteNo} (h : a = decideRange k p.frame slot q s) : ranged q := by
      show a.record = _ ∧ a.state = _
      rw [h]
      exact ⟨rfl, rfl⟩
    have up (kind : raw.kind = .dataUp) : a = decideDataUp k p slot b raw s := a_eq.trans (decideActive_up kind)
    have down (kind : raw.kind = .dataDown) : a = decideDataDown k p slot b raw s := a_eq.trans (decideActive_down kind)
    have restore (kind : raw.kind = .restore) : a = decideRestore k p slot s := a_eq.trans (decideActive_restore kind)
    refine ⟨fun kind => decides (a_eq.trans (decideActive_raw kind)), fun kind state => decides ((up kind).trans ?_),
      fun kind state => decides ((up kind).trans ?_), fun kind state => decides ((up kind).trans ?_),
      fun kind state waits unassigned => ranges ((up kind).trans ?_), fun kind state other => decides ((up kind).trans ?_),
      fun kind state => decides ((up kind).trans ?_), fun kind state no => decides ((up kind).trans ?_),
      fun kind state yes => fills ((up kind).trans ?_), fun kind state => decides ((down kind).trans ?_),
      fun kind state => decides ((down kind).trans ?_), fun kind state => decides ((down kind).trans ?_),
      fun q kind found => ranges ((restore kind).trans ?_), fun kind none_free may => fills ((restore kind).trans ?_),
      fun kind none_free no => decides ((restore kind).trans ?_)⟩
    · exact decideDataUp_idle state
    · exact decideDataUp_serving state
    · exact decideDataUp_climbing state
    · exact (decideDataUp_ranging state).trans (if_pos ⟨waits, unassigned⟩)
    · exact (decideDataUp_ranging state).trans (if_neg other)
    · exact decideDataUp_passive state
    · exact (decideDataUp_waiting state).trans (if_neg fun c => no ((reclaims_iff _).mp c))
    · exact (decideDataUp_waiting state).trans (if_pos ((reclaims_iff _).mpr yes))
    · exact decideDataDown_service state
    · exact decideDataDown_climb state
    · exact decideDataDown_passive state
    · exact decideRestore_free found
    · exact (decideRestore_none none_free).trans (if_pos may)
    · exact (decideRestore_none none_free).trans (if_neg (by rw [no]; decide))
  · intro a x current watched
    refine ⟨fun h => ?_, fun newest h => ?_, fun mode ⟨susp, newest, own⟩ here => ?_, fun d mode ⟨susp, newest, own⟩ here => ?_,
      fun d mode ⟨susp, newest, own⟩ here => ?_⟩
    · cases newest : x.history.getLast? with
      | none =>
        show takeRecord k buffer slot b s = _
        unfold takeRecord Sector.newest
        rw [show (s.sector k).history.getLast? = none from newest]
      | some q =>
        refine (takeRecord_newest buffer slot b newest).trans ?_
        obtain mode | susp | empty := h
        · split
          · exact takeRecordIn_pass q slot b mode
          · rfl
        · exact if_neg fun c => absurd (susp.symm.trans c.1) (by decide)
        · rw [empty] at newest
          cases newest
    · refine (takeRecord_newest buffer slot b newest).trans (if_neg ?_)
      rintro ⟨-, own, here⟩
      obtain other | above := h
      · exact other own
      · exact absurd here (Nat.not_lt.mpr above)
    · have a_eq : a = { record := b, state := storeDecision k p.frame slot (.raw (shadowWatch k b s)) none s } :=
        (takeRecord_current b susp newest own here).trans (takeRecordIn_shadow p b mode here)
      rw [a_eq]
      refine ⟨rfl, fun yes => ?_, fun no => ?_⟩
      · rw [shadowWatch_eq, if_pos yes]
        rfl
      · rw [shadowWatch_eq, if_neg no]
    · exact (takeRecord_current b susp newest own here).trans (takeRecordIn_shadowAgain p b mode here)
    · exact (takeRecord_current b susp newest own here).trans (takeRecordIn_again p b mode here)
  · obtain ⟨low, field, high⟩ := patchProfile_fields b profile
    obtain ⟨byte0, byte1, bytes⟩ := probeRecord_bytes solo occupants small
    refine ⟨rfl, low, field, high, rangeRecord_toNat r small, byte0, byte1, fun m => (bytes m).trans ?_⟩
    cases occupants.getD m.val none <;> rfl

end Sys2Proof.Machine

/-! PROOF. Burst reports (R97 to R110): each is counted once, matched to its expectation, and taken from its beats. -/

namespace Sys2Proof.Machine

/-! ### One count a report (R104, R110) -/

/-- The reports counted, those refused on their form apart. -/
def ReportCounts.total (c : ReportCounts) : Word :=
  c.matched + c.stray + c.duplicate + c.mismatch + c.unwatched + c.void + c.suspendedIgnored

/-- One of the seven counts has advanced by one. -/
def CountedOnce (k : SectorNo) (s t : State) : Prop :=
  (t.sector k).counts.torn = (s.sector k).counts.torn ∧ (t.sector k).counts.total = (s.sector k).counts.total + 1

section
variable {k : SectorNo} {s t u : State}

theorem CountedOnce.of_bump {f : ReportCounts → ReportCounts} (same : (t.sector k).counts = (s.sector k).counts)
    (torn : ∀ c, (f c).torn = c.torn) (total : ∀ c, (f c).total = c.total + 1) : CountedOnce k s (bumpCounts k f t) := by
  unfold CountedOnce
  rw [bumpCounts_sector, ← same]
  exact ⟨torn _, total _⟩

theorem CountedOnce.then (h : CountedOnce k s t) (same : (u.sector k).counts = (t.sector k).counts) : CountedOnce k s u := by
  unfold CountedOnce
  rwa [same]

theorem reportFault_counts (f : Frame) (cause : ReportFault) (r : Option RemoteNo) (d : Nat) :
    ((reportFault k f cause r d s).sector k).counts = (s.sector k).counts :=
  (local_reportFault k f cause r d s).stable.counts

theorem resolve_counts (f : Frame) (g : Plan → Plan) : ((modSector k (modPlan f g) s).sector k).counts = (s.sector k).counts := by
  rw [sector_modSector_self]
  rfl

theorem counted_takeStray (p : Report) : CountedOnce k s (takeStray k p s) :=
  .of_bump (reportFault_counts _ _ _ _) (fun _ => rfl) fun c => by simp only [ReportCounts.total]; ring

theorem counted_takeMismatch (plan : Plan) (w : Expectation) (p : Report) : CountedOnce k s (takeMismatch k plan w p s) := by
  have bump : CountedOnce k s (bumpCounts k (fun c => { c with mismatch := c.mismatch + 1 })
      (reportFault k plan.frame .mismatch (some w.remote) p.remote.val s)) :=
    .of_bump (reportFault_counts _ _ _ _) (fun _ => rfl) fun c => by simp only [ReportCounts.total]; ring
  exact (bump.then (resolve_counts plan.frame _)).then (local_takeOutcome k w.remote w.kind .garbled _).stable.counts

theorem counted_takeMatched (plan : Plan) (w : Expectation) (p : Report) : CountedOnce k s (takeMatched k plan w p s) := by
  have bump : CountedOnce k s (bumpCounts k (fun c => { c with matched := c.matched + 1 })
      (modSector k (modPlan plan.frame (Plan.setCondition p.slot p.minislot .resolved)) s)) :=
    .of_bump (resolve_counts plan.frame _) (fun _ => rfl) fun c => by simp only [ReportCounts.total]; ring
  exact (bump.then (local_noteMargin k w.remote p.outcomeOf _).stable.counts).then
    (local_takeOutcome k w.remote w.kind p.outcomeOf _).stable.counts

theorem counted_takeAtSlot (plan : Plan) (p : Report) : CountedOnce k s (takeAtSlot k plan p s) := by
  unfold takeAtSlot
  split
  · exact .of_bump rfl (fun _ => rfl) fun c => by simp only [ReportCounts.total]; ring
  · split
    · exact .of_bump rfl (fun _ => rfl) fun c => by simp only [ReportCounts.total]; ring
    · exact .of_bump (reportFault_counts _ _ _ _) (fun _ => rfl) fun c => by simp only [ReportCounts.total]; ring
    · split
      · exact counted_takeMismatch plan _ p
      · exact counted_takeMatched plan _ p

theorem counted_takeReport (p : Report) : CountedOnce k s (takeReport k p s) := by
  unfold takeReport matchReport
  dsimp only
  split
  · exact .of_bump rfl (fun _ => rfl) fun c => by simp only [ReportCounts.total]; ring
  · split
    · exact .of_bump rfl (fun _ => rfl) fun c => by simp only [ReportCounts.total]; ring
    · split
      · exact counted_takeStray p
      · split
        · exact counted_takeStray p
        · split
          · exact counted_takeStray p
          · exact counted_takeAtSlot _ p

end

/-! ### A report by its expectation (R105 to R108) -/

section
variable {k : SectorNo} {s : State} {p : Report}

theorem takeReport_pass (mode : (s.sector k).mode = .pass) :
    takeReport k p s = bumpCounts k (fun c => { c with unwatched := c.unwatched + 1 }) s := if_pos mode

theorem takeReport_suspended (mode : (s.sector k).mode ≠ .pass) (susp : (s.sector k).suspended = true) :
    takeReport k p s = bumpCounts k (fun c => { c with suspendedIgnored := c.suspendedIgnored + 1 }) s :=
  (if_neg mode).trans (if_pos susp)

theorem takeReport_matching (mode : (s.sector k).mode ≠ .pass) (susp : (s.sector k).suspended = false) :
    takeReport k p s = matchReport k p s := (if_neg mode).trans (if_neg (by simp [susp]))

theorem matchReport_stray {plan : Plan} (h : (s.sector k).planOfTag p.tag = none ∨ ((s.sector k).planOfTag p.tag = some plan ∧
    (plan.count ≤ p.slot ∨ (0 < p.minislot ∧ plan.probeAt p.slot = false)))) : matchReport k p s = takeStray k p s := by
  unfold matchReport
  obtain none_found | ⟨found, above | noMinislot⟩ := h
  · rw [none_found]
  · simp only [found, above, if_true]
  · simp only [found, noMinislot, and_self, if_true, ite_self]

theorem matchReport_atSlot {plan : Plan} (found : (s.sector k).planOfTag p.tag = some plan) (slot : p.slot < plan.count)
    (minislot : p.minislot = 0 ∨ plan.probeAt p.slot = true) : matchReport k p s = takeAtSlot k plan p s := by
  unfold matchReport
  rw [found]
  refine (if_neg (Nat.not_le.mpr slot)).trans (if_neg ?_)
  rintro ⟨above, single⟩
  obtain zero | probe := minislot
  · omega
  · rw [probe] at single
    cases single

theorem namesRemote_iff (p : Report) : p.outcomeOf.namesRemote = true ↔ p.outcome = 0 ∨ 3 ≤ p.outcome := by
  unfold Report.outcomeOf
  match p.outcome with
  | 0 | 1 | 2 => simp [BurstOutcome.namesRemote]
  | n + 3 => simp [BurstOutcome.namesRemote]

section
variable {plan : Plan} {w : Expectation}

theorem takeAtSlot_none (h : plan.watch p.slot p.minislot = none) :
    takeAtSlot k plan p s = bumpCounts k (fun c => { c with unwatched := c.unwatched + 1 }) s := by simp only [takeAtSlot, h]

theorem takeAtSlot_void (h : plan.watch p.slot p.minislot = some w) (condition : w.condition = .void) :
    takeAtSlot k plan p s = bumpCounts k (fun c => { c with void := c.void + 1 }) s := by simp only [takeAtSlot, h, condition]

theorem takeAtSlot_resolved (h : plan.watch p.slot p.minislot = some w) (condition : w.condition = .resolved) :
    takeAtSlot k plan p s = bumpCounts k (fun c => { c with duplicate := c.duplicate + 1 })
      (reportFault k plan.frame .duplicate (some w.remote) (p.slot * 8 + p.minislot) s) := by
  simp only [takeAtSlot, h, condition]

theorem takeAtSlot_open (h : plan.watch p.slot p.minislot = some w) (condition : w.condition = .open) : takeAtSlot k plan p s =
    if (p.outcome = 0 ∨ 3 ≤ p.outcome) ∧ p.remote ≠ w.remote then takeMismatch k plan w p s else takeMatched k plan w p s := by
  simp only [takeAtSlot, h, condition, namesRemote_iff]

end

/-- A fault counted: its record and notice, and the sector with its new counts. -/
theorem faultCounted (f : Frame) (cause : ReportFault) (r : Option RemoteNo) (d : Nat) (g : ReportCounts → ReportCounts) :
    (bumpCounts k g (reportFault k f cause r d s)).sectors =
      (s.setSector k { s.sector k with counts := g (s.sector k).counts }).sectors ∧
    (bumpCounts k g (reportFault k f cause r d s)).notices.pending = s.notices.pending ||| 16 ∧
    Logged { time := s.time, sector := some k, frame := some f, body := .reportFault cause r (BitVec.ofNat 32 d) } s
      (bumpCounts k g (reportFault k f cause r d s)) ∧ Quiet s (bumpCounts k g (reportFault k f cause r d s)) := by
  have sectors := reportFault_sectors k f cause r d s
  refine ⟨?_, reportFault_pending k f cause r d s, reportFault_logged k f cause r d s,
    (local_reportFault k f cause r d s).toQuiet.trans (quiet_bumpCounts k _ g)⟩
  show ((reportFault k f cause r d s).setSector k
    { (reportFault k f cause r d s).sector k with counts := g ((reportFault k f cause r d s).sector k).counts }).sectors = _
  rw [State.setSector, sector_of_sectors sectors, sectors]
  rfl

theorem setSector_twice (s : State) (k : SectorNo) (x y : Sector) : (s.setSector k x).setSector k y = s.setSector k y := by
  simp only [State.setSector, Vector.set_set]

theorem modSector_sectors {t : State} {x : Sector} (k : SectorNo) (f : Sector → Sector) (h : t.sectors = (s.setSector k x).sectors) :
    (modSector k f t).sectors = (s.setSector k (f x)).sectors := by
  have own : t.sector k = x := by
    rw [sector_of_sectors h]
    exact vector_getElem_set_self s.sectors k x
  show (t.setSector k (f (t.sector k))).sectors = _
  rw [own, ← setSector_twice s k x (f x)]
  simp only [State.setSector] at h ⊢
  rw [h]

end

/-! ### Report intake (R97 to R101) -/

/-- A record or quarter refused: counted torn, with its fault record. -/
structure Torn (k : SectorNo) (cause : ReportFault) (remote : Option RemoteNo) (off : Nat) (s t : State) : Prop where
  sectors : t.sectors = (s.setSector k { s.sector k with
    counts := { (s.sector k).counts with torn := (s.sector k).counts.torn + 1 } }).sectors
  kept : DeviceKept s t
  ports : t.ports = s.ports
  channel : t.channel = s.channel
  pending : t.notices.pending = s.notices.pending ||| 16
  logged : Logged { time := s.time, sector := some k, frame := some (s.sector k).frame
                    body := .reportFault cause remote (BitVec.ofNat 32 off) } s t

theorem bumpTorn_torn (k : SectorNo) (cause : ReportFault) (remote : Option RemoteNo) (off : Nat) (s : State) :
    Torn k cause remote off s (bumpTorn k (reportFault k (s.frame k) cause remote off s)) := by
  obtain ⟨sectors, pending, logged, quiet⟩ := faultCounted (k := k) (s := s) (s.frame k) cause remote off
    fun c => { c with torn := c.torn + 1 }
  exact ⟨sectors, quiet.dev, quiet.ports, quiet.channel, pending, logged⟩

section
variable {k : SectorNo} {base addr : Addr} {lanes : Lanes} {b : Beat} {s : State}

theorem takeReportBeat_full : takeReportBeat k base addr allLanes b s = takeFullRecord k addr base b s := if_pos rfl

theorem takeFullRecord_empty (pack : (s.sector k).pack = none) : takeFullRecord k addr base b s = completeRecord k addr base b s := by
  simp only [takeFullRecord, pack]

theorem takeFullRecord_held {p : Pack} (pack : (s.sector k).pack = some p) :
    takeFullRecord k addr base b s = completeRecord k addr base b (setPack k none (tear k p.addr p.winBase s)) := by
  simp only [takeFullRecord, pack]

theorem setPack_pack (p : Option Pack) : ((setPack k p s).sector k).pack = p := by rw [setPack_sector]

theorem takeReportBeat_quarter {q : Fin 4} (h : quarterOf lanes = some q) :
    takeReportBeat k base addr lanes b s = takeQuarter k addr base q (b.extractLsb' (16 * q.val) 16) s := by
  have part : lanes ≠ allLanes := by
    rintro rfl
    have none_all : quarterOf allLanes = none := by decide
    rw [none_all] at h
    cases h
  simp only [takeReportBeat, part, if_false, h]

theorem takeReportBeat_width (part : lanes ≠ allLanes) (h : quarterOf lanes = none) :
    takeReportBeat k base addr lanes b s = takeWidthFault k addr base s := by
  simp only [takeReportBeat, part, if_false, h]

theorem takeQuarter_empty {q : Fin 4} {v : BitVec 16} (pack : (s.sector k).pack = none) :
    takeQuarter k addr base q v s = startQuarter k addr base q v s := by simp only [takeQuarter, pack]

theorem takeQuarter_next {q : Fin 4} {v : BitVec 16} {p : Pack} (pack : (s.sector k).pack = some p) (own : p.addr = addr)
    (next : p.quarters.length = q.val) : takeQuarter k addr base q v s =
      if q = 3 then completeRecord k addr base (ofQuarters (p.quarters ++ [v])) (setPack k none s)
      else setPack k (some { p with quarters := p.quarters ++ [v] }) s := by
  have last : (p.quarters ++ [v]).length = 4 ↔ q = 3 := by
    rw [List.length_append, next, List.length_singleton]
    omega
  simp only [takeQuarter, pack, own, next, and_self, if_true, last]

theorem takeQuarter_torn {q : Fin 4} {v : BitVec 16} {p : Pack} (pack : (s.sector k).pack = some p)
    (other : ¬ (p.addr = addr ∧ p.quarters.length = q.val)) : takeQuarter k addr base q v s =
      startQuarter k addr base q v (setPack k none (tear k p.addr p.winBase s)) := by
  simp only [takeQuarter, pack, if_neg other]

theorem quarterOf_iff : ∀ (lanes : Lanes) (q : Fin 4), quarterOf lanes = some q ↔ lanes = (3 : Lanes) <<< (2 * q.val) := by
  decide +kernel

theorem byte_append_low {w : Nat} (x : BitVec w) (a : BitVec 16) {lo : Nat} (h : lo + 8 ≤ 16) :
    (x ++ a).extractLsb' lo 8 = a.extractLsb' lo 8 := BitVec.extractLsb'_append_eq_of_add_le h

theorem byte_append_high {w : Nat} (x : BitVec w) (a : BitVec 16) (lo : Nat) :
    (x ++ a).extractLsb' (16 + lo) 8 = x.extractLsb' lo 8 := by
  rw [BitVec.extractLsb'_append_eq_of_le (by omega), Nat.add_sub_cancel_left]

theorem ofQuarters_eq (a b c d : BitVec 16) : ofQuarters [a, b, c, d] = d ++ c ++ b ++ a := by
  have second (lo : Nat) (h : lo + 8 ≤ 16) := (byte_append_high (d ++ c ++ b) a lo).trans (byte_append_low (d ++ c) b h)
  have third (lo : Nat) (h : lo + 8 ≤ 16) :=
    (byte_append_high (d ++ c ++ b) a (16 + lo)).trans ((byte_append_high (d ++ c) b lo).trans (byte_append_low d c h))
  have fourth (lo : Nat) :=
    (byte_append_high (d ++ c ++ b) a (16 + (16 + lo))).trans ((byte_append_high (d ++ c) b (16 + lo)).trans (byte_append_high d c lo))
  refine beat_ext _ _ fun i hi => ?_
  rw [ofQuarters, beatByte_beatOfBytes _ i hi]
  simp only [List.flatMap_cons, List.flatMap_nil, leBytes_half, List.cons_append, List.nil_append, beatByte]
  match i, hi with
  | 0, _ | 1, _ => exact (byte_append_low (d ++ c ++ b) a (by decide)).symm
  | 2, _ => exact (second 0 (by decide)).symm
  | 3, _ => exact (second 8 (by decide)).symm
  | 4, _ => exact (third 0 (by decide)).symm
  | 5, _ => exact (third 8 (by decide)).symm
  | 6, _ => exact (fourth 0).symm
  | 7, _ => exact (fourth 8).symm

theorem completeRecord_ignored (valid : (reportOf b).valid = false) : completeRecord k addr base b s = s := if_pos valid

theorem completeRecord_refused (valid : (reportOf b).valid = true)
    (form : 63 < (reportOf b).slot ∨ 5 < (reportOf b).minislot ∨ 3 < (reportOf b).outcome) : completeRecord k addr base b s =
      bumpTorn k (reportFault k (s.frame k) .form (some (reportOf b).remote) (addr - base).toNat s) :=
  (if_neg (by simp [valid])).trans (if_pos form)

theorem completeRecord_taken (valid : (reportOf b).valid = true)
    (form : ¬ (63 < (reportOf b).slot ∨ 5 < (reportOf b).minislot ∨ 3 < (reportOf b).outcome)) :
    completeRecord k addr base b s = takeReport k (reportOf b) s := (if_neg (by simp [valid])).trans (if_neg form)

theorem startQuarter_later {q : Fin 4} {v : BitVec 16} (h : q ≠ 0) : startQuarter k addr base q v s = tear k addr base s := if_neg h

end

/-! ### The outcome of a matched or mismatched report -/

section
variable {k : SectorNo} {s : State} {p : Report} {plan : Plan} {w : Expectation}

/-- The expectation of a report resolved, in its sector's history. -/
def resolvedBy (plan : Plan) (p : Report) (x : Sector) : Sector :=
  modPlan plan.frame (Plan.setCondition p.slot p.minislot .resolved) x

theorem takeMismatch_spec : ∃ u, takeMismatch k plan w p s = takeOutcome k w.remote w.kind .garbled u ∧
    u.sectors = (s.setSector k { resolvedBy plan p (s.sector k) with
      counts := { (s.sector k).counts with mismatch := (s.sector k).counts.mismatch + 1 } }).sectors ∧
    u.notices.pending = s.notices.pending ||| 16 ∧
    Logged { time := s.time, sector := some k, frame := some plan.frame
             body := .reportFault .mismatch (some w.remote) (BitVec.ofNat 32 p.remote.val) } s u := by
  obtain ⟨sectors, pending, logged, _⟩ := faultCounted (k := k) (s := s) plan.frame .mismatch (some w.remote) p.remote.val
    fun c => { c with mismatch := c.mismatch + 1 }
  exact ⟨_, rfl, modSector_sectors k (resolvedBy plan p) sectors, pending, logged⟩

/-- The remote's entry after a report: a HEARD sets its last margin (R5, R108). -/
def notedMargin (p : Report) (e : Entry) : Entry := { e with lastMargin := if p.outcome = 0 then some p.margin else e.lastMargin }

theorem noteMargin_silent (r : RemoteNo) (h : p.outcome ≠ 0) : noteMargin k r p.outcomeOf s = s := by
  unfold Report.outcomeOf
  split
  · contradiction
  all_goals rfl

theorem noteMargin_heard (r : RemoteNo) (h : p.outcome = 0) :
    noteMargin k r p.outcomeOf s = modEntry k r (fun e => { e with lastMargin := some p.margin }) s := by
  simp only [Report.outcomeOf, h, noteMargin]

theorem noteMargin_sectors {t : State} {x : Sector} (r : RemoteNo) (h : t.sectors = (s.setSector k x).sectors) :
    (noteMargin k r p.outcomeOf t).sectors = (s.setSector k (x.setEntry r (notedMargin p (x.entry r)))).sectors := by
  by_cases heard : p.outcome = 0
  · rw [noteMargin_heard r heard, notedMargin, if_pos heard]
    exact modSector_sectors k (fun x => x.setEntry r { x.entry r with lastMargin := some p.margin }) h
  · rw [noteMargin_silent r heard, notedMargin, if_neg heard, h]
    exact congrArg (fun y => (s.setSector k y).sectors) (setEntry_self x r).symm

theorem noteMargin_queue (r : RemoteNo) : (noteMargin k r p.outcomeOf s).writer.queue = s.writer.queue := by
  by_cases heard : p.outcome = 0
  · rw [noteMargin_heard r heard]
    rfl
  · rw [noteMargin_silent r heard]

theorem takeMatched_spec : ∃ u, takeMatched k plan w p s = takeOutcome k w.remote w.kind p.outcomeOf u ∧
    u.writer.queue = s.writer.queue ∧
    u.sectors = (s.setSector k { (resolvedBy plan p (s.sector k)).setEntry w.remote (notedMargin p (s.entry k w.remote)) with
      counts := { (s.sector k).counts with matched := (s.sector k).counts.matched + 1 } }).sectors := by
  have counted : (bumpCounts k (fun c => { c with matched := c.matched + 1 }) (modSector k (resolvedBy plan p) s)).sectors =
      (s.setSector k { resolvedBy plan p (s.sector k) with
        counts := { (s.sector k).counts with matched := (s.sector k).counts.matched + 1 } }).sectors :=
    modSector_sectors (t := modSector k (resolvedBy plan p) s) k
      (fun x => { x with counts := { x.counts with matched := x.counts.matched + 1 } }) rfl
  exact ⟨_, rfl, noteMargin_queue w.remote, noteMargin_sectors (p := p) w.remote counted⟩

end

/-- Settles O40: one count a report, the case of each by its expectation, and the beats of a report write one by one. -/
theorem everyReportIsCountedOnce : Obligations.EveryReportIsCountedOnce := by
  unfold Obligations.EveryReportIsCountedOnce
  refine ⟨fun k p s => counted_takeReport p, fun k p s plan w => ?_, fun k base addr lanes b s => ?_⟩
  · refine ⟨fun pass => ?_, fun mode susp => ?_, fun mode susp stray => ?_, fun mode susp found slot minislot => ?_⟩
    · exact takeReport_pass (p := p) pass ▸ ⟨rfl, rfl⟩
    · exact takeReport_suspended (p := p) mode susp ▸ ⟨rfl, rfl⟩
    · dsimp only
      rw [takeReport_matching mode susp, matchReport_stray stray]
      obtain ⟨sectors, pending, logged, _⟩ := faultCounted (k := k) (s := s) (s.frame k) .stray (some p.remote)
        (p.tag.toNat * 256 + p.slot) fun c => { c with stray := c.stray + 1 }
      exact ⟨sectors, pending, logged⟩
    · dsimp only
      rw [takeReport_matching mode susp, matchReport_atSlot found slot minislot]
      refine ⟨fun none_here => ?_, fun here void => ?_, fun here resolved => ?_, fun here opened other => ?_, fun here opened own => ?_⟩
      · exact takeAtSlot_none (k := k) (s := s) none_here ▸ ⟨rfl, rfl⟩
      · exact takeAtSlot_void (k := k) (s := s) here void ▸ ⟨rfl, rfl⟩
      · rw [takeAtSlot_resolved here resolved]
        obtain ⟨sectors, pending, logged, _⟩ := faultCounted (k := k) (s := s) plan.frame .duplicate (some w.remote)
          (p.slot * 8 + p.minislot) fun c => { c with duplicate := c.duplicate + 1 }
        exact ⟨sectors, pending, logged⟩
      · rw [takeAtSlot_open here opened, if_pos other]
        exact takeMismatch_spec
      · rw [takeAtSlot_open here opened, if_neg own]
        exact takeMatched_spec
  · have asTorn {cause : ReportFault} {remote : Option RemoteNo} {off : Nat} {u : State} (h : Torn k cause remote off s u) :=
      And.intro h.sectors (And.intro h.kept (And.intro h.ports (And.intro h.channel (And.intro h.pending h.logged))))
    refine ⟨?_, ?_, ?_, ?_, ?_, ?_, ?_, ?_, ?_, ?_, fun q => quarterOf_iff lanes q, ?_⟩
    · rintro rfl pack valid
      rw [takeReportBeat_full, takeFullRecord_empty pack, completeRecord_ignored valid]
    · rintro rfl pack valid form
      dsimp only
      rw [takeReportBeat_full, takeFullRecord_empty pack, completeRecord_refused valid form]
      exact asTorn (bumpTorn_torn k _ _ _ s)
    · rintro rfl pack valid slot minislot outcome
      rw [takeReportBeat_full, takeFullRecord_empty pack, completeRecord_taken valid (by omega)]
    · rintro p rfl pack
      refine ⟨tear k p.addr p.winBase s, asTorn (bumpTorn_torn k _ _ _ s), ?_⟩
      dsimp only
      rw [takeReportBeat_full, takeFullRecord_held pack, takeReportBeat_full]
      exact (takeFullRecord_empty (setPack_pack none)).symm
    · rintro rfl pack
      have first : quarterOf 0x03 = some 0 := (quarterOf_iff _ 0).mpr rfl
      rw [takeReportBeat_quarter first, takeQuarter_empty pack]
      rfl
    · intro q later pair pack
      dsimp only
      rw [takeReportBeat_quarter pair, takeQuarter_empty pack, startQuarter_later later]
      exact asTorn (bumpTorn_torn k _ _ _ s)
    · intro q p pair pack own next open_
      rw [takeReportBeat_quarter pair, takeQuarter_next pack own next, if_neg open_]
      rfl
    · rintro origin q0 q1 q2 rfl pack
      have last : quarterOf 0xC0 = some 3 := (quarterOf_iff _ 3).mpr rfl
      rw [takeReportBeat_quarter last, takeQuarter_next pack rfl rfl, if_pos rfl, takeReportBeat_full]
      rw [← ofQuarters_eq]
      exact (takeFullRecord_empty (setPack_pack none)).symm
    · intro q p pair pack other
      refine ⟨tear k p.addr p.winBase s, asTorn (bumpTorn_torn k _ _ _ s), ?_⟩
      dsimp only
      rw [takeReportBeat_quarter pair, takeQuarter_torn pack other, takeReportBeat_quarter pair]
      exact (takeQuarter_empty (setPack_pack none)).symm
    · intro part width
      dsimp only
      rw [takeReportBeat_width part width]
      exact asTorn (bumpTorn_torn k _ _ _ s)
    · refine ⟨toNat_extractLsb' b 0 8, field_eq b 8 7, flag_iff b 15, field_eq b 16 3, field_eq b 19 3,
        toNat_extractLsb' b 24 7, signedField_eq b 32 10 (by decide), signedField_eq b 42 12 (by decide),
        signedField_eq b 54 8 (by decide)⟩

end Sys2Proof.Machine

/-! PROOF. The bytes of what the part writes (Section 11): the result word, the blocks, the mirror groups, the log records. -/

namespace Sys2Proof.Machine

/-! ### Words and halves as bytes -/

theorem leBytes_add : ∀ m n v : Nat, leBytes (m + n) v = leBytes m v ++ leBytes n (v / 256 ^ m)
  | 0, n, v => by simp [leBytes]
  | m + 1, n, v => by
    rw [Nat.add_right_comm, leBytes, leBytes, leBytes_add m n (v / 256), Nat.div_div_eq_div_mul, Nat.pow_succ',
      List.cons_append]

theorem leBytes_mod : ∀ n v : Nat, leBytes n v = leBytes n (v % 256 ^ n)
  | 0, _ => rfl
  | n + 1, v => by
    have low : BitVec.ofNat 8 v = BitVec.ofNat 8 (v % 256 ^ (n + 1)) := by
      refine BitVec.eq_of_toNat_eq ?_
      rw [BitVec.toNat_ofNat, BitVec.toNat_ofNat]
      exact (Nat.mod_mod_of_dvd v (Dvd.intro (256 ^ n) Nat.pow_succ'.symm)).symm
    have high : v % 256 ^ (n + 1) / 256 = v / 256 % 256 ^ n := by rw [Nat.pow_succ', Nat.mod_mul_right_div_self]
    rw [leBytes, leBytes, leBytes_mod n (v / 256), low, high]

theorem leBytes_wordOf (v : Nat) : leBytes 4 v = leBytes 4 (BitVec.ofNat 32 v).toNat := by
  rw [BitVec.toNat_ofNat]
  exact leBytes_mod 4 v

/-- A beat as two words, the low one first. -/
theorem leBytes_beat (b : Beat) :
    leBytes 8 b.toNat = leBytes 4 (b.extractLsb' 0 32).toNat ++ leBytes 4 (b.extractLsb' 32 32).toNat := by
  rw [leBytes_add 4 4, leBytes_mod 4 b.toNat, leBytes_mod 4 (b.toNat / 256 ^ 4), toNat_extractLsb', toNat_extractLsb',
    Nat.pow_zero, Nat.div_one]
  rfl

theorem beat_of_words (b : Beat) : b.extractLsb' 32 32 ++ b.extractLsb' 0 32 = b := by
  apply BitVec.eq_of_getLsbD_eq
  intro i hi
  simp only [BitVec.getLsbD_append, BitVec.getLsbD_extractLsb']
  by_cases low : i < 32
  · simp [low]
  · simp [low, show i - 32 < 32 by omega, show 32 + (i - 32) = i by omega]

/-- The byte that ends a concatenation, and the bytes before it. -/
theorem byte_append_last {w : Nat} (x : BitVec w) (a : Byte) : (x ++ a).extractLsb' 0 8 = a := by
  rw [BitVec.extractLsb'_append_eq_of_add_le (by decide), BitVec.extractLsb'_eq_self]

theorem byte_append_before {w : Nat} (x : BitVec w) (a : Byte) (lo : Nat) :
    (x ++ a).extractLsb' (8 + lo) 8 = x.extractLsb' lo 8 := by
  rw [BitVec.extractLsb'_append_eq_of_le (by omega), Nat.add_sub_cancel_left]

/-- Two words make a beat (Section 11: the lower word on the lower lanes). -/
theorem beatOfBytes_words (a b : Word) (rest : List Byte) :
    beatOfBytes (leBytes 4 a.toNat ++ (leBytes 4 b.toNat ++ rest)) = b ++ a := by
  have low (lo : Nat) (h : lo + 8 ≤ 32) : (b ++ a).extractLsb' lo 8 = a.extractLsb' lo 8 :=
    BitVec.extractLsb'_append_eq_of_add_le h
  have high (lo : Nat) : (b ++ a).extractLsb' (32 + lo) 8 = b.extractLsb' lo 8 := by
    rw [BitVec.extractLsb'_append_eq_of_le (by omega), Nat.add_sub_cancel_left]
  refine beat_ext _ _ fun i hi => ?_
  rw [beatByte_beatOfBytes _ i hi, leBytes_word, leBytes_word]
  simp only [List.cons_append, List.nil_append, beatByte]
  match i, hi with
  | 0, _ | 1, _ | 2, _ | 3, _ => exact (low _ (by decide)).symm
  | 4, _ => exact (high 0).symm
  | 5, _ => exact (high 8).symm
  | 6, _ => exact (high 16).symm
  | 7, _ => exact (high 24).symm

/-- Four bytes as a word. -/
theorem leBytes_ofBytes (a b c d : Byte) : leBytes 4 (d ++ c ++ b ++ a).toNat = [a, b, c, d] := by
  have second : (d ++ c ++ b ++ a).extractLsb' 8 8 = b := (byte_append_before (d ++ c ++ b) a 0).trans (byte_append_last (d ++ c) b)
  have third : (d ++ c ++ b ++ a).extractLsb' 16 8 = c :=
    (byte_append_before (d ++ c ++ b) a 8).trans ((byte_append_before (d ++ c) b 0).trans (byte_append_last d c))
  have fourth : (d ++ c ++ b ++ a).extractLsb' 24 8 = d :=
    (byte_append_before (d ++ c ++ b) a 16).trans ((byte_append_before (d ++ c) b 8).trans
      ((byte_append_before d c 0).trans BitVec.extractLsb'_eq_self))
  rw [leBytes_word, byte_append_last (d ++ c ++ b) a, second, third, fourth]

theorem word_append_bytes (x : Word) (a b c d : Byte) : (x ++ (d ++ c ++ b ++ a : Word) : Beat) = x ++ d ++ c ++ b ++ a := by
  apply BitVec.eq_of_getLsbD_eq
  intro i hi
  simp only [BitVec.getLsbD_append]
  by_cases h1 : i < 8
  · simp [h1, show i < 32 by omega]
  by_cases h2 : i < 16
  · simp [h1, show i < 32 by omega, show i - 8 < 8 by omega]
  by_cases h3 : i < 24
  · simp [h1, show i < 32 by omega, show ¬ i - 8 < 8 by omega, show i - 8 - 8 < 8 by omega]
  by_cases h4 : i < 32
  · simp [h1, h4, show ¬ i - 8 < 8 by omega, show ¬ i - 8 - 8 < 8 by omega, show i - 8 - 8 - 8 < 8 by omega]
  · simp [h1, h4, show ¬ i - 8 < 8 by omega, show ¬ i - 8 - 8 < 8 by omega, show ¬ i - 8 - 8 - 8 < 8 by omega,
      show i - 8 - 8 - 8 - 8 = i - 32 by omega]

/-! ### The result word and the device status block (Tables 11.9 and 11.13) -/

theorem resultBeat_eq (r : Result) : resultBeat r = (0 : Word) ++ r.detail ++ BitVec.ofNat 8 r.result.code ++ r.tag := by
  have code (lo : Nat) := byte_append_before ((0 : Word) ++ r.detail ++ BitVec.ofNat 8 r.result.code) r.tag lo
  have detail (lo : Nat) := (code (8 + lo)).trans (byte_append_before ((0 : Word) ++ r.detail) (BitVec.ofNat 8 r.result.code) lo)
  have spare (lo : Nat) : ((0 : Word) ++ r.detail ++ BitVec.ofNat 8 r.result.code ++ r.tag).extractLsb' (32 + lo) 8 = 0 := by
    rw [show 32 + lo = 8 + (8 + (16 + lo)) by omega]
    exact ((detail (16 + lo)).trans (byte_append_high (0 : Word) r.detail lo)).trans BitVec.extractLsb'_zero
  refine beat_ext _ _ fun i hi => ?_
  rw [resultBeat, beatByte_beatOfBytes _ i hi, leBytes_half]
  simp only [List.cons_append, List.nil_append, beatByte]
  match i, hi with
  | 0, _ => exact (byte_append_last ((0 : Word) ++ r.detail ++ BitVec.ofNat 8 r.result.code) r.tag).symm
  | 1, _ => exact ((code 0).trans (byte_append_last ((0 : Word) ++ r.detail) _)).symm
  | 2, _ => exact ((detail 0).trans (byte_append_low (0 : Word) r.detail (by decide))).symm
  | 3, _ => exact ((detail 8).trans (byte_append_low (0 : Word) r.detail (by decide))).symm
  | 4, _ => exact (spare 0).symm
  | 5, _ => exact (spare 8).symm
  | 6, _ => exact (spare 16).symm
  | 7, _ => exact (spare 24).symm

theorem beatOfBytes_nil : beatOfBytes [] = 0 := rfl

theorem beatsOfBytes_nil : ∀ n : Nat, beatsOfBytes n [] = List.replicate n 0
  | 0 => rfl
  | n + 1 => by rw [beatsOfBytes, List.drop_nil, beatsOfBytes_nil n, beatOfBytes_nil, List.replicate_succ]

theorem leBytes_length : ∀ n v : Nat, (leBytes n v).length = n
  | 0, _ => rfl
  | n + 1, v => by rw [leBytes, List.length_cons, leBytes_length n]

/-- Two words at the front of bytes make the first beat. -/
theorem beatsOfBytes_words (n : Nat) (a b : Word) (rest : List Byte) :
    beatsOfBytes (n + 1) (leBytes 4 a.toNat ++ (leBytes 4 b.toNat ++ rest)) = (b ++ a) :: beatsOfBytes n rest := by
  rw [beatsOfBytes, beatOfBytes_words, ← List.append_assoc, List.drop_left' (by simp [leBytes_length])]

theorem deviceBlock_eq (s : State) {flying tag : Byte} (h : s.inFlightBytes = [flying, tag]) :
    deviceBlock s = [s.writer.faults ++ (0 : Byte) ++ tag ++ flying ++ s.notices.pending,
      s.writer.seq ++ BitVec.ofNat 32 s.writer.head, s.time ++ s.writer.skips, 0, 0, 0, 0, 0] := by
  have front : [s.notices.pending] ++ s.inFlightBytes ++ [0] = leBytes 4 ((0 : Byte) ++ tag ++ flying ++ s.notices.pending).toNat := by
    rw [leBytes_ofBytes, h]
    rfl
  have last : leBytes 4 s.time.toNat = leBytes 4 s.time.toNat ++ [] := (List.append_nil _).symm
  rw [deviceBlock, front, leBytes_wordOf s.writer.head, last]
  simp only [List.append_assoc]
  rw [beatsOfBytes_words, beatsOfBytes_words, beatsOfBytes_words, beatsOfBytes_nil]
  exact congrArg₂ List.cons (word_append_bytes s.writer.faults _ _ _ _) rfl

/-! ### The sector counter block (Table 11.13) -/

/-- The bytes of a counter block that a table names. -/
def counterBytes (x : Sector) : List Byte :=
  [BitVec.ofNat 8 (modeCode x.mode), if x.suspended then 1 else 0, BitVec.ofNat 8 x.episode.state.code, BitVec.ofNat 8 x.n] ++
    leBytes 2 x.episode.record.number.toNat ++ RState.all.map (fun st => BitVec.ofNat 8 (x.tally st)) ++ [0] ++
    leBytes 4 x.framesSeen.toNat ++ x.counts.bytes

theorem length_beatsOfBytes : ∀ (n : Nat) (bs : List Byte), (beatsOfBytes n bs).length = n
  | 0, _ => rfl
  | n + 1, bs => by rw [beatsOfBytes, List.length_cons, length_beatsOfBytes n]

/-- Byte by byte, beats are the bytes they were made of, and 0 behind them. -/
theorem beatsOfBytes_getD (n : Nat) (bs : List Byte) (i : Nat) (h : bs.length ≤ 8 * n) :
    beatByte ((beatsOfBytes n bs).getD (i / 8) 0) (i % 8) = bs.getD i 0 := by
  by_cases inside : i < 8 * n
  · exact byte_beatsOfBytes n bs i inside
  · rw [List.getD_eq_default bs _ (by omega), List.getD_eq_default _ _ (by rw [length_beatsOfBytes]; omega)]
    exact BitVec.extractLsb'_zero

theorem counterBytes_length (x : Sector) : (counterBytes x).length = 52 := by
  simp [counterBytes, ReportCounts.bytes, leBytes_length, RState.all]

theorem counterBlock_byte (x : Sector) (n : Nat) :
    beatByte ((counterBlock x).getD (n / 8) 0) (n % 8) = (counterBytes x).getD n 0 :=
  beatsOfBytes_getD 8 (counterBytes x) n (by rw [counterBytes_length]; decide)

/-- The word at an offset of a list of bytes. -/
def wordAt (bs : List Byte) (n : Nat) : Word := bs.getD (n + 3) 0 ++ bs.getD (n + 2) 0 ++ bs.getD (n + 1) 0 ++ bs.getD n 0

theorem counterBlock_word (x : Sector) (n : Nat) :
    beatByte ((counterBlock x).getD ((n + 3) / 8) 0) ((n + 3) % 8) ++ beatByte ((counterBlock x).getD ((n + 2) / 8) 0) ((n + 2) % 8) ++
      beatByte ((counterBlock x).getD ((n + 1) / 8) 0) ((n + 1) % 8) ++ beatByte ((counterBlock x).getD (n / 8) 0) (n % 8) =
      wordAt (counterBytes x) n := by
  simp only [counterBlock_byte, wordAt]

theorem counterBytes_words (x : Sector) :
    wordAt (counterBytes x) 16 = x.framesSeen ∧ wordAt (counterBytes x) 20 = x.counts.matched ∧
    wordAt (counterBytes x) 24 = x.counts.stray ∧ wordAt (counterBytes x) 28 = x.counts.duplicate ∧
    wordAt (counterBytes x) 32 = x.counts.mismatch ∧ wordAt (counterBytes x) 36 = x.counts.torn ∧
    wordAt (counterBytes x) 40 = x.counts.unwatched ∧ wordAt (counterBytes x) 44 = x.counts.void ∧
    wordAt (counterBytes x) 48 = x.counts.suspendedIgnored := by
  simp only [counterBytes, ReportCounts.bytes, List.flatMap_cons, leBytes_half, leBytes_word, RState.all]
  exact ⟨word_of_bytes _, word_of_bytes _, word_of_bytes _, word_of_bytes _, word_of_bytes _, word_of_bytes _, word_of_bytes _,
    word_of_bytes _, word_of_bytes _⟩

theorem counterBytes_number (x : Sector) : (counterBytes x).getD 5 0 ++ (counterBytes x).getD 4 0 = x.episode.record.number := by
  rw [counterBytes, leBytes_half]
  exact half_of_bytes _

theorem counterBytes_tally (x : Sector) (st : RState) : (counterBytes x).getD (6 + st.code) 0 = BitVec.ofNat 8 (x.tally st) := by
  rw [counterBytes, leBytes_half]
  cases st <;> rfl

/-! ### Mirror items (Table 11.12) -/

theorem field_ofNat {w v q lo len : Nat} (h : lo + len ≤ w) (same : v / 2 ^ lo % 2 ^ len = q % 2 ^ len) :
    (BitVec.ofNat w v).extractLsb' lo len = BitVec.ofNat len q := by
  have equal : BitVec.ofNat len q = BitVec.ofNat len (v / 2 ^ lo) :=
    BitVec.eq_of_toNat_eq (by rw [BitVec.toNat_ofNat, BitVec.toNat_ofNat, same])
  rw [equal]
  apply BitVec.eq_of_getLsbD_eq
  intro i hi
  rw [BitVec.getLsbD_extractLsb', BitVec.getLsbD_ofNat, BitVec.getLsbD_ofNat, Nat.testBit_div_two_pow]
  simp [hi, show lo + i < w by omega, Nat.add_comm]

theorem bit_ofNat {v n : Nat} {b : Bool} (h : n < 16) (same : v / 2 ^ n % 2 = b.toNat) : (BitVec.ofNat 16 v).getLsbD n = b := by
  rw [BitVec.getLsbD_ofNat, Nat.testBit_eq_decide_div_mod_eq, same]
  cases b <;> simp [h]

theorem byte_of_half (b : Beat) (lo at_ : Nat) (h : at_ + 8 ≤ 16) :
    (b.extractLsb' lo 16).extractLsb' at_ 8 = b.extractLsb' (lo + at_) 8 := by
  apply BitVec.eq_of_getLsbD_eq
  intro i hi
  simp only [BitVec.getLsbD_extractLsb', hi, show at_ + i < 16 by omega, Nat.add_assoc, decide_true, Bool.true_and]

theorem half_of_beat (b : Beat) (i : Nat) : b.extractLsb' (16 * i) 16 = beatByte b (2 * i + 1) ++ beatByte b (2 * i) := by
  have low : (b.extractLsb' (16 * i) 16).extractLsb' 0 8 = beatByte b (2 * i) := by
    rw [byte_of_half b _ _ (by decide), beatByte]
    congr 1
    omega
  have high : (b.extractLsb' (16 * i) 16).extractLsb' 8 8 = beatByte b (2 * i + 1) := by
    rw [byte_of_half b _ _ (by decide), beatByte]
    congr 1
    omega
  rw [← low, ← high, half_of_bytes]

/-- Item `i` of a mirror group, as its two bytes. -/
theorem groupBytes_getD (s : State) (g : Fin 128) (i : Fin 4) (r : RemoteNo) (own : r.val = 4 * (g.val % 32) + i.val) :
    let bytes := (groupRemotes g).flatMap fun r => leBytes 2 (mirrorItem (s.entry (groupSector g) r))
    bytes.getD (2 * i.val + 1) 0 = BitVec.ofNat 8 (mirrorItem (s.entry (groupSector g) r) / 256) ∧
      bytes.getD (2 * i.val) 0 = BitVec.ofNat 8 (mirrorItem (s.entry (groupSector g) r)) := by
  have place : r = ⟨4 * (g.val % 32) + i.val, own ▸ r.isLt⟩ := Fin.ext own
  rw [place]
  match i with
  | 0 | 1 | 2 | 3 => exact ⟨rfl, rfl⟩

theorem mirrorBeat_item (s : State) (k : SectorNo) (r : RemoteNo) :
    (mirrorBeat s (mirrorGroup k r)).extractLsb' (16 * (r.val % 4)) 16 = BitVec.ofNat 16 (mirrorItem (s.entry k r)) := by
  have sector : groupSector (mirrorGroup k r) = k := Fin.ext (show (32 * k.val + r.val / 4) / 32 = k.val by omega)
  obtain ⟨high, low⟩ := groupBytes_getD s (mirrorGroup k r) ⟨r.val % 4, by omega⟩ r
    (show r.val = 4 * ((32 * k.val + r.val / 4) % 32) + r.val % 4 by omega)
  rw [half_of_beat, mirrorBeat, beatByte_beatOfBytes _ _ (by omega), beatByte_beatOfBytes _ _ (by omega), high, low, sector,
    half_ofNat]

/-- The fields of a mirror item. -/
theorem mirrorItem_fields (e : Entry) :
    let item := BitVec.ofNat 16 (mirrorItem e)
    item.extractLsb' 0 4 = BitVec.ofNat 4 e.state.code ∧ item.extractLsb' 4 4 = BitVec.ofNat 4 e.profile ∧
    item.extractLsb' 8 4 = BitVec.ofNat 4 e.attempts ∧ item.extractLsb' 12 2 = BitVec.ofNat 2 e.cls ∧
    item.getLsbD 14 = e.admin ∧ item.getLsbD 15 = e.deferred.isSome := by
  have code : e.state.code < 16 := by cases e.state <;> decide
  have item_eq : mirrorItem e = e.state.code + 16 * (e.profile % 16) + 256 * (e.attempts % 16) + 4096 * (e.cls % 4) +
      16384 * e.admin.toNat + 32768 * e.deferred.isSome.toNat := by
    rw [mirrorItem]
    cases e.admin <;> cases e.deferred.isSome <;> rfl
  have admin := e.admin.toNat_lt
  have deferred := e.deferred.isSome.toNat_lt
  dsimp only
  rw [item_eq]
  exact ⟨field_ofNat (by decide) (by omega), field_ofNat (by decide) (by omega), field_ofNat (by decide) (by omega),
    field_ofNat (by decide) (by omega), bit_ofNat (by decide) (by omega), bit_ofNat (by decide) (by omega)⟩

/-! ### Log records (Tables 11.10 and 11.11) -/

/-- The 32 bytes of a log record. -/
def recordBytes (seq : Word) (rec : LogRecord) : List Byte :=
  leBytes 4 seq.toNat ++ leBytes 4 rec.time.toNat ++
    [BitVec.ofNat 8 rec.body.codes.1, BitVec.ofNat 8 rec.body.codes.2, BitVec.ofNat 8 (optNat Fin.val rec.sector),
     BitVec.ofNat 8 (boolBit rec.sector.isSome 0 + boolBit rec.frame.isSome 1 + rec.body.presence)] ++
    leBytes 3 (optNat BitVec.toNat rec.frame) ++ [BitVec.ofNat 8 rec.body.peak] ++ rec.body.bytes

/-- Byte `n` of a record as it is written. -/
def recordByte (seq : Word) (rec : LogRecord) (n : Nat) : Byte := beatByte ((rec.beats seq).getD (n / 8) 0) (n % 8)

section
variable (seq : Word) (rec : LogRecord)

theorem body_length (b : RecordBody) : b.bytes.length = 16 := by
  cases b <;> simp [RecordBody.bytes, commonBody, leBytes_length]

theorem recordByte_eq (n : Nat) : recordByte seq rec n = (recordBytes seq rec).getD n 0 :=
  beatsOfBytes_getD 4 (recordBytes seq rec) n (by simp [recordBytes, leBytes_length, body_length])

theorem recordByte_body (n : Nat) : recordByte seq rec (16 + n) = rec.body.bytes.getD n 0 := by
  have front : (leBytes 4 seq.toNat ++ leBytes 4 rec.time.toNat ++
    [BitVec.ofNat 8 rec.body.codes.1, BitVec.ofNat 8 rec.body.codes.2, BitVec.ofNat 8 (optNat Fin.val rec.sector),
     BitVec.ofNat 8 (boolBit rec.sector.isSome 0 + boolBit rec.frame.isSome 1 + rec.body.presence)] ++
    leBytes 3 (optNat BitVec.toNat rec.frame) ++ [BitVec.ofNat 8 rec.body.peak]).length = 16 := by
    simp [leBytes_length]
  rw [recordByte_eq, recordBytes, List.getD_append_right _ _ _ _ (by omega), front, Nat.add_sub_cancel_left]

theorem optNat_eq {α : Type} (f : α → Nat) (o : Option α) : optNat f o = (o.map f).getD 0 := by cases o <;> rfl

/-- Three bytes of a frame number at an offset. -/
def frameAt (byte : Nat → Byte) (n : Nat) : Frame := byte (n + 2) ++ byte (n + 1) ++ byte n

def halfOf (byte : Nat → Byte) (n : Nat) : Half := byte (n + 1) ++ byte n

def wordOf (byte : Nat → Byte) (n : Nat) : Word := byte (n + 3) ++ byte (n + 2) ++ byte (n + 1) ++ byte n

theorem optFrame_toNat (f : Option Frame) : optNat BitVec.toNat f = (f.getD 0).toNat := by cases f <;> rfl

/-- The common part of a record (Table 11.10). -/
theorem recordByte_common : (rec.beats seq).length = 4 ∧ wordOf (recordByte seq rec) 0 = seq ∧
    wordOf (recordByte seq rec) 4 = rec.time ∧
    recordByte seq rec 10 = BitVec.ofNat 8 ((rec.sector.map Fin.val).getD 0) ∧
    frameAt (recordByte seq rec) 12 = rec.frame.getD 0 := by
  refine ⟨length_beatsOfBytes 4 _, ?_, ?_, ?_, ?_⟩
  all_goals simp only [wordOf, frameAt, recordByte_eq, recordBytes, leBytes_word, leBytes_frame, optFrame_toNat]
  · exact word_of_bytes seq
  · exact word_of_bytes rec.time
  · exact congrArg (BitVec.ofNat 8) (optNat_eq Fin.val rec.sector)
  · exact frame_of_bytes _

/-- The kind, cause, presence and peak bytes of a record. -/
def RecordHead (rec : LogRecord) (byte : Nat → Byte) (kind cause present peak : Nat) : Prop :=
  byte 8 = BitVec.ofNat 8 kind ∧ byte 9 = BitVec.ofNat 8 cause ∧ byte 15 = BitVec.ofNat 8 peak ∧
  byte 11 = BitVec.ofNat 8 (present + (if rec.sector.isSome then 1 else 0) + (if rec.frame.isSome then 2 else 0))

theorem recordByte_head :
    RecordHead rec (recordByte seq rec) rec.body.codes.1 rec.body.codes.2 rec.body.presence rec.body.peak := by
  unfold RecordHead
  simp only [recordByte_eq, recordBytes, leBytes_word, leBytes_frame, optFrame_toNat]
  refine ⟨rfl, rfl, rfl, ?_⟩
  show BitVec.ofNat 8 (boolBit rec.sector.isSome 0 + boolBit rec.frame.isSome 1 + rec.body.presence) = _
  rw [Nat.add_comm _ rec.body.presence, ← Nat.add_assoc]
  rfl

/-- The common body of Table 11.11. -/
def PlainBody (byte : Nat → Byte) (remote old new profile attempts code tag : Nat) (detail : Word) : Prop :=
  byte 16 = BitVec.ofNat 8 remote ∧ byte 17 = BitVec.ofNat 8 old ∧ byte 18 = BitVec.ofNat 8 new ∧
  byte 19 = BitVec.ofNat 8 profile ∧ byte 20 = BitVec.ofNat 8 attempts ∧ byte 21 = 0 ∧
  byte 22 = BitVec.ofNat 8 code ∧ byte 23 = BitVec.ofNat 8 tag ∧ wordOf byte 24 = detail ∧ wordOf byte 28 = 0

variable {seq rec}

theorem recordByte_plain {remote old new profile attempts code tag : Nat} {detail : Word}
    (h : rec.body.bytes = commonBody remote old new profile attempts code tag detail) :
    PlainBody (recordByte seq rec) remote old new profile attempts code tag detail := by
  have byte (n : Nat) : recordByte seq rec (16 + n) = (commonBody remote old new profile attempts code tag detail).getD n 0 :=
    h ▸ recordByte_body seq rec n
  have zero : leBytes 4 0 = [0, 0, 0, 0] := rfl
  rw [commonBody, leBytes_word, zero] at byte
  refine ⟨byte 0, byte 1, byte 2, byte 3, byte 4, byte 5, byte 6, byte 7, ?_, ?_⟩
  · rw [wordOf, byte 11, byte 10, byte 9, byte 8]
    exact word_of_bytes detail
  · rw [wordOf, byte 15, byte 14, byte 13, byte 12]
    exact word_of_bytes 0

/-- The byte at +16 of an EPISODE record. -/
theorem episodeByte_fields (old new : EpisodeState) (cause : Option RecoveringCause) :
    let b := BitVec.ofNat 8 (old.code + 4 * new.code + 16 * optNat RecoveringCause.code cause)
    b.extractLsb' 0 2 = BitVec.ofNat 2 old.code ∧ b.extractLsb' 2 2 = BitVec.ofNat 2 new.code ∧
    b.extractLsb' 4 2 = BitVec.ofNat 2 ((cause.map RecoveringCause.code).getD 0) ∧ b.extractLsb' 6 2 = 0 := by
  have code (x : EpisodeState) : x.code < 4 := by cases x <;> decide
  have given : (cause.map RecoveringCause.code).getD 0 < 4 := by
    cases cause with
    | none => decide
    | some c => cases c <;> decide
  have := code old
  have := code new
  dsimp only
  rw [optNat_eq]
  refine ⟨field_ofNat (by decide) (by omega), field_ofNat (by decide) (by omega), field_ofNat (by decide) (by omega),
    (field_ofNat (q := 0) (by decide) (by omega)).trans rfl⟩

/-- The body of an EPISODE record. -/
theorem recordByte_episode {cause : EpisodeCause} {old new : EpisodeState} {n : Nat} {x : EpisodeRecord}
    (h : rec.body = .episode cause old new n x) :
    (recordByte seq rec 16).extractLsb' 0 2 = BitVec.ofNat 2 old.code ∧
    (recordByte seq rec 16).extractLsb' 2 2 = BitVec.ofNat 2 new.code ∧
    (recordByte seq rec 16).extractLsb' 4 2 = BitVec.ofNat 2 ((x.recovering.map RecoveringCause.code).getD 0) ∧
    (recordByte seq rec 16).extractLsb' 6 2 = 0 ∧ recordByte seq rec 17 = BitVec.ofNat 8 n ∧
    halfOf (recordByte seq rec) 18 = x.number ∧ halfOf (recordByte seq rec) 20 = BitVec.ofNat 16 x.faded ∧
    halfOf (recordByte seq rec) 22 = BitVec.ofNat 16 x.excluded ∧ halfOf (recordByte seq rec) 24 = BitVec.ofNat 16 x.refades ∧
    frameAt (recordByte seq rec) 26 = x.opening ∧ frameAt (recordByte seq rec) 29 = x.closing.getD 0 := by
  have byte (i : Nat) : recordByte seq rec (16 + i) = (RecordBody.episode cause old new n x).bytes.getD i 0 :=
    h ▸ recordByte_body seq rec i
  have two (v : Nat) : leBytes 2 v = [BitVec.ofNat 8 v, BitVec.ofNat 8 (v / 256)] := rfl
  simp only [RecordBody.bytes, optFrame_toNat, leBytes_frame, leBytes_half, two x.faded, two x.excluded, two x.refades] at byte
  obtain ⟨old_eq, new_eq, cause_eq, spare⟩ := episodeByte_fields old new x.recovering
  refine ⟨byte 0 ▸ old_eq, byte 0 ▸ new_eq, byte 0 ▸ cause_eq, byte 0 ▸ spare, byte 1, ?_, ?_, ?_, ?_, ?_, ?_⟩
  · rw [halfOf, byte 3, byte 2]
    exact half_of_bytes _
  · rw [halfOf, byte 5, byte 4]
    exact half_ofNat _
  · rw [halfOf, byte 7, byte 6]
    exact half_ofNat _
  · rw [halfOf, byte 9, byte 8]
    exact half_ofNat _
  · rw [frameAt, byte 12, byte 11, byte 10]
    exact frame_of_bytes _
  · rw [frameAt, byte 15, byte 14, byte 13]
    exact frame_of_bytes _

/-- The body of a MARKER record. -/
theorem recordByte_marker {lanes : Lanes} {data : Beat} (h : rec.body = .marker lanes data) :
    wordOf (recordByte seq rec) 16 = 0 ∧ recordByte seq rec 20 = 0 ∧ recordByte seq rec 21 = lanes ∧
    halfOf (recordByte seq rec) 22 = 0 ∧ wordOf (recordByte seq rec) 28 ++ wordOf (recordByte seq rec) 24 = data := by
  have byte (i : Nat) : recordByte seq rec (16 + i) = (RecordBody.marker lanes data).bytes.getD i 0 :=
    h ▸ recordByte_body seq rec i
  simp only [RecordBody.bytes, leBytes_beat, leBytes_word] at byte
  refine ⟨?_, byte 4, byte 5, ?_, ?_⟩
  · rw [wordOf, byte 3, byte 2, byte 1, byte 0]
    exact word_of_bytes 0
  · rw [halfOf, byte 7, byte 6]
    exact half_of_bytes 0
  · rw [wordOf, wordOf, byte 15, byte 14, byte 13, byte 12, byte 11, byte 10, byte 9, byte 8]
    exact (congrArg₂ (fun a b : Word => a ++ b) (word_of_bytes _) (word_of_bytes _)).trans (beat_of_words data)

/-- The body of an ACCESS record. -/
theorem recordByte_access {cause : AccessCause} {m : MasterNo} {role : Role} {dir : Dir} {w : Option WindowKind} {detail : Word} {code : Byte}
    (h : rec.body = .access cause m role dir w detail) (given : BitVec.ofNat 8 (roleByte role) = code) :
    recordByte seq rec 16 = BitVec.ofNat 8 m.val ∧ recordByte seq rec 17 = code ∧
    recordByte seq rec 18 = (if dir = .read then 0 else 1) ∧
    recordByte seq rec 19 = BitVec.ofNat 8 ((w.map WindowKind.code).getD 0) ∧
    wordOf (recordByte seq rec) 20 = 0 ∧ wordOf (recordByte seq rec) 24 = detail ∧ wordOf (recordByte seq rec) 28 = 0 := by
  have byte (i : Nat) : recordByte seq rec (16 + i) = (RecordBody.access cause m role dir w detail).bytes.getD i 0 :=
    h ▸ recordByte_body seq rec i
  have zero : leBytes 4 0 = [0, 0, 0, 0] := rfl
  simp only [RecordBody.bytes, leBytes_word, zero, optNat_eq] at byte
  refine ⟨byte 0, (byte 1).trans given, ?_, byte 3, ?_, ?_, ?_⟩
  · rw [byte 2]
    cases dir <;> rfl
  · rw [wordOf, byte 7, byte 6, byte 5, byte 4]
    exact word_of_bytes 0
  · rw [wordOf, byte 11, byte 10, byte 9, byte 8]
    exact word_of_bytes detail
  · rw [wordOf, byte 15, byte 14, byte 13, byte 12]
    exact word_of_bytes 0

end

end Sys2Proof.Machine

/-! PROOF. The forming of outbound writes, one source at a time (R174, R176). -/

namespace Sys2Proof.Machine

section
variable {s : State}

theorem formWrite_full (h : 6 ≤ s.writer.buffer.length) : formWrite s = s := if_pos h

theorem formWrite_result {r : Result} (place : s.writer.buffer.length < 6) (result : s.writer.pendingResult = some r) :
    formWrite s = formResult r s := by
  have free : ¬ Config.outboundPlaces ≤ s.writer.buffer.length := Nat.not_le.mpr place
  rw [formWrite, if_neg free, result]

theorem formWrite_log (place : s.writer.buffer.length < 6) (result : s.writer.pendingResult = none) (written : (formLog s).1 = true) :
    formWrite s = (formLog s).2 := by
  have free : ¬ Config.outboundPlaces ≤ s.writer.buffer.length := Nat.not_le.mpr place
  rw [formWrite, if_neg free, result]
  exact if_pos written

theorem formWrite_dirty (place : s.writer.buffer.length < 6) (result : s.writer.pendingResult = none)
    (written : (formLog s).1 = false) : formWrite s = formDirty (formLog s).2 := by
  have free : ¬ Config.outboundPlaces ≤ s.writer.buffer.length := Nat.not_le.mpr place
  rw [formWrite, if_neg free, result]
  exact if_neg (by simp [written])

theorem formResult_spec (r : Result) :
    (formResult r s).writer.buffer = s.writer.buffer ++
      [{ source := .result, addr := s.channel.anchorBase + BitVec.ofNat 40 0x008, data := [resultBeat r], issued := false }] ∧
    (formResult r s).writer.pendingResult = none ∧ (formResult r s).writer.queue = s.writer.queue ∧
    (formResult r s).channel.inFlight = if r.closes then none else s.channel.inFlight := by
  unfold formResult
  dsimp only
  split
  · exact ⟨rfl, rfl, rfl, rfl⟩
  · exact ⟨rfl, rfl, rfl, rfl⟩

/-- The ring of a geometry has room for a record (R176). -/
def RingRoom (s : State) (g : LogGeometry) : Prop := (s.writer.head + 2 ^ g.k - s.writer.tail) % 2 ^ g.k + 1 < 2 ^ g.k

theorem roomy_of {g : LogGeometry} (log : s.writer.log = some g) (room : RingRoom s g) : s.writer.roomy = some g := by
  simp only [Writer.roomy, log]
  exact if_pos room

theorem roomy_none (full : ∀ g, s.writer.log = some g → ¬ RingRoom s g) : s.writer.roomy = none := by
  unfold Writer.roomy
  split
  · rename_i g log
    exact if_neg (full g log)
  · rfl

theorem formLog_overflow {g : LogGeometry} (room : s.writer.roomy = some g) (skips : s.writer.skips ≠ 0) :
    formLog s = (true, writeOverflow g s) := by
  simp only [formLog, room, if_pos skips]

theorem formLog_record {g : LogGeometry} {rec : LogRecord} {rest : List LogRecord} (room : s.writer.roomy = some g)
    (skips : s.writer.skips = 0) (queue : s.writer.queue = rec :: rest) :
    formLog s = (true, writeRecord g rec (setQueue rest s)) := by
  simp only [formLog, room, skips, queue, ne_eq, not_true_eq_false, if_false]

theorem formLog_discard (full : s.writer.roomy = none) : formLog s = (false, discardAll s.writer.queue s) := by
  simp only [formLog, full]

theorem raiseNotice_writer {u : State} (kind : NoticeKind) (dirty : u.writer.deviceDirty = true) :
    (raiseNotice kind u).writer = u.writer := by
  unfold raiseNotice setPendingNotices
  split
  · rfl
  · simp only [markDevice, ← dirty]

/-- The OVERFLOW record formed: the skips are told, and LOG_SKIP is pending (R176). -/
theorem writeOverflow_spec (g : LogGeometry) :
    (writeOverflow g s).writer = { (writeRecord g (overflowRecord s) s).writer with skips := 0 } ∧
    (writeOverflow g s).notices.pending = s.notices.pending ||| 4 :=
  ⟨raiseNotice_writer .logSkip rfl, raiseNotice_pending .logSkip _⟩

theorem formDirty_device (h : s.writer.deviceDirty = true) : formDirty s = formDevice s := if_pos h

theorem find_finRange {α : Type} {n : Nat} (f : Fin n → α) (p : α → Bool) (i : Fin n) (hit : p (f i) = true)
    (first : ∀ j, j < i → p (f j) = false) : ((List.finRange n).map f).find? p = some (f i) := by
  refine find_first p _ i.val (f i) (by simp) hit fun j below b at_j => ?_
  obtain ⟨_, rfl⟩ := List.getElem?_eq_some_iff.mp at_j
  rw [List.getElem_map, List.getElem_finRange]
  exact first _ below

theorem nextCounter_some {k : SectorNo} (dirty : s.writer.counterDirty[k] = true)
    (lowest : ∀ j : SectorNo, j < k → s.writer.counterDirty[j] = false) : s.writer.nextCounter = some k := by
  rw [Writer.nextCounter, sectorNos, ← List.map_id (List.finRange 4)]
  exact find_finRange id _ k dirty lowest

theorem nextCounter_none (clean : ∀ k : SectorNo, s.writer.counterDirty[k] = false) : s.writer.nextCounter = none :=
  List.find?_eq_none.mpr fun k _ => by simp [clean k]

theorem nextGroup_some {i : Fin 128} (dirty : s.writer.mirrorDirty[s.writer.lastGroup + 1 + i] = true)
    (first : ∀ j : Fin 128, j < i → s.writer.mirrorDirty[s.writer.lastGroup + 1 + j] = false) :
    s.writer.nextGroup = some (s.writer.lastGroup + 1 + i) := find_finRange _ _ i dirty first

theorem nextGroup_none (clean : ∀ g : Fin 128, s.writer.mirrorDirty[g] = false) : s.writer.nextGroup = none :=
  List.find?_eq_none.mpr fun g _ => by simp [clean g]

theorem formDirty_counter {k : SectorNo} (device : s.writer.deviceDirty = false) (next : s.writer.nextCounter = some k) :
    formDirty s = formCounter k s := by simp [formDirty, device, next]

theorem formDirty_mirror {g : Fin 128} (device : s.writer.deviceDirty = false) (counter : s.writer.nextCounter = none)
    (next : s.writer.nextGroup = some g) : formDirty s = formMirror g s := by simp [formDirty, device, counter, next]

theorem formDirty_none (device : s.writer.deviceDirty = false) (counter : s.writer.nextCounter = none)
    (group : s.writer.nextGroup = none) : formDirty s = s := by simp [formDirty, device, counter, group]

/-- Forming a dirty block leaves the log source's registers. -/
theorem formDirty_log : (formDirty s).writer.queue = s.writer.queue ∧ (formDirty s).writer.skips = s.writer.skips ∧
    (formDirty s).writer.seq = s.writer.seq ∧ (formDirty s).writer.head = s.writer.head := by
  unfold formDirty
  split
  · exact ⟨rfl, rfl, rfl, rfl⟩
  · split
    · exact ⟨rfl, rfl, rfl, rfl⟩
    · split <;> exact ⟨rfl, rfl, rfl, rfl⟩

end

/-- Settles O42: one write from the first source with material, and the bytes of each block and record. -/
theorem outboundWriteFormedInOrder : Obligations.OutboundWriteFormedInOrder := by
  unfold Obligations.OutboundWriteFormedInOrder
  refine ⟨fun s full => congrArg Host.Outcome.next (formWrite_full full), fun s place => ?_, fun s f flying => ?_, fun x => ?_,
    fun s k r => ?_, resultBeat_eq, fun seq rec => ?_, by decide⟩
  · have kept := writes_formWrite s
    refine ⟨formWrite s, rfl, kept.sectors, kept.ports, kept.time, kept.windows, fun r result => ?_, ?_, ?_, ?_, ?_, ?_, ?_, ?_⟩
    · rw [formWrite_result place result]
      exact formResult_spec r
    · intro g rec rest result log room skips queue
      rw [formWrite_log place result (by rw [formLog_record (roomy_of log room) skips queue]), formLog_record (roomy_of log room) skips queue]
      exact ⟨rfl, rfl, rfl, rfl, rfl, rfl⟩
    · intro g result log room skips
      rw [formWrite_log place result (by rw [formLog_overflow (roomy_of log room) skips]), formLog_overflow (roomy_of log room) skips]
      obtain ⟨writer, pending⟩ := writeOverflow_spec (s := s) g
      refine ⟨?_, ?_, ?_, ?_, ?_, ?_, pending⟩ <;> rw [writer] <;> rfl
    · intro result full
      have skip := formLog_discard (roomy_none full)
      rw [formWrite_dirty place result (by rw [skip]), skip]
      by_cases empty : s.writer.queue = []
      · obtain ⟨queue, skips, seq, head⟩ := formDirty_log (s := s)
        rw [empty]
        exact ⟨queue.trans empty, skips.trans (BitVec.add_zero _).symm, seq.trans (BitVec.add_zero _).symm, head, absurd rfl⟩
      · obtain ⟨holdOff, all⟩ := discardAll_spec s.writer.queue s empty
        rw [all, formDirty_device rfl]
        exact ⟨rfl, rfl, rfl, rfl, fun _ => ⟨rfl, rfl⟩⟩
    · rintro ⟨result, queue, skips⟩ device
      rw [formWrite_blocks s place result queue skips, formDirty_device device]
      rfl
    · rintro k ⟨result, queue, skips⟩ device dirty lowest
      rw [formWrite_blocks s place result queue skips, formDirty_counter device (nextCounter_some dirty lowest)]
      rfl
    · rintro i ⟨result, queue, skips⟩ device counter dirty first
      dsimp only
      rw [formWrite_blocks s place result queue skips, formDirty_mirror device (nextCounter_none counter) (nextGroup_some dirty first)]
      rfl
    · rintro ⟨result, queue, skips⟩ device counter group
      rw [formWrite_blocks s place result queue skips, formDirty_none device (nextCounter_none counter) (nextGroup_none group)]
  · have bytes : s.inFlightBytes = [f.1, f.2] := by
      rw [flying]
      unfold State.inFlightBytes
      cases s.channel.inFlight with
      | none => rfl
      | some flight => rfl
    exact deviceBlock_eq s bytes
  · obtain ⟨seen, matched, stray, duplicate, mismatch, torn, unwatched, void, ignored⟩ := counterBytes_words x
    have byte := counterBlock_byte x
    have word (n : Nat) {v : Word} (h : wordAt (counterBytes x) n = v) := (counterBlock_word x n).trans h
    refine ⟨byte 0, byte 1, byte 2, byte 3, ?_, fun st => (byte _).trans (counterBytes_tally x st), ?_, word 16 seen, word 20 matched,
      word 24 stray, word 28 duplicate, word 32 mismatch, word 36 torn, word 40 unwatched, word 44 void, word 48 ignored, fun n h => ?_⟩
    · exact (congrArg₂ (fun a b : Byte => a ++ b) (byte 5) (byte 4)).trans (counterBytes_number x)
    · exact (byte 15).trans rfl
    · exact (byte n).trans (List.getD_eq_default _ _ (by rw [counterBytes_length]; exact h))
  · dsimp only
    rw [mirrorBeat_item]
    exact mirrorItem_fields (s.entry k r)
  · obtain ⟨length, seq_eq, time_eq, sector_eq, frame_eq⟩ := recordByte_common seq rec
    refine ⟨length, seq_eq, time_eq, sector_eq, frame_eq, ?_⟩
    have head := recordByte_head seq rec
    obtain ⟨time, sector, frame, body⟩ := rec
    cases body with
    | state cause r old new profile attempts detail => exact ⟨head, recordByte_plain rfl⟩
    | episode cause old new n x => exact ⟨head, recordByte_episode rfl⟩
    | reportFault cause r detail => exact ⟨head, recordByte_plain (congrArg (commonBody · 0 0 0 0 0 0 detail) (optNat_eq _ r))⟩
    | access cause m role dir w detail =>
      cases role with
      | controller | builder | receiver | other => exact ⟨head, recordByte_access rfl rfl⟩
    | frame cause detail => exact ⟨head, recordByte_plain rfl⟩
    | descriptor cause r detail => exact ⟨head, recordByte_plain rfl⟩
    | marker lanes data => exact ⟨head, recordByte_marker rfl⟩
    | command result code r tag detail =>
      exact ⟨head, recordByte_plain (congrArg (commonBody · 0 0 0 0 code.toNat tag.toNat (detail.setWidth 32)) (optNat_eq _ r))⟩
    | tail cause detail => exact ⟨head, recordByte_plain rfl⟩
    | memory cause detail => exact ⟨head, recordByte_plain rfl⟩
    | overflow skips => exact ⟨head, recordByte_plain rfl⟩

end Sys2Proof.Machine

/-! PROOF. The responses to a load's reads: the descriptors (R16, R17, R166) and the one step that applies the load (R168). -/

namespace Sys2Proof.Machine

/-! ### A response to the part's own read (R129, R162) -/

section
variable {s : State} {reply : Reply} {target : ReadTarget} {rest : List PartRequest}

/-- The outstanding requests without the oldest. -/
def answered (s : State) (rest : List PartRequest) : State := { s with ports := { s.ports with outstanding := rest } }

theorem answered_kept (s : State) (rest : List PartRequest) : DeviceKept s (answered s rest) :=
  ⟨rfl, rfl, rfl, rfl, rfl, rfl, rfl, rfl, rfl, rfl, rfl, rfl, rfl, rfl⟩

theorem popOutstanding_eq {first : PartRequest} (h : s.ports.outstanding = first :: rest) : popOutstanding s = answered s rest := by
  rw [popOutstanding, h]
  rfl

theorem partReadReply_taken (h : s.ports.outstanding = .read target false :: rest) (fits : reply.data.length = target.beats) :
    partReadReply reply s = .next (takePartReply target reply (answered s rest)) := by
  have beats : Reply.fits target.beats reply = true := by simp [Reply.fits, fits]
  rw [← popOutstanding_eq h, partReadReply, h]
  simp only [beats, if_true, Bool.false_eq_true, if_false]

end

/-! ### The phase of the command in flight -/

theorem setPhase_inFlight {f : InFlight} {s : State} (p : Phase) (h : s.channel.inFlight = some f) :
    setPhase p s = { s with channel := { s.channel with inFlight := some { f with phase := p } } } := by
  rw [setPhase, h]

/-! ### A staged entry (R16) -/

theorem getElem_modStaged (k j : SectorNo) (r q : RemoteNo) (f : StagedEntry → StagedEntry)
    (staged : Vector (Vector StagedEntry 128) 4) :
    (modStaged k r f staged)[j][q] = if j = k ∧ q = r then f staged[k][r] else staged[j][q] := by
  simp only [modStaged, Fin.getElem_fin, Vector.getElem_set]
  by_cases sector : j = k
  · subst sector
    by_cases remote : q = r
    · subst remote
      simp
    · have : ¬ r.val = q.val := fun e => remote (Fin.ext e.symm)
      simp [remote, this]
  · have : ¬ k.val = j.val := fun e => sector (Fin.ext e.symm)
    simp [sector, this]

/-- A value of a lane kept only where it was refused. -/
def badValue (b : Beat) (n limit : Nat) : Option Byte := if (beatByte b n).toNat ≤ limit then none else some (beatByte b n)

/-- The staged entry that a descriptor builds, field by field. -/
theorem buildStaged_eq (e : Entry) (b : Beat) : buildStaged e b = {
    entry := {
      admin := b.getLsbD 0, ceiling := if (beatByte b 1).toNat ≤ 11 then (beatByte b 1).toNat else e.ceiling
      cls := if (beatByte b 2).toNat ≤ 3 then (beatByte b 2).toNat else e.cls
      group := if (beatByte b 3).toNat ≤ 15 then
        (if (beatByte b 3).toNat = 0 then none else some (beatByte b 3).toNat) else e.group
      deferred := none, state := if b.getLsbD 0 then .serving else .idle
      profile := if (beatByte b 1).toNat ≤ 11 then (beatByte b 1).toNat else e.ceiling, misses := 0
      attempts := 0, backoff := 0, exchanges := 0, garbles := 0, solo := false, good := 0, order := 0, fadedAt := none
      lastMargin := none }
    badCeiling := badValue b 1 11, badClass := badValue b 2 3, badGroup := badValue b 3 15 } := by
  have lane (n : Nat) (h : n < 8) : laneOn allLanes n = true := by
    interval_cases n <;> rfl
  rw [buildStaged, changeStaged_lanes, stageCeiling_eq, stageClass_eq, stageGroup_eq, stageAdmin_eq]
  simp only [keptBad, lane 0 (by decide), lane 1 (by decide), lane 2 (by decide), lane 3 (by decide), if_true, true_and]
  rfl

theorem nextDescriptor_next (setup : Setup) (k : SectorNo) {r r' : RemoteNo} (h : r'.val = r.val + 1) :
    nextDescriptor setup k r = some (k, r') := by
  have below : r.val + 1 < 128 := h ▸ r'.isLt
  rw [nextDescriptor, dif_pos below]
  exact congrArg (fun q => some (k, q)) (Fin.ext h.symm)

section
variable {s : State} {reply : Reply} {k : SectorNo} {r : RemoteNo} {rest : List PartRequest} {cmd : Command} {setup : Setup}
  {staged : Vector (Vector StagedEntry 128) 4} {late : List LateWrite}

theorem takeLoadDescriptorReply_error {k' : SectorNo} {r' : RemoteNo}
    (flight : s.channel.inFlight = some { cmd := cmd, phase := .readingDescriptors setup staged k' r' late })
    (error : reply.error = true) :
    takeLoadDescriptorReply k r reply s = finish .memoryError (BitVec.ofNat 16 (0x8000 + 128 * k.val + r.val)) s := by
  simp only [takeLoadDescriptorReply, flight, error, if_true]

/-- The staged entries with the one just read. -/
def stagedAfter (k : SectorNo) (r : RemoteNo) (late : List LateWrite) (b : Beat) (s : State)
    (staged : Vector (Vector StagedEntry 128) 4) : Vector (Vector StagedEntry 128) 4 :=
  modStaged k r (fun _ => lateOnStaged late (buildStaged (s.entry k r) b)) staged

theorem takeLoadDescriptorReply_okay {k' : SectorNo} {r' : RemoteNo} {b : Beat} (data : reply.data = [b])
    (flight : s.channel.inFlight = some { cmd := cmd, phase := .readingDescriptors setup staged k' r' late })
    (error : reply.error = false) : takeLoadDescriptorReply k r reply s =
      continueLoad setup (stagedAfter k r late b s staged) (nextDescriptor setup k r) s := by
  simp only [takeLoadDescriptorReply, flight, error, data, Bool.false_eq_true, if_false]
  rfl

theorem stagedAfter_other {j : SectorNo} {q : RemoteNo} {b : Beat} (h : (j, q) ≠ (k, r)) :
    (stagedAfter k r late b s staged)[j][q] = staged[j][q] := by
  rw [stagedAfter, getElem_modStaged, if_neg]
  rintro ⟨rfl, rfl⟩
  exact h rfl

end

/-- Settles O46: the entry is built lane by lane, takes the late writes, and stands alone among the staged ones. -/
theorem loadDescriptorReadBuildsStagedEntry : Obligations.LoadDescriptorReadBuildsStagedEntry := by
  unfold Obligations.LoadDescriptorReadBuildsStagedEntry
  intro s reply b k r r' rest cmd setup staged late outstanding data following flight waits e c cls group bad built
  have run : exec (.loadDescriptorReadResponse reply) s = .next (takeLoadDescriptorReply k r reply (answered s rest)) :=
    partReadReply_taken outstanding (by rw [data]; rfl)
  have flight' : (answered s rest).channel.inFlight =
      some { cmd := cmd, phase := .readingDescriptors setup staged k r late } := flight
  refine ⟨_, run, ?_⟩
  cases error : reply.error with
  | true =>
    rw [takeLoadDescriptorReply_error flight' error]
    obtain ⟨answer, channel⟩ := finish_spec .memoryError (BitVec.ofNat 16 (0x8000 + 128 * k.val + r.val)) (answered s rest) _ flight' waits
    exact ⟨answer.ports, answer.sectors, (answered_kept s rest).trans answer.dev, fun h => absurd h (by decide), fun _ => ⟨_, answer.result, rfl, rfl, rfl⟩⟩
  | false =>
    rw [takeLoadDescriptorReply_okay data flight' error, nextDescriptor_next setup k following, continueLoad, setPhase_inFlight _ flight']
    refine ⟨rfl, rfl, ⟨rfl, rfl, rfl, rfl, rfl, rfl, rfl, rfl, rfl, rfl, rfl, rfl, rfl, rfl⟩, fun _ => ⟨rfl, rfl, _, rfl, ?_, fun j q other => stagedAfter_other other⟩, fun h => absurd h (by decide)⟩
    rw [stagedAfter, getElem_modStaged, if_pos ⟨rfl, rfl⟩, lateOnStaged, buildStaged_eq]
    rfl

/-! ### The one step of a load, sector by sector (R16, R168) -/

section
variable (setup : Setup) (staged : Vector (Vector StagedEntry 128) 4)

theorem logRefused_sectors (k : SectorNo) (r : RemoteNo) (cause : DescriptorCause) (b : Option Byte) (s : State) :
    (logRefused k r cause b s).sectors = s.sectors := by
  cases b with
  | none => rfl
  | some b => exact logSector_sectors k _ s

theorem logRefused_notices (k : SectorNo) (r : RemoteNo) (cause : DescriptorCause) (b : Option Byte) (s : State) :
    (logRefused k r cause b s).notices = s.notices := by
  cases b with
  | none => rfl
  | some b => exact pushRecord_notices _ s

theorem logStep_notices (k : SectorNo) (r : RemoteNo) (info : StepInfo) (old new : Entry) (s : State) :
    (logStep k r info old new s).notices = s.notices := by
  unfold logStep
  split
  · rfl
  · exact pushRecord_notices _ s

theorem installEntry_sectors (k : SectorNo) (r : RemoteNo) (s : State) :
    (installEntry staged k r s).sectors = (modEntry k r (fun _ => staged[k][r].entry) s).sectors := by
  rw [installEntry, logStep_sectors, logRefused_sectors, logRefused_sectors, logRefused_sectors]

theorem installEntry_notices (k : SectorNo) (r : RemoteNo) (s : State) : (installEntry staged k r s).notices = s.notices := by
  rw [installEntry, logStep_notices, logRefused_notices, logRefused_notices, logRefused_notices]
  rfl

theorem installEntry_entry (k : SectorNo) (r q : RemoteNo) (s : State) :
    (installEntry staged k r s).entry k q = if q = r then staged[k][r].entry else s.entry k q := by
  rw [State.entry, sector_of_sectors (installEntry_sectors staged k r s), modEntry, sector_modSector_self, entry_setEntry]
  rfl

theorem installEntries_entry (k : SectorNo) (q : RemoteNo) : ∀ (rs : List RemoteNo) (s : State),
    (forRemotes rs (installEntry staged k) s).entry k q = if q ∈ rs then staged[k][q].entry else s.entry k q
  | [], s => by simp [forRemotes]
  | r :: rs, s => by
    have rec_eq : forRemotes (r :: rs) (installEntry staged k) s = forRemotes rs (installEntry staged k) (installEntry staged k r s) := rfl
    rw [rec_eq, installEntries_entry k q rs, installEntry_entry]
    by_cases here : q = r
    · subst here
      simp
    · simp [here]

theorem installEntries_notices (k : SectorNo) : ∀ (rs : List RemoteNo) (s : State),
    (forRemotes rs (installEntry staged k) s).notices = s.notices
  | [], _ => rfl
  | r :: rs, s => (installEntries_notices k rs (installEntry staged k r s)).trans (installEntry_notices staged k r s)

theorem markMirrors_notices (k : SectorNo) : ∀ (rs : List RemoteNo) (s : State),
    (forRemotes rs (markMirror k) s).notices = s.notices
  | [], _ => rfl
  | r :: rs, s => (markMirrors_notices k rs (markMirror k r s)).trans rfl

theorem installOne_eq (k : SectorNo) (s : State) : installOne setup staged k s =
    markCounter k (forRemotes remotes (markMirror k)
      (modSector k (installSector setup.sectors[k]) (forRemotes remotes (installEntry staged k) s))) := rfl

theorem installOne_notices (k : SectorNo) (s : State) : (installOne setup staged k s).notices = s.notices := by
  rw [installOne_eq, markCounter_notices, markMirrors_notices, modSector_notices, installEntries_notices]

/-- What a load leaves in a sector: its entries, no history, and the items of an event and of its setup. -/
structure SectorLoaded (j : SectorNo) (x y : Sector) : Prop where
  tunables : ∀ c, setup.sectors[j] = some c → y.tunables = c.tunables
  mode : y.mode = x.mode
  history : y.history = []
  resync : y.resyncPending = true
  pack : y.pack = none
  unstaged : y.staged = Staged.none
  entries : ∀ q, y.entry q = staged[j][q].entry

variable {setup staged}

theorem installSector_loaded {j : SectorNo} {x y : Sector} (mode : y.mode = x.mode) (entries : ∀ q, y.entry q = staged[j][q].entry) :
    SectorLoaded setup staged j x (installSector setup.sectors[j] y) := by
  unfold installSector
  split
  next c own => exact ⟨fun d other => (Option.some.inj (own.symm.trans other)) ▸ rfl, mode, rfl, rfl, rfl, rfl, entries⟩
  next absent => exact ⟨fun d other => (by rw [absent] at other; cases other), mode, rfl, rfl, rfl, rfl, entries⟩

theorem installOne_loaded (k : SectorNo) (s : State) :
    SectorLoaded setup staged k (s.sector k) ((installOne setup staged k s).sector k) := by
  obtain ⟨u, hu⟩ : ∃ u, u = forRemotes remotes (installEntry staged k) s := ⟨_, rfl⟩
  have marks : (installOne setup staged k s).sector k = installSector setup.sectors[k] (u.sector k) := by
    have same : (installOne setup staged k s).sectors = (modSector k (installSector setup.sectors[k]) u).sectors := by
      rw [installOne_eq, ← hu, markCounter_sectors, markAll_sectors]
    rw [sector_of_sectors same, sector_modSector_self]
  rw [marks]
  refine installSector_loaded ?_ fun q => ?_
  · exact hu ▸ (local_installEntries staged k s).stable.mode
  · have entry := installEntries_entry staged k q remotes s
    rw [← hu] at entry
    exact entry.trans (if_pos (List.mem_finRange q))

theorem installAll_other (j : SectorNo) : ∀ (ks : List SectorNo) (s : State), j ∉ ks →
    (ks.foldl (fun t k => installOne setup staged k t) s).sector j = s.sector j
  | [], _, _ => rfl
  | k :: ks, s, h => by
    obtain ⟨other, absent⟩ := not_or.mp (List.mem_cons.not.mp h)
    obtain ⟨_, others, _⟩ := installOne_spec setup staged k s
    rw [List.foldl_cons, installAll_other j ks _ absent, others j other]

theorem installAll_notices : ∀ (ks : List SectorNo) (s : State),
    (ks.foldl (fun t k => installOne setup staged k t) s).notices = s.notices
  | [], _ => rfl
  | k :: ks, s => by rw [List.foldl_cons, installAll_notices ks, installOne_notices]

theorem installAll_loaded (j : SectorNo) : ∀ (ks : List SectorNo) (s : State), ks.Nodup → j ∈ ks →
    SectorLoaded setup staged j (s.sector j) ((ks.foldl (fun t k => installOne setup staged k t) s).sector j)
  | [], _, _, h => absurd h (by simp)
  | k :: ks, s, nodup, h => by
    obtain ⟨fresh, nodup'⟩ := List.nodup_cons.mp nodup
    obtain ⟨_, others, _⟩ := installOne_spec setup staged k s
    rw [List.foldl_cons]
    obtain rfl | later := List.mem_cons.mp h
    · have kept : ((ks.foldl (fun t k => installOne setup staged k t) (installOne setup staged j s)).sector j) =
          (installOne setup staged j s).sector j := installAll_other j ks _ fresh
      rw [kept]
      exact installOne_loaded j s
    · have other : j ≠ k := fun e => fresh (e ▸ later)
      rw [← others j other]
      exact installAll_loaded j ks _ nodup' later

end

/-! ### The part after a load (R135, R136, R168) -/

theorem resultWaits_of {s t : State} (result : t.writer.pendingResult = s.writer.pendingResult) (held : t.channel.held = s.channel.held) :
    t.resultWaits = s.resultWaits := by rw [State.resultWaits, State.resultWaits, result, held]

section
variable {s : State} {setup : Setup} {staged : Vector (Vector StagedEntry 128) 4} {f : InFlight}

/-- The state of a load after its sectors, before its result. -/
theorem applyLoad_before (setup : Setup) (staged : Vector (Vector StagedEntry 128) 4) (s : State) : ∃ u,
    u = sectorNos.foldl (fun t k => installOne setup staged k t) s ∧
    applyLoad setup staged s = finish .done (BitVec.ofNat 16 setup.configuredCount) (markDevice (installDevice setup u)) :=
  ⟨_, rfl, rfl⟩

theorem installParams_configured (x : Option SectorSetup) (old : SectorConfig) : (installParams x old).configured = x.isSome := by
  cases x <;> rfl

/-- What the one step of a load leaves in the part. -/
structure LoadApplied (setup : Setup) (staged : Vector (Vector StagedEntry 128) 4) (f : InFlight) (s t : State) : Prop where
  time : t.time = s.time
  ports : t.ports = s.ports
  windows : t.windows = setup.windows s.channel.anchorBase
  roles : t.roles = setup.roles
  timeout : t.store.commandTimeout = setup.commandTimeout
  profiles : t.store.profiles = setup.profiles
  notices : t.notices = { s.notices with classes := setup.classes, floor := setup.floor }
  log : t.writer.log = setup.log.map fun p => { base := p.2, k := p.1 }
  head : t.writer.head = 0
  tail : t.writer.tail = 0
  flight : t.channel.inFlight = some { f with phase := .decided }
  result : t.writer.pendingResult = some (resultOf f.cmd .done (BitVec.ofNat 16 setup.configuredCount) true)
  configured : ∀ j, t.configured j = setup.sectors[j].isSome
  params : ∀ j x, setup.sectors[j] = some x → t.params j = x.params
  sectors : ∀ j, SectorLoaded setup staged j (s.sector j) (t.sector j)

theorem applyLoad_applied (flight : s.channel.inFlight = some f) (waits : s.resultWaits = false) :
    LoadApplied setup staged f s (applyLoad setup staged s) := by
  have spec := applyLoad_spec setup staged s
  obtain ⟨u, hu, whole⟩ := applyLoad_before setup staged s
  have installed : Installed sectorNos s u := by
    have all := installAll_spec setup staged sectorNos [] s s ⟨.refl s, fun _ => ⟨rfl, rfl, rfl⟩, by simp⟩
    rwa [List.nil_append, ← hu] at all
  have notices : u.notices = s.notices := hu ▸ installAll_notices sectorNos s
  have loaded : ∀ j, SectorLoaded setup staged j (s.sector j) (u.sector j) :=
    fun j => hu ▸ installAll_loaded j sectorNos s (List.nodup_finRange 4) (mem_sectorNos j)
  have flight' : (markDevice (installDevice setup u)).channel.inFlight = some f := installed.channel ▸ flight
  have waits' : (markDevice (installDevice setup u)).resultWaits = false :=
    (resultWaits_of (s := s) (t := markDevice (installDevice setup u)) installed.result
      (congrArg Channel.held installed.channel)).trans waits
  obtain ⟨answer, channel⟩ := finish_spec .done (BitVec.ofNat 16 setup.configuredCount) _ f flight' waits'
  rw [← whole] at answer channel
  have configured (j : SectorNo) : (markDevice (installDevice setup u)).store.sectors[j] = installParams setup.sectors[j] u.store.sectors[j] :=
    perSector_getElem (fun k => installParams setup.sectors[k] u.store.sectors[k]) j
  refine ⟨spec.time, spec.ports, spec.windows, answer.dev.roles, ?_, ?_, ?_, answer.dev.log, answer.dev.head, answer.dev.tail, ?_,
    answer.result, fun j => ?_, fun j x own => ?_, fun j => ?_⟩
  · rw [answer.dev.store]
    rfl
  · rw [answer.dev.store]
    rfl
  · rw [answer.notices, ← notices]
    rfl
  · rw [channel]
  · rw [State.configured, State.sectorConfig, answer.dev.store, configured, installParams_configured]
  · rw [spec.params, own]
    rfl
  · rw [answer.sector]
    exact loaded j

end

/-- Settles O47: after the last descriptor the load is applied to the device and to every sector. -/
theorem lastDescriptorAppliesTheLoad : Obligations.LastDescriptorAppliesTheLoad := by
  unfold Obligations.LastDescriptorAppliesTheLoad
  intro s b k r rest cmd setup staged late outstanding last flight waits
  have run : exec (.loadDescriptorReadResponse { error := false, data := [b] }) s =
      .next (takeLoadDescriptorReply k r { error := false, data := [b] } (answered s rest)) := partReadReply_taken outstanding rfl
  have flight' : (answered s rest).channel.inFlight =
      some { cmd := cmd, phase := .readingDescriptors setup staged k r late } := flight
  rw [takeLoadDescriptorReply_okay rfl flight' rfl, last, continueLoad] at run
  have load := applyLoad_applied (setup := setup) (staged := stagedAfter k r late b (answered s rest) staged) flight' waits
  refine ⟨_, run, load.time, load.windows, load.roles, load.timeout, load.profiles, ?_, ?_, ?_, load.log, load.head, load.tail,
    load.flight, ⟨_, load.result, rfl, rfl⟩, fun j => ⟨load.configured j, fun x own => ⟨load.params j x own, (load.sectors j).tunables x own⟩,
      (load.sectors j).mode, (load.sectors j).history, (load.sectors j).resync, (load.sectors j).pack, (load.sectors j).unstaged,
      fun q other => ((load.sectors j).entries q).trans (congrArg StagedEntry.entry (stagedAfter_other other))⟩⟩
  · rw [load.notices]
    rfl
  · rw [load.notices]
  · rw [load.notices]

end Sys2Proof.Machine

/-! PROOF. The rows of the Outbound Writer and of the part's grants (R131, R161, R174, R175, R179), and the expiry of a backoff (R26). -/

namespace Sys2Proof.Machine

theorem heldKept (s : State) (rest : List Result) : DeviceKept s { s with channel := { s.channel with held := rest } } :=
  ⟨rfl, rfl, rfl, rfl, rfl, rfl, rfl, rfl, rfl, rfl, rfl, rfl, rfl, rfl⟩

/-- Settles O50: the oldest held result enters the pending word, with its COMMAND record. -/
theorem resultHandoffFillsThePendingWord : Obligations.ResultHandoffFillsThePendingWord := by
  unfold Obligations.ResultHandoffFillsThePendingWord
  intro s r rest free held
  obtain ⟨answer, channel⟩ := enterPending_spec r { s with channel := { s.channel with held := rest } }
  have run : exec .resultHandoff s = .next (enterPending r { s with channel := { s.channel with held := rest } }) := by
    refine congrArg Host.Outcome.next ?_
    rw [handHeld, free, held]
  exact ⟨_, run, answer.result, channel, answer.sectors, answer.ports,
    (heldKept s rest).trans answer.dev, answer.notices, answer.record⟩

/-- Settles O51: an expired backoff is a step into QUEUED at the tail. -/
theorem backoffExpiryQueuesAtTail : Obligations.BackoffExpiryQueuesAtTail := by
  unfold Obligations.BackoffExpiryQueuesAtTail
  intro s k r mode susp state backoff
  have run : exec (.backoffExpiry k r) s = .next (toQueueTail k r (StepInfo.plain .backoff) id s) :=
    congrArg Host.Outcome.next (if_pos ⟨mode, susp, state, backoff⟩)
  have notQueued : (s.entry k r).state ≠ .queued := by rw [state]; decide
  have moved := toQueueTail_moved k r (StepInfo.plain .backoff) id s (readyTail (s.sector k))
    ((s.entry k r).queuedAs (s.params k).restart (readyTail (s.sector k)).nextTail) .backoff rfl rfl notQueued (by rw [state]; rfl)
    (fun _ => rfl) (fun _ => rfl)
  refine ⟨_, _, rfl, run, moved.entry.trans ?_, (toQueueTail_counts notQueued).1, moved.others, moved.sector, moved.device, moved.ports,
    moved.channel⟩
  rw [Entry.queuedAs, ← backoff]

/-! ### An outbound write completed (R174, R175, R179) -/

section
variable {a b : List OutWrite} {o : OutWrite}

theorem removeIssued_of (ready : ∀ x ∈ a, x.issued = false) (issued : o.issued = true) : removeIssued (a ++ o :: b) = a ++ b := by
  induction a with
  | nil => simp [removeIssued, issued]
  | cons x a ih =>
    rw [List.cons_append, removeIssued, if_neg (by simp [ready x]), ih fun y hy => ready y (by simp [hy]), List.cons_append]

theorem oldestIssued_of (ready : ∀ x ∈ a, x.issued = false) (issued : o.issued = true) :
    oldestIssued (a ++ o :: b) = some o.source := by
  induction a with
  | nil => simp [oldestIssued, issued]
  | cons x a ih =>
    rw [List.cons_append, oldestIssued, if_neg (by simp [ready x]), ih fun y hy => ready y (by simp [hy])]

end

section
variable {s : State}

/-- A notice raised: its flag is set, and the device block may be marked. -/
theorem raiseNotice_eq (kind : NoticeKind) (s : State) : ∃ dirty, raiseNotice kind s = { s with
    notices := { s.notices with pending := s.notices.pending ||| ((1 : BitVec 8) <<< kind.bit.val) }
    writer := { s.writer with deviceDirty := dirty } } := by
  unfold raiseNotice setPendingNotices
  split
  next same => exact ⟨s.writer.deviceDirty, by rw [same]⟩
  next => exact ⟨true, rfl⟩

theorem completeWrite_spec (source : WriteSource) : ∃ dirty, completeWrite source s = { s with
    notices := { s.notices with
      pending := if source = .result then s.notices.pending ||| 0x40 else s.notices.pending }
    writer := { s.writer with deviceDirty := dirty } } := by
  cases source with
  | result => exact raiseNotice_eq .command s
  | log | device | counter | mirror => exact ⟨s.writer.deviceDirty, rfl⟩

theorem pushRecord_deviceDirty {rec : LogRecord} (dirty : s.writer.deviceDirty = true) :
    (pushRecord rec s).writer.deviceDirty = true := by
  unfold pushRecord
  split
  · rfl
  · exact dirty

/-- A dropped write counted and told, before its record. -/
def faultTold (s : State) : State :=
  { s with
    notices := { s.notices with pending := s.notices.pending ||| 0x80 }
    writer := { s.writer with faults := s.writer.faults + 1, deviceDirty := true } }

theorem told_fault (s : State) :
    raiseNotice .memoryFault (markDevice { s with writer := { s.writer with faults := s.writer.faults + 1 } }) = faultTold s := by
  obtain ⟨dirty, raised⟩ := raiseNotice_eq .memoryFault (markDevice { s with writer := { s.writer with faults := s.writer.faults + 1 } })
  have writer := raiseNotice_writer (u := markDevice { s with writer := { s.writer with faults := s.writer.faults + 1 } }) .memoryFault rfl
  rw [raised] at writer ⊢
  have marked : dirty = true := congrArg Writer.deviceDirty writer
  rw [marked]
  rfl

theorem dropWrite_log {source : WriteSource} (h : memoryCause source = none) : dropWrite source s = faultTold s := by
  simp only [dropWrite, told_fault, h]

theorem dropWrite_recorded {source : WriteSource} {cause : MemoryCause} {k : Option SectorNo}
    (h : memoryCause source = some (cause, k)) :
    dropWrite source s = logFor k (.memory cause (BitVec.ofNat 32 source.offset)) (faultTold s) := by
  simp only [dropWrite, told_fault, h]

/-- What a dropped write leaves, with or without its record. -/
structure Dropped (s t : State) : Prop where
  buffer : t.writer.buffer = s.writer.buffer
  ports : t.ports = s.ports
  sectors : t.sectors = s.sectors
  channel : t.channel = s.channel
  pending : t.notices.pending = s.notices.pending ||| 0x80
  faults : t.writer.faults = s.writer.faults + 1
  device : t.writer.deviceDirty = true
  counters : t.writer.counterDirty = s.writer.counterDirty
  mirrors : t.writer.mirrorDirty = s.writer.mirrorDirty

theorem dropped_logFor (k : Option SectorNo) (body : RecordBody) : Dropped s (logFor k body (faultTold s)) := by
  have quiet := local_logFor 0 k body (faultTold s)
  refine ⟨quiet.dev.buffer, quiet.ports, logFor_sectors k body _, quiet.channel, ?_, quiet.dev.faults, ?_,
    logFor_counterDirty k body _, logFor_mirrorDirty k body _⟩
  · rw [logFor_notices]
    rfl
  · cases k with
    | none | some => exact pushRecord_deviceDirty rfl

theorem dropped_dropWrite (source : WriteSource) : Dropped s (dropWrite source s) := by
  cases h : memoryCause source with
  | none =>
    rw [dropWrite_log h]
    exact ⟨rfl, rfl, rfl, rfl, rfl, rfl, rfl, rfl, rfl⟩
  | some given =>
    rw [dropWrite_recorded (cause := given.1) (k := given.2) h]
    exact dropped_logFor _ _

/-- The MEMORY record of a dropped write. -/
theorem dropWrite_logged {source : WriteSource} {cause : MemoryCause} {k : Option SectorNo} (h : memoryCause source = some (cause, k)) :
    Logged { time := s.time, sector := k, frame := k.map fun k => (s.sector k).frame
             body := .memory cause (BitVec.ofNat 32 source.offset) } s (dropWrite source s) := by
  rw [dropWrite_recorded h]
  exact logFor_logged k (.memory cause (BitVec.ofNat 32 source.offset)) (faultTold s)

end

/-- Settles O44: the place is freed; a result word tells COMMAND; a fault is counted, told, and recorded by its source. -/
theorem outboundWriteCompletionFreesPlace : Obligations.OutboundWriteCompletionFreesPlace := by
  unfold Obligations.OutboundWriteCompletionFreesPlace
  intro s error rest a o b outstanding buffer ready issued
  obtain ⟨v, hv⟩ : ∃ v, v = freePlace (answered s rest) := ⟨_, rfl⟩
  have freed : v.writer.buffer = a ++ b := by
    rw [hv]
    show removeIssued s.writer.buffer = a ++ b
    rw [buffer, removeIssued_of ready issued]
  have run : exec (.outboundWriteCompletion error) s = .next (if error then dropWrite o.source v else completeWrite o.source v) := by
    show execOutboundWriteCompletion error s = _
    rw [execOutboundWriteCompletion, popOutstanding_eq outstanding, outstanding, buffer, oldestIssued_of ready issued, hv]
  refine ⟨_, run, ?_⟩
  cases error with
  | false =>
    obtain ⟨dirty, complete⟩ := completeWrite_spec (s := v) o.source
    rw [if_neg (by decide), complete, hv]
    exact ⟨hv ▸ freed, rfl, rfl, rfl, fun _ => ⟨rfl, rfl, rfl⟩, fun h => absurd h (by decide)⟩
  | true =>
    rw [if_pos rfl]
    have dropped := dropped_dropWrite (s := v) o.source
    refine ⟨dropped.buffer.trans freed, by rw [dropped.ports, hv]; rfl, by rw [dropped.sectors, hv]; rfl,
      by rw [dropped.channel, hv]; rfl, fun h => absurd h (by decide), fun _ => ⟨by rw [dropped.pending, hv]; rfl,
        by rw [dropped.faults, hv]; rfl, dropped.device, by rw [dropped.counters, hv]; rfl, by rw [dropped.mirrors, hv]; rfl, ?_⟩⟩
    have logged {cause : MemoryCause} {k : Option SectorNo} (h : memoryCause o.source = some (cause, k)) :
        Logged { time := s.time, sector := k, frame := k.map fun k => (s.sector k).frame
                 body := .memory cause (BitVec.ofNat 32 o.source.offset) } s (dropWrite o.source v) :=
      hv ▸ dropWrite_logged (s := freePlace (answered s rest)) h
    refine ⟨fun log => ?_, fun result => ?_, fun device => ?_, fun k counter => ?_, fun g k mirror own => ?_⟩
    · rw [log, dropWrite_log rfl, hv]
      exact ⟨rfl, rfl⟩
    · rw [result] at logged ⊢
      exact logged rfl
    · rw [device] at logged ⊢
      exact logged rfl
    · rw [counter] at logged ⊢
      exact logged rfl
    · rw [mirror] at logged ⊢
      obtain rfl : k = groupSector g := Fin.ext own
      exact logged rfl

end Sys2Proof.Machine

/-! PROOF. What the memory port is granted to when it is the part's turn (R131), and where its requests go. -/

namespace Sys2Proof.Machine

section
variable {s : State}

theorem search_none : (masterOrder s.ports.lastMaster).find? (fun m => eligible s m) = none ↔ ∀ m, eligible s m = false := by
  rw [List.find?_eq_none]
  exact ⟨fun h m => by simpa using h m (mem_masterOrder _ m), fun h m _ => by simp [h m]⟩

/-- With no lock, no outbound write first and no eligible head, the part's own requests are next (R131 rules 4 and 5). -/
theorem arbiter_own (locks : s.ports.locks = []) (first : outboundFirst s = false) (none_eligible : ∀ m, eligible s m = false) :
    arbiter s = if s.channel.read.isSome then .partRead else if s.writer.hasReady then .outbound else .nothing := by
  simp only [arbiter, locks, first, search_none.mpr none_eligible, Bool.false_eq_true, if_false]

theorem arbiter_first (locks : s.ports.locks = []) (first : outboundFirst s = true) : arbiter s = .outbound := by
  simp only [arbiter, locks, first, if_true]

/-- A locked sequence keeps the port from the part (R131 rule 1). -/
theorem arbiter_lock_not_part (locks : s.ports.locks ≠ []) : arbiter s ≠ .outbound ∧ arbiter s ≠ .partRead := by
  obtain ⟨n, others, open_eq⟩ := List.exists_cons_of_ne_nil locks
  rw [arbiter_locked open_eq]
  split <;> exact ⟨nofun, nofun⟩

/-- So does an eligible head, where no outbound write is first (R131 rule 3). -/
theorem arbiter_eligible_not_part {m : MasterNo} (locks : s.ports.locks = []) (first : outboundFirst s = false)
    (may : eligible s m = true) : arbiter s ≠ .outbound ∧ arbiter s ≠ .partRead := by
  cases found : (masterOrder s.ports.lastMaster).find? fun m => eligible s m with
  | none =>
    rw [search_none.mp found m] at may
    cases may
  | some n =>
    have granted : arbiter s = .passThrough n := by
      simp only [arbiter, locks, first, found, Bool.false_eq_true, if_false]
    rw [granted]
    exact ⟨nofun, nofun⟩

theorem hasReady_of_first (first : outboundFirst s = true) : s.writer.hasReady = true := by
  simp only [outboundFirst, Bool.and_eq_true] at first
  exact first.1.2

theorem hasReady_iff (w : Writer) : w.hasReady = true ↔ ∃ o ∈ w.buffer, o.issued = false := by
  simp [Writer.hasReady]

theorem arbiter_outbound_iff : arbiter s = .outbound ↔ s.ports.locks = [] ∧ (outboundFirst s = true ∨
    ((∀ m, eligible s m = false) ∧ s.channel.read = none ∧ s.writer.hasReady = true)) := by
  by_cases locks : s.ports.locks = []
  · cases first : outboundFirst s with
    | true => simp [arbiter_first locks first, locks]
    | false =>
      by_cases may : ∃ m, eligible s m = true
      · obtain ⟨m, may⟩ := may
        refine ⟨fun h => absurd h (arbiter_eligible_not_part locks first may).1, ?_⟩
        rintro ⟨_, h | ⟨none_eligible, _⟩⟩
        · cases h
        · rw [none_eligible m] at may
          cases may
      · have none_eligible : ∀ m, eligible s m = false := by simpa using may
        rw [arbiter_own locks first none_eligible]
        cases read : s.channel.read <;> cases ready : s.writer.hasReady <;> simp [locks, none_eligible]
  · exact ⟨fun h => absurd h (arbiter_lock_not_part locks).1, fun h => absurd h.1 locks⟩

theorem arbiter_partRead_iff : arbiter s = .partRead ↔ s.ports.locks = [] ∧ outboundFirst s = false ∧
    (∀ m, eligible s m = false) ∧ s.channel.read ≠ none := by
  by_cases locks : s.ports.locks = []
  · cases first : outboundFirst s with
    | true => simp [arbiter_first locks first]
    | false =>
      by_cases may : ∃ m, eligible s m = true
      · obtain ⟨m, may⟩ := may
        refine ⟨fun h => absurd h (arbiter_eligible_not_part locks first may).2, ?_⟩
        rintro ⟨_, _, none_eligible, _⟩
        rw [none_eligible m] at may
        cases may
      · have none_eligible : ∀ m, eligible s m = false := by simpa using may
        rw [arbiter_own locks first none_eligible]
        cases read : s.channel.read <;> cases ready : s.writer.hasReady <;> simp [locks, none_eligible]
  · exact ⟨fun h => absurd h (arbiter_lock_not_part locks).2, fun h => absurd h.1 locks⟩

theorem exec_outboundWriteGrant_of (grant : arbiter s = .outbound) : exec .outboundWriteGrant s = .next (grantOutbound s) :=
  congrArg Host.Outcome.next (if_pos grant)

theorem exec_outboundWriteGrant_not (grant : arbiter s ≠ .outbound) : exec .outboundWriteGrant s = .next s :=
  congrArg Host.Outcome.next (if_neg grant)

theorem exec_partReadGrant_of (grant : arbiter s = .partRead) : exec .partReadGrant s = .next (grantRead s) :=
  congrArg Host.Outcome.next (if_pos grant)

theorem exec_partReadGrant_not (grant : arbiter s ≠ .partRead) : exec .partReadGrant s = .next s :=
  congrArg Host.Outcome.next (if_neg grant)

/-- When a head may be granted the port, by its class (R103, R131, R159). -/
theorem eligibleClass_iff (q : Request) (c : AccessClass) : eligibleClass s q c = true ↔ c.needsPort = true ∧
    (∀ w k, c = .snoopReport w k → s.holdOff = false ∨ q.master ∈ s.ports.locks) ∧
    (c = .takeCommand → s.writer.pendingResult = none ∧ s.channel.held = []) := by
  cases c with
  | pass | snoopDescriptor | patch | takeTail | takeMarker => simp [eligibleClass, AccessClass.needsPort]
  | absorb | refuse => simp [eligibleClass, AccessClass.needsPort]
  | snoopReport w k =>
    simp only [eligibleClass, heldOff, AccessClass.needsPort, true_and, Bool.not_and, Bool.not_not, Bool.or_eq_true,
      Bool.not_eq_true', List.contains_iff_mem]
    exact ⟨fun h => ⟨fun _ _ _ => h, nofun⟩, fun h => h.1 w k rfl⟩
  | takeCommand =>
    simp only [eligibleClass, Bool.not_eq_true', resultWaits_eq_false, AccessClass.needsPort, true_and]
    exact ⟨fun h => ⟨nofun, fun _ => h⟩, fun h => h.2 trivial⟩

theorem needsPort_false_iff (c : AccessClass) : c.needsPort = false ↔ c = .absorb ∨ ∃ cause, c = .refuse cause := by
  cases c <;> simp [AccessClass.needsPort]

theorem outboundFirst_iff : outboundFirst s = true ↔ 6 ≤ s.writer.buffer.length ∧
    (∃ o ∈ s.writer.buffer, o.issued = false) ∧ s.ports.lastOutbound = false := by
  simp only [outboundFirst, Bool.and_eq_true, decide_eq_true_eq, hasReady_iff, Bool.not_eq_true', and_assoc]
  rfl

end

/-- Settles O43: what the arbiter grants to the part, what then leaves, and the addresses of its reads. -/
theorem partGrantsIssueTheirRequests : Obligations.PartGrantsIssueTheirRequests := by
  unfold Obligations.PartGrantsIssueTheirRequests
  refine ⟨fun s a o b locks turn buffer issued ready => ?_, fun s target locks first none_eligible read => ?_,
    fun s => ⟨fun h => exec_outboundWriteGrant_not fun grant => ?_, fun h => exec_partReadGrant_not fun grant => ?_⟩,
    fun s m => ⟨eligible_of_empty, fun q rest waiting => ?_, outboundFirst_iff⟩, needsPort_false_iff, fun s k r => ?_⟩
  · obtain ⟨oldest, ready', marked⟩ := oldestReady_of buffer issued ready
    have grant : arbiter s = .outbound := arbiter_outbound_iff.mpr ⟨locks, turn.imp id fun h => ⟨h.1, h.2, ready'⟩⟩
    rw [exec_outboundWriteGrant_of grant, grantOutbound, oldest, marked]
    rfl
  · have grant : arbiter s = .partRead := arbiter_partRead_iff.mpr ⟨locks, first, none_eligible, by rw [read]; nofun⟩
    rw [exec_partReadGrant_of grant, grantRead, read]
    cases target <;> rfl
  · obtain ⟨locks, turn⟩ := arbiter_outbound_iff.mp grant
    obtain open_ | ⟨first, ⟨m, may⟩ | read⟩ | all_issued := h
    · exact open_ locks
    · obtain first' | ⟨none_eligible, _⟩ := turn
      · rw [first] at first'
        cases first'
      · rw [none_eligible m] at may
        cases may
    · obtain first' | ⟨_, none_read, _⟩ := turn
      · rw [first] at first'
        cases first'
      · exact read none_read
    · have ready : s.writer.hasReady = true := turn.elim hasReady_of_first fun h => h.2.2
      obtain ⟨o, here, unissued⟩ := (hasReady_iff _).mp ready
      rw [all_issued o here] at unissued
      cases unissued
  · obtain ⟨locks, first, none_eligible, read⟩ := arbiter_partRead_iff.mp grant
    obtain open_ | first' | ⟨m, may⟩ | none_read := h
    · exact open_ locks
    · rw [first] at first'
      cases first'
    · rw [none_eligible m] at may
      cases may
    · exact read none_read
  · have head : eligible s m = eligibleClass s q (classify s q) := by simp only [eligible, waiting]
    dsimp only
    rw [head]
    exact eligibleClass_iff q (classify s q)
  · refine ⟨fun i => rfl, fun kind => rfl, fun c setup staged k' r' late x flight own => ?_, fun w found => ?_⟩
    · have base : s.stagedDescBase k = some x.descBase := by simp only [State.stagedDescBase, flight, own, Option.map_some]
      rw [ReadTarget.addr, base]
      rfl
    · have window : windowOf s.windows .descriptor k = some w := found
      rw [ReadTarget.addr, window]
      rfl

end Sys2Proof.Machine

/-! PROOF. The responses to a relocation's reads: the staging entry (R135, R153, R163) and the descriptors of its read phase (R18, R155, R156). -/

namespace Sys2Proof.Machine

/-! ### The staging entry (R153) -/

section
variable {s : State} {k : SectorNo} {kind : RelocKind} {reply : Reply} {b : Beat}

theorem takeStagingReply_error (error : reply.error = true) : takeStagingReply k kind reply s = finish .memoryError 0 s := if_pos error

theorem takeStagingReply_fault {d : Nat} (error : reply.error = false) (data : reply.data = [b])
    (fault : relocationFault s kind k b = some d) : takeStagingReply k kind reply s = finish .invalid (BitVec.ofNat 16 d) s := by
  have first : reply.data.getD 0 0 = b := by rw [data]; rfl
  simp only [takeStagingReply, error, first, fault, Bool.false_eq_true, if_false]

theorem takeStagingReply_passed (error : reply.error = false) (data : reply.data = [b]) (fault : relocationFault s kind k b = none) :
    takeStagingReply k kind reply s = startRelocation k kind b s := by
  have first : reply.data.getD 0 0 = b := by rw [data]; rfl
  simp only [takeStagingReply, error, first, fault, Bool.false_eq_true, if_false]

/-- The window table of a started relocation. -/
def relocationTable (k : SectorNo) (kind : RelocKind) (b : Beat) (s : State) : List Window :=
  if kind = .map then (addMapWindow k (stagingBase b) s).windows else s.windows

theorem startRelocation_eq {f : InFlight} (flight : s.channel.inFlight = some f) : startRelocation k kind b s =
    { setPendingOp k (some (.relocation kind (stagingBase b) (relocSizeExp kind b) false)) s with
      windows := relocationTable k kind b s
      channel := { s.channel with inFlight := some { f with phase := .relocationPending s.deadline false } } } := by
  cases kind with
  | map | report | descriptor => exact setPhase_inFlight _ flight

theorem addMapWindow_table (w : Window) (here : w ∈ s.windows) (other : ¬ (w.kind = .map ∧ w.sector = some k)) (base : Addr) :
    w ∈ (addMapWindow k base s).windows := by
  refine List.mem_append_left _ (List.mem_map.mpr ⟨w, here, if_neg other⟩)

end

/-- The size exponent of a relocation, as R153 reads it. -/
theorem relocSizeExp_eq (kind : RelocKind) (b : Beat) :
    relocSizeExp kind b = if kind = .map then 11 else if kind = .report then (b.extractLsb' 40 5).toNat else 10 := by
  cases kind <;> rfl

theorem overlapped_iff (ws : List Window) (w : Window) : (ws.any fun v => v.overlaps w) = true ↔
    ∃ v ∈ ws, v.base.toNat < w.base.toNat + 2 ^ w.sizeExp ∧ w.base.toNat < v.base.toNat + 2 ^ v.sizeExp := by
  refine List.any_eq_true.trans (exists_congr fun v => and_congr_right fun _ => ?_)
  rw [Window.overlaps, Bool.and_eq_true, decide_eq_true_iff, decide_eq_true_iff]
  rfl

/-- Settles O48: an ERROR, a failed check and a started relocation; the checks in the order of R153. -/
theorem stagingReadResponseMakesTheChecks : Obligations.StagingReadResponseMakesTheChecks := by
  unfold Obligations.StagingReadResponseMakesTheChecks
  refine ⟨fun s reply b k kind rest cmd outstanding data flight waits => ?_, fun s kind k b base exp base_eq exp_eq => ?_⟩
  · have run : exec (.stagingReadResponse reply) s = .next (takeStagingReply k kind reply (answered s rest)) :=
      partReadReply_taken outstanding (by rw [data]; rfl)
    have flight' : (answered s rest).channel.inFlight = some { cmd := cmd, phase := .readingStaging } := flight
    have ended (code : ResultCode) (d : Half) := (finish_spec code d (answered s rest) _ flight' waits).1
    refine ⟨_, run, ?_⟩
    cases error : reply.error with
    | true =>
      rw [takeStagingReply_error error]
      have answer := ended .memoryError 0
      exact ⟨answer.ports, answer.dev.time, fun j _ => answer.sector j, fun _ => ⟨answer.sectors, answer.dev.windows, _, answer.result, rfl, rfl, rfl⟩,
        fun _ h => absurd h (by decide), fun h => absurd h (by decide)⟩
    | false =>
      cases fault : relocationFault (answered s rest) kind k b with
      | some d =>
        rw [takeStagingReply_fault error data fault]
        have same : relocationFault s kind k b = some d := fault
        have answer := ended .invalid (BitVec.ofNat 16 d)
        refine ⟨answer.ports, answer.dev.time, fun j _ => answer.sector j, fun h => absurd h (by decide), fun d' _ failed => ?_, fun _ passed => ?_⟩
        · obtain rfl := Option.some.inj (same.symm.trans failed)
          exact ⟨answer.sectors, answer.dev.windows, _, answer.result, rfl, rfl, rfl⟩
        · rw [same] at passed
          cases passed
      | none =>
        rw [takeStagingReply_passed error data fault, startRelocation_eq flight']
        have same : relocationFault s kind k b = none := fault
        refine ⟨rfl, rfl, setPendingOp_others k (answered s rest) _, fun h => absurd h (by decide), fun d _ failed => ?_, fun _ _ =>
          ⟨setPendingOp_sector k (answered s rest) _, rfl, rfl, fun other => if_neg other, fun map => ?_⟩⟩
        · rw [same] at failed
          cases failed
        · have table : relocationTable k kind b (answered s rest) = (addMapWindow k (stagingBase b) s).windows := if_pos map
          have added : (addMapWindow k (stagingBase b) s).windows = (s.windows.map fun w =>
              if w.kind = .map ∧ w.sector = some k then { w with mark := .old } else w) ++
              [{ kind := .map, base := stagingBase b, sizeExp := 11, sector := some k, mark := .new }] := rfl
          refine ⟨?_, ?_, fun w here other => table ▸ addMapWindow_table w here other (stagingBase b)⟩
          · rw [table, added, List.length_append, List.length_map, List.length_singleton]
          · rw [table, added, List.getLast?_concat]
  · rw [← relocSizeExp_eq kind b] at exp_eq
    subst base_eq exp_eq
    have aligned : (Window.aligned { kind := .map, base := stagingBase b, sizeExp := relocSizeExp kind b, sector := some k, mark := .new } = false) =
        ((stagingBase b).toNat % 2 ^ relocSizeExp kind b ≠ 0) := by
      simp [Window.aligned, Window.size]
    have range : (within 10 16 (relocSizeExp kind b) = false) = ¬ (10 ≤ relocSizeExp kind b ∧ relocSizeExp kind b ≤ 16) := by
      rw [within, ← Bool.decide_and, decide_eq_false_iff_not]
    simp only [relocationFault, aligned, range, overlapped_iff]
    rfl

end Sys2Proof.Machine

/-! PROOF. The read phase of a relocation (R18, R155, R156, R162). -/

namespace Sys2Proof.Machine

/-! ### The differing lanes of a descriptor (R18, R155) -/

/-- The lanes 0 to 3 where the flags say. -/
def lanesWhere (a b c d : Bool) : Lanes :=
  (if a then (1 : Lanes) else 0) ||| (if b then (2 : Lanes) else 0) ||| (if c then (4 : Lanes) else 0) ||| (if d then (8 : Lanes) else 0)

theorem lanesWhere_low : ∀ a b c d : Bool, (lanesWhere a b c d).getLsbD 0 = a ∧ (lanesWhere a b c d).getLsbD 1 = b ∧
    (lanesWhere a b c d).getLsbD 2 = c ∧ (lanesWhere a b c d).getLsbD 3 = d ∧ (lanesWhere a b c d).toNat < 16 := by decide

theorem lanesWhere_high (a b c d : Bool) {n : Nat} (h : 4 ≤ n) : (lanesWhere a b c d).getLsbD n = false := by
  obtain ⟨_, _, _, _, small⟩ := lanesWhere_low a b c d
  exact Nat.testBit_lt_two_pow (Nat.lt_of_lt_of_le small (Nat.pow_le_pow_right (n := 2) (by decide) h))

theorem differingLanes_eq (e : Entry) (b : Beat) : differingLanes e b =
    lanesWhere (adminOf (beatByte b 0) != e.admin) ((beatByte b 1).toNat != e.ceiling) ((beatByte b 2).toNat != e.cls)
      (!(groupOk (beatByte b 3) && groupOf (beatByte b 3) == e.group)) := by
  have flip (g : Bool) : (if g then (0 : Lanes) else 8) = if !g then 8 else 0 := by cases g <;> rfl
  rw [differingLanes, flip]
  simp [lanesWhere]

theorem groupsAlike_iff (e : Entry) (v : Byte) : (groupOk v && groupOf v == e.group) = true ↔
    v.toNat ≤ 15 ∧ e.group = if v.toNat = 0 then none else some v.toNat := by
  simp only [groupOk, groupOf, Bool.and_eq_true, decide_eq_true_eq, beq_iff_eq]
  exact and_congr_right fun _ => eq_comm

/-- Which lanes differ, and whether the remote counts as changed. -/
theorem differingLanes_spec (e : Entry) (b : Beat) :
    ((differingLanes e b).getLsbD 0 = true ↔ b.getLsbD 0 ≠ e.admin) ∧
    ((differingLanes e b).getLsbD 1 = true ↔ (beatByte b 1).toNat ≠ e.ceiling) ∧
    ((differingLanes e b).getLsbD 2 = true ↔ (beatByte b 2).toNat ≠ e.cls) ∧
    ((differingLanes e b).getLsbD 3 = true ↔ ¬ ((beatByte b 3).toNat ≤ 15 ∧
      e.group = if (beatByte b 3).toNat = 0 then none else some (beatByte b 3).toNat)) ∧
    (∀ n, 4 ≤ n → (differingLanes e b).getLsbD n = false) := by
  have bit : adminOf (beatByte b 0) = b.getLsbD 0 := by simp [adminOf, beatByte]
  rw [differingLanes_eq, bit]
  obtain ⟨admin, ceiling, cls, group, _⟩ := lanesWhere_low (b.getLsbD 0 != e.admin) ((beatByte b 1).toNat != e.ceiling)
    ((beatByte b 2).toNat != e.cls) (!(groupOk (beatByte b 3) && groupOf (beatByte b 3) == e.group))
  rw [admin, ceiling, cls, group]
  refine ⟨bne_iff_ne, bne_iff_ne, bne_iff_ne, ?_, fun n h => lanesWhere_high _ _ _ _ h⟩
  rw [Bool.not_eq_true', ← Bool.not_eq_true, groupsAlike_iff]

theorem countsAsChanged_iff (e : Entry) (b : Beat) : countsAsChanged e b = true ↔
    (differingLanes e b).getLsbD 0 = true ∨ ((differingLanes e b).getLsbD 1 = true ∧ (beatByte b 1).toNat ≤ 11) ∨
      ((differingLanes e b).getLsbD 2 = true ∧ (beatByte b 2).toNat ≤ 3) ∨
      ((differingLanes e b).getLsbD 3 = true ∧ (beatByte b 3).toNat ≤ 15) := by
  simp only [countsAsChanged, laneOn, ceilingOk, classOk, groupOk, Bool.or_eq_true, Bool.and_eq_true, decide_eq_true_eq, or_assoc]

/-! ### One descriptor of the read phase -/

section
variable {s : State} {k : SectorNo} {r : RemoteNo} {reply : Reply} {b : Beat} {cmd : Command} {changed : Nat}
  {failed : Option RemoteNo} {late : List LateWrite} {cancel : Option Command}

/-- A descriptor and the writes accepted since its read, taken on the entries. -/
def descriptorTaken (k : SectorNo) (r : RemoteNo) (error : Bool) (b : Beat) (late : List LateWrite) (s : State) : State :=
  late.foldl (fun x w => changeDescriptor k r w.lanes w.beat x)
    (if error then s else changeDescriptor k r (differingLanes (s.entry k r) b) b s)

theorem local_lateWrites : ∀ (late : List LateWrite) (s : State),
    Local k s (late.foldl (fun x w => changeDescriptor k r w.lanes w.beat x) s)
  | [], s => .refl k s
  | w :: late, s => (local_changeDescriptor k r w.lanes w.beat s).trans (local_lateWrites late _)

theorem local_descriptorTaken (error : Bool) : Local k s (descriptorTaken k r error b late s) := by
  refine Local.trans ?_ (local_lateWrites late _)
  cases error with
  | true => exact .refl k s
  | false => exact local_changeDescriptor k r _ b s

/-- The lowest failing remote, and the count of remotes that differed, after a descriptor. -/
def failedAfter (error : Bool) (failed : Option RemoteNo) (r : RemoteNo) : Option RemoteNo :=
  if error then some (failed.getD r) else failed

def changedAfter (error : Bool) (e : Entry) (b : Beat) (changed : Nat) : Nat :=
  if error = false ∧ countsAsChanged e b = true then changed + 1 else changed

/-- The read phase goes on, or ends after the last descriptor. -/
def nextRead (k : SectorNo) (r : RemoteNo) (changed : Nat) (failed : Option RemoteNo) (cancel : Option Command) (s : State) : State :=
  if h : r.val + 1 < 128 then
    waitRead (some (.relocDescriptor k ⟨r.val + 1, h⟩)) (setPhase (.relocationReading ⟨r.val + 1, h⟩ changed failed [] cancel) s)
  else endRelocation k changed failed cancel s

theorem takeRelocDescriptorReply_eq {q : RemoteNo} (data : reply.data = [b])
    (flight : s.channel.inFlight = some { cmd := cmd, phase := .relocationReading q changed failed late cancel }) :
    takeRelocDescriptorReply k r reply s = nextRead k r (changedAfter reply.error (s.entry k r) b changed)
      (failedAfter reply.error failed r) cancel (descriptorTaken k r reply.error b late s) := by
  have first : reply.data.getD 0 0 = b := by rw [data]; rfl
  have lowest : (if reply.error then failed.or (some r) else failed) = failedAfter reply.error failed r := by
    cases failed <;> rfl
  have count : (if (!reply.error && countsAsChanged (s.entry k r) b) = true then changed + 1 else changed) =
      changedAfter reply.error (s.entry k r) b changed := by
    simp [changedAfter]
  simp only [takeRelocDescriptorReply, flight, first, lowest, count]
  rfl

/-- The relocation of a sector is over. -/
structure RelocationEnded (k : SectorNo) (s t : State) : Prop where
  ports : t.ports = s.ports
  dev : DeviceKept s t
  others : OtherSectors k s t
  idle : (t.sector k).pendingOp = none
  entries : ∀ q, t.entry k q = s.entry k q

theorem Answers.relocationEnded {r : Result} {t : State} (h : Answers r (setPendingOp k none s) t) : RelocationEnded k s t := by
  have sector : t.sector k = { s.sector k with pendingOp := none } := (h.sector k).trans (setPendingOp_sector k s none)
  refine ⟨h.ports, (quiet_setPendingOp k s none).dev.trans h.dev, fun j other => (h.sector j).trans (setPendingOp_others k s none j other),
    by rw [sector], fun q => by rw [State.entry, sector]; rfl⟩

/-- The end with no CANCEL waiting: one result. -/
theorem endRelocation_alone {f : InFlight} (flight : s.channel.inFlight = some f) (waits : s.resultWaits = false) (n : Nat) :
    RelocationEnded k s (endRelocation k n failed none s) ∧ (endRelocation k n failed none s).channel.held = [] ∧
    ∃ r, (endRelocation k n failed none s).writer.pendingResult = some r ∧ r.tag = f.cmd.tag ∧
      r.result = (if failed.isSome then .memoryError else .done) ∧ r.detail = BitVec.ofNat 16 ((failed.map Fin.val).getD n) := by
  have held : s.channel.held = [] := (resultWaits_eq_false.mp waits).2
  have ended (code : ResultCode) (d : Half) := (finish_spec code d (setPendingOp k none s) f flight waits).1
  cases failed with
  | none =>
    have answer := ended .done (BitVec.ofNat 16 n)
    exact ⟨answer.relocationEnded, answer.held.trans held, _, answer.result, rfl, rfl, rfl⟩
  | some q =>
    have answer := ended .memoryError (BitVec.ofNat 16 q.val)
    exact ⟨answer.relocationEnded, answer.held.trans held, _, answer.result, rfl, rfl, rfl⟩

theorem DeviceKept.withChannel {t : State} {c : Channel} (h : DeviceKept s t) (base : c.anchorBase = t.channel.anchorBase) :
    DeviceKept s { t with channel := c } :=
  ⟨h.pending, h.time, h.windows, h.roles, h.store, h.classes, h.floor, h.log, h.head, h.tail, h.buffer, h.lastGroup, h.faults,
    base.trans h.base⟩

/-- The end with a CANCEL waiting: CANCELLED, and the CANCEL's DONE behind it. -/
theorem endRelocation_cancelled {f : InFlight} (c : Command) (flight : s.channel.inFlight = some f) (waits : s.resultWaits = false) (n : Nat) :
    RelocationEnded k s (endRelocation k n failed (some c) s) ∧
    (endRelocation k n failed (some c) s).channel.held = [resultOf c .done 0 false] ∧
    ∃ r, (endRelocation k n failed (some c) s).writer.pendingResult = some r ∧ r.tag = f.cmd.tag ∧ r.result = .cancelled ∧
      r.detail = BitVec.ofNat 16 ((failed.map Fin.val).getD 0xFFFF) := by
  obtain ⟨d, hd, whole⟩ : ∃ d : Half, d = BitVec.ofNat 16 ((failed.map Fin.val).getD 0xFFFF) ∧
      endRelocation k n failed (some c) s = answer c .done 0 (finish .cancelled d (setPendingOp k none s)) := by
    cases failed with
    | none => exact ⟨_, rfl, rfl⟩
    | some q => exact ⟨_, rfl, rfl⟩
  have answers := (finish_spec .cancelled d (setPendingOp k none s) f flight waits).1
  have ended := answers.relocationEnded
  have held : (finish .cancelled d (setPendingOp k none s)).channel.held = [] := answers.held.trans (resultWaits_eq_false.mp waits).2
  rw [whole, answer_behind c .done 0 answers.result held]
  exact ⟨⟨ended.ports, ended.dev.withChannel rfl, ended.others, ended.idle, ended.entries⟩,
    rfl, _, answers.result, rfl, rfl, hd⟩

theorem nextRead_on {r' : RemoteNo} (h : r'.val = r.val + 1) {f : InFlight} (flight : s.channel.inFlight = some f) (n : Nat) :
    nextRead k r n failed cancel s = { s with channel := { s.channel with
      inFlight := some { f with phase := .relocationReading r' n failed [] cancel }, read := some (.relocDescriptor k r') } } := by
  have below : r.val + 1 < 128 := h ▸ r'.isLt
  obtain rfl : r' = ⟨r.val + 1, below⟩ := Fin.ext h
  rw [nextRead, dif_pos below, setPhase_inFlight _ flight]
  rfl

theorem nextRead_last (n : Nat) : nextRead k 127 n failed cancel s = endRelocation k n failed cancel s := dif_neg (by decide)

end

/-- Settles O49: a descriptor's differences and late writes are taken; the read phase goes on, or ends with its result. -/
theorem relocationReadTakesDifferences : Obligations.RelocationReadTakesDifferences := by
  unfold Obligations.RelocationReadTakesDifferences
  refine ⟨fun s reply b k r r' rest cmd changed failed late cancel outstanding data following flight => ?_,
    fun s reply b k rest cmd changed failed late cancel outstanding data flight waits => ?_, fun e b => ?_⟩
  · intro popped u
    have flight' : (answered s rest).channel.inFlight =
        some { cmd := cmd, phase := .relocationReading r changed failed late cancel } := flight
    have run : exec (.relocationDescriptorReadResponse reply) s = .next (takeRelocDescriptorReply k r reply (answered s rest)) :=
      partReadReply_taken outstanding (by rw [data]; rfl)
    obtain ⟨v, hv⟩ : ∃ v, v = descriptorTaken k r reply.error b late (answered s rest) := ⟨_, rfl⟩
    have same : u = v := hv.symm
    have taken : Local k (answered s rest) v := hv ▸ local_descriptorTaken reply.error
    rw [takeRelocDescriptorReply_eq data flight', ← hv, nextRead_on following (taken.channel ▸ flight')] at run
    rw [same]
    refine ⟨_, run, taken.ports, ?_, taken.others, rfl, rfl, rfl, fun error => ?_, fun error => ⟨?_, ?_⟩⟩
    · exact ((answered_kept s rest).trans taken.dev).withChannel rfl
    · rw [error, changedAfter]
      simp only [true_and]
      rfl
    · rintro rfl
      rw [hv, error]
      exact ⟨rfl, rfl⟩
    · rw [error]
      rfl
  · intro popped u lowest count
    have flight' : (answered s rest).channel.inFlight =
        some { cmd := cmd, phase := .relocationReading 127 changed failed late cancel } := flight
    have run : exec (.relocationDescriptorReadResponse reply) s = .next (takeRelocDescriptorReply k 127 reply (answered s rest)) :=
      partReadReply_taken outstanding (by rw [data]; rfl)
    obtain ⟨v, hv⟩ : ∃ v, v = descriptorTaken k 127 reply.error b late (answered s rest) := ⟨_, rfl⟩
    have same : u = v := hv.symm
    have taken : Local k (answered s rest) v := hv ▸ local_descriptorTaken reply.error
    have flight_v : v.channel.inFlight = some { cmd := cmd, phase := .relocationReading 127 changed failed late cancel } :=
      taken.channel ▸ flight'
    have waits_v : v.resultWaits = false := (resultWaits_congr taken.channel taken.result).trans waits
    rw [takeRelocDescriptorReply_eq data flight', ← hv, nextRead_last] at run
    have dev : DeviceKept s v := (answered_kept s rest).trans taken.dev
    have unchanged (error : reply.error = true) (none_late : late = []) : v = answered s rest := by
      rw [hv, error, none_late]
      rfl
    rw [same]
    refine ⟨_, run, ?_⟩
    cases cancel with
    | none =>
      obtain ⟨ended, held, r, result, tag, code, detail⟩ := endRelocation_alone (k := k) (failed := lowest) flight_v waits_v count
      refine ⟨ended.ports.trans taken.ports, dev.trans ended.dev, taken.others.trans ended.others, ended.idle, ended.entries,
        fun error none_late q => (ended.entries q).trans (by rw [unchanged error none_late]; rfl), r, result, tag,
        fun _ => ⟨held, code, detail⟩, nofun⟩
    | some c =>
      obtain ⟨ended, held, r, result, tag, code, detail⟩ := endRelocation_cancelled (k := k) (failed := lowest) c flight_v waits_v count
      refine ⟨ended.ports.trans taken.ports, dev.trans ended.dev, taken.others.trans ended.others, ended.idle, ended.entries,
        fun error none_late q => (ended.entries q).trans (by rw [unchanged error none_late]; rfl), r, result, tag,
        nofun, fun d given => ?_⟩
      obtain rfl := Option.some.inj given
      exact ⟨code, detail, _, held, rfl, rfl, rfl⟩
  · obtain ⟨admin, ceiling, cls, group, high⟩ := differingLanes_spec e b
    refine ⟨admin, ceiling, cls, group, high, ?_⟩
    rw [countsAsChanged_iff, admin, ceiling, cls, group]

end Sys2Proof.Machine

/-! PROOF. What a configuration that passes its tests is (R167, Table 9.4). -/

namespace Sys2Proof.Machine

section
variable {area : List Beat} {anchor : Addr}

theorem perEight_getElem {α : Type} (f : Fin 8 → α) (i : Fin 8) : (perEight f)[i] = f i := by
  fin_cases i <;> rfl

theorem setupOf_sectors (area : List Beat) (k : SectorNo) :
    (setupOf area).sectors[k] = if areaConfigured area k then some (sectorSetupOf area k) else none :=
  perSector_getElem (fun k => if areaConfigured area k then some (sectorSetupOf area k) else none) k

theorem setupOf_classes (area : List Beat) (i : Fin 8) : (setupOf area).classes[i] = areaNat area (0x120 + i.val) :=
  perEight_getElem (fun i => areaNat area (0x120 + i.val)) i

theorem setupOf_roles (area : List Beat) (m : MasterNo) :
    (setupOf area).roles[m] = (roleOfByte (areaByte area (0x128 + m.val))).getD .other :=
  perEight_getElem (fun m => (roleOfByte (areaByte area (0x128 + m.val))).getD .other) m

/-- A profile as the area spells it. -/
def areaProfile (area : List Beat) (p : Nat) : Margins :=
  { enter := areaSigned area (0x140 + 4 * p), exit := areaSigned area (0x142 + 4 * p) }

theorem setupOf_profiles (area : List Beat) : (setupOf area).profiles = (List.range 12).map (areaProfile area) := rfl

theorem within_iff (low high n : Nat) : within low high n = true ↔ low ≤ n ∧ n ≤ high := by
  rw [within, Bool.and_eq_true, decide_eq_true_iff, decide_eq_true_iff]

theorem marginOk_iff (m : Int) : marginOk m = true ↔ -512 ≤ m ∧ m ≤ 511 := by
  rw [marginOk, Bool.and_eq_true, decide_eq_true_iff, decide_eq_true_iff]

theorem alignedTo_iff (e : Nat) (a : Addr) : alignedTo e a = true ↔ a.toNat % 2 ^ e = 0 := by
  rw [alignedTo, beq_iff_eq]

/-- A size item that is present has passed its test, and its base is aligned. -/
theorem sized_of_tests {expOk : Nat → Bool} {grow expOff baseOff expCode baseCode e : Nat} {b : Addr}
    (tests : ∀ x ∈ sizedTests expOk grow (areaNat area expOff) (areaBase area baseOff) expCode baseCode, x.1 = true)
    (given : sizedBase area expOff baseOff = some (e, b)) : expOk e = true ∧ b.toNat % 2 ^ (e + grow) = 0 := by
  unfold sizedBase at given
  split at given
  · cases given
  · next present =>
    obtain ⟨rfl, rfl⟩ := Prod.mk.inj (Option.some.inj given)
    simpa [sizedTests, present, alignedTo_iff] using tests

/-- The tests group by group. -/
theorem allTests_groups (h : ∀ x ∈ allTests area anchor, x.1 = true) :
    (∀ x ∈ deviceTests area, x.1 = true) ∧ (∀ x ∈ profileTests area, x.1 = true) ∧
    (∀ k, areaConfigured area k = true → ∀ x ∈ sectorTests area k, x.1 = true) ∧
    (∀ x ∈ overlapTests [] (windowCodes (setupOf area) anchor), x.1 = true) ∧ ∀ x ∈ roleTests area, x.1 = true := by
  simp only [allTests, List.forall_mem_append] at h
  obtain ⟨⟨⟨⟨device, profile⟩, sector⟩, overlap⟩, role⟩ := h
  refine ⟨device, profile, fun k configured x here => sector x ?_, overlap, role⟩
  exact List.mem_flatMap.mpr ⟨k, mem_sectorNos k, by rwa [if_pos configured]⟩

theorem sector_of_tests {k : SectorNo} (h : ∀ x ∈ sectorTests area k, x.1 = true) : (sectorSetupOf area k).Valid := by
  simp only [sectorTests, List.forall_mem_cons, within_iff, marginOk_iff, alignedTo_iff] at h
  obtain ⟨desc, map, report, aligned, latency, fade, attempts, backoff, ranging, climb, margin, timing, power, restart, floor, cap,
    budget, _, _, threshold, holdDown, settle, _⟩ := h
  refine ⟨desc, map, ⟨report.1, report.2, aligned⟩, latency, fade, attempts, backoff, ranging, climb, margin, timing.2, power.2,
    restart.2, floor.2, ?_, budget.2, threshold, holdDown.2, settle.2⟩
  simpa [capOk, or_assoc] using cap

theorem profile_of_tests (h : ∀ x ∈ profileTests area, x.1 = true) {p : Nat} (below : p < 12) :
    (-512 ≤ (areaProfile area p).exit ∧ (areaProfile area p).exit < (areaProfile area p).enter ∧ (areaProfile area p).enter ≤ 511) ∧
    (0 < p → (areaProfile area (p - 1)).enter < (areaProfile area p).enter) := by
  have test := h _ (List.mem_map.mpr ⟨p, List.mem_range.mpr below, rfl⟩)
  simp only [Bool.and_eq_true, marginOk_iff, decide_eq_true_iff, Bool.or_eq_true, beq_iff_eq] at test
  obtain ⟨⟨⟨enter, exit⟩, order⟩, rising⟩ := test
  exact ⟨⟨exit.1, order, enter.2⟩, fun later => rising.resolve_left (Nat.pos_iff_ne_zero.mp later)⟩

theorem role_of_tests (h : ∀ x ∈ roleTests area, x.1 = true) :
    (∀ (m : MasterNo) (k : SectorNo), (setupOf area).roles[m] = .builder k ∨ (setupOf area).roles[m] = .receiver k →
      areaConfigured area k = true) ∧ ∃ m : MasterNo, (setupOf area).roles[m] = .controller := by
  simp only [roleTests, List.forall_mem_append, List.forall_mem_map, List.mem_range, List.forall_mem_singleton] at h
  obtain ⟨each, controller⟩ := h
  refine ⟨fun m k role => ?_, ?_⟩
  · have test := each m.val m.isLt
    rw [setupOf_roles] at role
    cases named : roleOfByte (areaByte area (0x128 + m.val)) with
    | none =>
      rw [named] at role
      obtain role | role := role <;> cases role
    | some r =>
      rw [named] at role test
      obtain rfl | rfl := role
      · exact test
      · exact test
  · simp only [List.any_eq_true, List.mem_range, decide_eq_true_iff] at controller
    obtain ⟨m, below, named⟩ := controller
    refine ⟨⟨m, below⟩, ?_⟩
    rw [setupOf_roles, named]
    rfl

theorem setupOf_log (area : List Beat) : (setupOf area).log = sizedBase area 0x102 0x108 := rfl
theorem setupOf_guard0 (area : List Beat) : (setupOf area).guard0 = sizedBase area 0x103 0x110 := rfl
theorem setupOf_guard1 (area : List Beat) : (setupOf area).guard1 = sizedBase area 0x104 0x118 := rfl

theorem profileAt {p : Nat} {m : Margins} (h : (setupOf area).profiles[p]? = some m) : p < 12 ∧ areaProfile area p = m := by
  rw [setupOf_profiles, List.getElem?_map, Option.map_eq_some_iff] at h
  obtain ⟨q, here, rfl⟩ := h
  obtain ⟨below, rfl⟩ := List.getElem?_eq_some_iff.mp here
  rw [List.length_range] at below
  exact ⟨below, by rw [List.getElem_range]⟩

/-- A configuration whose tests all pass is valid. -/
theorem valid_of_tests (h : ∀ x ∈ allTests area anchor, x.1 = true) : (setupOf area).Valid anchor := by
  obtain ⟨device, profile, sector, overlap, role⟩ := allTests_groups h
  simp only [deviceTests, List.forall_mem_append] at device
  obtain ⟨⟨⟨⟨head, log⟩, guard0⟩, guard1⟩, classes⟩ := device
  simp only [List.forall_mem_cons, within_iff] at head
  obtain ⟨timeout, floor, _⟩ := head
  obtain ⟨configured, controller⟩ := role_of_tests role
  refine ⟨timeout, floor.2, fun i => ?_, fun k b given => ?_, fun e b given => ?_, ⟨by simp [setupOf_profiles], fun m here => ?_⟩,
    fun p a b here after => ?_, fun k x own => ?_, ?_, fun m k own => ?_, controller⟩
  · rw [setupOf_classes]
    rw [List.forall_mem_map] at classes
    have below : i.val ∈ List.range 8 := List.mem_range.mpr i.isLt
    have test := classes i.val below
    dsimp only at test
    rw [within_iff] at test
    exact test.2
  · obtain ⟨size, aligned⟩ := sized_of_tests log given
    obtain ⟨low, high⟩ := (within_iff 6 14 k).mp size
    exact ⟨low, high, aligned⟩
  · have sized : within 3 39 e = true ∧ b.toNat % 2 ^ (e + 0) = 0 :=
      given.elim (fun given => sized_of_tests guard0 given) fun given => sized_of_tests guard1 given
    obtain ⟨low, high⟩ := (within_iff 3 39 e).mp sized.1
    exact ⟨low, high, sized.2⟩
  · rw [setupOf_profiles] at here
    obtain ⟨p, below, rfl⟩ := List.mem_map.mp here
    exact (profile_of_tests profile (List.mem_range.mp below)).1
  · obtain ⟨_, rfl⟩ := profileAt here
    obtain ⟨below, rfl⟩ := profileAt after
    exact (profile_of_tests profile below).2 (Nat.succ_pos p)
  · rw [setupOf_sectors] at own
    split at own
    · next on =>
      obtain rfl := Option.some.inj own
      exact sector_of_tests (sector k on)
    · cases own
  · have apart := (apart_of_tests _ _ overlap).2
    rwa [windowCodes_fst] at apart
  · rw [setupOf_sectors, if_pos (configured m k own)]
    rfl

end

end Sys2Proof.Machine

/-! PROOF. The items of a configuration area and the tests of R167, in the order they are made. -/

namespace Sys2Proof.Machine

/-! ### The items (Table 11.8) -/

/-- The sector a role byte names. -/
def roleByteSector (b : Byte) : SectorNo := ⟨b.toNat / 16 % 4, Nat.mod_lt _ (by decide)⟩

theorem roleOfByte_eq (b : Byte) : roleOfByte b =
    if b.toNat % 8 = 0 then some .controller else if b.toNat % 8 = 1 then some (.builder (roleByteSector b))
    else if b.toNat % 8 = 2 then some (.receiver (roleByteSector b)) else if b.toNat % 8 = 3 then some .other else none := by
  have sector : (⟨(b.extractLsb' 4 2).toNat, (b.extractLsb' 4 2).isLt⟩ : SectorNo) = roleByteSector b := by
    have place : (b.extractLsb' 4 2).toNat = b.toNat / 16 % 4 := by rw [BitVec.extractLsb'_toNat, Nat.shiftRight_eq_div_pow]
    exact Fin.ext place
  have kind : (b.extractLsb' 0 3).toNat = b.toNat % 8 := by
    rw [BitVec.extractLsb'_toNat, Nat.shiftRight_eq_div_pow, Nat.pow_zero, Nat.div_one]
  rw [roleOfByte, sector, kind]
  have below : b.toNat % 8 < 8 := Nat.mod_lt _ (by decide)
  interval_cases b.toNat % 8 <;> rfl

section
variable (area : List Beat)

theorem areaConfigured_iff (k : SectorNo) : areaConfigured area k = true ↔ ¬ areaNat area (blockOff k) % 2 = 0 := by
  rw [areaConfigured, areaNat, BitVec.getLsbD, Nat.testBit_zero, decide_eq_true_iff]
  omega

theorem mask_eq (b : Byte) : b.extractLsb' 0 6 = BitVec.ofNat 6 b.toNat := by
  refine BitVec.eq_of_toNat_eq ?_
  rw [BitVec.extractLsb'_toNat, BitVec.toNat_ofNat, Nat.shiftRight_zero]

/-- A base item, from its bytes. -/
def baseBytes (area : List Beat) (off : Nat) : Addr :=
  areaByte area (off + 4) ++ areaByte area (off + 3) ++ areaByte area (off + 2) ++ areaByte area (off + 1) ++ areaByte area off

/-- A sector's items at the offset of its block. -/
def sectorAt (area : List Beat) (o : Nat) : SectorSetup := {
  descBase := baseBytes area (o + 0x08), mapBase := baseBytes area (o + 0x10), reportBase := baseBytes area (o + 0x18)
  reportExp := areaNat area (o + 0x20)
  params := {
    latency := areaNat area (o + 0x21), fadeCount := areaNat area (o + 0x22), attemptsLimit := areaNat area (o + 0x23)
    backoffBase := areaNat area (o + 0x24), rangingLimit := areaNat area (o + 0x25), climbHold := areaNat area (o + 0x26)
    timingTolerance := areaNat area (o + 0x27), powerTolerance := areaNat area (o + 0x28), restart := areaNat area (o + 0x29)
    acceptMargin := (areaHalf area (o + 0x30)).toInt }
  tunables := {
    floor := areaNat area (o + 0x2A), cap := areaNat area (o + 0x2B), budget := areaNat area (o + 0x2C)
    mask := BitVec.ofNat 6 (areaNat area (o + 0x2D)), reclaim := decide (areaNat area (o + 0x2E) = 1)
    threshold := areaNat area (o + 0x2F), holdDown := (areaHalf area (o + 0x32)).toNat, settle := areaNat area (o + 0x34) } }

theorem sectorSetupOf_eq (k : SectorNo) : sectorSetupOf area k = sectorAt area (blockOff k) := by
  have base (off : Nat) (aligned : off % 8 = 0) : areaBase area (blockOff k + off) = baseBytes area (blockOff k + off) :=
    (areaBase_of_bytes area (blockOff k + off) (by rw [blockOff]; omega) (by rw [blockOff]; omega)).symm
  rw [sectorSetupOf, base 0x08 (by decide), base 0x10 (by decide), base 0x18 (by decide), mask_eq]
  rfl

theorem sectors_of_area (k : SectorNo) : (setupOf area).sectors[k] =
    if areaNat area (blockOff k) % 2 = 0 then none else some (sectorAt area (blockOff k)) := by
  rw [setupOf_sectors, sectorSetupOf_eq]
  by_cases on : areaConfigured area k = true
  · rw [if_pos on, if_neg ((areaConfigured_iff area k).mp on)]
  · rw [if_neg on, if_pos (Classical.not_not.mp fun h => on ((areaConfigured_iff area k).mpr h))]

theorem roles_of_area (m : MasterNo) (k : SectorNo) (own : k.val = areaNat area (0x128 + m.val) / 16 % 4) :
    (areaNat area (0x128 + m.val) % 8 = 0 → (setupOf area).roles[m] = .controller) ∧
    (areaNat area (0x128 + m.val) % 8 = 1 → (setupOf area).roles[m] = .builder k) ∧
    (areaNat area (0x128 + m.val) % 8 = 2 → (setupOf area).roles[m] = .receiver k) ∧
    (areaNat area (0x128 + m.val) % 8 = 3 → (setupOf area).roles[m] = .other) := by
  obtain rfl : k = roleByteSector (areaByte area (0x128 + m.val)) := Fin.ext own
  rw [setupOf_roles, roleOfByte_eq]
  unfold areaNat
  refine ⟨fun h => ?_, fun h => ?_, fun h => ?_, fun h => ?_⟩ <;> rw [h] <;> rfl

theorem sizedBase_eq (e b : Nat) (h : b % 8 = 0) (low : 0x100 ≤ b) :
    sizedBase area e b = if areaNat area e = 0 then none else some (areaNat area e, baseBytes area b) := by
  rw [sizedBase, ← areaBase_of_bytes area b h low]
  rfl

end

/-! ### The tests in their order (R167) -/

theorem within_eq (low high n : Nat) : within low high n = decide (low ≤ n ∧ n ≤ high) := (Bool.decide_and _ _).symm

theorem marginOk_eq (m : Int) : marginOk m = decide (-512 ≤ m ∧ m ≤ 511) := (Bool.decide_and _ _).symm

theorem alignedTo_eq (e : Nat) (a : Addr) : alignedTo e a = decide (a.toNat % 2 ^ e = 0) := Bool.beq_eq_decide_eq _ _

theorem capOk_eq (n : Nat) : capOk n = decide (n ∈ [8, 16, 32, 128]) := by
  simp [capOk, Bool.decide_or, Bool.or_assoc]

/-- The tests of a size item and its base, where it is present. -/
def sizeTests (low high grow : Nat) (w : Option (Nat × Addr)) (code : Nat) : List (Bool × Nat) :=
  [(w.all fun p => decide (low ≤ p.1 ∧ p.1 ≤ high), code), (w.all fun p => decide (p.2.toNat % 2 ^ (p.1 + grow) = 0), code + 1)]

theorem sizedTests_eq (area : List Beat) (low high grow e b : Nat) {code next : Nat} (h : next = code + 1) :
    sizedTests (within low high) grow (areaNat area e) (areaBase area b) code next =
      sizeTests low high grow (sizedBase area e b) code := by
  rw [sizedTests, sizeTests, sizedBase, h]
  by_cases absent : areaNat area e = 0
  · simp [absent]
  · have present : (areaNat area e == 0) = false := beq_eq_false_iff_ne.mpr absent
    rw [if_neg absent, present, within_eq, alignedTo_eq]
    rfl

theorem classTests_eq (area : List Beat) : ((List.range 8).map fun i => (within 0 3 (areaNat area (0x120 + i)), 0x0010 + i)) =
    (List.finRange 8).map fun i => (decide (0 ≤ (setupOf area).classes[i] ∧ (setupOf area).classes[i] ≤ 3), 0x0010 + i.val) := by
  have range : List.range 8 = (List.finRange 8).map Fin.val := by rfl
  rw [range, List.map_map]
  refine List.map_congr_left fun i _ => ?_
  rw [Function.comp_apply, within_eq, setupOf_classes]

theorem deviceTests_eq (area : List Beat) : deviceTests area =
    [(decide (1 ≤ (setupOf area).commandTimeout ∧ (setupOf area).commandTimeout ≤ 255), 0x0001),
     (decide (0 ≤ (setupOf area).floor ∧ (setupOf area).floor ≤ 3), 0x0002)] ++
    sizeTests 6 14 5 (setupOf area).log 0x0004 ++ sizeTests 3 39 0 (setupOf area).guard0 0x0006 ++
    sizeTests 3 39 0 (setupOf area).guard1 0x0008 ++
    (List.finRange 8).map fun i => (decide (0 ≤ (setupOf area).classes[i] ∧ (setupOf area).classes[i] ≤ 3), 0x0010 + i.val) := by
  have log := sizedTests_eq area 6 14 5 0x102 0x108 (code := 0x0004) (next := 0x0005) rfl
  have guard0 := sizedTests_eq area 3 39 0 0x103 0x110 (code := 0x0006) (next := 0x0007) rfl
  have guard1 := sizedTests_eq area 3 39 0 0x104 0x118 (code := 0x0008) (next := 0x0009) rfl
  rw [deviceTests, classTests_eq, log, guard0, guard1, within_eq, within_eq]
  rfl

theorem profileTests_eq (area : List Beat) : profileTests area = (List.range 12).map fun p =>
    (marginOk ((setupOf area).profiles.getD p { enter := 0, exit := 0 }).enter &&
      marginOk ((setupOf area).profiles.getD p { enter := 0, exit := 0 }).exit &&
      decide (((setupOf area).profiles.getD p { enter := 0, exit := 0 }).exit <
        ((setupOf area).profiles.getD p { enter := 0, exit := 0 }).enter) &&
      decide (0 < p → ((setupOf area).profiles.getD (p - 1) { enter := 0, exit := 0 }).enter <
        ((setupOf area).profiles.getD p { enter := 0, exit := 0 }).enter), 0x0020 + p) := by
  have profile (p : Nat) (below : p < 12) : (setupOf area).profiles.getD p { enter := 0, exit := 0 } = areaProfile area p := by
    rw [setupOf_profiles, List.getD_eq_getElem?_getD, List.getElem?_map, List.getElem?_range below]
    rfl
  refine List.map_congr_left fun p here => ?_
  have below : p < 12 := List.mem_range.mp here
  rw [profile p below, profile (p - 1) (by omega)]
  have rising : (p == 0 || decide ((areaProfile area (p - 1)).enter < (areaProfile area p).enter)) =
      decide (0 < p → (areaProfile area (p - 1)).enter < (areaProfile area p).enter) := by
    cases p <;> simp
  exact congrArg (fun last => (_ && last, _)) rising

/-- The tests of a configured sector, with its mask and reclaim bytes. -/
def sectorList (k : SectorNo) (x : SectorSetup) (mask reclaim : Nat) : List (Bool × Nat) :=
  let within := fun (low high n : Nat) => decide (low ≤ n ∧ n ≤ high)
  let aligned := fun (e : Nat) (a : Addr) => decide (a.toNat % 2 ^ e = 0)
  let margin := fun m : Int => decide (-512 ≤ m ∧ m ≤ 511)
  [(aligned 10 x.descBase, 0x01), (aligned 11 x.mapBase, 0x02), (within 10 16 x.reportExp, 0x03),
   (aligned x.reportExp x.reportBase, 0x04), (within 1 4 x.params.latency, 0x05),
   (within 1 15 x.params.fadeCount, 0x06), (within 1 15 x.params.attemptsLimit, 0x07),
   (within 1 255 x.params.backoffBase, 0x08), (within 1 15 x.params.rangingLimit, 0x09),
   (within 1 63 x.params.climbHold, 0x0A), (margin x.params.acceptMargin, 0x0B),
   (within 0 255 x.params.timingTolerance, 0x0C), (within 0 31 x.params.powerTolerance, 0x0D),
   (within 0 11 x.params.restart, 0x0E), (within 0 3 x.tunables.floor, 0x0F),
   (decide (x.tunables.cap ∈ [8, 16, 32, 128]), 0x10), (within 0 8 x.tunables.budget, 0x11),
   (within 0 0x3F mask, 0x12), (within 0 1 reclaim, 0x13),
   (within 2 64 x.tunables.threshold, 0x14), (within 0 4095 x.tunables.holdDown, 0x15),
   (within 0 255 x.tunables.settle, 0x16)].map fun test => (test.1, 0x100 * (k.val + 1) + test.2)

theorem sectorTests_eq (area : List Beat) (k : SectorNo) : sectorTests area k = sectorList k (sectorSetupOf area k)
    (areaNat area (0x22D + 0x100 * k.val)) (areaNat area (0x22E + 0x100 * k.val)) := by
  have mask : blockOff k + 0x2D = 0x22D + 0x100 * k.val := by rw [blockOff]; omega
  have reclaim : blockOff k + 0x2E = 0x22E + 0x100 * k.val := by rw [blockOff]; omega
  simp only [sectorTests, sectorList, mask, reclaim, within_eq, alignedTo_eq, marginOk_eq, capOk_eq, List.map_cons, List.map_nil]

/-- The tests of sector k, where it is configured. -/
def sectorTestsOf (area : List Beat) (k : SectorNo) : Option SectorSetup → List (Bool × Nat)
  | none => []
  | some x => sectorList k x (areaNat area (0x22D + 0x100 * k.val)) (areaNat area (0x22E + 0x100 * k.val))

theorem sectorTestsOf_eq (area : List Beat) (k : SectorNo) :
    (if areaConfigured area k then sectorTests area k else []) = sectorTestsOf area k (setupOf area).sectors[k] := by
  rw [setupOf_sectors, sectorTests_eq]
  cases areaConfigured area k <;> rfl

theorem overlapTests_eq : ∀ (l : List (Window × Nat)) (before : List Window), overlapTests before l =
    (l.zipIdx before.length).map fun w => (((before ++ l.map Prod.fst).take w.2).all fun v =>
      decide (v.base.toNat + 2 ^ v.sizeExp ≤ w.1.1.base.toNat ∨ w.1.1.base.toNat + 2 ^ w.1.1.sizeExp ≤ v.base.toNat), 0x8000 + w.1.2)
  | [], _ => rfl
  | (w, code) :: l, before => by
    have apart (v : Window) : (!v.overlaps w) =
        decide (v.base.toNat + 2 ^ v.sizeExp ≤ w.base.toNat ∨ w.base.toNat + 2 ^ w.sizeExp ≤ v.base.toNat) := by
      rw [Window.overlaps, Window.size, Window.size, ← Bool.decide_and, ← decide_not, decide_eq_decide]
      omega
    rw [overlapTests, overlapTests_eq l (before ++ [w]), List.zipIdx_cons, List.map_cons, List.length_append, List.length_singleton]
    refine congrArg₂ List.cons ?_ ?_
    · rw [List.take_left', List.not_any_eq_all_not]
      · simp only [apart]
      · rfl
    · simp only [List.map_cons, List.append_assoc, List.singleton_append]

/-- The test of a role byte (R136, R167). -/
def roleOk (sectors : Vector (Option SectorSetup) 4) (v : Nat) : Bool :=
  decide (v % 8 = 0 ∨ v % 8 = 3 ∨ ((v % 8 = 1 ∨ v % 8 = 2) ∧ sectors[v / 16 % 4]!.isSome = true))

theorem roleSector_configured (area : List Beat) (b : Byte) :
    (setupOf area).sectors[b.toNat / 16 % 4]!.isSome = areaConfigured area (roleByteSector b) := by
  have place : (setupOf area).sectors[b.toNat / 16 % 4]! = (setupOf area).sectors[roleByteSector b] :=
    getElem!_pos (setupOf area).sectors (b.toNat / 16 % 4) (Nat.mod_lt _ (by decide))
  rw [place, setupOf_sectors]
  cases areaConfigured area (roleByteSector b) <;> rfl

/-- Whether a role byte's role may stand: a role of a sector only where that is configured. -/
def roleAllowed (area : List Beat) : Option Role → Bool
  | some (.builder k) => areaConfigured area k
  | some (.receiver k) => areaConfigured area k
  | some _ => true
  | none => false

theorem roleAllowed_eq (area : List Beat) (b : Byte) :
    roleAllowed area (roleOfByte b) = roleOk (setupOf area).sectors b.toNat := by
  rw [roleOk, roleSector_configured, roleOfByte_eq]
  obtain ⟨v, hv⟩ : ∃ v, v = b.toNat % 8 := ⟨_, rfl⟩
  have below : v < 8 := hv ▸ Nat.mod_lt _ (by decide)
  rw [← hv]
  match v, below with
  | 0, _ | 3, _ => rfl
  | 1, _ | 2, _ => simp [roleAllowed]
  | 4, _ | 5, _ | 6, _ | 7, _ => rfl

theorem controllerByte_iff (b : Byte) : roleOfByte b = some .controller ↔ b.toNat % 8 = 0 := by
  rw [roleOfByte_eq]
  by_cases zero : b.toNat % 8 = 0
  · simp [zero]
  · simp only [zero, if_false, iff_false]
    split
    · nofun
    · split
      · nofun
      · split <;> nofun

theorem roleTests_eq (area : List Beat) : roleTests area =
    ((List.range 8).map fun m => (roleOk (setupOf area).sectors (areaNat area (0x128 + m)), 0x0030 + m)) ++
      [((List.range 8).any fun m => decide (areaNat area (0x128 + m) % 8 = 0), 0x003F)] := by
  have allowed (m : Nat) := roleAllowed_eq area (areaByte area (0x128 + m))
  refine congrArg₂ (· ++ ·) (List.map_congr_left fun m _ => congrArg (fun ok => (ok, 0x0030 + m)) ?_) ?_
  · refine Eq.trans ?_ (allowed m)
    cases roleOfByte (areaByte area (0x128 + m)) with
    | none => rfl
    | some r => cases r <;> rfl
  · have controller (m : Nat) : decide (roleOfByte (areaByte area (0x128 + m)) = some .controller) =
        decide (areaNat area (0x128 + m) % 8 = 0) := decide_eq_decide.mpr (controllerByte_iff _)
    simp only [controller]

end Sys2Proof.Machine

/-! PROOF. The responses to a load's reads of the configuration area (R166, R167). -/

namespace Sys2Proof.Machine

theorem firstFailure_passed : ∀ (pre rest : List (Bool × Nat)), (∀ x ∈ pre, x.1 = true) → firstFailure (pre ++ rest) = firstFailure rest
  | [], _, _ => rfl
  | (ok, code) :: pre, rest, h => by
    have passed : ok = true := h (ok, code) List.mem_cons_self
    rw [List.cons_append, firstFailure, if_pos passed]
    exact firstFailure_passed pre rest fun x here => h x (List.mem_cons_of_mem _ here)

theorem firstFailure_none {l : List (Bool × Nat)} (h : ∀ x ∈ l, x.1 = true) : firstFailure l = none := by
  have all := firstFailure_passed l [] h
  rwa [List.append_nil] at all

section
variable {s : State} {reply : Reply} {i : Nat} {cmd : Command} {area : List Beat}

theorem takeConfigReply_error (flight : s.channel.inFlight = some { cmd := cmd, phase := .readingConfig area })
    (error : reply.error = true) : takeConfigReply i reply s = finish .memoryError (BitVec.ofNat 16 (0x100 + 64 * i)) s := by
  simp only [takeConfigReply, flight, error, if_true]

theorem takeConfigReply_on (flight : s.channel.inFlight = some { cmd := cmd, phase := .readingConfig area })
    (error : reply.error = false) (more : i < 19) : takeConfigReply i reply s =
      waitRead (some (.config (i + 1))) (setPhase (.readingConfig (area ++ reply.data)) s) := by
  have next : i + 1 < 20 := by omega
  simp only [takeConfigReply, flight, error, next, Bool.false_eq_true, if_false, if_true]

theorem takeConfigReply_last (flight : s.channel.inFlight = some { cmd := cmd, phase := .readingConfig area })
    (error : reply.error = false) : takeConfigReply 19 reply s = validateLoad (area ++ reply.data) s := by
  simp only [takeConfigReply, flight, error, Bool.false_eq_true, if_false, Nat.reduceAdd, lt_irrefl]

theorem validateLoad_failed {code : Nat} (failed : firstFailure (allTests area s.channel.anchorBase) = some code) :
    validateLoad area s = finish .invalid (BitVec.ofNat 16 code) s := by
  have first : validate area s.channel.anchorBase = some code := failed
  simp only [validateLoad, first]

theorem validateLoad_passed (passed : firstFailure (allTests area s.channel.anchorBase) = none) :
    validateLoad area s = continueLoad (setupOf area) stagedStart ((firstConfigured (setupOf area) sectorNos).map fun k => (k, 0)) s := by
  have first : validate area s.channel.anchorBase = none := passed
  simp only [validateLoad, first]

theorem firstConfigured_some {c : Setup} {k : SectorNo} (own : c.sectors[k].isSome = true)
    (below : ∀ j : SectorNo, j < k → c.sectors[j] = none) : firstConfigured c sectorNos = some k := by
  rw [firstConfigured, sectorNos, ← List.map_id (List.finRange 4)]
  exact find_finRange id _ k own fun j lower => by simp [below j lower]

theorem firstConfigured_none {c : Setup} (absent : ∀ k : SectorNo, c.sectors[k] = none) : firstConfigured c sectorNos = none :=
  List.find?_eq_none.mpr fun k _ => by simp [absent k]

theorem configuredCount_none {c : Setup} (absent : ∀ k : SectorNo, c.sectors[k] = none) : c.configuredCount = 0 := by
  rw [Setup.configuredCount, List.countP_eq_zero]
  exact fun k _ => by simp [absent k]

end

section
variable {s : State}

theorem continueLoad_ports (setup : Setup) (staged : Vector (Vector StagedEntry 128) 4) (next : Option (SectorNo × RemoteNo)) :
    (continueLoad setup staged next s).ports = s.ports := by
  cases next with
  | none => exact (applyLoad_spec setup staged s).ports
  | some place => exact setPhase_ports _ s

theorem takeConfigReply_ports (i : Nat) (reply : Reply) : (takeConfigReply i reply s).ports = s.ports := by
  unfold takeConfigReply
  split
  · split
    · exact finish_ports _ _ s
    · dsimp only
      split
      · exact setPhase_ports _ s
      · unfold validateLoad
        split
        · exact finish_ports _ _ s
        · exact continueLoad_ports _ _ _
  · rfl

end

/-- Settles O45: the area is read block by block, tested in the order of R167, and applied or read on. -/
theorem configReadResponseContinues : Obligations.ConfigReadResponseContinues := by
  unfold Obligations.ConfigReadResponseContinues
  refine ⟨fun s reply i rest cmd area outstanding data flight waits => ?_,
    fun s reply rest cmd area outstanding data okay flight waits => ?_, fun area anchor => ?_, fun area anchor => valid_of_tests,
    fun area => ?_, fun c anchor => ?_⟩
  · have run : exec (.configReadResponse reply) s = .next (takeConfigReply i reply (answered s rest)) :=
      partReadReply_taken outstanding data
    have flight' : (answered s rest).channel.inFlight = some { cmd := cmd, phase := .readingConfig area } := flight
    refine ⟨_, run, takeConfigReply_ports i reply, fun okay more => ?_, fun error => ?_⟩
    · rw [takeConfigReply_on flight' okay more, setPhase_inFlight _ flight']
      rfl
    · rw [takeConfigReply_error flight' error]
      have answer := (finish_spec .memoryError (BitVec.ofNat 16 (0x100 + 64 * i)) (answered s rest) _ flight' waits).1
      exact ⟨answer.sectors, (answered_kept s rest).trans answer.dev, _, answer.result, rfl, rfl, rfl⟩
  · intro c tests
    have run : exec (.configReadResponse reply) s = .next (takeConfigReply 19 reply (answered s rest)) :=
      partReadReply_taken outstanding data
    have flight' : (answered s rest).channel.inFlight = some { cmd := cmd, phase := .readingConfig area } := flight
    refine ⟨_, run, takeConfigReply_ports 19 reply, fun pre code post split passed => ?_, fun k passed own below => ?_, fun passed absent => ?_⟩
    · have failed : firstFailure tests = some code := by
        rw [split, firstFailure_passed pre _ passed]
        rfl
      rw [takeConfigReply_last flight' okay, validateLoad_failed (s := answered s rest) failed]
      have answer := (finish_spec .invalid (BitVec.ofNat 16 code) (answered s rest) _ flight' waits).1
      exact ⟨answer.sectors, (answered_kept s rest).trans answer.dev, _, answer.result, rfl, rfl, rfl⟩
    · rw [takeConfigReply_last flight' okay, validateLoad_passed (s := answered s rest) (firstFailure_none passed), firstConfigured_some own below,
        Option.map_some, continueLoad, setPhase_inFlight _ flight']
      rfl
    · have load := applyLoad_applied (setup := c) (staged := stagedStart) flight' waits
      rw [takeConfigReply_last flight' okay, validateLoad_passed (s := answered s rest) (firstFailure_none passed), firstConfigured_none absent,
        Option.map_none, continueLoad]
      obtain ⟨t, ht⟩ : ∃ t, t = applyLoad c stagedStart (answered s rest) := ⟨_, rfl⟩
      rw [← ht] at load ⊢
      have flight_t := load.flight
      refine ⟨load.windows, load.roles, flight_t, fun k => by rw [load.configured, absent k]; rfl, _, load.result, rfl, rfl, ?_⟩
      show BitVec.ofNat 16 c.configuredCount = 0
      rw [configuredCount_none absent]
      rfl
  · rw [allTests, roleTests_eq, overlapTests_eq, windowCodes_fst, ← List.append_assoc]
    refine congrArg₂ (· ++ ·) (congrArg₂ (· ++ ·) (congrArg₂ (· ++ ·) (congrArg₂ (· ++ ·) (congrArg₂ (· ++ ·) ?_ ?_) ?_) ?_) ?_) ?_
    · rw [deviceTests_eq]
      rfl
    · rw [profileTests_eq]
      simp only [marginOk_eq]
    · refine List.flatMap_congr fun k _ => ?_
      rw [sectorTestsOf_eq]
      cases (setupOf area).sectors[k] <;> rfl
    · rfl
    · rfl
    · rfl
  · refine ⟨rfl, rfl, sizedBase_eq area 0x102 0x108 (by decide) (by decide), sizedBase_eq area 0x103 0x110 (by decide) (by decide),
      sizedBase_eq area 0x104 0x118 (by decide) (by decide), setupOf_classes area, rfl, roles_of_area area, sectors_of_area area⟩
  · have plain (kind : WindowKind) (grow : Nat) (w : Option (Nat × Addr)) : plainWindow kind (w.map fun p => (p.1 + grow, p.2)) =
        (w.map fun p => { kind := kind, base := p.2, sizeExp := p.1 + grow, sector := none, mark := .none }).toList := by
      cases w <;> rfl
    have same (w : Option (Nat × Addr)) : (w.map fun p => (p.1 + 0, p.2)) = w := by cases w <;> rfl
    dsimp only
    rw [Setup.windows, ← same c.guard0, ← same c.guard1, plain, plain, plain]
    refine congrArg₂ (· ++ ·) ?_ (List.flatMap_congr fun k _ => ?_)
    · rw [same, same]
      rfl
    · cases c.sectors[k] <;> rfl

end Sys2Proof.Machine

/-! PROOF. The episode of a sector: its changes, its inputs and its expiries (R114 to R122). -/

namespace Sys2Proof.Machine

section
variable {k : SectorNo} {s : State}

theorem noticeOfChange_spec (target : EpisodeState) : ∃ dirty, noticeOfChange target s = { s with
    notices := { s.notices with
      pending := if target = .clear ∨ target = .fading then s.notices.pending ||| 1 else s.notices.pending }
    writer := { s.writer with deviceDirty := dirty } } := by
  cases target with
  | clear | fading => exact raiseNotice_eq .episode s
  | recovering | settling => exact ⟨s.writer.deviceDirty, rfl⟩

/-- A change of episode state, whole. -/
theorem changeEpisode_moved (target : EpisodeState) (cause : EpisodeCause) (f : Episode → Episode) :
    EpisodeMoved k cause { f (s.sector k).episode with state := target } s (changeEpisode k target cause f s) := by
  obtain ⟨v, hv⟩ : ∃ v, v = modEpisode k (fun e => { f e with state := target }) s := ⟨_, rfl⟩
  have sector_v : v.sector k = { s.sector k with episode := { f (s.sector k).episode with state := target } } :=
    hv ▸ sector_modSector_self k (fun x => { x with episode := { f x.episode with state := target } }) s
  obtain ⟨body, hbody⟩ : ∃ body, body = RecordBody.episode cause (s.sector k).episode.state target (v.sector k).n
    (v.sector k).episode.record := ⟨_, rfl⟩
  have whole : changeEpisode k target cause f s = noticeOfChange target (markCounter k (logSector k body v)) := by
    rw [hbody, hv]
    rfl
  have loc := local_changeEpisode k target cause f s
  obtain ⟨dirty, told⟩ := noticeOfChange_spec (s := markCounter k (logSector k body v)) target
  have sectors : (changeEpisode k target cause f s).sectors = v.sectors := by
    rw [whole, noticeOfChange_sectors, markCounter_sectors, logSector_sectors]
  have logged : Logged { time := v.time, sector := some k, frame := some (v.sector k).frame, body := body } v (logSector k body v) :=
    pushRecord_logged _ v
  refine ⟨(sector_of_sectors sectors k).trans sector_v, loc.others, ?_, ?_, ?_, loc.dev, loc.ports, loc.channel⟩
  · rw [whole, told]
    have record : { time := v.time, sector := some k, frame := some (v.sector k).frame, body := body } = ({
        time := s.time, sector := some k, frame := some (s.sector k).frame
        body := .episode cause (s.sector k).episode.state target (s.sector k).n (f (s.sector k).episode).record } : LogRecord) := by
      rw [hbody, sector_v, hv]
      rfl
    rw [record] at logged
    have before : NoRecord s v := by
      rw [hv]
      exact ⟨rfl, rfl, rfl⟩
    exact (logged.after before).before ⟨rfl, rfl, rfl⟩
  · rw [whole, told]
    exact vector_getElem_set_self _ k true
  · rw [whole, told]
    have pending : (logSector k body v).notices = s.notices := (pushRecord_notices _ v).trans (by rw [hv]; rfl)
    show (if _ then (logSector k body v).notices.pending ||| 1 else (logSector k body v).notices.pending) = _
    rw [pending]

/-- The change a state transformer makes by `changeEpisode`, with the episode it leaves. -/
theorem moved_of_changeEpisode {t : State} {target : EpisodeState} {cause : EpisodeCause} {f : Episode → Episode} {new : Episode}
    (whole : t = changeEpisode k target cause f s) (left : { f (s.sector k).episode with state := target } = new) :
    EpisodeMoved k cause new s t := whole ▸ left ▸ changeEpisode_moved target cause f

theorem testThreshold_opens (clear : (s.sector k).episode.state = .clear) (reached : (s.sector k).tunables.threshold ≤ (s.sector k).n) :
    EpisodeMoved k .threshold {
      state := .fading, holdDown := (s.sector k).tunables.holdDown, settle := 0
      record := {
        number := (s.sector k).episode.record.number + 1, opening := (s.sector k).frame, peak := (s.sector k).n
        faded := min (s.sector k).n 65535, excluded := 0, recovering := none, refades := 0, closing := none } } s (testThreshold k s) := by
  rw [testThreshold, if_pos ⟨clear, reached⟩]
  simp only [openEpisode]
  refine moved_of_changeEpisode rfl ?_
  rfl

theorem closeEpisode_moved (cause : EpisodeCause) : EpisodeMoved k cause {
    state := .clear, holdDown := 0, settle := 0
    record := { (s.sector k).episode.record with closing := some (s.sector k).frame } } s (closeEpisode k cause s) := by
  simp only [closeEpisode]
  refine moved_of_changeEpisode rfl ?_
  rfl

theorem enterRecovering_moved (why : RecoveringCause) (cause : EpisodeCause) : EpisodeMoved k cause { (s.sector k).episode with
    state := .recovering, holdDown := 0, record := { (s.sector k).episode.record with recovering := some why } } s
    (enterRecovering k why cause s) := moved_of_changeEpisode rfl rfl

/-! ### A change of n (R116, R117, R119, R120) -/

theorem changeOfN_clear (state : (s.sector k).episode.state = .clear) : changeOfN k s = testThreshold k s := by
  simp only [changeOfN, state]

theorem changeOfN_emptied (state : (s.sector k).episode.state = .fading) (none_left : (s.sector k).n = 0) :
    changeOfN k s = closeEpisode k .emptied s := by simp only [changeOfN, state, none_left, if_true]

theorem changeOfN_drained (state : (s.sector k).episode.state = .recovering) (none_left : (s.sector k).n = 0) :
    EpisodeMoved k .drained { (s.sector k).episode with state := .settling, settle := (s.sector k).tunables.settle } s (changeOfN k s) := by
  simp only [changeOfN, state, none_left, if_true]
  exact moved_of_changeEpisode rfl rfl

theorem changeOfN_peak (state : (s.sector k).episode.state = .fading ∨ (s.sector k).episode.state = .recovering)
    (left : (s.sector k).n ≠ 0) : changeOfN k s = modRecord k (raisePeak (s.sector k).n) s := by
  obtain state | state := state <;> simp only [changeOfN, state, left, if_false]

theorem changeOfN_refade (state : (s.sector k).episode.state = .settling) (left : (s.sector k).n ≠ 0) :
    EpisodeMoved k .refade { (s.sector k).episode with
      state := .recovering, settle := 0
      record := raisePeak (s.sector k).n { (s.sector k).episode.record with
        refades := saturate16 ((s.sector k).episode.record.refades + 1) } } s (changeOfN k s) := by
  simp only [changeOfN, state, left, if_false]
  exact moved_of_changeEpisode rfl rfl

theorem changeOfN_settled (state : (s.sector k).episode.state = .settling) (none_left : (s.sector k).n = 0) :
    changeOfN k s = s := by simp only [changeOfN, state, none_left, if_true]

/-! ### The inputs one by one (R115, R121) -/

theorem handInputs_none (before : Nat) : handInputs k Inputs.none before s = if (s.sector k).n = before then s else changeOfN k s := rfl

theorem isOpen_iff (e : Episode) : e.isOpen = true ↔ e.state ≠ .clear := by rw [Episode.isOpen, bne_iff_ne]

/-- A change of the record alone leaves n. -/
theorem n_of_episodeOnly {t : State} (h : EpisodeOnly k s t) : (t.sector k).n = (s.sector k).n := by
  obtain ⟨e, sector⟩ := h
  rw [sector]
  rfl

theorem episodeOnly_exclusionInput : EpisodeOnly k s (exclusionInput k s) :=
  .ite (episodeOnly_modEpisode k _ s) (.refl k s)

theorem episodeOnly_fadeInput : EpisodeOnly k s (fadeInput k s) := .ite (episodeOnly_modEpisode k _ s) (.refl k s)

theorem episodeOnly_shadowHeardInput : EpisodeOnly k s (shadowHeardInput k s) :=
  .ite (episodeOnly_changeEpisode k _ _ _ s) (.refl k s)

theorem handInputs_exclusion :
    handInputs k { exclusion := true, fade := false, shadowHeard := false } (s.sector k).n s = exclusionInput k s :=
  if_pos (n_of_episodeOnly episodeOnly_exclusionInput)

theorem handInputs_fade :
    handInputs k { exclusion := false, fade := true, shadowHeard := false } (s.sector k).n s = fadeInput k s :=
  if_pos (n_of_episodeOnly episodeOnly_fadeInput)

theorem handInputs_shadowHeard :
    handInputs k { exclusion := false, fade := false, shadowHeard := true } (s.sector k).n s = shadowHeardInput k s :=
  if_pos (n_of_episodeOnly episodeOnly_shadowHeardInput)

/-- The inputs of one step are taken in order, the change of n last (R115). -/
theorem handInputs_in_order (a b c : Bool) (before : Nat) : handInputs k { exclusion := a, fade := b, shadowHeard := c } before s =
    handInputs k Inputs.none before
      (if c then shadowHeardInput k (if b then fadeInput k (if a then exclusionInput k s else s) else
          (if a then exclusionInput k s else s))
        else (if b then fadeInput k (if a then exclusionInput k s else s) else (if a then exclusionInput k s else s))) := rfl

/-! ### The expiries of the counts (R118, R120) -/

theorem holdDownExpiry_moved (counting : (s.sector k).counting = true) (state : (s.sector k).episode.state = .fading)
    (ended : (s.sector k).episode.holdDown = 0) :
    exec (.holdDownExpiry k) s = .next (enterRecovering k .holdDown .holdDown s) := by
  show execHoldDownExpiry k s = _
  rw [execHoldDownExpiry, if_pos counting, holdDownExpires, if_pos ⟨state, ended⟩]

theorem settleExpiry_moved (counting : (s.sector k).counting = true) (state : (s.sector k).episode.state = .settling)
    (ended : (s.sector k).episode.settle = 0) : exec (.settleExpiry k) s = .next (closeEpisode k .settled s) := by
  show execSettleExpiry k s = _
  rw [execSettleExpiry, if_pos counting, settleExpires, if_pos ⟨state, ended⟩]

theorem counting_iff : (s.sector k).counting = true ↔ (s.sector k).mode ≠ .pass ∧ (s.sector k).suspended = false := by
  simp only [Sector.counting, Bool.and_eq_true, decide_eq_true_eq, Bool.not_eq_true']

/-- RECOVERING is entered without a notice (R122). -/
theorem enterRecovering_notices (why : RecoveringCause) (cause : EpisodeCause) :
    (enterRecovering k why cause s).notices = s.notices := by
  obtain ⟨v, hv⟩ : ∃ v, v = modEpisode k (fun e => { e with
    state := .recovering, holdDown := 0, record := { e.record with recovering := some why } }) s := ⟨_, rfl⟩
  obtain ⟨body, hbody⟩ : ∃ body, body = RecordBody.episode cause (s.sector k).episode.state .recovering (v.sector k).n
    (v.sector k).episode.record := ⟨_, rfl⟩
  have whole : enterRecovering k why cause s = markCounter k (logSector k body v) := by
    rw [hbody, hv]
    rfl
  rw [whole]
  exact (pushRecord_notices _ v).trans (hv ▸ rfl)

/-- A count of an open episode goes up by one; nothing else changes. -/
theorem counted_open (f : EpisodeRecord → EpisodeRecord) (is_open : (s.sector k).episode.state ≠ .clear) :
    (if (s.sector k).episode.isOpen then modRecord k f s else s) = s.setSector k { s.sector k with
      episode := { (s.sector k).episode with record := f (s.sector k).episode.record } } :=
  if_pos ((isOpen_iff _).mpr is_open)

theorem counted_clear (f : EpisodeRecord → EpisodeRecord) (clear : (s.sector k).episode.state = .clear) :
    (if (s.sector k).episode.isOpen then modRecord k f s else s) = s :=
  if_neg fun is_open => (isOpen_iff _).mp is_open clear

end

/-- Settles O52: each input, each change of n and each expiry is an equation of its own, and `changeEpisode_moved` says what
a change of episode state leaves. -/
theorem episodeCountsExpire : Obligations.EpisodeCountsExpire := by
  refine ⟨fun s k mode running => ⟨fun state ended => ?_, fun state ended => ?_⟩, fun k s => ⟨testThreshold_opens, fun calm => if_neg calm⟩,
    fun k before s => ?_, fun k s => ?_, fun k a b c before s => ?_⟩
  · have moved := enterRecovering_moved (k := k) (s := s) .holdDown .holdDown
    refine ⟨_, holdDownExpiry_moved (counting_iff.mpr ⟨mode, running⟩) state ended, ?_, moved.others, moved.device,
      enterRecovering_notices _ _, moved.dirty, fun room => ⟨_, moved.logged.1 room, ?_⟩⟩
    · exact moved.sector.trans (by simp only [ended])
    · rw [moved.sector, state]
  · have moved := closeEpisode_moved (k := k) (s := s) .settled
    refine ⟨_, settleExpiry_moved (counting_iff.mpr ⟨mode, running⟩) state ended, ?_, ?_, ?_, moved.others, moved.device,
      moved.notice, fun room => ⟨_, moved.logged.1 room, ?_⟩⟩
    · rw [moved.sector]
    · rw [moved.sector]
    · rw [moved.sector]
    · rw [moved.sector, state]
  · have taken (changed : (s.sector k).n ≠ before) : handInputs k Inputs.none before s = changeOfN k s := if_neg changed
    refine ⟨fun same => if_pos same, fun changed state => ?_, fun changed state empty => ?_, fun changed state empty => ?_,
      fun changed state left => ?_, fun changed state left => ?_, fun state empty => ?_⟩
    · rw [taken changed, changeOfN_clear state]
    · rw [taken changed, changeOfN_emptied state empty]
      exact closeEpisode_moved .emptied
    · rw [taken changed]
      exact changeOfN_drained state empty
    · rw [taken changed, changeOfN_peak state left]
      rfl
    · rw [taken changed]
      exact changeOfN_refade state left
    · rw [handInputs_none, changeOfN_settled state empty, ite_self]
  · refine ⟨fun is_open => ?_, fun is_open => ?_, fun clear => ⟨?_, ?_⟩, fun fading => ⟨?_, ?_⟩, fun calm => ⟨if_neg calm, ?_⟩⟩
    · exact handInputs_exclusion.trans (counted_open _ is_open)
    · exact handInputs_fade.trans (counted_open _ is_open)
    · exact handInputs_exclusion.trans (counted_clear _ clear)
    · exact handInputs_fade.trans (counted_clear _ clear)
    · rw [scoutHeardInput, if_pos fading]
      exact enterRecovering_moved _ _
    · show EpisodeMoved k .shadowHeard _ s (handInputs k _ (s.sector k).n s)
      rw [handInputs_shadowHeard, shadowHeardInput, if_pos fading]
      exact enterRecovering_moved _ _
    · exact handInputs_shadowHeard.trans (if_neg calm)
  · simp only [handInputs_exclusion, handInputs_fade, handInputs_shadowHeard]
    exact handInputs_in_order a b c before

end Sys2Proof.Machine

/-! PROOF. The roster's draw keeps its bounds and is greedy (R57, R61 to R67), and the restamp keeps the order (R54). -/

namespace Sys2Proof.Machine

/-! ### A normal draw (R63 to R65) -/

section
variable {x : Sector} {mask : BitVec 6} {budget room : Nat}

/-- The bounds a draw of s solo and h shared members keeps (R64, R65). -/
def DrawFits (mask : BitVec 6) (budget room s h : Nat) : Prop :=
  slotsNeeded s h (minislotsOf mask).length ≤ budget ∧ s + h ≤ room

/-- The solo count once the remote is drawn too. -/
def soloWith (x : Sector) (mask : BitVec 6) (s : Nat) (r : RemoteNo) : Nat := if drawsSolo x mask r then s + 1 else s

/-- The shared count once the remote is drawn too. -/
def sharedWith (x : Sector) (mask : BitVec 6) (h : Nat) (r : RemoteNo) : Nat := if drawsSolo x mask r then h else h + 1

theorem drawNormal_cons_fits {s h : Nat} {r : RemoteNo} {rs : List RemoteNo}
    (fits : DrawFits mask budget room (soloWith x mask s r) (sharedWith x mask h r)) :
    drawNormal x mask budget room s h (r :: rs) =
      { remote := r, solo := drawsSolo x mask r, scout := false, placed := false } ::
        drawNormal x mask budget room (soloWith x mask s r) (sharedWith x mask h r) rs := by
  rw [drawNormal]
  exact if_pos fits

theorem drawNormal_cons_full {s h : Nat} {r : RemoteNo} {rs : List RemoteNo}
    (full : ¬ DrawFits mask budget room (soloWith x mask s r) (sharedWith x mask h r)) :
    drawNormal x mask budget room s h (r :: rs) = [] := by
  rw [drawNormal]
  exact if_neg full

theorem soloWith_add_sharedWith (s h : Nat) (r : RemoteNo) : soloWith x mask s r + sharedWith x mask h r = s + h + 1 := by
  unfold soloWith sharedWith
  split <;> omega

theorem drawNormal_initial (rs : List RemoteNo) : ∀ s h, (drawNormal x mask budget room s h rs).map Member.remote <+: rs := by
  induction rs with
  | nil => exact fun _ _ => ⟨[], rfl⟩
  | cons r rs ih =>
    intro s h
    by_cases fits : DrawFits mask budget room (soloWith x mask s r) (sharedWith x mask h r)
    · rw [drawNormal_cons_fits fits]
      obtain ⟨rest, whole⟩ := ih (soloWith x mask s r) (sharedWith x mask h r)
      exact ⟨rest, congrArg (r :: ·) whole⟩
    · rw [drawNormal_cons_full fits]
      exact ⟨r :: rs, rfl⟩

theorem drawNormal_member (rs : List RemoteNo) : ∀ s h, ∀ m ∈ drawNormal x mask budget room s h rs,
    m.solo = drawsSolo x mask m.remote ∧ m.scout = false ∧ m.placed = false := by
  induction rs with
  | nil => exact fun _ _ m drawn => absurd drawn List.not_mem_nil
  | cons r rs ih =>
    intro s h m drawn
    by_cases fits : DrawFits mask budget room (soloWith x mask s r) (sharedWith x mask h r)
    · rw [drawNormal_cons_fits fits] at drawn
      obtain rfl | drawn := List.mem_cons.mp drawn
      · exact ⟨rfl, rfl, rfl⟩
      · exact ih _ _ m drawn
    · rw [drawNormal_cons_full fits] at drawn
      exact absurd drawn List.not_mem_nil

/-- The solo members drawn first count before the others. -/
theorem soloWith_add_countP (s : Nat) (r : RemoteNo) (ms : List Member) :
    soloWith x mask s r + ms.countP (fun m => m.solo) =
      s + (({ remote := r, solo := drawsSolo x mask r, scout := false, placed := false } : Member) :: ms).countP fun m => m.solo := by
  rw [List.countP_cons, soloWith]
  split <;> omega

theorem sharedWith_add_countP (h : Nat) (r : RemoteNo) (ms : List Member) :
    sharedWith x mask h r + ms.countP (fun m => !m.solo) =
      h + (({ remote := r, solo := drawsSolo x mask r, scout := false, placed := false } : Member) :: ms).countP fun m => !m.solo := by
  rw [List.countP_cons, sharedWith]
  cases drawsSolo x mask r with
  | false => exact (Nat.add_right_comm _ _ _).trans rfl
  | true => rfl

/-- The members drawn keep the bounds that the counts before them keep. -/
theorem drawNormal_fits (rs : List RemoteNo) : ∀ s h, DrawFits mask budget room s h →
    DrawFits mask budget room (s + (drawNormal x mask budget room s h rs).countP fun m => m.solo)
      (h + (drawNormal x mask budget room s h rs).countP fun m => !m.solo) := by
  induction rs with
  | nil => exact fun _ _ fits => fits
  | cons r rs ih =>
    intro s h before
    by_cases fits : DrawFits mask budget room (soloWith x mask s r) (sharedWith x mask h r)
    · rw [drawNormal_cons_fits fits, ← soloWith_add_countP, ← sharedWith_add_countP]
      exact ih _ _ fits
    · rw [drawNormal_cons_full fits]
      exact before

/-- The draw stops at the first remote that would break a bound. -/
theorem drawNormal_greedy (rs : List RemoteNo) : ∀ s h r, rs[(drawNormal x mask budget room s h rs).length]? = some r →
    ¬ DrawFits mask budget room (soloWith x mask (s + (drawNormal x mask budget room s h rs).countP fun m => m.solo) r)
      (sharedWith x mask (h + (drawNormal x mask budget room s h rs).countP fun m => !m.solo) r) := by
  induction rs with
  | nil => exact fun _ _ _ next => absurd next (by simp)
  | cons q rs ih =>
    intro s h r next
    by_cases fits : DrawFits mask budget room (soloWith x mask s q) (sharedWith x mask h q)
    · rw [drawNormal_cons_fits fits, List.length_cons, List.getElem?_cons_succ] at next
      rw [drawNormal_cons_fits fits, ← soloWith_add_countP, ← sharedWith_add_countP]
      exact ih _ _ r next
    · rw [drawNormal_cons_full fits] at next ⊢
      obtain rfl : q = r := Option.some.inj next
      exact fits

theorem solo_add_shared (ms : List Member) : ms.countP (fun m => m.solo) + ms.countP (fun m => !m.solo) = ms.length := by
  rw [List.length_eq_countP_add_countP (fun m : Member => m.solo)]
  simp

/-- A scout takes one slot. -/
theorem slotsNeeded_one (n : Nat) : slotsNeeded 1 0 n = 1 := by
  have none_shared : (0 + n - 1) / n = 0 := by
    cases n with
    | zero => rfl
    | succ n => exact Nat.div_eq_of_lt (by omega)
  rw [slotsNeeded, none_shared]

theorem slotsNeeded_zero (n : Nat) : slotsNeeded 0 0 n = 0 := by
  cases n with
  | zero => rfl
  | succ n => exact (Nat.zero_add _).trans (Nat.div_eq_of_lt (by omega))

end

/-! ### The roster drawn (R57, R62, R66, R67) -/

section
variable {x : Sector}

theorem drawRoster_normal (mode : x.mode = .active) (running : x.suspended = false) (calm : x.episode.state ≠ .fading) :
    (drawRoster x).roster = { members := drawNormal x x.tunables.mask x.tunables.budget (drawRoom x) 0 0 (eligibleQueue x)
                              mask := x.tunables.mask, budget := x.tunables.budget, used := 0 } := by
  rw [drawRoster, if_pos ⟨mode, running⟩]
  simp only [if_neg calm]

theorem drawRoster_fading (mode : x.mode = .active) (running : x.suspended = false) (fading : x.episode.state = .fading) :
    (drawRoster x).roster = { members := drawScout x.tunables.budget (drawRoom x) (eligibleQueue x)
                              mask := x.tunables.mask, budget := x.tunables.budget, used := 0 } := by
  rw [drawRoster, if_pos ⟨mode, running⟩]
  simp only [if_pos fading]

theorem eligible_iff {r : RemoteNo} : r ∈ eligibleQueue x ↔ (x.entry r).state = .queued ∧ x.tunables.floor ≤ (x.entry r).cls := by
  rw [eligibleQueue, List.mem_filter, mem_queue, decide_eq_true_eq]

theorem eligible_nodup : (eligibleQueue x).Nodup := (queue_nodup x).filter _

/-- A scout draw takes the first eligible remote or none. -/
theorem drawScout_cases (budget room : Nat) (rs : List RemoteNo) : drawScout budget room rs = [] ∨
    ∃ r rest, rs = r :: rest ∧ 1 ≤ budget ∧ 1 ≤ room ∧
      drawScout budget room rs = [{ remote := r, solo := true, scout := true, placed := false }] := by
  cases rs with
  | nil => exact .inl rfl
  | cons r rest =>
    by_cases fits : 1 ≤ budget ∧ 1 ≤ room
    · exact .inr ⟨r, rest, rfl, fits.1, fits.2, if_pos fits⟩
    · exact .inl (if_neg fits)

theorem drawScout_member {budget room : Nat} {rs : List RemoteNo} {m : Member} (drawn : m ∈ drawScout budget room rs) :
    m.remote ∈ rs ∧ m.solo = true ∧ m.scout = true ∧ m.placed = false := by
  obtain none_drawn | ⟨r, rest, rfl, -, -, one⟩ := drawScout_cases budget room rs
  · exact absurd (none_drawn ▸ drawn) List.not_mem_nil
  · obtain rfl := List.mem_singleton.mp (one ▸ drawn)
    exact ⟨List.mem_cons_self, rfl, rfl, rfl⟩

/-- The bounds of a normal draw, by its members (R64, R65). -/
theorem normal_fits {mask : BitVec 6} {budget room : Nat} {rs : List RemoteNo} {ms : List Member}
    (drawn : ms = drawNormal x mask budget room 0 0 rs) :
    DrawFits mask budget room (ms.countP fun m => m.solo) (ms.countP fun m => !m.solo) := by
  have fits := drawNormal_fits (x := x) (mask := mask) (budget := budget) (room := room) rs 0 0
    ⟨(slotsNeeded_zero _).trans_le (Nat.zero_le _), Nat.zero_le _⟩
  rw [← drawn, Nat.zero_add, Nat.zero_add] at fits
  exact fits

theorem normal_greedy {mask : BitVec 6} {budget room : Nat} {rs : List RemoteNo} {ms : List Member} {r : RemoteNo}
    (drawn : ms = drawNormal x mask budget room 0 0 rs) (next : rs[ms.length]? = some r) :
    budget < slotsNeeded (soloWith x mask (ms.countP fun m => m.solo) r) (sharedWith x mask (ms.countP fun m => !m.solo) r)
        (minislotsOf mask).length ∨ room < ms.length + 1 := by
  have full := drawNormal_greedy (x := x) (mask := mask) (budget := budget) (room := room) rs 0 0 r (drawn ▸ next)
  rw [← drawn, Nat.zero_add, Nat.zero_add, DrawFits, soloWith_add_sharedWith, solo_add_shared] at full
  omega

/-- The roster keeps its bounds. -/
structure RosterBounded (x : Sector) (ms : List Member) : Prop where
  once : (ms.map Member.remote).Nodup
  eligible : ∀ m ∈ ms, ((x.entry m.remote).state = .queued ∧ x.tunables.floor ≤ (x.entry m.remote).cls) ∧ m.placed = false
  room : ms.length ≤ drawRoom x
  slots : slotsNeeded (ms.countP fun m => m.solo) (ms.countP fun m => !m.solo) (minislotsOf x.tunables.mask).length ≤
    x.tunables.budget

theorem drawNormal_bounded : RosterBounded x (drawNormal x x.tunables.mask x.tunables.budget (drawRoom x) 0 0 (eligibleQueue x)) := by
  obtain ⟨ms, drawn⟩ : ∃ ms, ms = drawNormal x x.tunables.mask x.tunables.budget (drawRoom x) 0 0 (eligibleQueue x) := ⟨_, rfl⟩
  have pre : ms.map Member.remote <+: eligibleQueue x := drawn ▸ drawNormal_initial _ 0 0
  obtain ⟨slots, room⟩ := normal_fits drawn
  rw [solo_add_shared] at room
  rw [← drawn]
  refine ⟨eligible_nodup.sublist pre.sublist, fun m member => ⟨?_, ?_⟩, room, slots⟩
  · exact eligible_iff.mp (pre.subset (List.mem_map_of_mem member))
  · exact (drawNormal_member _ 0 0 m (drawn ▸ member)).2.2

theorem drawScout_bounded : RosterBounded x (drawScout x.tunables.budget (drawRoom x) (eligibleQueue x)) := by
  have member : ∀ m ∈ drawScout x.tunables.budget (drawRoom x) (eligibleQueue x),
      ((x.entry m.remote).state = .queued ∧ x.tunables.floor ≤ (x.entry m.remote).cls) ∧ m.placed = false := by
    intro m drawn
    obtain ⟨waiting, -, -, unplaced⟩ := drawScout_member drawn
    exact ⟨eligible_iff.mp waiting, unplaced⟩
  obtain none_drawn | ⟨r, rest, -, slot, room, one⟩ := drawScout_cases x.tunables.budget (drawRoom x) (eligibleQueue x)
  · rw [none_drawn] at member ⊢
    exact ⟨List.nodup_nil, member, Nat.zero_le _, (slotsNeeded_zero _).trans_le (Nat.zero_le _)⟩
  · rw [one] at member ⊢
    exact ⟨List.nodup_singleton _, member, room, (slotsNeeded_one _).trans_le slot⟩

theorem drawRoster_bounded (mode : x.mode = .active) (running : x.suspended = false) :
    RosterBounded x (drawRoster x).roster.members := by
  by_cases fading : x.episode.state = .fading
  · rw [drawRoster_fading mode running fading]
    exact drawScout_bounded
  · rw [drawRoster_normal mode running fading]
    exact drawNormal_bounded

end

/-! ### The restamp (R54) -/

section
variable {x : Sector}

/-- The remotes of the list take the stamps from n on, in its order. -/
theorem restampFrom_at {q : RemoteNo} (rs : List RemoteNo) : ∀ (n : Nat) (x : Sector) (i : Nat), rs.Nodup → rs[i]? = some q →
    (restampFrom n rs x).entry q = { x.entry q with order := n + i } := by
  induction rs with
  | nil => exact fun _ _ _ _ there => absurd there (by simp)
  | cons r rs ih =>
    intro n x i once there
    obtain ⟨new, once⟩ := List.nodup_cons.mp once
    show (restampFrom (n + 1) rs (x.setEntry r { x.entry r with order := n })).entry q = _
    cases i with
    | zero =>
      obtain rfl : r = q := Option.some.inj there
      rw [restampFrom_other r rs _ _ new, entry_setEntry, if_pos rfl, Nat.add_zero]
    | succ i =>
      have later : rs[i]? = some q := there
      have apart : q ≠ r := fun same => new (same ▸ List.mem_of_getElem? later)
      rw [ih (n + 1) _ i once later, entry_setEntry, if_neg apart, Nat.add_right_comm, Nat.add_assoc]

/-- A restamp changes the entries alone. -/
theorem restampFrom_rest (rs : List RemoteNo) : ∀ (n : Nat) (x : Sector), { restampFrom n rs x with entries := x.entries } = x := by
  induction rs with
  | nil => exact fun _ _ => rfl
  | cons r rs ih =>
    intro n x
    have rest := ih (n + 1) (x.setEntry r { x.entry r with order := n })
    exact congrArg (fun y : Sector => { y with entries := x.entries }) rest

/-- The QUEUED remotes in the order of their stamps. -/
def byStamp (x : Sector) : List RemoteNo := sortBy (fun a b => (x.entry a).order ≤ (x.entry b).order) x.queued

theorem restamp_eq : restamp x = { restampFrom 16384 (byStamp x) x with
    nextHead := 16383, nextTail := 16384 + (byStamp x).length } := rfl

theorem byStamp_perm : (byStamp x).Perm x.queued := sortBy_perm _ _

theorem byStamp_pairwise : (byStamp x).Pairwise fun a b => (x.entry a).order ≤ (x.entry b).order := by
  refine (sortBy_pairwise _ (fun a b => ?_) (fun a b c => ?_) x.queued).imp of_decide_eq_true
  · simp only [decide_eq_true_eq]
    exact Nat.le_total _ _
  · simp only [decide_eq_true_eq]
    exact Nat.le_trans

theorem byStamp_nodup : (byStamp x).Nodup := byStamp_perm.nodup_iff.mpr (queued_nodup x)

theorem byStamp_length : (byStamp x).length = x.queued.length := byStamp_perm.length_eq

theorem exists_byStamp {r : RemoteNo} (queued : (x.entry r).state = .queued) : ∃ i : Nat, (byStamp x)[i]? = some r :=
  List.getElem?_of_mem (byStamp_perm.mem_iff.mpr ((mem_queued x r).mpr queued))

theorem restamp_at {r : RemoteNo} {i : Nat} (there : (byStamp x)[i]? = some r) :
    (restamp x).entry r = { x.entry r with order := 16384 + i } := restampFrom_at (byStamp x) 16384 x i byStamp_nodup there

/-- The restamp's claim (R54). -/
structure StampsRenewed (x y : Sector) : Prop where
  head : y.nextHead = 16383
  tail : y.nextTail = 16384 + x.queued.length
  rest : { y with entries := x.entries, nextHead := x.nextHead, nextTail := x.nextTail } = x
  others : ∀ r, (x.entry r).state ≠ .queued → y.entry r = x.entry r
  stamps : ∀ r, (x.entry r).state = .queued → ∃ stamp, y.entry r = { x.entry r with order := stamp } ∧
    16384 ≤ stamp ∧ stamp < 16384 + x.queued.length
  order : ∀ a b, (x.entry a).state = .queued → (x.entry b).state = .queued → (x.entry a).order < (x.entry b).order →
    (y.entry a).order < (y.entry b).order

theorem restamp_renewed : StampsRenewed x (restamp x) := by
  refine ⟨rfl, ?_, ?_, fun r calm => ?_, fun r queued => ?_, fun a b queued_a queued_b before => ?_⟩
  · rw [restamp_eq, byStamp_length]
  · have rest := restampFrom_rest (byStamp x) 16384 x
    exact congrArg (fun y : Sector => { y with nextHead := x.nextHead, nextTail := x.nextTail }) rest
  · exact restampFrom_other r (byStamp x) 16384 x fun member => calm ((mem_queued x r).mp (byStamp_perm.mem_iff.mp member))
  · obtain ⟨i, there⟩ := exists_byStamp queued
    obtain ⟨small, -⟩ := List.getElem?_eq_some_iff.mp there
    rw [byStamp_length] at small
    exact ⟨16384 + i, restamp_at there, Nat.le_add_right _ _, Nat.add_lt_add_left small _⟩
  · obtain ⟨i, there_a⟩ := exists_byStamp queued_a
    obtain ⟨j, there_b⟩ := exists_byStamp queued_b
    rw [restamp_at there_a, restamp_at there_b]
    obtain ⟨small_a, rfl⟩ := List.getElem?_eq_some_iff.mp there_a
    obtain ⟨small_b, rfl⟩ := List.getElem?_eq_some_iff.mp there_b
    by_contra later
    have place : j ≤ i := by
      simp only at later
      omega
    obtain rfl | place := Nat.eq_or_lt_of_le place
    · exact absurd before (Nat.lt_irrefl _)
    · exact absurd before (Nat.not_lt.mpr (List.pairwise_iff_getElem.mp byStamp_pairwise j i small_b small_a place))

end

/-- Settles O55: the draws by induction on the eligible queue, with the counts of the members drawn before generalised, and
the restamp by the place of a remote in the list of the present stamps. -/
theorem rosterKeepsItsBounds : Obligations.RosterKeepsItsBounds := by
  refine ⟨fun x mode running => ?_, fun x mode running => ?_, fun x idle => ?_, fun x => ⟨fun low => ?_, fun high => ?_, ?_⟩⟩
  · obtain ⟨once, eligible, room, slots⟩ := drawRoster_bounded mode running
    refine ⟨once, fun m member => ?_, room, slots, fun fading => ?_, fun calm m member => ?_⟩
    · obtain ⟨⟨queued, floor⟩, unplaced⟩ := eligible m member
      exact ⟨queued, floor, unplaced⟩
    · rw [drawRoster_fading mode running fading]
      refine ⟨?_, fun m drawn => ?_⟩
      · obtain none_drawn | ⟨r, rest, -, -, -, one⟩ := drawScout_cases x.tunables.budget (drawRoom x) (eligibleQueue x)
        · exact none_drawn ▸ Nat.zero_le 1
        · exact one ▸ Nat.le_refl 1
      · obtain ⟨-, solo, scout, -⟩ := drawScout_member drawn
        exact ⟨scout, solo⟩
    · rw [drawRoster_normal mode running calm] at member
      exact (drawNormal_member _ 0 0 m member).2.1
  · intro roster eligible room solo soloes shared
    refine ⟨?_, ?_, ?_, fun calm => ?_, fun r fading first slot place => ?_⟩
    · simp only [roster, drawRoster, if_pos (And.intro mode running)]
    · simp only [roster, drawRoster, if_pos (And.intro mode running)]
    · simp only [roster, drawRoster, if_pos (And.intro mode running)]
    · have drawn : roster.members = drawNormal x x.tunables.mask x.tunables.budget (drawRoom x) 0 0 (eligibleQueue x) := by
        rw [show roster = _ from drawRoster_normal mode running calm]
      refine ⟨drawn ▸ drawNormal_initial _ 0 0, fun m member => ?_, fun r next => normal_greedy drawn next⟩
      exact (drawNormal_member _ 0 0 m (drawn ▸ member)).1
    · have drawn : roster.members = drawScout x.tunables.budget (drawRoom x) (eligibleQueue x) := by
        rw [show roster = _ from drawRoster_fading mode running fading]
      obtain ⟨rest, queue⟩ : ∃ rest, eligibleQueue x = r :: rest := List.head?_eq_some_iff.mp first
      rw [drawn, queue, drawScout, if_pos ⟨slot, place⟩]
      rfl
  · rw [drawRoster, if_neg fun draws => idle.elim (fun other => other draws.1) (fun stopped => by simp [stopped] at draws)]
    rfl
  · exact if_neg (Nat.not_le.mpr low)
  · exact if_neg (Nat.pos_iff_ne_zero.mp high)
  · intro y ready
    obtain rfl : y = restamp x := by
      obtain ⟨full, rfl⟩ | ⟨full, rfl⟩ := ready
      · exact if_pos full
      · exact if_pos full
    obtain ⟨head, tail, rest, others, stamps, order⟩ := restamp_renewed (x := x)
    exact ⟨head, tail, rest, others, stamps, order⟩

end Sys2Proof.Machine

/-! PROOF. The marks of a step: its mirror group where a shown field has changed, the counter block where a tally has
(R6, R7). The inputs handed to the episode mark no mirror group and unmark nothing. -/

namespace Sys2Proof.Machine

/-! ### What keeps the mirror marks -/

/-- No mirror group's mark has changed, and no counter block's is gone. -/
structure MarksKept (s t : State) : Prop where
  mirrors : t.writer.mirrorDirty = s.writer.mirrorDirty
  counters : ∀ j : SectorNo, s.writer.counterDirty[j] = true → t.writer.counterDirty[j] = true

section
variable {k : SectorNo} {s t u : State}

theorem MarksKept.refl (s : State) : MarksKept s s := ⟨rfl, fun _ marked => marked⟩

theorem MarksKept.trans (first : MarksKept s t) (second : MarksKept t u) : MarksKept s u :=
  ⟨second.mirrors.trans first.mirrors, fun j marked => second.counters j (first.counters j marked)⟩

theorem MarksKept.ite {p : Prop} [Decidable p] (yes : MarksKept s t) (no : MarksKept s u) : MarksKept s (if p then t else u) := by
  split
  · exact yes
  · exact no

theorem MarksKept.of_eq (mirrors : t.writer.mirrorDirty = s.writer.mirrorDirty)
    (counters : t.writer.counterDirty = s.writer.counterDirty) : MarksKept s t := ⟨mirrors, fun _ marked => counters ▸ marked⟩

theorem marksKept_modSector (f : Sector → Sector) : MarksKept s (modSector k f s) := .of_eq rfl rfl

theorem marksKept_logSector (b : RecordBody) : MarksKept s (logSector k b s) :=
  .of_eq (pushRecord_mirrorDirty _ s) (pushRecord_counterDirty _ s)

theorem counterDirty_markCounter (j : SectorNo) : (markCounter k s).writer.counterDirty[j] =
    (if k = j then true else s.writer.counterDirty[j]) := by
  show (s.writer.counterDirty.set k.val true k.isLt)[j.val] = _
  rw [Vector.getElem_set]
  simp only [Fin.ext_iff]
  rfl

theorem marksKept_markCounter : MarksKept s (markCounter k s) := by
  refine ⟨rfl, fun j marked => ?_⟩
  rw [counterDirty_markCounter, marked, ite_self]

theorem marksKept_noticeOfChange (target : EpisodeState) : MarksKept s (noticeOfChange target s) := by
  obtain ⟨dirty, told⟩ := noticeOfChange_spec (s := s) target
  rw [told]
  exact .of_eq rfl rfl

theorem marksKept_changeEpisode (target : EpisodeState) (cause : EpisodeCause) (f : Episode → Episode) :
    MarksKept s (changeEpisode k target cause f s) :=
  (((marksKept_modSector _).trans (marksKept_logSector _)).trans marksKept_markCounter).trans (marksKept_noticeOfChange target)

theorem marksKept_modRecord (f : EpisodeRecord → EpisodeRecord) : MarksKept s (modRecord k f s) := .of_eq rfl rfl

theorem marksKept_testThreshold : MarksKept s (testThreshold k s) := by
  unfold testThreshold openEpisode
  exact .ite (marksKept_changeEpisode _ _ _) (.refl s)

theorem marksKept_closeEpisode (cause : EpisodeCause) : MarksKept s (closeEpisode k cause s) := by
  unfold closeEpisode
  exact marksKept_changeEpisode _ _ _

theorem marksKept_changeOfN : MarksKept s (changeOfN k s) := by
  unfold changeOfN
  dsimp only
  split
  · exact marksKept_testThreshold
  · exact .ite (marksKept_closeEpisode _) (marksKept_modRecord _)
  · exact .ite (marksKept_changeEpisode _ _ _) (marksKept_modRecord _)
  · exact .ite (.refl s) (marksKept_changeEpisode _ _ _)

theorem marksKept_handInputs (inp : Inputs) (before : Nat) : MarksKept s (handInputs k inp before s) := by
  have exclusion (u : State) : MarksKept u (if inp.exclusion then exclusionInput k u else u) :=
    .ite (.ite (marksKept_modRecord _) (.refl u)) (.refl u)
  have fade (u : State) : MarksKept u (if inp.fade then fadeInput k u else u) :=
    .ite (.ite (marksKept_modRecord _) (.refl u)) (.refl u)
  have heard (u : State) : MarksKept u (if inp.shadowHeard then shadowHeardInput k u else u) :=
    .ite (.ite (marksKept_changeEpisode _ _ _) (.refl u)) (.refl u)
  have change (u : State) : MarksKept u (if (u.sector k).n = before then u else changeOfN k u) := .ite (.refl u) marksKept_changeOfN
  exact (((exclusion s).trans (fade _)).trans (heard _)).trans (change _)

theorem marksKept_logStep {r : RemoteNo} (info : StepInfo) (old new : Entry) : MarksKept s (logStep k r info old new s) :=
  .ite (.refl s) (marksKept_logSector _)

/-! ### The marks of a step (R6, R7) -/

theorem mirrorDirty_markMirror {r : RemoteNo} (g : Fin 128) : (markMirror k r s).writer.mirrorDirty[g] =
    (if mirrorGroup k r = g then true else s.writer.mirrorDirty[g]) := by
  show (s.writer.mirrorDirty.set (mirrorGroup k r).val true (mirrorGroup k r).isLt)[g.val] = _
  rw [Vector.getElem_set]
  simp only [Fin.ext_iff]
  rfl

theorem markStep_mirrors_shown {r : RemoteNo} {old new : Entry} (same : old.shown = new.shown) :
    (markStep k r old new s).writer.mirrorDirty = s.writer.mirrorDirty := by
  unfold markStep
  dsimp only
  rw [if_pos same]
  split <;> rfl

theorem markStep_mirrors_changed {r : RemoteNo} {old new : Entry} (changed : old.shown ≠ new.shown) :
    (markStep k r old new s).writer.mirrorDirty = (markMirror k r s).writer.mirrorDirty := by
  unfold markStep
  dsimp only
  rw [if_neg changed]
  split <;> rfl

theorem markStep_counter {r : RemoteNo} {old new : Entry} (changed : old.state ≠ new.state) :
    (markStep k r old new s).writer.counterDirty[k] = true := by
  unfold markStep
  dsimp only
  rw [if_neg changed, counterDirty_markCounter, if_pos rfl]

/-- A step marks what its entry's change asks for, and then its inputs keep the marks. -/
theorem remoteStep_marks (r : RemoteNo) (info : StepInfo) (e : Entry) : ∃ v, v.writer.mirrorDirty = s.writer.mirrorDirty ∧
    MarksKept (markStep k r (s.entry k r) ((remoteStep k r info e s).entry k r) v) (remoteStep k r info e s) := by
  obtain ⟨new, hnew⟩ : ∃ new, new = (modSector k (applyStep r e info.placed) s).entry k r := ⟨_, rfl⟩
  obtain ⟨v, hv⟩ : ∃ v, v = logStep k r info (s.entry k r) new (modSector k (applyStep r e info.placed) s) := ⟨_, rfl⟩
  have entry : (remoteStep k r info e s).entry k r = new := by
    rw [remoteStep_entry_self, hnew]
    show _ = ((modSector k (applyStep r e info.placed) s).sector k).entries[r]
    rw [sector_modSector_self]
    simp only [applyStep_entries]
    exact ((entry_setEntry _ r r _).trans (if_pos rfl)).symm
  have whole : remoteStep k r info e s = info.inputs.elim (markStep k r (s.entry k r) new v)
      fun inp => handInputs k inp (s.sector k).n (markStep k r (s.entry k r) new v) := by
    rw [hv, hnew, remoteStep]
    split <;> (rename_i told; rw [told]; rfl)
  refine ⟨v, hv ▸ (marksKept_logStep info _ new).mirrors, ?_⟩
  rw [entry, whole]
  cases info.inputs with
  | none => exact .refl _
  | some inp => exact marksKept_handInputs inp _

theorem remoteStep_marks_mirrors (r : RemoteNo) (info : StepInfo) (e : Entry) :
    (((remoteStep k r info e s).entry k r).shown = (s.entry k r).shown →
      (remoteStep k r info e s).writer.mirrorDirty = s.writer.mirrorDirty) ∧
    (((remoteStep k r info e s).entry k r).shown ≠ (s.entry k r).shown → ∀ g : Fin 128,
      (remoteStep k r info e s).writer.mirrorDirty[g] = if mirrorGroup k r = g then true else s.writer.mirrorDirty[g]) := by
  obtain ⟨v, before, kept⟩ := remoteStep_marks (k := k) (s := s) r info e
  refine ⟨fun same => ?_, fun changed g => ?_⟩
  · rw [kept.mirrors, markStep_mirrors_shown same.symm, before]
  · simp only [kept.mirrors, markStep_mirrors_changed changed.symm]
    rw [mirrorDirty_markMirror, before]

theorem remoteStep_marks_counter (r : RemoteNo) (info : StepInfo) (e : Entry)
    (changed : ((remoteStep k r info e s).entry k r).state ≠ (s.entry k r).state) :
    (remoteStep k r info e s).writer.counterDirty[k] = true := by
  obtain ⟨v, -, kept⟩ := remoteStep_marks (k := k) (s := s) r info e
  exact kept.counters k (markStep_counter changed.symm)

end

end Sys2Proof.Machine

/-! PROOF. A charge counts an attempt, and what the outcome of each kind of expectation does (R22 to R24, R27 to R39, R46). -/

namespace Sys2Proof.Machine

section
variable {k : SectorNo} {r : RemoteNo} {s : State} {o : BurstOutcome}

/-! ### The charge (R24) -/

theorem chargedAs_below {e : Entry} {p : Params} (below : e.attempts + 1 < p.attemptsLimit) : e.chargedAs p = { e with
    state := .faded, profile := min p.restart e.ceiling, misses := 0, good := 0, exchanges := 0, attempts := e.attempts + 1
    backoff := p.backoffBase * 2 ^ min e.attempts 5, garbles := 0, solo := false } := by
  rw [Entry.chargedAs, if_pos below]
  rfl

theorem chargedAs_limit {e : Entry} {p : Params} (limit : p.attemptsLimit ≤ e.attempts + 1) : e.chargedAs p = { e with
    state := .excluded, profile := e.ceiling, misses := 0, good := 0, exchanges := 0, backoff := 0
    attempts := p.attemptsLimit, garbles := 0, solo := false } := by
  rw [Entry.chargedAs, if_neg (Nat.not_lt.mpr limit)]

theorem raiseNotice_excluded : (raiseNotice .excluded s).notices.pending.getLsbD 1 = true := by
  obtain ⟨dirty, told⟩ := raiseNotice_eq .excluded s
  rw [told]
  show (s.notices.pending ||| 2#8).getLsbD 1 = true
  rw [BitVec.getLsbD_or]
  exact Bool.or_true _

/-- An exclusion is told to the host. -/
theorem charge_told (cause : StateCause) (margin : Option Int) (limit : (s.params k).attemptsLimit ≤ (s.entry k r).attempts + 1) :
    (charge k r cause margin s).notices.pending.getLsbD 1 = true := by
  rw [charge, if_neg (Nat.not_lt.mpr limit)]
  exact raiseNotice_excluded

/-! ### Fade watches (R22, R46) -/

theorem takeServing_missed (missed : o.isHeard = false) : takeServing k r o s = servingMiss k r o s := by
  cases o with
  | heard m timing power => exact absurd missed Bool.noConfusion
  | crcFail m => rfl
  | silent | garbled | timeout => rfl

theorem takeServing_heard (heard : o.isHeard = true) : takeServing k r o s = modEntry k r (fun e => { e with misses := 0 }) s := by
  cases o with
  | heard m timing power => rfl
  | crcFail m => exact absurd heard Bool.noConfusion
  | silent | garbled | timeout => exact absurd heard Bool.noConfusion

theorem fadeWatch_serving (state : (s.entry k r).state = .serving) : takeOutcome k r .fadeWatch o s = takeServing k r o s := by
  simp only [takeOutcome, state]

theorem fadeWatch_faded (state : (s.entry k r).state = .faded) : takeOutcome k r .fadeWatch o s = takeFaded k r o s := by
  simp only [takeOutcome, state]

theorem takeFaded_shadow (state : (s.entry k r).state = .faded) (mode : (s.sector k).mode = .shadow) (heard : o.isHeard = true) :
    Moved k r .shadowHeard (s.sector k) ((s.entry k r).serviceAs .serving) s (takeFaded k r o s) := by
  cases o with
  | heard m timing power =>
    show Moved k r .shadowHeard _ _ s (if (s.sector k).mode = .shadow then _ else s)
    rw [if_pos mode]
    refine stepTo_moved k r .serving _ id s _ .shadowHeard rfl (by rw [state]; decide) ?_
    simp only [state]
    rfl
  | crcFail m => exact absurd heard Bool.noConfusion
  | silent | garbled | timeout => exact absurd heard Bool.noConfusion

theorem takeFaded_stays (stays : (s.sector k).mode ≠ .shadow ∨ o.isHeard = false) : takeFaded k r o s = s := by
  cases o with
  | heard m timing power => exact if_neg (stays.resolve_right Bool.noConfusion)
  | crcFail m => rfl
  | silent | garbled | timeout => rfl

theorem fadedAt_of_serving (state : (s.entry k r).state = .serving) :
    Moved k r .fade (s.sector k) { (s.entry k r).fadedAs (s.params k).restart (s.params k).backoffBase with
      fadedAt := some (s.sector k).frame } s (fadeOut k r o s) := by
  have moved := fadeOut_moved k r o s (.inl state)
  rw [if_pos state] at moved
  exact moved

theorem fadedAt_of_climbing (state : (s.entry k r).state = .climbing) :
    Moved k r .fade (s.sector k) ((s.entry k r).fadedAs (s.params k).restart (s.params k).backoffBase) s (fadeOut k r o s) := by
  have moved := fadeOut_moved k r o s (.inr state)
  rw [if_neg (by rw [state]; decide)] at moved
  exact moved

/-! ### Probes (R29 to R33) -/

theorem normalProbe (solo : Bool) (state : (s.entry k r).state = .probing) :
    takeOutcome k r (.probe solo false) o s = takeNormalProbe k r solo o s := by
  simp only [takeOutcome, state]

theorem scoutProbe (solo : Bool) (state : (s.entry k r).state = .probing) :
    takeOutcome k r (.probe solo true) o s = takeScoutProbe k r o s := by
  simp only [takeOutcome, state]

theorem probe_accepted (solo scout : Bool) {m timing power : Int} (state : (s.entry k r).state = .probing)
    (accepted : (s.params k).acceptMargin ≤ m) :
    takeOutcome k r (.probe solo scout) (.heard m timing power) s = probeHeard k r scout m s := by
  cases scout with
  | false => exact (normalProbe solo state).trans (if_pos accepted)
  | true => exact (scoutProbe solo state).trans (if_pos accepted)

/-! ### Ranging (R35, R36) -/

theorem range_ranging (state : (s.entry k r).state = .ranging) : takeOutcome k r .range o s = takeRange k r o s := by
  simp only [takeOutcome, state]

/-- An exchange heard within both tolerances. -/
def InTolerance (p : Params) (o : BurstOutcome) : Prop := ∃ m timing power, o = .heard m timing power ∧
  timing.natAbs ≤ p.timingTolerance ∧ power.natAbs ≤ p.powerTolerance

theorem takeRange_done (heard : InTolerance (s.params k) o) : ∃ m, takeRange k r o s = rangeDone k r m s := by
  obtain ⟨m, timing, power, rfl, tolerated⟩ := heard
  exact ⟨m, if_pos tolerated⟩

theorem takeRange_failed (failed : ¬ InTolerance (s.params k) o) : takeRange k r o s = failedExchange k r o s := by
  cases o with
  | heard m timing power => exact if_neg fun tolerated => failed ⟨m, timing, power, rfl, tolerated⟩
  | crcFail m => rfl
  | silent | garbled | timeout => rfl

theorem isSilent_iff : o.isSilent = true ↔ o = .silent ∨ o = .timeout := by
  cases o <;> simp [BurstOutcome.isSilent]

/-- Two silent exchanges in a row. -/
theorem silentAgain_iff : (o.isSilent && (s.sector k).silentMark r) = true ↔
    o.isSilent = true ∧ ({ remote := r, silent := true } : Ranger) ∈ (s.sector k).rangingOrder := by
  rw [Bool.and_eq_true, silentMark_iff]

/-! ### The climb (R37 to R39) -/

theorem climbWatch_climbing (state : (s.entry k r).state = .climbing) : takeOutcome k r .climbWatch o s = takeClimb k r o s := by
  simp only [takeOutcome, state]

theorem reachesEnter_of {p : Nat} {row : Margins} (held : s.store.profiles[p]? = some row) (m : Int) :
    s.reachesEnter p m = decide (row.enter ≤ m) := by rw [State.reachesEnter, held]

theorem belowExit_of {p : Nat} {row : Margins} (held : s.store.profiles[p]? = some row) (m : Int) :
    s.belowExit p m = decide (m < row.exit) := by rw [State.belowExit, held]

theorem takeClimb_missed (missed : o.isHeard = false) : takeClimb k r o s = climbMiss k r o s := by
  cases o with
  | heard m timing power => exact absurd missed Bool.noConfusion
  | crcFail m => rfl
  | silent | garbled | timeout => rfl

theorem takeClimb_good {up : Margins} (high : s.store.profiles[(s.entry k r).profile + 1]? = some up) {m timing power : Int}
    (good : up.enter ≤ m) : takeClimb k r (.heard m timing power) s = climbGood k r m s := by
  simp only [takeClimb, reachesEnter_of high, decide_eq_true good, if_true]

section
variable {here up : Margins} (low : s.store.profiles[(s.entry k r).profile]? = some here)
  (high : s.store.profiles[(s.entry k r).profile + 1]? = some up) {m timing power : Int}
include low high

theorem takeClimb_low (under : m < up.enter) (weak : m < here.exit) :
    takeClimb k r (.heard m timing power) s = climbLow k r (.heard m timing power) m s := by
  simp only [takeClimb, reachesEnter_of high, belowExit_of low, decide_eq_false (not_le.mpr under), decide_eq_true weak,
    Bool.false_eq_true, if_false, if_true]

theorem takeClimb_holds (under : m < up.enter) (strong : here.exit ≤ m) :
    takeClimb k r (.heard m timing power) s = modEntry k r (fun e => { e with misses := 0, good := 0 }) s := by
  simp only [takeClimb, reachesEnter_of high, belowExit_of low, decide_eq_false (not_le.mpr under),
    decide_eq_false (not_lt.mpr strong), Bool.false_eq_true, if_false]

end

/-- A step within CLIMBING keeps faded at. -/
theorem climb_moved (cause : StateCause) (margin : Option Int) (e : Entry) (state : (s.entry k r).state = .climbing)
    (stays : e.state = .climbing) (faded : e.fadedAt = (s.entry k r).fadedAt) (profile : (s.entry k r).profile ≠ e.profile) :
    Moved k r cause (s.sector k) e s (remoteStep k r (StepInfo.heard cause margin) e s) := by
  have kept : fadedAtAfter (s.sector k).frame (s.entry k r).state e.state (s.entry k r).fadedAt = e.fadedAt := by
    rw [state, stays, faded]
    rfl
  exact remoteStep_moved k r _ e e s cause rfl (.inr profile) (by rw [kept])

theorem climb_up (m : Int) (state : (s.entry k r).state = .climbing) (held : (s.params k).climbHold ≤ (s.entry k r).good + 1)
    (below : (s.entry k r).profile + 1 ≠ (s.entry k r).ceiling) :
    Moved k r .climbUp (s.sector k)
      { s.entry k r with profile := (s.entry k r).profile + 1, good := 0, misses := 0 } s (climbGood k r m s) := by
  rw [climbGood, if_pos held, if_neg below]
  exact climb_moved .climbUp (some m) _ state state rfl (Nat.ne_of_lt (Nat.lt_succ_self _))

theorem climb_served (m : Int) (state : (s.entry k r).state = .climbing) (held : (s.params k).climbHold ≤ (s.entry k r).good + 1)
    (top : (s.entry k r).profile + 1 = (s.entry k r).ceiling) :
    Moved k r .climbUp (s.sector k) ((s.entry k r).serviceAs .serving) s (climbGood k r m s) := by
  rw [climbGood, if_pos held, if_pos top]
  refine stepTo_moved k r .serving _ id s _ .climbUp rfl (by rw [state]; decide) ?_
  simp only [state]
  rfl

theorem climb_down (m : Int) (state : (s.entry k r).state = .climbing) (room : (s.entry k r).profile ≠ 0) :
    Moved k r .climbDown (s.sector k)
      { s.entry k r with profile := (s.entry k r).profile - 1, good := 0, misses := 0 } s (climbLow k r o m s) := by
  rw [climbLow, if_neg room]
  exact climb_moved .climbDown (some m) _ state state rfl (Nat.ne_of_gt (Nat.sub_lt (Nat.pos_of_ne_zero room) Nat.one_pos))

/-- A miss below the fade count. -/
theorem climbMiss_counted (few : (s.entry k r).misses + 1 < (s.params k).fadeCount) : climbMiss k r o s =
    s.setSector k ((s.sector k).setEntry r { s.entry k r with misses := (s.entry k r).misses + 1, good := 0 }) :=
  if_neg (Nat.not_le.mpr few)

theorem climbMiss_fades (state : (s.entry k r).state = .climbing) (many : (s.params k).fadeCount ≤ (s.entry k r).misses + 1) :
    Moved k r .fade (s.sector k) ((s.entry k r).fadedAs (s.params k).restart (s.params k).backoffBase) s (climbMiss k r o s) := by
  rw [climbMiss, if_pos many]
  exact fadedAt_of_climbing state

/-- What counts as a miss of a CLIMBING remote (R38, R39). -/
theorem climb_missed {here up : Margins} (low : s.store.profiles[(s.entry k r).profile]? = some here)
    (high : s.store.profiles[(s.entry k r).profile + 1]? = some up)
    (missed : o.isHeard = false ∨ ∃ m timing power, o = .heard m timing power ∧ (s.entry k r).profile = 0 ∧ m < up.enter ∧ m < here.exit) :
    takeClimb k r o s = climbMiss k r o s := by
  obtain missed | ⟨m, timing, power, rfl, bottom, under, weak⟩ := missed
  · exact takeClimb_missed missed
  · rw [takeClimb_low low high under weak, climbLow, if_pos bottom]

end

/-! ### The outcomes, by the kind of the expectation -/

theorem charge_counts (k : SectorNo) (r : RemoteNo) (cause : StateCause) (margin : Option Int) (s : State) (a : Nat)
    (count : a = (s.entry k r).attempts + 1) (state : (s.entry k r).state = .probing ∨ (s.entry k r).state = .ranging) :
    (a < (s.params k).attemptsLimit → (charge k r cause margin s).entry k r = { s.entry k r with
        state := .faded, profile := min (s.params k).restart (s.entry k r).ceiling, misses := 0, good := 0,
        exchanges := 0, attempts := a, backoff := (s.params k).backoffBase * 2 ^ min (a - 1) 5, garbles := 0,
        solo := false }) ∧
    (a = (s.params k).attemptsLimit → (charge k r cause margin s).entry k r = { s.entry k r with
        state := .excluded, profile := (s.entry k r).ceiling, misses := 0, good := 0, exchanges := 0, backoff := 0,
        attempts := (s.params k).attemptsLimit, garbles := 0, solo := false } ∧
      (charge k r cause margin s).notices.pending.getLsbD 1 = true) ∧
    OtherEntries k r (s.sector k) s (charge k r cause margin s) ∧ DeviceKept s (charge k r cause margin s) := by
  have moved := charge_moved k r cause margin s state
  subst count
  refine ⟨fun below => moved.entry.trans (chargedAs_below below), fun limit => ⟨?_, ?_⟩, moved.others, moved.device⟩
  · exact moved.entry.trans (chargedAs_limit (Nat.le_of_eq limit.symm))
  · exact charge_told cause margin (Nat.le_of_eq limit.symm)

section
variable {k : SectorNo} {r : RemoteNo} {s : State} {o : BurstOutcome}

/-- A normal probe that is not accepted but measured (R30). -/
theorem normalProbe_faded (solo : Bool) (state : (s.entry k r).state = .probing) {cause : StateCause}
    (weak : (∃ m timing power, o = .heard m timing power ∧ m < (s.params k).acceptMargin ∧ cause = .probeWeak) ∨
      (∃ m, o = .crcFail m ∧ cause = .probeCrc)) :
    Moved k r cause (s.sector k) ((s.entry k r).fadedAs (s.params k).restart (s.params k).backoffBase) s
      (takeOutcome k r (.probe solo false) o s) := by
  rw [normalProbe solo state]
  obtain ⟨m, timing, power, rfl, below, rfl⟩ | ⟨m, rfl, rfl⟩ := weak
  · rw [show takeNormalProbe k r solo (.heard m timing power) s = probeBack k r .probeWeak m s from if_neg (not_le.mpr below)]
    exact probeBack_moved k r .probeWeak m s state
  · exact probeBack_moved k r .probeCrc m s state

/-- A normal probe that is charged (R31, R32). -/
theorem normalProbe_charged (solo : Bool) (state : (s.entry k r).state = .probing) {cause : StateCause}
    (failed : (o = .silent ∧ cause = .probeSilent) ∨ (o = .timeout ∧ cause = .probeTimeout) ∨
      (o = .garbled ∧ solo = true ∧ cause = .probeGarbled)) :
    Moved k r cause (s.sector k) ((s.entry k r).chargedAs (s.params k)) s (takeOutcome k r (.probe solo false) o s) := by
  rw [normalProbe solo state]
  obtain ⟨rfl, rfl⟩ | ⟨rfl, rfl⟩ | ⟨rfl, rfl, rfl⟩ := failed
  · exact charge_moved k r .probeSilent none s (.inl state)
  · exact charge_moved k r .probeTimeout none s (.inl state)
  · exact charge_moved k r .probeGarbled none s (.inl state)

/-- A scout that is not accepted (R33). -/
theorem scoutProbe_queued (solo : Bool) (state : (s.entry k r).state = .probing) {cause : StateCause}
    (failed : (∃ m timing power, o = .heard m timing power ∧ m < (s.params k).acceptMargin ∧ cause = .probeWeak) ∨
      (∃ m, o = .crcFail m ∧ cause = .probeCrc) ∨ (o = .silent ∧ cause = .probeSilent) ∨
      (o = .timeout ∧ cause = .probeTimeout) ∨ (o = .garbled ∧ cause = .probeGarbled)) :
    Moved k r cause (readyTail (s.sector k))
      ((s.entry k r).queuedAs (s.params k).restart (readyTail (s.sector k)).nextTail) s
      (takeOutcome k r (.probe solo true) o s) := by
  rw [scoutProbe solo state]
  obtain ⟨m, timing, power, rfl, below, rfl⟩ | ⟨m, rfl, rfl⟩ | ⟨rfl, rfl⟩ | ⟨rfl, rfl⟩ | ⟨rfl, rfl⟩ := failed
  · rw [show takeScoutProbe k r (.heard m timing power) s = scoutBack k r .probeWeak (some m) s from if_neg (not_le.mpr below)]
    exact scoutBack_moved k r .probeWeak (some m) s state
  · exact scoutBack_moved k r .probeCrc (some m) s state
  · exact scoutBack_moved k r .probeSilent none s state
  · exact scoutBack_moved k r .probeTimeout none s state
  · exact scoutBack_moved k r .probeGarbled none s state

/-- A failed exchange below the ranging limit, not silent again, is counted (R36). -/
theorem range_counted {silent : Bool} (said : silent = o.isSilent)
    (once : ¬ (silent = true ∧ ({ remote := r, silent := true } : Ranger) ∈ (s.sector k).rangingOrder))
    (few : (s.entry k r).exchanges + 1 < (s.params k).rangingLimit) : failedExchange k r o s = s.setSector k
      { (s.sector k).setEntry r { s.entry k r with exchanges := (s.entry k r).exchanges + 1 } with
        rangingOrder := (s.sector k).rangingOrder.map fun m => if m.remote = r then { m with silent := silent } else m } := by
  subst said
  rw [failedExchange_eq, if_neg fun again => once (silentAgain_iff.mp again), if_neg (Nat.not_le.mpr few)]
  rfl

/-- Two silent exchanges in a row, or the ranging limit, are charged (R36). -/
theorem range_charged {silent : Bool} (said : silent = o.isSilent) (state : (s.entry k r).state = .ranging) {cause : StateCause}
    (failed : ((silent = true ∧ ({ remote := r, silent := true } : Ranger) ∈ (s.sector k).rangingOrder) ∧ cause = .rangeSilent) ∨
      (¬ (silent = true ∧ ({ remote := r, silent := true } : Ranger) ∈ (s.sector k).rangingOrder) ∧
        (s.params k).rangingLimit ≤ (s.entry k r).exchanges + 1 ∧ cause = .rangeLimit)) :
    Moved k r cause (s.sector k) ((s.entry k r).chargedAs (s.params k)) s (failedExchange k r o s) := by
  subst said
  rw [failedExchange_eq]
  obtain ⟨again, rfl⟩ | ⟨once, limit, rfl⟩ := failed
  · rw [if_pos (silentAgain_iff.mpr again)]
    exact charge_exchanged_moved k r o .rangeSilent s state
  · rw [if_neg fun again => once (silentAgain_iff.mp again), if_pos limit]
    exact charge_exchanged_moved k r o .rangeLimit s state

end

/-- Settles O53: one lemma for each outcome of each kind of expectation, and the marks of a step. -/
theorem chargeCountsAnAttempt : Obligations.ChargeCountsAnAttempt := by
  refine ⟨fun k r cause margin s a count state _ => charge_counts k r cause margin s a count state, fun k r o s => ?_,
    fun k r o s solo state => ?_, fun k r o s done silent state => ?_, fun k r o s here up state low high => ?_,
    fun k r info e s => ?_⟩
  · refine ⟨fun state heard => ?_, fun state missed few => ?_, fun state missed many => ?_, fun state mode heard => ?_,
      fun state stays => ?_⟩
    · exact (fadeWatch_serving state).trans (takeServing_heard heard)
    · rw [fadeWatch_serving state, takeServing_missed missed]
      exact if_neg (Nat.not_le.mpr few)
    · rw [fadeWatch_serving state, takeServing_missed missed, servingMiss, if_pos many]
      exact fadedAt_of_serving state
    · rw [fadeWatch_faded state]
      exact takeFaded_shadow state mode heard
    · exact (fadeWatch_faded state).trans (takeFaded_stays stays)
  · refine ⟨fun scout m timing power heard accepted => ?_, fun cause weak => normalProbe_faded solo state weak,
      fun cause failed => normalProbe_charged solo state failed, fun garbled shared => ?_,
      fun cause failed => scoutProbe_queued solo state failed⟩
    · subst heard
      obtain ⟨entry, logged, order, wait, others, plans⟩ := probeHeard_heardAt k r scout m s state
      simp only [probe_accepted solo scout state accepted]
      exact ⟨entry, logged, order, wait, plans, fun q other => others q other⟩
    · subst garbled shared
      show Moved k r .probeGarbled _ _ s (takeOutcome k r (.probe false false) .garbled s)
      rw [normalProbe false state]
      exact probeGarbled_moved k r s state
  · intro e p t again in_tolerance is_silent
    have ranged : t = takeRange k r o s := range_ranging state
    have said : silent = o.isSilent := Bool.eq_iff_iff.mpr (is_silent.trans isSilent_iff.symm)
    have failed (not_done : done = false) : t = failedExchange k r o s :=
      ranged.trans (takeRange_failed fun heard => Bool.noConfusion (not_done.symm.trans (in_tolerance.mpr heard)))
    have completed (is_done : done = true) : ∃ m, t = rangeDone k r m s := by
      obtain ⟨m, ranged_done⟩ := takeRange_done (in_tolerance.mp is_done)
      exact ⟨m, ranged.trans ranged_done⟩
    refine ⟨fun is_done below => ?_, fun is_done top => ?_, fun not_done once few => ?_, fun cause not_done charged => ?_⟩
    · obtain ⟨m, at_done⟩ := completed is_done
      exact at_done ▸ (rangeDone_moved k r m s state).1 below
    · obtain ⟨m, at_done⟩ := completed is_done
      exact at_done ▸ (rangeDone_moved k r m s state).2 top
    · exact (failed not_done).trans (range_counted said once few)
    · exact failed not_done ▸ range_charged said state charged
  · intro e p t
    have climbed : t = takeClimb k r o s := climbWatch_climbing state
    refine ⟨fun m timing power heard => ⟨fun good short => ?_, fun good held below => ?_, fun good held top => ?_,
      fun under weak room => ?_, fun under strong => ?_⟩, fun missed => ⟨fun few => ?_, fun many => ?_⟩⟩
    · subst heard
      rw [climbed, takeClimb_good high good, climbGood]
      exact if_neg (Nat.not_le.mpr short)
    · subst heard
      rw [climbed, takeClimb_good high good]
      exact climb_up m state held below
    · subst heard
      rw [climbed, takeClimb_good high good]
      exact climb_served m state held top
    · subst heard
      rw [climbed, takeClimb_low low high under weak]
      exact climb_down m state room
    · subst heard
      rw [climbed, takeClimb_holds low high under strong]
      rfl
    · exact (climbed.trans (climb_missed low high missed)).trans (climbMiss_counted few)
    · exact climbed.trans (climb_missed low high missed) ▸ climbMiss_fades state many
  · obtain ⟨kept, marked⟩ := remoteStep_marks_mirrors (k := k) (s := s) r info e
    refine ⟨fun changed => ?_, kept, fun g other => ?_, remoteStep_marks_counter r info e⟩
    · rw [marked changed, if_pos rfl]
    · by_cases same : ((remoteStep k r info e s).entry k r).shown = (s.entry k r).shown
      · simp only [kept same]
      · rw [marked same, if_neg other.symm]

end Sys2Proof.Machine
